-- ==== Sys2Proof/Word.lean ====
section
/-! DEFINITION. The word types of the manual (R2, R7, R30) and the sorted association list that holds
everything sparse: memory bytes, registers, per-instance state. -/

namespace Sys2Proof

/-- A byte of memory. -/
abbrev W8 := BitVec 8
/-- A lane of a vector register, a predicate, an instruction word. -/
abbrev W32 := BitVec 32
/-- A scalar register, an address, the program counter. -/
abbrev W64 := BitVec 64
/-- An instruction of up to 128 bits, bit 0 the lowest bit of its first word (R203). -/
abbrev W128 := BitVec 128
/-- A cause code (R183). -/
abbrev Cause := BitVec 6

/-- A finite map from numbers: keys strictly rising. -/
abbrev SMap (α : Type) := List (Nat × α)

/-- The keys rise strictly: the one canonical form of a map. -/
def SMap.wf {α : Type} : SMap α → Bool
  | [] => true
  | [_] => true
  | (k, _) :: (k', v') :: m => decide (k < k') && SMap.wf ((k', v') :: m)

/-- The entry at a key. -/
def SMap.find {α : Type} (k : Nat) : SMap α → Option α
  | [] => none
  | (k', v) :: m => if k' = k then some v else SMap.find k m

/-- The entry at a key, or a default. -/
def SMap.get {α : Type} (k : Nat) (d : α) (m : SMap α) : α := (SMap.find k m).getD d

/-- Sets the entry at a key, keeping the keys rising. -/
def SMap.put {α : Type} (k : Nat) (v : α) : SMap α → SMap α
  | [] => [(k, v)]
  | (k', v') :: m =>
    if k < k' then (k, v) :: (k', v') :: m
    else if k = k' then (k, v) :: m
    else (k', v') :: SMap.put k v m

/-- Drops the entry at a key. -/
def SMap.del {α : Type} (k : Nat) : SMap α → SMap α
  | [] => []
  | (k', v) :: m => if k' = k then m else (k', v) :: SMap.del k m

end Sys2Proof
end

