-- ==== Sys2Proof/Syntax.lean ====
section
/-! DEFINITION. The steps of the part: one constructor of Instr for each row of the opcode table. An
instruction form carries the fields of its word (R205, R212); an event carries what singles it out. -/

namespace Sys2Proof

/-- The length of an instruction (R203). -/
inductive Len where
  | f64 | f96 | f128
  deriving DecidableEq, Repr

/-- TYPE (R211); the last three codes are not assigned. -/
inductive Ty where
  | f32 | f16 | bf16 | f64 | i32 | n32 | i16 | n16 | i8 | n8 | b32 | i64 | n64 | r13 | r14 | r15
  deriving DecidableEq, Repr

/-- The fields of an instruction word, named as in R205 and R212. -/
structure Fields where
  len  : Len
  pen  : Bool
  pneg : Bool
  pred : BitVec 4
  dst  : BitVec 8
  sa   : BitVec 8
  sb   : BitVec 8
  sc   : BitVec 8
  feb  : BitVec 3
  ru   : BitVec 3
  fs   : BitVec 3
  sub  : BitVec 3
  ty   : Ty
  imm  : BitVec 32
  sd   : BitVec 8
  dst2 : BitVec 8
  ext  : BitVec 16
  deriving DecidableEq, Repr

/-- A firmware image, and what it shows the boot ROM (R359). -/
structure Firmware where
  image   : List W8
  sigOk   : Bool
  version : Nat
  raises  : Bool
  deriving DecidableEq, Repr

/-- The completion a host fabric returns (R177, R178). -/
inductive HostStatus where
  | success | unsupported | abort | timeout
  deriving DecidableEq, Repr

/-- A causeway datagram (R70): its header fields, its body, and what it was sealed with (R72): the key and
the nonce word N. `frm` is the peer-table index it came from and `ctx` the context its port and address
select; `plain` is false when it carries extension headers or is a fragment (R68). -/
structure Datagram where
  ctx     : Nat
  frm     : Nat
  plain   : Bool
  version : Nat
  type    : Nat
  rel     : Bool
  last    : Bool
  copy    : Nat
  abort   : Bool
  zero    : Bool
  graph   : BitVec 32
  edge    : Nat
  size    : Nat
  count   : Nat
  frame   : BitVec 32
  first   : BitVec 32
  seq     : Nat
  aux     : BitVec 32
  body    : List W8
  key     : BitVec 256
  nonce   : BitVec 32
  deriving DecidableEq, Repr

/-- Measurements of one control interval (R351, R353), taken from the board: watts drawn by the module, and for clusters the junction
temperature and the milliwatts drawn. -/
structure Measure where
  watts : Nat
  tj    : List (Nat × Nat)
  power : List (Nat × Nat)
  deriving DecidableEq, Repr

/-- The steps of the part, one for each row of the opcode table. -/
inductive Instr where
  /-- R236: Scalar add of sA and sB or a sign-extended immediate at width W. -/
  | sadd (f : Fields)
  /-- R236: Scalar subtract of sB or an immediate from sA. -/
  | ssub (f : Fields)
  /-- R236: Scalar multiply keeping the low W bits. -/
  | smul (f : Fields)
  /-- R236: Scalar multiply keeping the high W bits of the exact product. -/
  | smulh (f : Fields)
  /-- R236: Scalar divide truncating towards zero, with fixed results for a zero divisor and for overflow. -/
  | sdiv (f : Fields)
  /-- R236: Scalar remainder with the sign of the dividend. -/
  | srem (f : Fields)
  /-- R236: Scalar bitwise AND. -/
  | sand (f : Fields)
  /-- R236: Scalar bitwise OR. -/
  | sor (f : Fields)
  /-- R236: Scalar bitwise XOR. -/
  | sxor (f : Fields)
  /-- R236: Scalar shift left, giving 0 for shift counts of W or more. -/
  | sshl (f : Fields)
  /-- R236: Scalar logical shift right. -/
  | sshr (f : Fields)
  /-- R236: Scalar arithmetic shift right. -/
  | ssra (f : Fields)
  /-- R236: Scalar minimum, signed or unsigned by type. -/
  | smin (f : Fields)
  /-- R236: Scalar maximum, signed or unsigned by type. -/
  | smax (f : Fields)
  /-- R237: Scalar compare that sets sD to 1 or 0 under the condition in SUB. -/
  | scmp (f : Fields)
  /-- R238: Selects sA or sB according to whether sC is non-zero. -/
  | ssel (f : Fields)
  /-- R238: Copies sA to sD. -/
  | smov (f : Fields)
  /-- R238: Loads a sign-extended 32-bit immediate into sD. -/
  | sli (f : Fields)
  /-- R238: Writes the immediate to the upper 32 bits of sD and keeps the lower 32 bits. -/
  | sliHi (f : Fields)
  /-- R238: Counts the leading zeros of sA within W bits. -/
  | sclz (f : Fields)
  /-- R238: Counts the 1 bits of sA. -/
  | spopc (f : Fields)
  /-- R239: Extracts a bit field from sA. -/
  | sbfx (f : Fields)
  /-- R239: Inserts a bit field of sA into sC. -/
  | sbfi (f : Fields)
  /-- R240: Reads a pool buffer record and writes its BASE plus a displacement to sD. -/
  | saddr (f : Fields)
  /-- R241: Unconditional relative branch. -/
  | bra (f : Fields)
  /-- R241: Branch taken when sA is zero. -/
  | bz (f : Fields)
  /-- R241: Branch taken when sA is not zero. -/
  | bnz (f : Fields)
  /-- R241: Branch taken when exec is zero. -/
  | bexz (f : Fields)
  /-- R241: Pushes the return address onto the return stack and branches. -/
  | call (f : Fields)
  /-- R242: Jumps to the address held in sA. -/
  | jmp (f : Fields)
  /-- R242: Pushes PC + 8 onto the return stack, then jumps to sA. -/
  | jmpLink (f : Fields)
  /-- R242: Pops the return stack and continues at the popped address. -/
  | ret (f : Fields)
  /-- R244: Sets exec to exec AND sA. -/
  | mand (f : Fields)
  /-- R244: Sets exec to sA[31:0]. -/
  | mset (f : Fields)
  /-- R244: Writes exec, zero-extended, to sD. -/
  | mget (f : Fields)
  /-- R244: Sets exec to exec AND NOT sA. -/
  | mandn (f : Fields)
  /-- R245: Moves a whole predicate into a scalar register. -/
  | pmovToScalar (f : Fields)
  /-- R245: Moves sA[31:0] into a whole predicate. -/
  | pmovToPredicate (f : Fields)
  /-- R246: Lane-wise predicate logic on the active lanes. -/
  | plog (f : Fields)
  /-- R247: Does nothing. -/
  | nop (f : Fields)
  /-- R248: Ends the warp; as the last warp of the workgroup it also closes the open outgoing edges. -/
  | endW (f : Fields)
  /-- R249: Sets the warp's age to 0 and exchanges it when a ready pending warp exists. -/
  | yield (f : Fields)
  /-- R250: Makes the warp not ready for n cycles. -/
  | pause (f : Fields)
  /-- R250: The pause count expires and the warp becomes ready again. -/
  | pauseEnd (wg w : Nat)
  /-- R251: Writes the core's cycle counter to sD. -/
  | cyc (f : Fields)
  /-- R252: Raises the cause that IMM32 selects. -/
  | trapI (f : Fields)
  /-- R252: Raises cause 0x00. -/
  | brk (f : Fields)
  /-- R191: Checks the replay entries, restores exec, clears TM and IH, then re-issues the replay queue. -/
  | rte (f : Fields)
  /-- R254: Reads one word of a replay entry. -/
  | rqrd (f : Fields)
  /-- R254: Writes one word of a replay entry. -/
  | rqwr (f : Fields)
  /-- R191: Removes a replay entry and fills its destinations with their prior contents. -/
  | rqdrop (f : Fields)
  /-- R261: Reads a CSR into sD, subject to the privilege rules. -/
  | csrr (f : Fields)
  /-- R261: Writes a CSR that has no row of its own and waits until the write is performed. -/
  | csrw (f : Fields)
  /-- R255: Waits until sA is full, then acquires at WG. -/
  | hwait (f : Fields)
  /-- R256: Reads a handle without waiting; when the handle is full, bit 22 is set as DONE. -/
  | htest (f : Fields)
  /-- R257: Cancels the operation named by a handle when that is still possible. -/
  | hcancel (f : Fields)
  /-- R258: Binds a further scalar register to a handle slot. -/
  | hbind (f : Fields)
  /-- R259: Writes the identity value that the selector chooses: lane, warp, workgroup, stage, frame, queue, core and so on. -/
  | getid (f : Fields)
  /-- R260: Sets the warp's base priority, clamped to the launch's base priority. -/
  | sprio (f : Fields)
  /-- R269: Lane-wise add. -/
  | vadd (f : Fields)
  /-- R269: Lane-wise subtract. -/
  | vsub (f : Fields)
  /-- R269: Lane-wise multiply. -/
  | vmul (f : Fields)
  /-- R269: Lane-wise fused multiply-add. -/
  | vfma (f : Fields)
  /-- R270: Lane-wise minimum. -/
  | vmin (f : Fields)
  /-- R270: Lane-wise maximum. -/
  | vmax (f : Fields)
  /-- R271: Lane-wise absolute value. -/
  | vabs (f : Fields)
  /-- R271: Lane-wise negation. -/
  | vneg (f : Fields)
  /-- R273: Lane-wise bitwise AND. -/
  | vand (f : Fields)
  /-- R273: Lane-wise bitwise OR. -/
  | vor (f : Fields)
  /-- R273: Lane-wise bitwise XOR. -/
  | vxor (f : Fields)
  /-- R271: Lane-wise bitwise NOT. -/
  | vnot (f : Fields)
  /-- R273: Lane-wise shift left. -/
  | vshl (f : Fields)
  /-- R273: Lane-wise logical shift right. -/
  | vshr (f : Fields)
  /-- R273: Lane-wise arithmetic shift right. -/
  | vsra (f : Fields)
  /-- R274: Lane-wise compare that writes a predicate. -/
  | vcmp (f : Fields)
  /-- R275: Lane-wise select by a predicate. -/
  | vsel (f : Fields)
  /-- R275: Lane-wise move of a register or an immediate. -/
  | vmov (f : Fields)
  /-- R275: Broadcasts a scalar register to every active lane. -/
  | vbcast (f : Fields)
  /-- R276: Lane-wise conversion between types. -/
  | vcvt (f : Fields)
  /-- R272: Lane-wise reciprocal. -/
  | vrcp (f : Fields)
  /-- R272: Lane-wise reciprocal square root. -/
  | vrsq (f : Fields)
  /-- R272: Lane-wise square root. -/
  | vsqrt (f : Fields)
  /-- R272: Lane-wise 2 to the power a. -/
  | vexp2 (f : Fields)
  /-- R272: Lane-wise base-2 logarithm. -/
  | vlog2 (f : Fields)
  /-- R272: Lane-wise sin(πa). -/
  | vsinpi (f : Fields)
  /-- R272: Lane-wise cos(πa). -/
  | vcospi (f : Fields)
  /-- R269: Lane-wise divide. -/
  | vdiv (f : Fields)
  /-- R271: Lane-wise count of leading zeros. -/
  | vclz (f : Fields)
  /-- R271: Lane-wise count of 1 bits. -/
  | vpopc (f : Fields)
  /-- R273: Lane-wise bit-field extract. -/
  | vbfx (f : Fields)
  /-- R273: Lane-wise bit-field insert. -/
  | vbfi (f : Fields)
  /-- R278: Gathers values across lanes by index, up, down or butterfly. -/
  | vshfl (f : Fields)
  /-- R279: Writes the ballot of the predicate over the active lanes to sD. -/
  | vvoteBallot (f : Fields)
  /-- R279: Writes 1 when any active lane's predicate bit is set. -/
  | vvoteAny (f : Fields)
  /-- R279: Writes 1 when every active lane's predicate bit is set. -/
  | vvoteAll (f : Fields)
  /-- R279: Reduces the active lanes into a scalar, in ascending lane order. -/
  | vred (f : Fields)
  /-- R269: Lane-wise four-element byte dot product with accumulate. -/
  | vdot4 (f : Fields)
  /-- R269: Lane-wise high half of the exact product. -/
  | vmulhi (f : Fields)
  /-- R277: Converts FP32 into one element of a format slot's layout. -/
  | vpack (f : Fields)
  /-- R277: Converts one element of a format slot's layout into FP32. -/
  | vunpack (f : Fields)
  /-- R283: Vector load, optionally scoped or acquiring. -/
  | ld (f : Fields)
  /-- R283: Vector store, optionally scoped or releasing. -/
  | st (f : Fields)
  /-- R284: Scalar load. -/
  | lds (f : Fields)
  /-- R284: Scalar store. -/
  | sts (f : Fields)
  /-- R285: Load from the workgroup's local memory. -/
  | ldl (f : Fields)
  /-- R285: Store to the workgroup's local memory. -/
  | stl (f : Fields)
  /-- R283: Loads 16 bytes per lane into a quad of registers. -/
  | ldp (f : Fields)
  /-- R283: Stores 16 bytes per lane from a quad of registers. -/
  | stp (f : Fields)
  /-- R288: Per-lane atomic read-modify-write, with a handle. -/
  | atom (f : Fields)
  /-- R287: Scalar atomic read-modify-write. -/
  | atoms (f : Fields)
  /-- R129: Acquire fence at a scope. -/
  | fenceAcq (f : Fields)
  /-- R129: Release fence at a scope. -/
  | fenceRel (f : Fields)
  /-- R129: Release then acquire fence, as one operation. -/
  | fenceAr (f : Fields)
  /-- R292: Starts an asynchronous copy-engine transfer and returns a handle. -/
  | copy (f : Fields)
  /-- R138: Closes the pending copies into a numbered batch. -/
  | cbatch (f : Fields)
  /-- R139: Waits until every batch up to n has completed, then acquires. -/
  | cwait (f : Fields)
  /-- R291: Prefetch that may place copy entries. -/
  | pref (f : Fields)
  /-- R129: Drains and discards entries of a range below a scope. -/
  | cflush (f : Fields)
  /-- R295: Arrives at the workgroup barrier and waits for it to open. -/
  | bar (f : Fields)
  /-- R141: Adds n to the EXP of a stage barrier. -/
  | sbarExpect (f : Fields)
  /-- R141: Arrives at a stage barrier and waits for it to open. -/
  | sbarArr (f : Fields)
  /-- R141: Clears a stage barrier; the waiting warps raise 0x17. -/
  | sbarReset (f : Fields)
  /-- R297: Queries a residency map for a region and level. -/
  | resq (f : Fields)
  /-- R167: Releases at DEV, then waits for the earlier residency lookups to finish. -/
  | resfence (f : Fields)
  /-- R302: Writes width, rows and columns to a shape register. -/
  | tshape (f : Fields)
  /-- R302: Writes the scale offset of a shape register. -/
  | tshapeSoff (f : Fields)
  /-- R303: Transfers memory into a tile. -/
  | tld (f : Fields)
  /-- R303: Transfers a tile to memory. -/
  | tst (f : Fields)
  /-- R305: Zeroes a tile. -/
  | tzero (f : Fields)
  /-- R307: Converts a tile between the formats of two slots. -/
  | tcvt (f : Fields)
  /-- R309: Matrix multiply-accumulate: checks, handle, roll call, hall pass and array queue. -/
  | mma (f : Fields)
  /-- R313: Operand-ready fence that makes earlier tile and local writes visible to the array. -/
  | oprdy (f : Fields)
  /-- R305: Zeroes an accumulator. -/
  | azero (f : Fields)
  /-- R303: Transfers memory into an accumulator. -/
  | ald (f : Fields)
  /-- R303: Transfers an accumulator to memory. -/
  | ast (f : Fields)
  /-- R314: Returns a handle that fills once the earlier mma operations on an accumulator are done. -/
  | adrain (f : Fields)
  /-- R316: Shaped quantising store of an accumulator region. -/
  | qst (f : Fields)
  /-- R303: Loads a residue register from memory. -/
  | cyld (f : Fields)
  /-- R303: Stores a residue register to memory. -/
  | cyst (f : Fields)
  /-- R305: Zeroes a residue register. -/
  | cyzero (f : Fields)
  /-- R318: Requests the core's hall pass for the warp's queue. -/
  | mlease (f : Fields)
  /-- R317: Sets the warp's gang MEMBERS. -/
  | gang (f : Fields)
  /-- R305: Copies a tile and its shape. -/
  | tmov (f : Fields)
  /-- R306: Transposes a tile. -/
  | ttrans (f : Fields)
  /-- R53: Writes one record per active lane to an outgoing edge. -/
  | emit (f : Fields)
  /-- R54: Closes the workgroup's current frame on an outgoing edge. -/
  | eclose (f : Fields)
  /-- R57: Places records and their status words in local memory and writes the count. -/
  | recv (f : Fields)
  /-- R58: Frees the ring slots that the workgroup holds. -/
  | rrel (f : Fields)
  /-- R321: Appends a launch record to a queue of the context. -/
  | launch (f : Fields)
  /-- R322: Decrements a dependence counter as a token. -/
  | depdec (f : Fields)
  /-- R85: Requests a cut move that takes effect at frame F. -/
  | gcut (f : Fields)
  /-- R324: Reads the live cut vector and placement. -/
  | gstatCut (f : Fields)
  /-- R324: Reads the frame from which the live cut applies. -/
  | gstatFrom (f : Fields)
  /-- R324: Reads the current frame of the graph. -/
  | gstatCur (f : Fields)
  /-- R324: Reads the MOVING bits of the stages. -/
  | gstatMoving (f : Fields)
  /-- R325: Texture lookup with residency fallback and feedback. -/
  | sample (f : Fields)
  /-- R326: Texture lookup that takes its level from gradients. -/
  | sgrad (f : Fields)
  /-- R328: Gathers one channel of four texels. -/
  | gath4 (f : Fields)
  /-- R330: Tests a ray against the two child boxes of a BVH node. -/
  | raybox (f : Fields)
  /-- R331: Watertight ray-triangle test. -/
  | raytri (f : Fields)
  /-- R332: Transforms a ray by a 3 × 4 matrix. -/
  | rayxf (f : Fields)
  /-- R336: Reads interpolated attributes or pixel state from the rasteriser. -/
  | interp (f : Fields)
  /-- R333: Writes a vertex slot to the mesh output area. -/
  | meshv (f : Fields)
  /-- R333: Writes a primitive to the mesh output area. -/
  | meshp (f : Fields)
  /-- R333: Sets the mesh vertex count. -/
  | meshnV (f : Fields)
  /-- R333: Sets the mesh primitive count. -/
  | meshnP (f : Fields)
  /-- R337: Waits for the lower-ranked pixel tickets, then holds the ordered section. -/
  | ordb (f : Fields)
  /-- R337: Drains the warp's RT entries, then releases its tickets. -/
  | orde (f : Fields)
  /-- R338: Writes pixels to a render target through RT entries. -/
  | rtwr (f : Fields)
  /-- R338: Reads pixels from a render target. -/
  | rtrd (f : Fields)
  /-- R337: Releases the active lanes' tickets and marks those lanes killed. -/
  | kill (f : Fields)
  /-- R334: Sets the warp's coarse shading rate. -/
  | rate (f : Fields)
  /-- R5: Module reset zeroes the counters and puts every CSR at its reset value. -/
  | moduleReset (fw : Firmware)
  /-- R169: Creates a context and generates its 16 keys. -/
  | contextCreate (tag group : Nat)
  /-- R27: A long-latency producer completes and fills its destinations. -/
  | longLatencyFill (wg w op : Nat)
  /-- R30: An engine completes a handle slot and fills every bound register. -/
  | handleComplete (core slot : Nat)
  /-- R33: At every 64th cycle, the warps in poll state are re-examined. -/
  | pollReexamine (sub : Nat)
  /-- R21: At every 64th cycle, the best ready pending warp replaces the worst active warp if it ranks above it. -/
  | exchangePeriodic (sub : Nat)
  /-- R21: A ready pending warp moves into an active set that has room. -/
  | activeSetFill (sub : Nat)
  /-- R21: A 4-cycle exchange or move completes. -/
  | exchangeComplete (sub : Nat)
  /-- R20: The scheduler issues from the best ready active warp in a cycle. -/
  | warpIssue (sub : Nat)
  /-- R17: The distributor places the next workgroup of a launch on a core that can supply it. -/
  | workgroupStart (die : Nat)
  /-- R15: A workgroup ends once its warps have ended and its async operations are done; its resources and ring slots are freed. -/
  | workgroupEnd (wg : Nat)
  /-- R59: The distributor admits the next launch record of a queue, or sets it aside on the wait list. -/
  | launchAdmit (ctx q : Nat)
  /-- R61: A record waiting in the core's launch buffer is appended once its queue has room. -/
  | launchBufferAppend (core : Nat)
  /-- R363: A record whose counter could not be read is tested again every 2^20 cycles. -/
  | waitRecordRetest (die pos : Nat)
  /-- R64: A host write to DOOR admits records up to W or is refused. -/
  | notifyDoorbellWrite (ctx q : Nat) (w : BitVec 32)
  /-- R64: A host read of DOOR returns RIDX. -/
  | notifyDoorbellRead (ctx q : Nat)
  /-- R56: The distributor starts a consumer workgroup for k records of a frame, or for the remainder at the frame close. -/
  | consumerLaunch (ctx graph edge : Nat) (frame : BitVec 32)
  /-- R37: roll_call_tmo expires; the waiting warps raise 0x12 and the latch is freed. -/
  | rollCallTimeout (core latch : Nat)
  /-- R41: The pass is freed after 1,024 cycles with no waiting mma. -/
  | hallPassIdleRelease (core : Nat)
  /-- R309: Once roll call, hall pass and array queue are all satisfied, the array operation issues once. -/
  | mmaArrayIssue (core op : Nat)
  /-- R310: The array operation completes, fills the handles and decrements the counter with .dep. -/
  | mmaRetire (core op : Nat) (mismatch : Bool)
  /-- R42: D cycles after the previous wave, the next 4 warps are released. -/
  | barrierReleaseWave (wg bar : Nat)
  /-- R143: sbar_tmo expires; the barrier is BROKEN and the waiting warps raise 0x17. -/
  | sbarTimeout (wg bar : Nat)
  /-- R133: An engine performs one unit access of a queued operation; bit k of `copies` says whether a load leaves a
  copy entry in the k-th buffer of its path (R124). -/
  | engineAccess (core op unit copies : Nat)
  /-- R133: An engine operation completes once all its accesses are performed. -/
  | engineOpComplete (core op : Nat)
  /-- R121: An operation in a warp's issue queue is performed once its conditions hold, one unit at a time (R117);
  bit k of `copies` says whether a load leaves a copy entry in the k-th buffer of its path (R124). -/
  | iqPerform (wg w op unit copies : Nat)
  /-- R123: A store entry moves up one level of its path. -/
  | storeDrain (buf pos : Nat)
  /-- R124: A copy entry is discarded from a buffer. -/
  | copyEntryDiscard (buf pos : Nat)
  /-- R135: An RT entry drains into V. -/
  | rtDrain (die pos : Nat)
  /-- R154: A walk waiting on MIG re-reads its entry after 256 cycles. -/
  | migRetry (wg w : Nat)
  /-- R156: A write to tlb_inv drops cached translations after a release at DEV. -/
  | tlbInv (f : Fields)
  /-- R175: A write to host_irq releases at SYS and sends an MSI-X message. -/
  | hostIrq (f : Fields)
  /-- R166: A write to fb_ctl also clears the feedback filters. -/
  | fbCtlWrite (f : Fields)
  /-- R161: A read of sweep_pop takes the oldest ready frame. -/
  | sweepPop (f : Fields)
  /-- R162: The sweeper examines the frame-table entry at HAND and advances HAND. -/
  | sweeperStep (die : Nat)
  /-- R194: tslice expires while a workgroup of another context waits; pre-emption is requested. -/
  | preemptRequestTimeslice (wg : Nat)
  /-- R194: Privileged host software requests the pre-emption of a workgroup. -/
  | preemptRequestHost (wg : Nat)
  /-- R194: A pending request outlasts preempt_grace and host event kind 2 is posted. -/
  | preemptGraceExpiry (wg : Nat)
  /-- R196: A pre-emptible workgroup is saved to its save record. -/
  | eviction (wg : Nat)
  /-- R196: A saved workgroup is restored on its own core and acquires at DEV. -/
  | restore (wg : Nat) (damaged : Bool)
  /-- R199: A context is removed: its workgroups are discarded, the engines reset in order and its keys destroyed. -/
  | contextRemoval (ctx : Nat)
  /-- R199: The host removes a context on request or after a grace report. -/
  | hostRemoveContext (ctx : Nat) (grace : Bool)
  /-- R76: The encoder seals and sends a RECORDS datagram, followed by three CLOSE datagrams after a frame. -/
  | encoderSend (ctx graph edge : Nat)
  /-- R76: FLUSH cycles pass since a datagram's first record and the datagram is sent. -/
  | encoderFlushTimeout (ctx graph edge : Nat)
  /-- R79: The decoder handles an authenticated RECORDS or CLOSE datagram. -/
  | causewayDatagramReceive (d : Datagram)
  /-- R79: WINDOW expires on the oldest open frame, which closes and counts TMOCLOSE. -/
  | windowTimeout (ctx graph edge : Nat)
  /-- R81: A record waiting in the overflow queue enters the consumer ring once a slot is free. -/
  | overflowToRing (ctx graph edge : Nat)
  /-- R74: A reliable-class datagram is received, delivered in order, and may draw an ACK or NACK. -/
  | reliableDatagramReceive (d : Datagram)
  /-- R74: An ACK is sent within 10,000 cycles of an unacknowledged datagram. -/
  | ackDelayTimeout (ctx peer : Nat)
  /-- R74: rto expires; the oldest unacknowledged datagram is resent and the timer doubles. -/
  | retransmitTimeout (ctx peer : Nat)
  /-- R74: The receiver's wait outlasts rel_retry × rto_max and the stream is declared unreachable. -/
  | receiverUnreachableTimeout (ctx peer : Nat)
  /-- R87: After frame F − 1 closes, the old side reads the state region and sends it as a satchel. -/
  | satchelSnapshot (ctx graph stage : Nat)
  /-- R87: The deadline D expires and the stage cold-starts. -/
  | satchelDeadlineExpiry (ctx graph stage : Nat)
  /-- R171: A host access through the memory window acts at V under mwin_key. -/
  | bar2MemoryAccess (off len : Nat) (write : Option (List W8))
  /-- R172: The host writes mwin_key, which governs the later memory-window requests. -/
  | mwinKeyWrite (v : W64)
  /-- R174: A host read of host_evt pops one event from the FIFO. -/
  | hostEvt
  /-- R177: An AtomicOp completion arrives; fallback or fault is decided. -/
  | hostAtomicCompletion (wg w op unit : Nat) (st : HostStatus)
  /-- R178: A host read completes, or fails with 0x10. -/
  | hostReadCompletion (wg w op unit : Nat) (st : HostStatus)
  /-- R264: A host write to a CSR through the management region. -/
  | hostCsrWrite (off : Nat) (v : W64)
  /-- R351: Every 1 µs, each cluster's target level, throttles and boost are set. -/
  | controlInterval (m : Measure)
  /-- R352: The rail reaches its new voltage and the frequency rises. -/
  | railRampReached (cluster : Nat)
  /-- R354: The rail current is sampled every 250 ns. -/
  | currentSample (cluster : Nat) (code : BitVec 12)
  /-- R355: Each hour the wear monitors update MONTHS. -/
  | wearUpdate (cluster : Nat) (months : BitVec 12)
  /-- R361: A write of 1 to GO starts an attestation report. -/
  | attestGo (v : W64)
  /-- R360: The signed report is complete, the signature index is advanced and BUSY clears. -/
  | attestReportDone
  /-- R178: A posted write to a host page fails on the host link, and host event kind 4 is posted without any report to the warp or handle. -/
  | hostLinkError (ctx : Nat)
  /-- R173: A host write of 0 to a notify page's REJECTS field clears the rejection count, and a non-zero write leaves it unchanged. -/
  | rejectsWrite (ctx q : Nat) (v : BitVec 32)
  /-- R170: A host configuration write to Device Control 2 sets the completion-timeout range and AtomicOp Requester Enable, which decide later host reads and the fallback of host atomics. -/
  | deviceControl2Write (v : BitVec 16)
  /-- R175: Unmasking an MSI-X vector whose pending bit is set sends the held message, as MSI-X masking and pending bits require. -/
  | msixVectorUnmask (vec : Nat)
  deriving DecidableEq, Repr

end Sys2Proof
end

