-- ==== Sys2Proof/Machine/Format.lean ====
section
/-! DEFINITION. The instruction formats and the opcode map (R203 to R222): which register file each field of
an opcode names, which lengths, types, SUB, FS and EXT16 values it takes, and the decode checks of R215
steps 2 to 4, in their order. -/

namespace Sys2Proof

/-- Element width of a type in bits (R211). -/
def Ty.width : Ty → Nat
  | .f32 => 32 | .f16 => 16 | .bf16 => 16 | .f64 => 64 | .i32 => 32 | .n32 => 32 | .i16 => 16 | .n16 => 16
  | .i8 => 8 | .n8 => 8 | .b32 => 32 | .i64 => 64 | .n64 => 64 | .r13 => 32 | .r14 => 32 | .r15 => 32

/-- The bytes of a memory access of a type (R281). -/
def Ty.bytes (t : Ty) : Nat := t.width / 8

/-- The floating-point types. -/
def Ty.isFloat : Ty → Bool
  | .f32 => true | .f16 => true | .bf16 => true | .f64 => true | _ => false

/-- The signed integer types. -/
def Ty.isSigned : Ty → Bool
  | .i32 => true | .i16 => true | .i8 => true | .i64 => true | _ => false

/-- The types whose vector operands are even/odd pairs (R207, R267). -/
def Ty.isPair : Ty → Bool
  | .f64 => true | .i64 => true | .n64 => true | _ => false

/-- The type that a TYPE code names (R211). -/
def Ty.ofCode (c : Nat) : Ty :=
  match c with
  | 0 => .f32 | 1 => .f16 | 2 => .bf16 | 3 => .f64 | 4 => .i32 | 5 => .n32 | 6 => .i16 | 7 => .n16
  | 8 => .i8 | 9 => .n8 | 10 => .b32 | 11 => .i64 | 12 => .n64 | 13 => .r13 | 14 => .r14 | _ => .r15

/-- The TYPE code of a type (R211). -/
def Ty.code : Ty → Nat
  | .f32 => 0 | .f16 => 1 | .bf16 => 2 | .f64 => 3 | .i32 => 4 | .n32 => 5 | .i16 => 6 | .n16 => 7
  | .i8 => 8 | .n8 => 9 | .b32 => 10 | .i64 => 11 | .n64 => 12 | .r13 => 13 | .r14 => 14 | .r15 => 15

end Sys2Proof

namespace Sys2Proof.Machine

/-- The guard classes (R206). -/
inductive Guard where
  | L | U | I
  deriving DecidableEq, Repr

/-- What an index field names (R207). `v` is a pair when the instruction's type is 64 bits wide; `vs` takes
its width from SC (`vcvt`); `off` is a 32-bit vector offset, never a pair; `vg n` is a group of n consecutive
registers (R319); `grp` is one whose number the edge gives; `quad` is a group of four at a multiple of four (R283); `code` is no register. -/
inductive Use where
  | no | s | v | vs | off | p | t | tsh | a | cy | sbar | quad | code
  | vg (n : Nat)
  | grp
  deriving DecidableEq, Repr

/-- What IMM32 means (R212, R213): `no` must be 0, `sb` replaces source B in the 96-bit form, `csr` is a CSR number,
`sel` is the selector of `getid`. -/
inductive ImmUse where
  | no | sb | used | csr | sel
  deriving DecidableEq, Repr

/-- How FS is read (R209). -/
inductive FsUse where
  | zero | slot
  | scope (allowed : List Nat)
  deriving DecidableEq, Repr

/-- One line of the opcode map together with its description's field table. -/
structure Row where
  opc   : BitVec 8
  lens  : List Len
  guard : Guard := .U
  dst   : Use := .no
  sa    : Use := .no
  sb    : Use := .no
  sc    : Use := .no
  sd    : Use := .no
  dst2  : Use := .no
  imm   : ImmUse := .no
  types : List Ty := [.f32]
  subs  : List Nat := [0]
  fs    : FsUse := .zero
  ext   : Nat := 0
  extra : Bool := true
  deriving DecidableEq, Repr

/-- The scalar integer types of R235. -/
def intB : List Ty := [.i32, .n32, .b32, .i64, .n64]
/-- The scalar integer types with an order. -/
def intW : List Ty := [.i32, .n32, .i64, .n64]
/-- The vector float types (R269). -/
def floats : List Ty := [.f32, .f16, .bf16, .f64]
/-- The vector integer types that `.sat` applies to (R269). -/
def ints : List Ty := [.i32, .n32, .i16, .n16, .i8, .n8]
/-- The 64-bit vector integer types. -/
def ints64 : List Ty := [.i64, .n64]
/-- The types of `vcvt` (R276). -/
def cvtTypes : List Ty := [.f32, .f16, .bf16, .f64, .i32, .n32, .i64, .n64]
/-- The types of a memory access (R281). -/
def memTypes : List Ty := [.f32, .f64, .i32, .n32, .i16, .n16, .i8, .n8, .b32, .i64, .n64]
/-- The rounding codes (R93). -/
def rms : List Nat := [0, 1, 2, 3, 4]
/-- Any SUB. -/
def anySub : List Nat := [0, 1, 2, 3, 4, 5, 6, 7]
/-- SUB of an arithmetic instruction without `.sat` (R268). -/
def rmSubs (t : Ty) : List Nat := if t.isFloat then rms else [0]
/-- SUB of an arithmetic instruction with `.sat` (R268, R269). -/
def addSubs (t : Ty) : List Nat := if t.isFloat then rms else if t.isPair then [0] else [0, 1]
/-- SUB of a comparison (R210). -/
def condSubs (t : Ty) : List Nat := if t.isFloat then anySub else if t = Ty.b32 then [0, 1] else [0, 1, 2, 3, 4, 5]
/-- SB of a scalar form whose 96-bit form takes IMM32 (R213). -/
def sbS (f : Fields) : Use := if f.len = .f96 then .code else .s
/-- SB of a vector form whose 96-bit form takes IMM32 (R213). -/
def sbV (f : Fields) : Use := if f.len = .f96 then .code else .v
/-- SB of an address form (R210, R220). -/
def voffV (f : Fields) : Use := if f.sub.getLsbD 2 then .off else .no
/-- The scopes of a load (R125). -/
def loadScopes (f : Fields) : List Nat := if f.sub.getLsbD 0 then [1, 2, 3, 4, 5, 6] else [0, 1, 2, 3, 4, 5]
/-- The scopes of a store (R125). -/
def storeScopes (f : Fields) : List Nat := if f.sub.getLsbD 0 then [1, 2, 3, 4, 5] else [0, 1, 2, 3, 4, 5]
/-- The scopes of an atomic (R125): WG.remote only with acquire. -/
def atomScopes (f : Fields) : List Nat := if f.ext.getLsbD 0 then [0, 1, 2, 3, 4, 5, 6] else [0, 1, 2, 3, 4, 5]
/-- The types of an atomic by its operation (R288). -/
def atomTypes (f : Fields) : List Ty :=
  match f.sub.toNat with
  | 0 => [.i32, .n32, .i64, .n64, .f32]
  | 1 => [.b32, .i32, .n32, .i64, .n64]
  | 2 => [.b32, .i32, .n32, .i64, .n64]
  | 3 => [.i32, .n32, .i64, .n64, .f32]
  | 4 => [.i32, .n32, .i64, .n64, .f32]
  | _ => [.b32, .n32, .n64]
/-- SC of `vcvt` names a source type, and equal integer types are refused (R276). -/
def cvtOk (f : Fields) : Bool :=
  let st := Ty.ofCode f.sc.toNat
  decide (f.sc.toNat < 13) && cvtTypes.contains st && (st.isFloat || decide (st ≠ f.ty))

/-- The opcode map (R216 to R222) with the field tables of the instruction chapters; events have no word. -/
def row : Instr → Option Row
  | .sadd f => some { opc := 0x00, lens := [.f64, .f96], dst := .s, sa := .s, sb := sbS f, imm := .sb, types := intB }
  | .ssub f => some { opc := 0x01, lens := [.f64, .f96], dst := .s, sa := .s, sb := sbS f, imm := .sb, types := intB }
  | .smul f => some { opc := 0x02, lens := [.f64, .f96], dst := .s, sa := .s, sb := sbS f, imm := .sb, types := intB }
  | .smulh f => some { opc := 0x03, lens := [.f64, .f96], dst := .s, sa := .s, sb := sbS f, imm := .sb, types := intW }
  | .sdiv f => some { opc := 0x04, lens := [.f64, .f96], dst := .s, sa := .s, sb := sbS f, imm := .sb, types := intW }
  | .srem f => some { opc := 0x05, lens := [.f64, .f96], dst := .s, sa := .s, sb := sbS f, imm := .sb, types := intW }
  | .sand f => some { opc := 0x06, lens := [.f64, .f96], dst := .s, sa := .s, sb := sbS f, imm := .sb, types := intB }
  | .sor f => some { opc := 0x07, lens := [.f64, .f96], dst := .s, sa := .s, sb := sbS f, imm := .sb, types := intB }
  | .sxor f => some { opc := 0x08, lens := [.f64, .f96], dst := .s, sa := .s, sb := sbS f, imm := .sb, types := intB }
  | .sshl f => some { opc := 0x09, lens := [.f64, .f96], dst := .s, sa := .s, sb := sbS f, imm := .sb, types := intB }
  | .sshr f => some { opc := 0x0A, lens := [.f64, .f96], dst := .s, sa := .s, sb := sbS f, imm := .sb, types := intB }
  | .ssra f => some { opc := 0x0B, lens := [.f64, .f96], dst := .s, sa := .s, sb := sbS f, imm := .sb, types := intB }
  | .smin f => some { opc := 0x0C, lens := [.f64, .f96], dst := .s, sa := .s, sb := sbS f, imm := .sb, types := intW }
  | .smax f => some { opc := 0x0D, lens := [.f64, .f96], dst := .s, sa := .s, sb := sbS f, imm := .sb, types := intW }
  | .scmp f => some { opc := 0x0E, lens := [.f64, .f96], dst := .s, sa := .s, sb := sbS f, imm := .sb, types := intB, subs := condSubs f.ty }
  | .ssel _ => some { opc := 0x0F, lens := [.f64], dst := .s, sa := .s, sb := .s, sc := .s }
  | .smov _ => some { opc := 0x10, lens := [.f64], dst := .s, sa := .s }
  | .sli _ => some { opc := 0x11, lens := [.f96], dst := .s, imm := .sb }
  | .sliHi _ => some { opc := 0x11, lens := [.f96], dst := .s, imm := .sb, subs := [1] }
  | .sclz _ => some { opc := 0x12, lens := [.f64], dst := .s, sa := .s, types := intB }
  | .spopc _ => some { opc := 0x13, lens := [.f64], dst := .s, sa := .s, types := intB }
  | .sbfx f => some { opc := 0x14, lens := [.f64, .f96], dst := .s, sa := .s, sb := sbS f, imm := .sb, types := intW }
  | .sbfi f => some { opc := 0x15, lens := [.f64, .f96], dst := .s, sa := .s, sb := sbS f, sc := .s, imm := .sb, types := intB }
  | .saddr _ => some { opc := 0x16, lens := [.f128], dst := .s, imm := .used, ext := 0xFFFF }
  | .bra _ => some { opc := 0x20, lens := [.f96], imm := .used }
  | .bz _ => some { opc := 0x21, lens := [.f96], sa := .s, imm := .used }
  | .bnz _ => some { opc := 0x22, lens := [.f96], sa := .s, imm := .used }
  | .bexz _ => some { opc := 0x23, lens := [.f96], imm := .used }
  | .call _ => some { opc := 0x24, lens := [.f96], imm := .used }
  | .jmp _ => some { opc := 0x25, lens := [.f64], sa := .s }
  | .jmpLink _ => some { opc := 0x25, lens := [.f64], sa := .s, subs := [1] }
  | .ret _ => some { opc := 0x26, lens := [.f64] }
  | .mand _ => some { opc := 0x27, lens := [.f64], sa := .s }
  | .mset _ => some { opc := 0x28, lens := [.f64], sa := .s }
  | .mget _ => some { opc := 0x29, lens := [.f64], dst := .s }
  | .mandn _ => some { opc := 0x2A, lens := [.f64], sa := .s }
  | .pmovToScalar f => some { opc := 0x2B, lens := [.f64], dst := if f.sub.toNat < 2 then .s else .no, sa := if f.sub.toNat < 2 then .p else .no }
  | .pmovToPredicate _ => some { opc := 0x2B, lens := [.f64], dst := .p, sa := .s, subs := [1] }
  | .plog f => some { opc := 0x2C, lens := [.f64], guard := .L, dst := .p, sa := .p, sb := if f.sub.toNat < 5 then .p else .no, subs := [0, 1, 2, 3, 4, 5, 6] }
  | .nop _ => some { opc := 0x2D, lens := [.f64, .f96, .f128], imm := .used, ext := 0xFFFF }
  | .endW _ => some { opc := 0x2E, lens := [.f64] }
  | .yield _ => some { opc := 0x2F, lens := [.f64] }
  | .pause f => some { opc := 0x3F, lens := [.f64, .f96], sb := sbS f, imm := .sb }
  | .cyc _ => some { opc := 0x3E, lens := [.f64], dst := .s }
  | .trapI _ => some { opc := 0x30, lens := [.f96], imm := .used }
  | .brk _ => some { opc := 0x31, lens := [.f64] }
  | .rte _ => some { opc := 0x32, lens := [.f64] }
  | .rqrd _ => some { opc := 0x39, lens := [.f96], dst := .s, sa := .s, imm := .used }
  | .rqwr _ => some { opc := 0x3A, lens := [.f96], sa := .s, sb := .s, imm := .used }
  | .rqdrop _ => some { opc := 0x3B, lens := [.f96], imm := .used }
  | .csrr _ => some { opc := 0x33, lens := [.f96], dst := .s, imm := .csr }
  | .csrw _ => some { opc := 0x34, lens := [.f96], sa := .s, imm := .csr }
  | .hwait _ => some { opc := 0x35, lens := [.f64], sa := .s }
  | .htest _ => some { opc := 0x36, lens := [.f64], dst := .s, sa := .s }
  | .hcancel _ => some { opc := 0x37, lens := [.f64], sa := .s }
  | .hbind _ => some { opc := 0x38, lens := [.f64], dst := .s, sa := .s, sb := .s }
  | .getid f => some { opc := 0x3C, lens := [.f96], guard := if f.imm = 0 then .L else .U, dst := if f.imm = 0 then .v else if f.imm.toNat < 16 then .s else .no, imm := .sel }
  | .sprio f => some { opc := 0x3D, lens := [.f64, .f96], sb := sbS f, imm := .sb }
  | .vadd f => some { opc := 0x40, lens := [.f64, .f96], guard := .L, dst := .v, sa := .v, sb := sbV f, imm := .sb, types := floats ++ ints ++ ints64, subs := addSubs f.ty }
  | .vsub f => some { opc := 0x41, lens := [.f64, .f96], guard := .L, dst := .v, sa := .v, sb := sbV f, imm := .sb, types := floats ++ ints ++ ints64, subs := addSubs f.ty }
  | .vmul f => some { opc := 0x42, lens := [.f64, .f96], guard := .L, dst := .v, sa := .v, sb := sbV f, imm := .sb, types := floats ++ [.i32, .n32, .i16, .n16] ++ ints64, subs := rmSubs f.ty }
  | .vfma f => some { opc := 0x43, lens := [.f64, .f96], guard := .L, dst := .v, sa := .v, sb := sbV f, sc := .v, imm := .sb, types := floats ++ [.i32, .n32], subs := rmSubs f.ty }
  | .vmin f => some { opc := 0x44, lens := [.f64, .f96], guard := .L, dst := .v, sa := .v, sb := sbV f, imm := .sb, types := floats ++ ints }
  | .vmax f => some { opc := 0x45, lens := [.f64, .f96], guard := .L, dst := .v, sa := .v, sb := sbV f, imm := .sb, types := floats ++ ints }
  | .vabs f => some { opc := 0x46, lens := [.f64], guard := .L, dst := .v, sa := .v, types := floats ++ [.i32, .i16, .i8], subs := addSubs f.ty }
  | .vneg f => some { opc := 0x47, lens := [.f64], guard := .L, dst := .v, sa := .v, types := floats ++ [.i32, .i16, .i8], subs := addSubs f.ty }
  | .vand f => some { opc := 0x48, lens := [.f64, .f96], guard := .L, dst := .v, sa := .v, sb := sbV f, imm := .sb, types := [.b32] }
  | .vor f => some { opc := 0x49, lens := [.f64, .f96], guard := .L, dst := .v, sa := .v, sb := sbV f, imm := .sb, types := [.b32] }
  | .vxor f => some { opc := 0x4A, lens := [.f64, .f96], guard := .L, dst := .v, sa := .v, sb := sbV f, imm := .sb, types := [.b32] }
  | .vnot _ => some { opc := 0x4B, lens := [.f64], guard := .L, dst := .v, sa := .v, types := [.b32] }
  | .vshl f => some { opc := 0x4C, lens := [.f64, .f96], guard := .L, dst := .v, sa := .v, sb := sbV f, imm := .sb, types := [.b32, .i32, .n32] }
  | .vshr f => some { opc := 0x4D, lens := [.f64, .f96], guard := .L, dst := .v, sa := .v, sb := sbV f, imm := .sb, types := [.b32, .i32, .n32] }
  | .vsra f => some { opc := 0x4E, lens := [.f64, .f96], guard := .L, dst := .v, sa := .v, sb := sbV f, imm := .sb, types := [.b32, .i32, .n32] }
  | .vcmp f => some { opc := 0x4F, lens := [.f64, .f96], guard := .L, dst := .p, sa := .v, sb := sbV f, imm := .sb, types := [.f32, .f64, .i32, .n32, .b32, .i64, .n64], subs := condSubs f.ty }
  | .vsel _ => some { opc := 0x50, lens := [.f64], guard := .L, dst := .v, sa := .v, sb := .v, sc := .p, types := [.b32, .i64, .n64, .f64] }
  | .vmov f => some { opc := 0x51, lens := [.f64, .f96], guard := .L, dst := .v, sa := if f.len = .f96 then .no else .v, sb := if f.len = .f96 then .code else .no, imm := .sb, types := [.b32, .i64, .n64, .f64] }
  | .vbcast _ => some { opc := 0x52, lens := [.f64], guard := .L, dst := .v, sa := .s, types := [.b32, .i64, .n64, .f64] }
  | .vcvt f => some { opc := 0x53, lens := [.f64], guard := .L, dst := .v, sa := .vs, sc := .code, types := cvtTypes, subs := rms, extra := cvtOk f }
  | .vrcp _ => some { opc := 0x54, lens := [.f64], guard := .L, dst := .v, sa := .v, types := [.f32] }
  | .vrsq _ => some { opc := 0x55, lens := [.f64], guard := .L, dst := .v, sa := .v, types := [.f32] }
  | .vsqrt _ => some { opc := 0x56, lens := [.f64], guard := .L, dst := .v, sa := .v, types := [.f32, .f64], subs := rms }
  | .vexp2 _ => some { opc := 0x57, lens := [.f64], guard := .L, dst := .v, sa := .v, types := [.f32] }
  | .vlog2 _ => some { opc := 0x58, lens := [.f64], guard := .L, dst := .v, sa := .v, types := [.f32] }
  | .vsinpi _ => some { opc := 0x59, lens := [.f64], guard := .L, dst := .v, sa := .v, types := [.f32] }
  | .vcospi _ => some { opc := 0x5A, lens := [.f64], guard := .L, dst := .v, sa := .v, types := [.f32] }
  | .vdiv f => some { opc := 0x5B, lens := [.f64, .f96], guard := .L, dst := .v, sa := .v, sb := sbV f, imm := .sb, types := [.f32, .f64, .i32, .n32], subs := rmSubs f.ty }
  | .vclz _ => some { opc := 0x5C, lens := [.f64], guard := .L, dst := .v, sa := .v, types := [.b32] }
  | .vpopc _ => some { opc := 0x5D, lens := [.f64], guard := .L, dst := .v, sa := .v, types := [.b32] }
  | .vbfx f => some { opc := 0x5E, lens := [.f64, .f96], guard := .L, dst := .v, sa := .v, sb := sbV f, imm := .sb, types := [.i32, .n32] }
  | .vbfi f => some { opc := 0x5F, lens := [.f64, .f96], guard := .L, dst := .v, sa := .v, sb := sbV f, sc := .v, imm := .sb, types := [.b32, .i32, .n32] }
  | .vshfl f => some { opc := 0x60, lens := [.f64, .f96], guard := .L, dst := .v, sa := .v, sb := sbV f, imm := .sb, types := [.b32], subs := [0, 1, 2, 3] }
  | .vvoteBallot _ => some { opc := 0x61, lens := [.f64], guard := .L, dst := .s, sa := .p, subs := [0] }
  | .vvoteAny _ => some { opc := 0x61, lens := [.f64], guard := .L, dst := .s, sa := .p, subs := [1] }
  | .vvoteAll _ => some { opc := 0x61, lens := [.f64], guard := .L, dst := .s, sa := .p, subs := [2] }
  | .vred f => some { opc := 0x62, lens := [.f64], guard := .L, dst := .s, sa := .v, types := if f.sub.toNat < 3 then [.i32, .n32, .f32] else [.b32], subs := [0, 1, 2, 3, 4, 5] }
  | .vdot4 _ => some { opc := 0x63, lens := [.f64], guard := .L, dst := .v, sa := .v, sb := .v, sc := .v, types := [.i8, .n8] }
  | .vmulhi f => some { opc := 0x64, lens := [.f64, .f96], guard := .L, dst := .v, sa := .v, sb := sbV f, imm := .sb, types := [.i32, .n32, .i16, .n16] }
  | .vpack _ => some { opc := 0x65, lens := [.f64], guard := .L, dst := .v, sa := .v, subs := anySub, fs := .slot }
  | .vunpack _ => some { opc := 0x66, lens := [.f64], guard := .L, dst := .v, sa := .v, subs := anySub, fs := .slot }
  | .ld f => some { opc := 0x80, lens := [.f64, .f96], guard := .L, dst := .v, sa := .s, sb := voffV f, imm := .used, types := memTypes, subs := [0, 1, 4, 5], fs := .scope (loadScopes f) }
  | .st f => some { opc := 0x81, lens := [.f64, .f96], guard := .L, sa := .s, sb := voffV f, sc := .v, imm := .used, types := memTypes, subs := [0, 1, 4, 5], fs := .scope (storeScopes f) }
  | .lds f => some { opc := 0x82, lens := [.f64, .f96], dst := .s, sa := .s, imm := .used, types := memTypes, subs := [0, 1], fs := .scope (loadScopes f) }
  | .sts f => some { opc := 0x83, lens := [.f64, .f96], sa := .s, sc := .s, imm := .used, types := memTypes, subs := [0, 1], fs := .scope (storeScopes f) }
  | .ldl f => some { opc := 0x84, lens := [.f64, .f96], guard := .L, dst := .v, sa := .s, sb := voffV f, imm := .used, types := memTypes, subs := [0, 4] }
  | .stl f => some { opc := 0x85, lens := [.f64, .f96], guard := .L, sa := .s, sb := voffV f, sc := .v, imm := .used, types := memTypes, subs := [0, 4] }
  | .ldp f => some { opc := 0x86, lens := [.f64, .f96], guard := .L, dst := .quad, sa := .s, sb := voffV f, imm := .used, types := [.b32], subs := [0, 1, 4, 5], fs := .scope (loadScopes f) }
  | .stp f => some { opc := 0x87, lens := [.f64, .f96], guard := .L, sa := .s, sb := voffV f, sc := .quad, imm := .used, types := [.b32], subs := [0, 1, 4, 5], fs := .scope (storeScopes f) }
  | .atom f => some { opc := 0x88, lens := [.f128], guard := .L, dst := .v, sa := .s, sb := if f.ext.getLsbD 2 then .off else .no, sc := .v, sd := if f.sub = 2 then .v else .no, dst2 := .s, imm := .used, types := atomTypes f, subs := anySub, fs := .scope (atomScopes f), ext := 0x7 }
  | .atoms f => some { opc := 0x89, lens := [.f128], dst := .s, sa := .s, sc := .s, sd := if f.sub = 2 then .s else .no, dst2 := .s, imm := .used, types := atomTypes f, subs := anySub, fs := .scope (atomScopes f), ext := 0x3 }
  | .fenceAcq _ => some { opc := 0x8A, lens := [.f64], subs := [1], fs := .scope [1, 2, 3, 4, 5, 6] }
  | .fenceRel _ => some { opc := 0x8A, lens := [.f64], subs := [2], fs := .scope [1, 2, 3, 4, 5] }
  | .fenceAr _ => some { opc := 0x8A, lens := [.f64], subs := [3], fs := .scope [1, 2, 3, 4, 5] }
  | .copy f => some { opc := 0x8B, lens := [.f96, .f128], dst := .s, sa := .s, sb := .s, imm := .used, subs := [0, 1, 2, 3], fs := .scope (if f.sub = 3 then [0] else [0, 1, 2, 3, 4, 5]), ext := 0xF }
  | .cbatch _ => some { opc := 0x8C, lens := [.f64], dst := .s }
  | .cwait _ => some { opc := 0x8D, lens := [.f64], sa := .s }
  | .pref f => some { opc := 0x8E, lens := [.f64, .f96], guard := .L, sa := .s, sb := voffV f, imm := .used, subs := [0, 4] }
  | .cflush _ => some { opc := 0x8F, lens := [.f96], sa := .s, imm := .used, fs := .scope [1, 2, 3, 4, 5] }
  | .bar _ => some { opc := 0x90, lens := [.f64] }
  | .sbarExpect f => some { opc := 0x91, lens := [.f64, .f96], dst := .sbar, sb := sbS f, imm := .sb }
  | .sbarArr f => some { opc := 0x91, lens := [.f64, .f96], dst := .sbar, sb := if f.len = .f96 then .code else .no, imm := .sb, subs := [1], extra := f.len = .f64 }
  | .sbarReset f => some { opc := 0x91, lens := [.f64, .f96], dst := .sbar, sb := if f.len = .f96 then .code else .no, imm := .sb, subs := [2], extra := f.len = .f64 }
  | .resq _ => some { opc := 0x92, lens := [.f128], guard := .L, dst := .v, sb := .v, sc := .v, imm := .used, ext := 0xFFFF }
  | .resfence _ => some { opc := 0x93, lens := [.f64] }
  | .tshape f => some { opc := 0xA0, lens := [.f64], dst := .tsh, sa := if f.sub = 0 then .s else .no, sb := if f.sub = 0 then .s else .no, sc := if f.sub = 0 then .s else .no }
  | .tshapeSoff _ => some { opc := 0xA0, lens := [.f64], dst := .tsh, sa := .s, subs := [1] }
  | .tld _ => some { opc := 0xA1, lens := [.f64, .f96], dst := .s, sa := .s, sb := .t, sc := .s, imm := .used, subs := [0, 1] }
  | .tst _ => some { opc := 0xA2, lens := [.f64, .f96], dst := .s, sa := .s, sb := .t, sc := .s, imm := .used, subs := [0, 1] }
  | .tzero _ => some { opc := 0xA3, lens := [.f64], dst := .t }
  | .tcvt _ => some { opc := 0xA4, lens := [.f128], dst := .t, sa := .t, fs := .slot, ext := 0x7 }
  | .mma f => some { opc := 0xA5, lens := [.f128], guard := .I, dst := .s, sa := .t, sb := if f.sub.getLsbD 0 then .tsh else .t, sc := .a, sd := if f.sub.getLsbD 0 then .s else .no, imm := if f.ext.getLsbD 4 then .used else .no, subs := [0, 1], fs := .slot, ext := 0x1F }
  | .oprdy _ => some { opc := 0xA6, lens := [.f64] }
  | .azero _ => some { opc := 0xA7, lens := [.f64], dst := .a }
  | .ald _ => some { opc := 0xA8, lens := [.f64, .f96], dst := .s, sa := .s, sb := .a, sc := .s, imm := .used, subs := [0, 1] }
  | .ast _ => some { opc := 0xA9, lens := [.f64, .f96], dst := .s, sa := .s, sb := .a, sc := .s, imm := .used, subs := [0, 1] }
  | .adrain _ => some { opc := 0xAA, lens := [.f64], dst := .s, sb := .a }
  | .qst _ => some { opc := 0xAB, lens := [.f128], dst := .s, sa := .s, sb := .a, sc := .s, sd := .s, imm := .used, subs := [0, 1], fs := .slot, ext := 0x1 }
  | .cyld _ => some { opc := 0xAC, lens := [.f64, .f96], dst := .s, sa := .s, sb := .cy, sc := .no, imm := .used, subs := [0, 1] }
  | .cyst _ => some { opc := 0xAD, lens := [.f64, .f96], dst := .s, sa := .s, sb := .cy, sc := .no, imm := .used, subs := [0, 1] }
  | .cyzero _ => some { opc := 0xAE, lens := [.f64], dst := .cy }
  | .mlease _ => some { opc := 0xAF, lens := [.f64], dst := .s }
  | .gang f => some { opc := 0xB0, lens := [.f64, .f96], sb := sbS f, imm := .sb }
  | .tmov _ => some { opc := 0xB1, lens := [.f64], dst := .t, sa := .t }
  | .ttrans _ => some { opc := 0xB2, lens := [.f64], dst := .t, sa := .t }
  | .emit _ => some { opc := 0xC0, lens := [.f128], guard := .L, sa := .grp, ext := 0x1F }
  | .eclose _ => some { opc := 0xC1, lens := [.f128], ext := 0x1F }
  | .recv _ => some { opc := 0xC2, lens := [.f128], dst := .s, sa := .s, ext := 0x1F }
  | .rrel _ => some { opc := 0xC3, lens := [.f128], ext := 0x1F }
  | .launch f => some { opc := 0xC4, lens := [.f64, .f96], dst := .s, sa := .s, sb := if f.len = .f96 then .no else .s, imm := .used }
  | .depdec f => some { opc := 0xC5, lens := [.f64, .f96], sb := if f.len = .f96 then .no else .s, imm := .used }
  | .gcut _ => some { opc := 0xC6, lens := [.f64], dst := .s, sa := .s, sb := .s, sc := .s }
  | .gstatCut _ => some { opc := 0xC7, lens := [.f64], dst := .s, sa := .s, subs := [0] }
  | .gstatFrom _ => some { opc := 0xC7, lens := [.f64], dst := .s, sa := .s, subs := [1] }
  | .gstatCur _ => some { opc := 0xC7, lens := [.f64], dst := .s, sa := .s, subs := [2] }
  | .gstatMoving _ => some { opc := 0xC7, lens := [.f64], dst := .s, sa := .s, subs := [3] }
  | .sample _ => some { opc := 0xC8, lens := [.f128], guard := .L, dst := .vg 4, sa := .vg 3, sb := .v, dst2 := .v, imm := .used, subs := [0], ext := 0xFFFF }
  | .sgrad _ => some { opc := 0xC9, lens := [.f128], guard := .L, dst := .vg 4, sa := .vg 3, sb := .vg 4, dst2 := .v, imm := .used, subs := [0], ext := 0xFFFF }
  | .gath4 _ => some { opc := 0xCA, lens := [.f128], guard := .L, dst := .vg 4, sa := .vg 3, sb := .v, dst2 := .v, imm := .used, subs := [0, 1, 2, 3], ext := 0xFFFF }
  | .raybox _ => some { opc := 0xCB, lens := [.f128], guard := .L, dst := .vg 5, sa := .v, sb := .vg 8, ext := 0xFFFF }
  | .raytri _ => some { opc := 0xCC, lens := [.f128], guard := .L, dst := .vg 5, sa := .v, sb := .vg 8, ext := 0xFFFF }
  | .rayxf _ => some { opc := 0xCD, lens := [.f64], guard := .L, dst := .vg 8, sa := .vg 8, sb := .vg 12 }
  | .interp f => some { opc := 0xCE, lens := [.f64, .f96], guard := .L, dst := .v, sb := sbV f, imm := .sb, subs := [0, 1, 2, 3, 4, 5] }
  | .meshv f => some { opc := 0xCF, lens := [.f64, .f96], guard := .L, sa := .vg 4, sb := if f.len = .f96 then .no else .v, imm := .used, subs := anySub }
  | .meshp f => some { opc := 0xD0, lens := [.f64, .f96], guard := .L, sa := .v, sb := if f.len = .f96 then .no else .v, imm := .used }
  | .meshnV f => some { opc := 0xD1, lens := [.f64, .f96], guard := .L, sb := if f.len = .f96 then .no else .v, imm := .used, subs := [0] }
  | .meshnP f => some { opc := 0xD1, lens := [.f64, .f96], guard := .L, sb := if f.len = .f96 then .no else .v, imm := .used, subs := [1] }
  | .ordb _ => some { opc := 0xD2, lens := [.f64], guard := .L }
  | .orde _ => some { opc := 0xD3, lens := [.f64], guard := .L }
  | .rtwr f => some { opc := 0xD4, lens := [.f128], guard := .L, sa := if f.sub = 1 then .no else .v, sc := .vg 4, subs := [0, 1], ext := 0xFFFF }
  | .rtrd _ => some { opc := 0xD5, lens := [.f128], guard := .L, dst := .vg 4, sa := .v, ext := 0xFFFF }
  | .kill _ => some { opc := 0xD6, lens := [.f64], guard := .L }
  | .rate f => some { opc := 0xD7, lens := [.f64, .f96], sb := sbS f, imm := .sb }
  | .tlbInv _ => some { opc := 0x34, lens := [.f96], sa := .s, imm := .csr }
  | .hostIrq _ => some { opc := 0x34, lens := [.f96], sa := .s, imm := .csr }
  | .fbCtlWrite _ => some { opc := 0x34, lens := [.f96], sa := .s, imm := .csr }
  | .sweepPop _ => some { opc := 0x33, lens := [.f96], dst := .s, imm := .csr }
  | .pauseEnd _ _ => none
  | .moduleReset _ => none
  | .contextCreate _ _ => none
  | .longLatencyFill _ _ _ => none
  | .handleComplete _ _ => none
  | .pollReexamine _ => none
  | .exchangePeriodic _ => none
  | .activeSetFill _ => none
  | .exchangeComplete _ => none
  | .warpIssue _ => none
  | .workgroupStart _ => none
  | .workgroupEnd _ => none
  | .launchAdmit _ _ => none
  | .launchBufferAppend _ => none
  | .waitRecordRetest _ _ => none
  | .notifyDoorbellWrite _ _ _ => none
  | .notifyDoorbellRead _ _ => none
  | .consumerLaunch _ _ _ _ => none
  | .rollCallTimeout _ _ => none
  | .hallPassIdleRelease _ => none
  | .mmaArrayIssue _ _ => none
  | .mmaRetire _ _ _ => none
  | .barrierReleaseWave _ _ => none
  | .sbarTimeout _ _ => none
  | .engineAccess _ _ _ _ => none
  | .engineOpComplete _ _ => none
  | .iqPerform _ _ _ _ _ => none
  | .storeDrain _ _ => none
  | .copyEntryDiscard _ _ => none
  | .rtDrain _ _ => none
  | .migRetry _ _ => none
  | .sweeperStep _ => none
  | .preemptRequestTimeslice _ => none
  | .preemptRequestHost _ => none
  | .preemptGraceExpiry _ => none
  | .eviction _ => none
  | .restore _ _ => none
  | .contextRemoval _ => none
  | .hostRemoveContext _ _ => none
  | .encoderSend _ _ _ => none
  | .encoderFlushTimeout _ _ _ => none
  | .causewayDatagramReceive _ => none
  | .windowTimeout _ _ _ => none
  | .overflowToRing _ _ _ => none
  | .reliableDatagramReceive _ => none
  | .ackDelayTimeout _ _ => none
  | .retransmitTimeout _ _ => none
  | .receiverUnreachableTimeout _ _ => none
  | .satchelSnapshot _ _ _ => none
  | .satchelDeadlineExpiry _ _ _ => none
  | .bar2MemoryAccess _ _ _ => none
  | .mwinKeyWrite _ => none
  | .hostEvt => none
  | .hostAtomicCompletion _ _ _ _ _ => none
  | .hostReadCompletion _ _ _ _ _ => none
  | .hostCsrWrite _ _ => none
  | .controlInterval _ => none
  | .railRampReached _ => none
  | .currentSample _ _ => none
  | .wearUpdate _ _ => none
  | .attestGo _ => none
  | .attestReportDone => none
  | .hostLinkError _ => none
  | .rejectsWrite _ _ _ => none
  | .deviceControl2Write _ => none
  | .msixVectorUnmask _ => none

/-- The index of a field under its use (R207, R212, R319): 0x04 when it is out of range or unused and not 0. -/
def Use.idxOk (u : Use) (x : BitVec 8) : Bool :=
  match u with
  | .no => decide (x = 0)
  | .s => decide (x.toNat < 64)
  | .p => decide (x.toNat < 16)
  | .t => decide (x.toNat < 16)
  | .tsh => decide (x.toNat < 16)
  | .a => decide (x.toNat < 8)
  | .cy => decide (x.toNat < 8)
  | .sbar => decide (x.toNat < 8)
  | .quad => true
  | .code => true
  | .v => true
  | .vs => true
  | .off => true
  | .vg n => decide (x.toNat + n ≤ 256)
  | .grp => true

/-- R215 step 3: register index ranges, unused fields and the unused IMM32 of a 128-bit form. -/
def idxCheck (r : Row) (f : Fields) : Bool :=
  r.dst.idxOk f.dst && r.sa.idxOk f.sa && r.sb.idxOk f.sb && r.sc.idxOk f.sc && r.sd.idxOk f.sd
    && r.dst2.idxOk f.dst2 && (decide (f.len ≠ .f128) || decide (r.imm ≠ .no) || decide (f.imm = 0))

/-- R215 step 4: PEN, PNEG and PRED, TYPE, FS, SUB, EXT16 and the modifiers that raise 0x06. -/
def modCheck (r : Row) (f : Fields) : Bool :=
  (if f.pen then decide (r.guard ≠ .U) else !f.pneg && decide (f.pred = 0))
    && r.types.contains f.ty
    && (match r.fs with
        | .zero => decide (f.fs = 0)
        | .slot => true
        | .scope l => l.contains f.fs.toNat)
    && r.subs.contains f.sub.toNat
    && decide (f.ext &&& ~~~(BitVec.ofNat 16 r.ext) = 0)
    && (decide (r.imm ≠ .sel) || decide (f.imm.toNat < 16)) && r.extra

/-- The decode checks of R215 steps 2 (the length), 3 and 4, in order: the cause raised, if any. -/
def formCause (r : Row) (f : Fields) : Option Cause :=
  if !r.lens.contains f.len then some 0x05
  else if !idxCheck r f then some 0x04
  else if !modCheck r f then some 0x06
  else none

/-- The fields an instruction form carries. -/
def fields : Instr → Option Fields
  | .sadd f => some f
  | .ssub f => some f
  | .smul f => some f
  | .smulh f => some f
  | .sdiv f => some f
  | .srem f => some f
  | .sand f => some f
  | .sor f => some f
  | .sxor f => some f
  | .sshl f => some f
  | .sshr f => some f
  | .ssra f => some f
  | .smin f => some f
  | .smax f => some f
  | .scmp f => some f
  | .ssel f => some f
  | .smov f => some f
  | .sli f => some f
  | .sliHi f => some f
  | .sclz f => some f
  | .spopc f => some f
  | .sbfx f => some f
  | .sbfi f => some f
  | .saddr f => some f
  | .bra f => some f
  | .bz f => some f
  | .bnz f => some f
  | .bexz f => some f
  | .call f => some f
  | .jmp f => some f
  | .jmpLink f => some f
  | .ret f => some f
  | .mand f => some f
  | .mset f => some f
  | .mget f => some f
  | .mandn f => some f
  | .pmovToScalar f => some f
  | .pmovToPredicate f => some f
  | .plog f => some f
  | .nop f => some f
  | .endW f => some f
  | .yield f => some f
  | .pause f => some f
  | .pauseEnd _ _ => none
  | .cyc f => some f
  | .trapI f => some f
  | .brk f => some f
  | .rte f => some f
  | .rqrd f => some f
  | .rqwr f => some f
  | .rqdrop f => some f
  | .csrr f => some f
  | .csrw f => some f
  | .hwait f => some f
  | .htest f => some f
  | .hcancel f => some f
  | .hbind f => some f
  | .getid f => some f
  | .sprio f => some f
  | .vadd f => some f
  | .vsub f => some f
  | .vmul f => some f
  | .vfma f => some f
  | .vmin f => some f
  | .vmax f => some f
  | .vabs f => some f
  | .vneg f => some f
  | .vand f => some f
  | .vor f => some f
  | .vxor f => some f
  | .vnot f => some f
  | .vshl f => some f
  | .vshr f => some f
  | .vsra f => some f
  | .vcmp f => some f
  | .vsel f => some f
  | .vmov f => some f
  | .vbcast f => some f
  | .vcvt f => some f
  | .vrcp f => some f
  | .vrsq f => some f
  | .vsqrt f => some f
  | .vexp2 f => some f
  | .vlog2 f => some f
  | .vsinpi f => some f
  | .vcospi f => some f
  | .vdiv f => some f
  | .vclz f => some f
  | .vpopc f => some f
  | .vbfx f => some f
  | .vbfi f => some f
  | .vshfl f => some f
  | .vvoteBallot f => some f
  | .vvoteAny f => some f
  | .vvoteAll f => some f
  | .vred f => some f
  | .vdot4 f => some f
  | .vmulhi f => some f
  | .vpack f => some f
  | .vunpack f => some f
  | .ld f => some f
  | .st f => some f
  | .lds f => some f
  | .sts f => some f
  | .ldl f => some f
  | .stl f => some f
  | .ldp f => some f
  | .stp f => some f
  | .atom f => some f
  | .atoms f => some f
  | .fenceAcq f => some f
  | .fenceRel f => some f
  | .fenceAr f => some f
  | .copy f => some f
  | .cbatch f => some f
  | .cwait f => some f
  | .pref f => some f
  | .cflush f => some f
  | .bar f => some f
  | .sbarExpect f => some f
  | .sbarArr f => some f
  | .sbarReset f => some f
  | .resq f => some f
  | .resfence f => some f
  | .tshape f => some f
  | .tshapeSoff f => some f
  | .tld f => some f
  | .tst f => some f
  | .tzero f => some f
  | .tcvt f => some f
  | .mma f => some f
  | .oprdy f => some f
  | .azero f => some f
  | .ald f => some f
  | .ast f => some f
  | .adrain f => some f
  | .qst f => some f
  | .cyld f => some f
  | .cyst f => some f
  | .cyzero f => some f
  | .mlease f => some f
  | .gang f => some f
  | .tmov f => some f
  | .ttrans f => some f
  | .emit f => some f
  | .eclose f => some f
  | .recv f => some f
  | .rrel f => some f
  | .launch f => some f
  | .depdec f => some f
  | .gcut f => some f
  | .gstatCut f => some f
  | .gstatFrom f => some f
  | .gstatCur f => some f
  | .gstatMoving f => some f
  | .sample f => some f
  | .sgrad f => some f
  | .gath4 f => some f
  | .raybox f => some f
  | .raytri f => some f
  | .rayxf f => some f
  | .interp f => some f
  | .meshv f => some f
  | .meshp f => some f
  | .meshnV f => some f
  | .meshnP f => some f
  | .ordb f => some f
  | .orde f => some f
  | .rtwr f => some f
  | .rtrd f => some f
  | .kill f => some f
  | .rate f => some f
  | .moduleReset _ => none
  | .contextCreate _ _ => none
  | .longLatencyFill _ _ _ => none
  | .handleComplete _ _ => none
  | .pollReexamine _ => none
  | .exchangePeriodic _ => none
  | .activeSetFill _ => none
  | .exchangeComplete _ => none
  | .warpIssue _ => none
  | .workgroupStart _ => none
  | .workgroupEnd _ => none
  | .launchAdmit _ _ => none
  | .launchBufferAppend _ => none
  | .waitRecordRetest _ _ => none
  | .notifyDoorbellWrite _ _ _ => none
  | .notifyDoorbellRead _ _ => none
  | .consumerLaunch _ _ _ _ => none
  | .rollCallTimeout _ _ => none
  | .hallPassIdleRelease _ => none
  | .mmaArrayIssue _ _ => none
  | .mmaRetire _ _ _ => none
  | .barrierReleaseWave _ _ => none
  | .sbarTimeout _ _ => none
  | .engineAccess _ _ _ _ => none
  | .engineOpComplete _ _ => none
  | .iqPerform _ _ _ _ _ => none
  | .storeDrain _ _ => none
  | .copyEntryDiscard _ _ => none
  | .rtDrain _ _ => none
  | .migRetry _ _ => none
  | .tlbInv f => some f
  | .hostIrq f => some f
  | .fbCtlWrite f => some f
  | .sweepPop f => some f
  | .sweeperStep _ => none
  | .preemptRequestTimeslice _ => none
  | .preemptRequestHost _ => none
  | .preemptGraceExpiry _ => none
  | .eviction _ => none
  | .restore _ _ => none
  | .contextRemoval _ => none
  | .hostRemoveContext _ _ => none
  | .encoderSend _ _ _ => none
  | .encoderFlushTimeout _ _ _ => none
  | .causewayDatagramReceive _ => none
  | .windowTimeout _ _ _ => none
  | .overflowToRing _ _ _ => none
  | .reliableDatagramReceive _ => none
  | .ackDelayTimeout _ _ => none
  | .retransmitTimeout _ _ => none
  | .receiverUnreachableTimeout _ _ => none
  | .satchelSnapshot _ _ _ => none
  | .satchelDeadlineExpiry _ _ _ => none
  | .bar2MemoryAccess _ _ _ => none
  | .mwinKeyWrite _ => none
  | .hostEvt => none
  | .hostAtomicCompletion _ _ _ _ _ => none
  | .hostReadCompletion _ _ _ _ _ => none
  | .hostCsrWrite _ _ => none
  | .controlInterval _ => none
  | .railRampReached _ => none
  | .currentSample _ _ => none
  | .wearUpdate _ _ => none
  | .attestGo _ => none
  | .attestReportDone => none
  | .hostLinkError _ => none
  | .rejectsWrite _ _ _ => none
  | .deviceControl2Write _ => none
  | .msixVectorUnmask _ => none

end Sys2Proof.Machine
end

