-- ==== Sys2Proof/Decode.lean ====
section
/-! DEFINITION. The decoder (R203 to R222): total on any bytes, refusing by the cause the manual names; and
after it the encoder, written from the same field tables (R205, R212). -/

namespace Sys2Proof

/-- The length in bytes (R203). -/
def Len.bytes : Len → Nat
  | .f64 => 8 | .f96 => 12 | .f128 => 16

/-- The length that LEN names (R203); 0b00 is no instruction. -/
def Len.ofCode (c : BitVec 2) : Option Len :=
  match c.toNat with
  | 1 => some .f64 | 2 => some .f96 | 3 => some .f128 | _ => none

/-- LEN of a length (R203). -/
def Len.code : Len → BitVec 2
  | .f64 => 1 | .f96 => 2 | .f128 => 3

/-- Little-endian bytes as a number (R203). -/
def leNat : List W8 → Nat
  | [] => 0
  | b :: bs => b.toNat + 256 * leNat bs

/-- The n little-endian bytes of a number. -/
def leBytes : Nat → Nat → List W8
  | 0, _ => []
  | n + 1, x => BitVec.ofNat 8 x :: leBytes n (x / 256)

/-- The fields of a word of the given length: the words a shorter format lacks read as 0 (R205, R212). -/
def Fields.ofWord (len : Len) (w : W128) : Fields :=
  { len := len
    pen := w.getLsbD 10
    pneg := w.getLsbD 11
    pred := w.extractLsb' 12 4
    dst := w.extractLsb' 16 8
    sa := w.extractLsb' 24 8
    sb := w.extractLsb' 32 8
    sc := w.extractLsb' 40 8
    feb := w.extractLsb' 48 3
    ru := w.extractLsb' 51 3
    fs := w.extractLsb' 54 3
    sub := w.extractLsb' 57 3
    ty := Ty.ofCode (w.extractLsb' 60 4).toNat
    imm := w.extractLsb' 64 32
    sd := w.extractLsb' 96 8
    dst2 := w.extractLsb' 104 8
    ext := w.extractLsb' 112 16 }

/-- The opcode field (R205). -/
def opcOf (w : W128) : BitVec 8 := w.extractLsb' 2 8

/-- The instruction that an opcode names (R216 to R222), by SUB or by CSR number where the table of steps
gives an opcode several rows; none for an opcode that is not assigned (0x05). -/
def select (opc : BitVec 8) (f : Fields) : Option Instr :=
  match opc.toNat with
  | 0x00 => some (.sadd f)
  | 0x01 => some (.ssub f)
  | 0x02 => some (.smul f)
  | 0x03 => some (.smulh f)
  | 0x04 => some (.sdiv f)
  | 0x05 => some (.srem f)
  | 0x06 => some (.sand f)
  | 0x07 => some (.sor f)
  | 0x08 => some (.sxor f)
  | 0x09 => some (.sshl f)
  | 0x0A => some (.sshr f)
  | 0x0B => some (.ssra f)
  | 0x0C => some (.smin f)
  | 0x0D => some (.smax f)
  | 0x0E => some (.scmp f)
  | 0x0F => some (.ssel f)
  | 0x10 => some (.smov f)
  | 0x11 => if f.sub = 1 then some (.sliHi f) else some (.sli f)
  | 0x12 => some (.sclz f)
  | 0x13 => some (.spopc f)
  | 0x14 => some (.sbfx f)
  | 0x15 => some (.sbfi f)
  | 0x16 => some (.saddr f)
  | 0x20 => some (.bra f)
  | 0x21 => some (.bz f)
  | 0x22 => some (.bnz f)
  | 0x23 => some (.bexz f)
  | 0x24 => some (.call f)
  | 0x25 => if f.sub = 1 then some (.jmpLink f) else some (.jmp f)
  | 0x26 => some (.ret f)
  | 0x27 => some (.mand f)
  | 0x28 => some (.mset f)
  | 0x29 => some (.mget f)
  | 0x2A => some (.mandn f)
  | 0x2B => if f.sub = 1 then some (.pmovToPredicate f) else some (.pmovToScalar f)
  | 0x2C => some (.plog f)
  | 0x2D => some (.nop f)
  | 0x2E => some (.endW f)
  | 0x2F => some (.yield f)
  | 0x30 => some (.trapI f)
  | 0x31 => some (.brk f)
  | 0x32 => some (.rte f)
  | 0x33 => if f.imm = 0x405 then some (.sweepPop f) else some (.csrr f)
  | 0x34 => if f.imm = 0x105 then some (.tlbInv f) else if f.imm = 0x114 then some (.hostIrq f) else if f.imm = 0x108 then some (.fbCtlWrite f) else some (.csrw f)
  | 0x35 => some (.hwait f)
  | 0x36 => some (.htest f)
  | 0x37 => some (.hcancel f)
  | 0x38 => some (.hbind f)
  | 0x39 => some (.rqrd f)
  | 0x3A => some (.rqwr f)
  | 0x3B => some (.rqdrop f)
  | 0x3C => some (.getid f)
  | 0x3D => some (.sprio f)
  | 0x3E => some (.cyc f)
  | 0x3F => some (.pause f)
  | 0x40 => some (.vadd f)
  | 0x41 => some (.vsub f)
  | 0x42 => some (.vmul f)
  | 0x43 => some (.vfma f)
  | 0x44 => some (.vmin f)
  | 0x45 => some (.vmax f)
  | 0x46 => some (.vabs f)
  | 0x47 => some (.vneg f)
  | 0x48 => some (.vand f)
  | 0x49 => some (.vor f)
  | 0x4A => some (.vxor f)
  | 0x4B => some (.vnot f)
  | 0x4C => some (.vshl f)
  | 0x4D => some (.vshr f)
  | 0x4E => some (.vsra f)
  | 0x4F => some (.vcmp f)
  | 0x50 => some (.vsel f)
  | 0x51 => some (.vmov f)
  | 0x52 => some (.vbcast f)
  | 0x53 => some (.vcvt f)
  | 0x54 => some (.vrcp f)
  | 0x55 => some (.vrsq f)
  | 0x56 => some (.vsqrt f)
  | 0x57 => some (.vexp2 f)
  | 0x58 => some (.vlog2 f)
  | 0x59 => some (.vsinpi f)
  | 0x5A => some (.vcospi f)
  | 0x5B => some (.vdiv f)
  | 0x5C => some (.vclz f)
  | 0x5D => some (.vpopc f)
  | 0x5E => some (.vbfx f)
  | 0x5F => some (.vbfi f)
  | 0x60 => some (.vshfl f)
  | 0x61 => if f.sub = 1 then some (.vvoteAny f) else if f.sub = 2 then some (.vvoteAll f) else some (.vvoteBallot f)
  | 0x62 => some (.vred f)
  | 0x63 => some (.vdot4 f)
  | 0x64 => some (.vmulhi f)
  | 0x65 => some (.vpack f)
  | 0x66 => some (.vunpack f)
  | 0x80 => some (.ld f)
  | 0x81 => some (.st f)
  | 0x82 => some (.lds f)
  | 0x83 => some (.sts f)
  | 0x84 => some (.ldl f)
  | 0x85 => some (.stl f)
  | 0x86 => some (.ldp f)
  | 0x87 => some (.stp f)
  | 0x88 => some (.atom f)
  | 0x89 => some (.atoms f)
  | 0x8A => if f.sub = 2 then some (.fenceRel f) else if f.sub = 3 then some (.fenceAr f) else some (.fenceAcq f)
  | 0x8B => some (.copy f)
  | 0x8C => some (.cbatch f)
  | 0x8D => some (.cwait f)
  | 0x8E => some (.pref f)
  | 0x8F => some (.cflush f)
  | 0x90 => some (.bar f)
  | 0x91 => if f.sub = 1 then some (.sbarArr f) else if f.sub = 2 then some (.sbarReset f) else some (.sbarExpect f)
  | 0x92 => some (.resq f)
  | 0x93 => some (.resfence f)
  | 0xA0 => if f.sub = 1 then some (.tshapeSoff f) else some (.tshape f)
  | 0xA1 => some (.tld f)
  | 0xA2 => some (.tst f)
  | 0xA3 => some (.tzero f)
  | 0xA4 => some (.tcvt f)
  | 0xA5 => some (.mma f)
  | 0xA6 => some (.oprdy f)
  | 0xA7 => some (.azero f)
  | 0xA8 => some (.ald f)
  | 0xA9 => some (.ast f)
  | 0xAA => some (.adrain f)
  | 0xAB => some (.qst f)
  | 0xAC => some (.cyld f)
  | 0xAD => some (.cyst f)
  | 0xAE => some (.cyzero f)
  | 0xAF => some (.mlease f)
  | 0xB0 => some (.gang f)
  | 0xB1 => some (.tmov f)
  | 0xB2 => some (.ttrans f)
  | 0xC0 => some (.emit f)
  | 0xC1 => some (.eclose f)
  | 0xC2 => some (.recv f)
  | 0xC3 => some (.rrel f)
  | 0xC4 => some (.launch f)
  | 0xC5 => some (.depdec f)
  | 0xC6 => some (.gcut f)
  | 0xC7 => if f.sub = 1 then some (.gstatFrom f) else if f.sub = 2 then some (.gstatCur f) else if f.sub = 3 then some (.gstatMoving f) else some (.gstatCut f)
  | 0xC8 => some (.sample f)
  | 0xC9 => some (.sgrad f)
  | 0xCA => some (.gath4 f)
  | 0xCB => some (.raybox f)
  | 0xCC => some (.raytri f)
  | 0xCD => some (.rayxf f)
  | 0xCE => some (.interp f)
  | 0xCF => some (.meshv f)
  | 0xD0 => some (.meshp f)
  | 0xD1 => if f.sub = 1 then some (.meshnP f) else some (.meshnV f)
  | 0xD2 => some (.ordb f)
  | 0xD3 => some (.orde f)
  | 0xD4 => some (.rtwr f)
  | 0xD5 => some (.rtrd f)
  | 0xD6 => some (.kill f)
  | 0xD7 => some (.rate f)
  | _ => none

/-- What the words at an instruction position give (R204, R215 steps 1 to 4): an instruction, a fill word, or
the cause raised. -/
inductive Decoded where
  | ins (i : Instr)
  | fill
  | bad (c : Cause)
  deriving DecidableEq, Repr

/-- The first cause of R215 steps 2 to 4 for an instruction, none where it may issue. -/
def Instr.formCause (i : Instr) : Option Cause :=
  match Machine.row i, Machine.fields i with
  | some r, some f => Machine.formCause r f
  | _, _ => none

/-- Decodes the bytes from an instruction address to the end of its 32-byte fetch block (R204, R215). -/
def decode (bs : List W8) : Decoded :=
  let first := leNat (bs.take 4)
  if first = 0 then if bs.length = 32 then .bad 0x04 else .fill
  else
    match Len.ofCode (BitVec.ofNat 2 first) with
    | none => .bad 0x04
    | some len =>
      if bs.length < len.bytes then .bad 0x04
      else
        let w := BitVec.ofNat 128 (leNat (bs.take len.bytes))
        match select (opcOf w) (Fields.ofWord len w) with
        | none => .bad 0x05
        | some i =>
          match i.formCause with
          | some c => .bad c
          | none => .ins i

/-- The instruction that the words name by LEN, OPC and SUB, whatever their other fields hold: what R189 captures of one that
raises 0x06. -/
def named (bs : List W8) : Option Instr :=
  match Len.ofCode (BitVec.ofNat 2 (leNat (bs.take 4))) with
  | none => none
  | some len =>
    let w := BitVec.ofNat 128 (leNat (bs.take len.bytes))
    select (opcOf w) (Fields.ofWord len w)

/-- The length that the first word's LEN gives, for `trpc` (R204); four bytes when LEN = 0b00. -/
def lenAt (bs : List W8) : Nat :=
  match Len.ofCode (BitVec.ofNat 2 (leNat (bs.take 4))) with
  | some l => l.bytes
  | none => 4

/-! The encoder. -/

/-- The 128-bit word of an opcode and its fields (R205, R212). -/
def Fields.word (opc : BitVec 8) (f : Fields) : W128 :=
  f.ext ++ f.dst2 ++ f.sd ++ f.imm ++ BitVec.ofNat 4 f.ty.code ++ f.sub ++ f.fs ++ f.ru ++ f.feb ++ f.sc ++ f.sb
    ++ f.sa ++ f.dst ++ f.pred ++ BitVec.ofBool f.pneg ++ BitVec.ofBool f.pen ++ opc ++ f.len.code

/-- The fields that a format lacks are 0, the canonical form of a term. -/
def Fields.canonical (f : Fields) : Bool :=
  match f.len with
  | .f64 => decide (f.imm = 0) && decide (f.sd = 0) && decide (f.dst2 = 0) && decide (f.ext = 0)
  | .f96 => decide (f.sd = 0) && decide (f.dst2 = 0) && decide (f.ext = 0)
  | .f128 => true

/-- The bytes of an instruction form, lowest address first; none for an event, which has no word. -/
def encode (i : Instr) : Option (List W8) :=
  match Machine.row i, Machine.fields i with
  | some r, some f => some (leBytes f.len.bytes (f.word r.opc).toNat)
  | _, _ => none

/-- An instruction form that has an encoding: it passes the checks of R215 steps 2 to 4, its absent fields are
0, and it is the one its opcode, SUB and CSR number select. -/
def encodable (i : Instr) : Bool :=
  match Machine.row i, Machine.fields i with
  | some r, some f => f.canonical && decide (select r.opc f = some i) && decide (Machine.formCause r f = none)
  | _, _ => false

/-- The bytes of a table word as they stand at the start of a fetch block: bits above nbits are 0. -/
def tableBytes (nbits w : Nat) : List W8 := leBytes 32 (w % 2 ^ nbits)

/-- The instruction that the decoder reads from a word numbered as the opcode table numbers it. -/
def decodeTableWord (nbits w : Nat) : Option Instr :=
  match decode (tableBytes nbits w) with
  | .ins i => some i
  | _ => none

end Sys2Proof
end

