-- ==== Sys2Proof/Config.lean ====
section
/-! DEFINITION. The values the manual leaves open: opaque, so that no proof can see one. Each is applied to
a plain counter that State holds (log 5) or to the operands it depends on. -/

namespace Sys2Proof.Config

/-- Unpredictable bytes (R169): device memory that no key has written, or read under another key; also the
host, peer and local bytes nothing has written (log 4). -/
opaque freeByte : Nat → BitVec 8

/-- Unpredictable bytes of code (R169, R204): what fetch reads at an address that holds none, at a count. -/
opaque freeCode : Nat → Nat → BitVec 8

/-- An undefined 32-bit value, such as an accumulator word read under an unwaited `mma` (R111, R134). -/
opaque freeWord : Nat → BitVec 32

/-- A free choice between two values the manual allows, such as an operand byte old or new (R134, R137). -/
opaque freeBit : Nat → Bool

/-- The 2,820-byte XMSS signature of an attestation report, at a count (R360, R361). -/
opaque freeReport : Nat → Nat → BitVec 8

/-- The version of the attestation reports, 8 bytes (R361). -/
opaque reportVersion : Nat → BitVec 8

/-- The 32-byte SHAKE256 measurement of a firmware image (R361). -/
opaque measurement : List (BitVec 8) → Nat → BitVec 8

/-- The identity public key, 68 bytes, and behind it Smillidra's signature over it (R361). -/
opaque identity : Nat → BitVec 8

/-- The module's own IPv6 source address, which decides DIR of a reliable stream (R72). -/
opaque ownAddress : BitVec 128

/-- The Ethernet port, 0 to 3, that the module's hash gives a reliable stream (context, peer) and an edge (context, GRAPHID,
edge) (R68). -/
opaque streamPort : Nat → Nat → BitVec 2
opaque edgePort : Nat → Nat → Nat → BitVec 2

/-- AES-256-GCM (R70, R72): the encrypted body and the 16-byte tag, from the key, the nonce, the header and the body. -/
opaque sealed : BitVec 256 → List (BitVec 8) → List (BitVec 8) → List (BitVec 8) → List (BitVec 8)

end Sys2Proof.Config
end

