-- ==== Sys2Proof/Machine/State.lean ====
section
/-! DEFINITION. The state of one module and of the outside world that meets it: plain data, every piece the
manual names, with its reset value. -/

namespace Sys2Proof.Machine

/-! Registers and captured instructions. -/

/-- The 32 lanes of a vector register, lane 0 first (R7); a missing lane reads 0. -/
abbrev Lanes := List W32

/-- A register that carries a full/empty bit (R26). -/
inductive Reg where
  | s (n : Nat)
  | v (n : Nat)
  deriving DecidableEq, Repr

/-- A word of a warp's register files: a scalar register, a lane of a vector register, a predicate register. -/
inductive RegWord where
  | s (n : Nat)
  | v (n lane : Nat)
  | p (n : Nat)
  deriving DecidableEq, Repr

/-- A value for a register. -/
inductive RegVal where
  | s (n : Nat) (x : W64)
  | v (n : Nat) (x : Lanes)
  deriving DecidableEq, Repr

/-- An instruction of a warp that has issued, with what R189 captures of it; also a replay entry. `orig` is the
word as captured, against which `rte` checks OPC, LEN and TYPE; `held` are its destinations that it keeps empty;
`prior` are the scalar contents that a handle replaced (R191); `group` are the registers of its source groups (R190);
`tail` is how many bytes of its words its fetch block held (R204). `faults` and `fellBack` are what the lanes already
performed of a split atomic contribute to its handle (R185, R289). -/
structure Issued where
  insn  : W128 := 0
  orig  : W128 := 0
  pc    : W64 := 0
  lmask : W32 := 0
  sop   : List W64 := []
  vop   : List Lanes := []
  held  : List Reg := []
  prior : List (Nat × W64) := []
  group : List Reg := []
  tail  : Nat := 16
  faults : List Cause := []
  fellBack : Bool := false
  deriving DecidableEq, Repr

/-- The conditions a warp waits for (R32, R45). -/
inductive Wait where
  /-- A source or destination is empty (R28, R29). -/
  | full (r : Reg)
  /-- A register of a source group of an unfinished instruction (R190). -/
  | group (r : Reg)
  /-- Sixteen instructions are unfinished (R184). -/
  | room
  /-- The instructions unfinished and the replay entries are more than 16 (R184, R189), for `rte`. -/
  | refit
  /-- The earlier memory operations of the warp are not performed (R121, R126 part 1). -/
  | performed
  /-- An earlier acquire or fence is not performed (R121). -/
  | acquired
  /-- Batches up to n (R139). -/
  | batch (n : BitVec 16)
  /-- The opening of the workgroup barrier (R295). -/
  | bar
  /-- The opening of a stage barrier (R141). -/
  | sbar (b : Nat)
  /-- Free slots of a ring, credits or send ring (R53, R55). -/
  | ring (edge n : Nat)
  /-- A record or the close of a frame (R57). -/
  | records (edge : Nat)
  /-- A free roll-call latch, or that of its own gang (R36), with the handle slot that the `mma` has taken (R309 step 5). -/
  | latch (slot : Nat)
  /-- The other members of a gang (R36), under the id of the latch. -/
  | rollCall (id : Nat)
  /-- The hall pass or a place in the array queue (R39, R309), for an operation. -/
  | hall (op : Nat)
  /-- The lower-ranked tickets on the pixels of some lanes (R337). -/
  | ticket (lanes : W32)
  /-- A free handle slot (R31). -/
  | slot
  /-- A table entry under migration, to be read again at a cycle of the core (R154). -/
  | mig (at_ : Nat)
  /-- A remote, host or peer load or atomic, or a fence, that the warp waits for. -/
  | op (id : Nat)
  /-- Accesses that use translations of a page (all when none) being dropped (R156). -/
  | xlat (page : Option Nat)
  /-- A place in the core's launch buffer (R321). -/
  | launchBuf
  /-- The WRITEACK of every earlier peer write of the warp (R181). -/
  | acks
  /-- The end of some lookups (R167). -/
  | looks (ops : List Nat)
  /-- A queued engine operation that touches the named tile, accumulator or local memory. -/
  | engine (id : Nat)
  deriving DecidableEq, Repr

/-- A wait inside an instruction that has already acted (an arrival, a roll call); `re` when it is a re-issued
entry. -/
structure Blocked where
  wait : Wait
  ins  : Issued
  re   : Bool := false
  deriving DecidableEq, Repr

/-! Memory operations in flight (R119, R121). -/

/-- Where a translated unit lives (R115, R153). The key is the identity of an encryption key (R168). -/
inductive Target where
  | dev (pa key : Nat)
  | host (a : Nat) (hx : Bool)
  | peer (p pctx a : Nat)
  | loc (off : Nat)
  deriving DecidableEq, Repr

/-- One unit of a memory operation (R117): `off` is its byte offset within the lane's data; `copies` names the buffers in which a
value that comes from the host or a peer leaves copies (R124). -/
structure MUnit where
  lane : Nat
  off  : Nat
  size : Nat
  va   : Nat
  tgt  : Target
  wr   : List W8 := []
  cmp  : List W8 := []
  done : Bool := false
  sent : Bool := false
  copies : Nat := 0
  rd   : List W8 := []
  fault : Option Cause := none
  deriving DecidableEq, Repr

/-- The kind of an operation in an issue queue. -/
inductive OpKind where
  | load | store
  | atomic (op : Nat)
  | fence
  | cflush
  /-- A lookup of the sampler or the ray unit (R133). -/
  | look
  /-- Pixels written to, or read from, a render target (R135). -/
  | rtw | rtr
  /-- Values that are known already, on their way to registers. -/
  | fill
  deriving DecidableEq, Repr

/-- The instructions whose lanes the sampler, the ray unit or the render-target buffer looks up. -/
inductive LookKind where
  | sample | sgrad | gath4 | resq | raybox | raytri | rtrd
  deriving DecidableEq, Repr

/-- A level that a lookup has decided from its map bytes (R164): wanted, found, kind, INCONSISTENT, region. -/
structure LookLevel where
  want   : Nat
  lev    : Nat
  kind   : Nat
  inc    : Bool
  region : Nat × Nat × Nat
  deriving DecidableEq, Repr

/-- A lane of a lookup under way: the levels decided, with the map's TAIL; whether their pages have been found present (R164); the units
of its texels or of its record, each with its bytes once it has been read (R133); then the words it gives. -/
structure LookLane where
  levels : List LookLevel := []
  tail   : Nat := 0
  found  : Bool := false
  got    : List (Option (List W8)) := []
  words  : Option (List Nat) := none
  deriving DecidableEq, Repr

/-- What a queued operation needs of its instruction: the fields, and the buffer record as it stood at issue (R228). `lanes` are
those under way; `fed` are the feedback requests made, each with the bits it gave (R166). -/
structure Look where
  kind  : LookKind
  f     : Fields
  rcd   : List W8
  lanes : SMap LookLane := []
  fed   : List ((Nat × Nat × Nat × Nat × Nat) × Nat) := []
  deriving DecidableEq, Repr

/-- An issued and unfinished instruction (R184), in the issue queue when it accesses memory (R121). Scope is the
FS code (R209). `vals` are results that are already known (`recv`, pool records); word i of what a lane has read goes to vector register i of
`regs`; `slot` is the
handle slot. `drained` tells that a release at SYS has drained the buffers and waits for the peers' answers (R181), `opened` that
the release part is over, `closed` the acquire part. -/
structure Op where
  id     : Nat
  ins    : Issued
  kind   : OpKind
  ty     : Ty := .b32
  scope  : Nat := 0
  acq    : Bool := false
  rel    : Bool := false
  ctx    : Nat := 0
  units  : List MUnit := []
  dst    : Option Reg := none
  width  : Nat := 4
  regs   : List Nat := []
  look   : Option Look := none
  vals   : List RegVal := []
  slot   : Option Nat := none
  feb    : Bool := false
  drained : Bool := false
  opened : Bool := false
  closed : Bool := false
  faults : List Cause := []
  fellBack : Bool := false
  ueLines : List Nat := []
  deriving DecidableEq, Repr

/-! Warps. -/

/-- A pending asynchronous cause (R185). -/
structure AsyncCause where
  cause : Cause
  aux   : W64
  mask  : W32
  addr  : W64 := 0
  deriving DecidableEq, Repr

/-- A trap of a warp: the cause and the frame values of R187; `cap` is the trapping instruction when it enters the
replay queue (R185); `rest` are entries not yet re-issued behind it (R191); `tpc` and `trpc` as R187 gives. -/
structure TrapInfo where
  cause : Cause
  mask  : W32
  addr  : W64 := 0
  aux   : W64 := 0
  async : Bool := false
  tpc   : W64
  trpc  : W64
  cap   : Option Issued := none
  rest  : List Issued := []
  deriving DecidableEq, Repr

/-- What a PIXEL warp holds of its record (R335 to R337): the raster edge, the frame, sequence number and rate of the
primitive, the viewport, the three vertices as eight slots of four words each, and for each lane that holds a coarse
pixel its origin and the fine pixels covered; `left` are the lanes whose tickets are not released. -/
structure Pixel where
  edge  : Nat
  frame : W32
  seq   : Nat
  rate  : Nat
  view  : W32
  verts : List W32
  org   : List (Nat × Nat)
  fine  : List (List (Nat × Nat))
  left  : W32
  deriving DecidableEq, Repr

/-- One warp (R7). `rewritten` are the registers held empty by replay entries that the handler has written (R186); `trapping` is a
trap that waits for the values on their way (R185 step 2), `async` the asynchronous causes not taken yet, oldest first; `unacked` tells
that a peer write of the warp was lost on a stream that became unreachable, which its next release at SYS meets (R181, log 59). `ue` and
`ce` are the words of its registers with an uncorrectable or a correctable error (R144, R145); `met` and `metCode` are the words, and the
lines of its code, that the instruction due since `metAt` has met. -/
structure Warp where
  pc       : W64 := 0
  exec     : W32 := 0xFFFFFFFF
  sregs    : SMap W64 := []
  pregs    : SMap W32 := []
  vregs    : SMap Lanes := []
  empty    : List Reg := []
  stack    : List W64 := []
  gang     : W32 := 0
  batch    : BitVec 16 := 0
  copies   : List Nat := []
  batches  : List (BitVec 16 × List Nat) := []
  rate     : BitVec 3 := 0
  prio     : Nat := 0
  aged     : Nat := 0
  lastAt   : Nat := 0
  tm       : Bool := false
  ih       : Bool := false
  hnd      : Bool := false
  stepOn   : Bool := false
  tcause   : Cause := 0
  tasync   : Bool := false
  tpc      : W64 := 0
  trpc     : W64 := 0
  taddr    : W64 := 0
  tmask    : W32 := 0
  texec    : W32 := 0
  taux     : W64 := 0
  replay   : List Issued := []
  reissue  : List Issued := []
  rewritten : List Reg := []
  noBp     : Bool := false
  stepped  : Bool := false
  ops      : List Op := []
  active   : Bool := true
  poll     : Bool := false
  parked   : List Wait := []
  waits    : List Wait := []
  blocked  : Option Blocked := none
  paused   : Option Nat := none
  async    : List AsyncCause := []
  trapping : Option TrapInfo := none
  unacked  : Bool := false
  ue       : List RegWord := []
  ce       : List RegWord := []
  met      : List RegWord := []
  metCode  : List Nat := []
  metAt    : Nat := 0
  killed   : W32 := 0
  pixel    : Option Pixel := none
  ended    : Bool := false
  held     : Bool := false
  deriving DecidableEq, Repr

/-! Workgroups. -/

/-- The shape of a workgroup (R11, R60). -/
structure Shape where
  warps  : Nat
  vregs  : Nat
  localK : Nat
  tiles  : Nat
  accs   : Nat
  sbars  : Nat
  deriving DecidableEq, Repr

/-- A stage barrier (R140): ARR as the warps that have arrived, and the cycle from which `sbar_tmo` counts. -/
structure Sbar where
  exp    : W32 := 0
  got    : W32 := 0
  arr    : List Nat := []
  phase  : Bool := false
  broken : Bool := false
  since  : Option Nat := none
  deriving DecidableEq, Repr

/-- Release waves of an opened barrier (R42): the barrier (none for `bar`), the warps not yet released in
ascending order, the distance D and the cycle of the next wave. -/
structure Wave where
  sbar : Option Nat
  rest : List Nat
  dist : Nat
  next : Nat
  deriving DecidableEq, Repr

/-- A queue token (R65, R132): the producing core (none for the host or a peer), the number of the producing act, before which entries
were placed, and the producing warp; `dev` for the close of a PIXEL frame, which orders at DEV whatever the placement (R66); `void` for a
record or a close of a REMOTE edge, which orders nothing. -/
structure Token where
  core : Option Nat := none
  act  : Nat := 0
  own  : Option (Nat × Nat) := none
  dev  : Bool := false
  void : Bool := false
  deriving DecidableEq, Repr

/-- A record in a ring (R53), with its status word (R57, R82) and its token (R65). A record that the rasteriser wrote carries the pixels of its warp (R335). `ue` and `ce` are its words with errors (R144, R145). -/
structure Rec where
  slot   : Nat := 0
  frame  : W32
  data   : List W8
  status : W32 := 0
  tok    : Token := {}
  px     : Option Pixel := none
  ue     : List Nat := []
  ce     : List Nat := []
  deriving DecidableEq, Repr

/-- A workgroup (R7, R8, R11). `hist` holds, for each operand byte written since the last `oprdy`, the values it
has had (R134); `taint` names the accumulators of `mma`s not yet waited for, each with the operation and the handles
(SLOT and GEN) a wait on which ends that (R111, R314); `mmaFaults` the lowest cause of the `mma`s on an
accumulator that faulted (R314); `ended` marks a workgroup that has ended while operations of it that write only memory go on (R15), `signed` one whose end has made its
tokens (R132); `accUndef` and `cyUndef` those left undefined. Operand bytes: tile t byte b at 16384 t + b, local byte at 2^20 + offset, shape byte at 2^24 + 8 t + b. `code` and `codeKey` are V as
it stood when the workgroup started, after write number `codeAt`, from which a block may still be fetched (R223). `ue` and `ce` are the
words of its storage with errors (R144, R145): operand bytes 4 k to 4 k + 3 are word k, word i of accumulator a is 2^26 + 4096 a + i, entry i
of residue register c 2^27 + 64 c + i. -/
structure Wg where
  ctx      : Nat
  queue    : Nat
  basePrio : Nat
  stage    : Option Nat := none
  graph    : Option Nat := none
  frame    : W32 := 0
  num      : W32 := 0
  count    : W32 := 0
  arg      : W64 := 0
  role     : Bool := false
  launch   : Option Nat := none
  core     : Nat
  b        : Nat := 0
  slots    : List Nat := []
  shape    : Shape
  warps    : List Warp := []
  local_   : SMap W8 := []
  tiles    : SMap W8 := []
  tshapes  : SMap W64 := []
  accs     : SMap W32 := []
  accUndef : List Nat := []
  taint    : List (Nat × Nat × List Nat) := []
  mmaFaults : SMap Cause := []
  cys      : SMap W32 := []
  cyUndef  : List Nat := []
  fs       : List W128 := []
  hist     : SMap (List W8) := []
  barArr   : List Nat := []
  sbars    : List Sbar := []
  waves    : List Wave := []
  closed   : W32 := 0
  ringHeld : List (Nat × Nat) := []
  batchRecs : List Rec := []
  batchGiven : Bool := false
  tokens   : List Token := []
  meshV    : Nat := 0
  meshP    : Nat := 0
  preempt  : Option Nat := none
  graced   : Bool := false
  saved    : Bool := false
  evicting : Bool := false
  halt     : Option Nat := none
  ended    : Bool := false
  signed   : Bool := false
  code     : List Host.Cell := []
  codeKey  : SMap Nat := []
  codeAt   : Nat := 0
  ue       : List Nat := []
  ce       : List Nat := []
  deriving DecidableEq, Repr

/-! The ordering machine (R119). -/

/-- An entry of a buffer: a store entry, or a copy entry; contiguous bytes at a device-physical address under a
key, or at a host or peer address (`farAddr`) for a context (`key`). `age` orders entries; `own` is the warp that stored it (workgroup, warp). -/
structure Entry where
  age   : Nat
  dev   : Bool
  addr  : Nat
  key   : Nat := 0
  bytes : List W8
  store : Bool
  rel   : Bool := false
  own   : Option (Nat × Nat) := none
  deriving DecidableEq, Repr

/-- A buffer, oldest entry first. -/
abbrev Buffer := List Entry

/-- An entry of a render-target buffer (R135). -/
structure RtEntry where
  age   : Nat
  pa    : Nat
  key   : Nat
  bytes : List W8
  own   : Nat × Nat
  ctx   : Nat
  graph : Option Nat
  stage : Option Nat
  frame : W32
  deriving DecidableEq, Repr

/-! Engines, handles and the matrix array. -/

/-- A handle slot (R30, R31); `own` is the workgroup whose operation took it. -/
structure HSlot where
  gen   : BitVec 4 := 0
  live  : Bool := false
  final : W64 := 0
  bound : List (Nat × Nat × Nat) := []
  own   : Option Nat := none
  ctx   : Nat := 0
  pend  : Option W64 := none
  deriving DecidableEq, Repr

/-- One unit of an engine operation (R133): reads `src`, writes `dst`, `size` bytes at most 8; an address is a
virtual address or a place in the workgroup's storage. -/
inductive Place where
  | va (a : Nat)
  | loc (off : Nat)
  | tile (t off : Nat)
  | acc (a word : Nat)
  | cy (c word : Nat)
  | val (b : List W8)
  deriving DecidableEq, Repr

/-- A unit access of an engine operation. `late` marks the scales of a `qst`. `far` is the place in the
host's or a peer's memory of which a read has been sent; `got` are bytes read that wait for their write. -/
structure EUnit where
  src  : Place
  dst  : Place
  size : Nat
  late : Bool := false
  done : Bool := false
  sent : Bool := false
  copies : Nat := 0
  far  : List (Nat × Nat) := []
  got  : Option (List W8) := none
  deriving DecidableEq, Repr

/-- What an engine operation is. -/
inductive EKind where
  | copy (scope : Nat) (bar : Option Nat)
  | tile (dst : Nat)
  | store
  | acc (dst : Nat)
  | cy (dst : Nat)
  | qst (ins : Fields) (sop : List W64)
  /-- The reads of the scales of an array operation (R310). -/
  | scales (op : Nat)
  /-- An instruction without a handle that an earlier operation holds back (R299), with the shape it works on. -/
  | act (i : Instr) (shape : W64)
  deriving DecidableEq, Repr

/-- A queued engine operation (R119, R133): `after` are the issue-queue operations of its warp that must be
performed before it may access. -/
structure EOp where
  id     : Nat
  wg     : Nat
  w      : Nat
  ctx    : Nat
  kind   : EKind
  slot   : Option Nat
  after  : List Nat := []
  units  : List EUnit := []
  reads  : List Place := []
  faults : List Cause := []
  cancelled : Bool := false
  begun  : Bool := false
  ueLines : List Nat := []
  deriving DecidableEq, Repr

/-- An array operation (R309 to R312): its members with the handle slot of each, the gang's MEMBERS, the local offset of
B, and the `oprdy`s accepted before it that are not complete (R313); `before` are the issue-queue operations of its warps that must be
performed before its scales are read (R133), and `shA` and `shB` the shapes as it has read them. -/
structure MmaOp where
  id      : Nat
  wg      : Nat
  queue   : Nat
  ctx     : Nat
  members : List (Nat × Nat)
  ins     : Fields
  gang    : W32
  sl      : W64
  after   : List Nat := []
  before  : List Nat := []
  shA     : W64 := 0
  shB     : W64 := 0
  issued  : Bool := false
  hist    : SMap (List W8) := []
  deriving DecidableEq, Repr

/-- A roll-call latch (R36): keyed by workgroup and MEMBERS; the encoding and scalar operands of the first
arrival; those arrived with their slots; the cycle of the first arrival. While its workgroup is evicted, `left` holds the
cycles counted and those left of the timeout (none when there is none); `limit` is the cycle at which a restored count expires (R38). -/
structure Latch where
  id      : Nat
  wg      : Nat
  members : W32
  ins     : Fields
  sop     : List W64
  arrived : List (Nat × Nat)
  since   : Nat
  left    : Option (Nat × Option Nat) := none
  limit   : Option Nat := none
  deriving DecidableEq, Repr

/-- A drain handle (`adrain`, R314) or `mlease` handle that waits: what fills it. -/
inductive HWaitFor where
  | drain (wg acc : Nat) (ops : List Nat) (faults : List Cause)
  | lease (ctx queue : Nat)
  | launch
  deriving DecidableEq, Repr

/-- The hall pass (R41): holder, operations issued under it, request list, the last cycle on which the holder had
a waiting `mma`. -/
structure Hall where
  holder  : Option (Nat × Nat) := none
  used    : Nat := 0
  queue   : List (Nat × Nat) := []
  lastUse : Nat := 0
  deriving DecidableEq, Repr

/-- A launch record (R60), read from memory. -/
structure Launch where
  kind    : Nat
  stage   : Nat
  wait    : Option Nat
  doneDec : Option Nat
  frame   : W32
  addr    : W64
  count   : Nat
  shape   : Shape
  slots   : W64
  arg     : W64
  deriving DecidableEq, Repr

/-- A record in a core's launch buffer (R61, R321): read from `va` when it is appended to queue `q`, with its handle slot. -/
structure LaunchWait where
  ctx    : Nat
  q      : Nat
  slot   : Nat
  va     : Nat
  wg     : Nat
  w      : Nat
  token  : Token
  deriving DecidableEq, Repr

/-- The feedback filter of a core (R166). -/
structure Filter where
  ctx  : Nat := 0
  keys : List (Nat × Nat × Nat × Nat × Nat) := []
  deriving DecidableEq, Repr

/-- A core. `ran` gives, for each context with a workgroup on the core, the cycle from which it has run (R194). -/
structure Core where
  cycle   : Nat := 0
  csr     : SMap W64 := []
  buf     : Buffer := []
  slots   : SMap HSlot := []
  fresh   : Nat := 0
  recent  : List Nat := []
  hwait   : List (Nat × HWaitFor) := []
  eops    : List EOp := []
  mma     : List MmaOp := []
  latches : List Latch := []
  hall    : Hall := {}
  launches : List LaunchWait := []
  filter  : Filter := {}
  ran     : SMap Nat := []
  deriving DecidableEq, Repr

/-- An exchange or move in progress (R21). -/
structure Exchange where
  out  : Option (Nat × Nat)
  inn  : Option (Nat × Nat)
  ends : Nat
  deriving DecidableEq, Repr

/-- A sub-core. -/
structure Sub where
  csr    : SMap W64 := []
  xchg   : Option Exchange := none
  issued : Option Nat := none
  deriving DecidableEq, Repr

/-- A cluster: its buffer, its CSRs and its power state (R349 to R355). `level` is the operating point in force and `want` the
one it moves to (0 to 15, or 16 for the boost point); `target` is T; `mv` is the rail in millivolts and `ramp` where it ramps to.
`therm`, `ilim` and `cap` are the throttle levels while those throttles act; `peak` is the highest current sample of the
interval. -/
structure Cluster where
  csr    : SMap W64 := []
  buf    : Buffer := []
  level  : Nat := 0
  want   : Nat := 0
  target : Nat := 0
  ramp   : Option Nat := none
  mv     : Nat := 550
  therm  : Option Nat := none
  ilim   : Option Nat := none
  cap    : Option Nat := none
  peak   : Nat := 0
  deriving DecidableEq, Repr

/-- A record set aside on a wait list (R59); `ready` once a decrement has admitted it (R63); `tested` is the
die count of the last test of a counter that could not be read (R363). -/
structure Aside where
  ctx   : Nat
  q     : Nat
  index : W32
  lrec  : Launch
  bytes : List W8
  slot  : Option (Nat × Nat)
  tested : Option Nat := none
  tokens : List Token := []
  ready  : Bool := false
  deriving DecidableEq, Repr

/-- An admitted launch whose workgroups are being placed (R16), or are running (for DONEDEC). Its record has the entry,
shape, slots and argument of its stage when it has one; `src` is the queue and the index a STAGE record came from; a
consumer workgroup's launch (R56) has its edge and records. -/
structure Grid where
  id      : Nat
  ctx     : Nat
  q       : Nat
  lrec    : Launch
  prio    : Nat := 0
  graph   : Option Nat := none
  src     : Option (Nat × W32) := none
  edge    : Option Nat := none
  recs    : List Rec := []
  next    : Nat := 0
  running : Nat := 0
  aged    : Nat := 0
  tokens  : List Token := []
  deriving DecidableEq, Repr

/-- A die. -/
structure Die where
  counter : Nat := 0
  csr     : SMap W64 := []
  buf     : Buffer := []
  rt      : List RtEntry := []
  ready   : List Nat := []
  aside   : List Aside := []
  grids   : List Grid := []
  sweepOn : Bool := false
  deriving DecidableEq, Repr

/-! Contexts, graphs and the causeway. -/

/-- A window entry in use (R176): host with its base, or peer with its base, peer index and context. -/
inductive Window where
  | host (base : Nat)
  | peer (base p pctx : Nat)
  deriving DecidableEq, Repr

/-- A cached translation (R155): the virtual page, whether it is 64 MiB, the leaf, the entry's address, and the window that the leaf
names, as its entry stood at the walk (R176). -/
structure TlbEntry where
  page : Nat
  big  : Bool
  leaf : W64
  host : Bool
  at_  : Nat
  win  : Option Window := none
  deriving DecidableEq, Repr

/-- A launch queue's notify page and set-aside count (R59, R173). -/
structure Queue where
  rejects : W32 := 0
  cause   : BitVec 8 := 0
  index   : BitVec 24 := 0
  slots   : List (W32 × Nat × Nat) := []
  tokens  : List (W32 × Token) := []
  deriving DecidableEq, Repr

/-- A stage entry of an admitted graph (R49), with the fields of STATUS the device keeps. -/
structure Stage where
  entry    : W64
  shape    : Shape
  kind     : Nat
  trigger  : Nat
  trigen   : Bool
  queue    : Nat
  closeDec : Option Nat
  state    : W64
  stateSz  : Nat
  slots    : W64
  arg      : W64
  cold     : Bool := false
  moving   : Bool := false
  satFault : Bool := false
  coldCnt  : Nat := 0
  deriving DecidableEq, Repr

/-- A frame of a stage (R54): workgroups started and ended, the outgoing edges on which the frame has closed,
whether the stage has closed it, how many started workgroups have closed each edge, the cores that wrote
render targets (R66), and the cores that ran its workgroups (R90). `toks` holds the tokens of the acts that have closed each edge and,
under 32, of the ends of workgroups (R65). -/
structure Frame where
  stage   : Nat
  frame   : W32
  started : Nat := 0
  ended   : Nat := 0
  edges   : SMap Nat := []
  closed  : List Nat := []
  done    : Bool := false
  cores   : List Nat := []
  ran     : List Nat := []
  toks    : SMap (List Token) := []
  deriving DecidableEq, Repr

/-- What waits for a free slot of a consumer's ring (R80, R81): a record, or the close of a frame behind its records. -/
inductive Queued where
  | rcd (r : Rec)
  | close (f : W32)
  deriving DecidableEq, Repr

/-- What a decoder has to do once the close it is making is made (R79): to close every frame through one, or to handle a datagram. -/
inductive Work where
  | upTo (f : W32)
  | gram (d : Datagram)
  deriving DecidableEq, Repr

/-- The decoder of a REMOTE edge (R73, R77 to R81): closed through `c`, frames named up to `top`, the highest SEQ accepted
with the bitmap of the 64 below it, and the stand-in cache, which maps a key to its last and previous accepted records with
their frames. `spill` is the overflow queue, with the closes between its records; while frame C + 1 is being closed, `closing` is the
next key whose stand-in is to be generated (R80, R81), and `work` is what comes after. `later` are
the records of frame C + 2 of a sparse edge, `noted` the closes kept; `since` starts the window of the oldest open frame;
`until_` is the frame from which the edge is REMOTE into this unit no more; `base` is the frame from which it is, where a
cut move made it so and its consumer stayed: records of earlier frames enter the cache too (R339). -/
structure Decoder where
  c       : W32
  top     : W32
  hi      : Option Nat := none
  seen    : BitVec 64 := 0
  cache   : SMap (List (W32 × List W8)) := []
  spill   : List Queued := []
  closing : Option Nat := none
  work    : List Work := []
  later   : List Rec := []
  noted   : List W32 := []
  since   : Option Nat := none
  until_  : Option W32 := none
  base    : Option W32 := none
  deriving DecidableEq, Repr

/-- The counters of an edge's STATS (R83; ORDVIOL of a raster edge, R335). -/
structure Stats where
  late : Nat := 0
  dup : Nat := 0
  standin : Nat := 0
  bad : Nat := 0
  overrun : Nat := 0
  tmoClose : Nat := 0
  heldDrop : Nat := 0
  deriving DecidableEq, Repr

/-- A primitive the rasteriser has accepted (R335), with the fine pixels whose tickets are not released (R337). -/
structure Prim where
  frame   : W32
  seq     : Nat
  tickets : List (Nat × Nat)
  deriving DecidableEq, Repr

/-- An edge of an admitted graph (R50) with what the unit keeps for it. `ring` holds the records whose slots are
taken, in delivery order; `given` tells those already delivered; `send` is the encoder's send ring; `closedAt` the
frames whose close has reached the distributor; `older` are the decoders of earlier REMOTE periods; `pinned` tells that the ring has
been in the L2 of its die (R52). -/
structure Edge where
  prod     : Nat
  cons     : Nat
  size     : Nat
  slots    : Nat
  perWg    : Nat
  kind     : Nat
  sparse   : Bool
  subst    : Nat
  pmask    : BitVec 16
  ringDie  : Nat
  peer     : Nat
  keys     : Nat
  window   : W32
  holdMax  : Nat
  deadline : Nat
  ring     : List (Rec × Bool) := []
  serial   : Nat := 0
  send     : List Rec := []
  sendAt   : Nat := 0
  sendClosed : List W32 := []
  credits  : Nat := 0
  closedAt : List W32 := []
  tokens   : List (W32 × Token) := []
  seq      : Nat := 0
  decoder  : Option Decoder := none
  older    : List Decoder := []
  pinned   : Bool := false
  stats    : Stats := {}
  held     : List Datagram := []
  heldRecs : Nat := 0
  prims    : List Prim := []
  primSeq  : List (W32 × Nat) := []
  batches  : List Rec := []
  deriving DecidableEq, Repr

/-- One stage of a cut move on this unit (R87). `toHere` when this is the new side. `got` are the satchel bytes
received, `last` the satchel's length once the datagram marked LAST has come. -/
structure StageMove where
  stage   : Nat
  toHere  : Bool
  sent    : Bool := false
  lastSeq : Option Nat := none
  got     : SMap W8 := []
  last    : Option Nat := none
  ready   : Bool := false
  cold    : Bool := false
  fault   : Bool := false
  since   : Option Nat := none
  started : Bool := false
  isOver  : Bool := false
  deriving DecidableEq, Repr

/-- A cut move (R85 to R87): its frame, vector and placement; the handle on the near unit; whether the far unit
has accepted. -/
structure Move where
  frame    : W32
  cut      : W32
  place    : BitVec 16
  handle   : Option (Nat × Nat) := none
  accepted : Bool := false
  stages   : List StageMove := []
  lost     : Bool := false
  deriving DecidableEq, Repr

/-- An admitted graph (R47 to R52). `cut` and `place` are live; while the move that brought them is in progress,
`oldCut` and `oldPlace` govern the frames before `since` (R86, R87). -/
structure Graph where
  at_     : W64
  queue   : Nat
  die     : Nat
  far     : Bool
  gid     : W32
  frame0  : W32
  stages  : List Stage
  edges   : List Edge
  cut     : W32
  place   : BitVec 16
  since   : W32
  oldCut  : W32
  oldPlace : BitVec 16
  cur     : W32
  frames  : List Frame := []
  move    : Option Move := none
  deriving DecidableEq, Repr

/-- A request this module has sent to a peer (R180) and what waits for its response. -/
structure PeerReq where
  tag  : Nat
  wg   : Nat
  w    : Nat
  op   : Nat
  unit_ : Nat
  write : Bool
  eng  : Option (Nat × Nat) := none
  deriving DecidableEq, Repr

/-- A read that the device itself makes of a peer's memory for a context (R362): its request, and the STATUS and bytes of the answer
once that has come; `used` once an act has taken it (log 77). -/
structure PeerRead where
  tag  : Nat
  pctx : Nat
  at_  : Nat
  n    : Nat
  answer : Option (Nat × List W8) := none
  used : Bool := false
  deriving DecidableEq, Repr

/-- One reliable stream in both directions between a context and a peer (R74). A datagram of `unacked` is marked once it
has been sealed and sent; those from SEQ `tried` on have not been tried yet (R363). -/
structure Stream where
  next    : Nat := 0
  unacked : List (Nat × Datagram × Bool) := []
  timer   : Option Nat := none
  rto     : Nat := 0
  expiries : Nat := 0
  expect  : Nat := 0
  store   : List (Nat × Datagram) := []
  nacked  : List Nat := []
  since   : Nat := 0
  ackDue  : Option Nat := none
  lastRx  : Nat := 0
  dead    : Bool := false
  reqs    : List PeerReq := []
  reads   : List PeerRead := []
  tag     : Nat := 0
  tried   : Nat := 0
  deriving DecidableEq, Repr

/-- What the device does for a context once a walk no longer waits on MIG, or a peer's answer has come (R154): a write of a graph
record's STATUS or STATS; a doorbell write; a datagram whose key is to be read; a datagram of a PEER edge, once the peer writes of the
warps `own` are answered (R65, R181); what the host's `tlb_inv` drops (all when none), once nothing uses it (R156). -/
inductive Pend where
  | write (va : Nat) (bs : List W8)
  | door (q : Nat) (w : W32)
  | gram (d : Datagram)
  | rel (d : Datagram)
  | send (p : Nat) (d : Datagram) (own : List (Nat × Nat))
  | inv (page : Option Nat)
  deriving DecidableEq, Repr

/-- A context (R169, R265). `depTokens` holds, for each counter, the decrements since it last reached 0 (R65); `decs`
are decrements whose walk waits on MIG, each with the die count at which it is read again (R154), `pend` other acts of the device
that wait so, with the count of die 0 (log 50). Keys are identities; selector 15 names the owner group's key. `csr` holds its CSRs by
number; an absent entry reads as the CSR's reset value. -/
structure Context where
  tag      : Nat
  group    : Nat
  keys     : List Nat
  csr      : SMap W64 := []
  tlb      : List TlbEntry := []
  graphs   : SMap Graph := []
  queues   : SMap Queue := []
  streams  : SMap Stream := []
  dying    : Option Cause := none
  dyingWarp : Option (Nat × Nat) := none
  dyingPc  : W64 := 0
  inner    : Cause := 0
  depTokens : SMap (List Token) := []
  decs     : List (Nat × List Token × Nat) := []
  pend     : List (Pend × Nat) := []
  deriving DecidableEq, Repr

/-- A fatal record (R193). -/
structure Fatal where
  cause : Cause
  inner : Cause
  warp  : BitVec 16
  pc    : W64
  deriving DecidableEq, Repr

/-- Attestation (R360, R361); `taken` is the nonce as it stood when a report was started. -/
structure Attest where
  nonce  : List W8 := List.replicate 32 0
  taken  : List W8 := []
  busy   : Bool := false
  index  : Nat := 0
  report : List W8 := []
  deriving DecidableEq, Repr

/-- A datagram as it leaves the module (R68, R69, R179): the Ethernet port, the peer-table index, IPv6 address and next-hop Ethernet address
it goes to, the UDP port that is its source and destination, and the DSCP. -/
structure Packet where
  port : Nat
  peer : Nat
  addr : Nat
  mac  : Nat
  udp  : BitVec 16
  dscp : BitVec 6
  gram : Datagram
  deriving DecidableEq, Repr

/-- What the host's last read returned. -/
inductive HostRead where
  | word (v : W64)
  | bytes (b : List W8)
  | unsupported
  deriving DecidableEq, Repr

/-- What the host does that has no row of its own: a read of n bytes at an offset of BAR 0 (R172, R173, R193, R264, R361), and a write
of the vector masks and of the function mask of MSI-X (R175). -/
inductive HostAct where
  | read (off n : Nat)
  | masks (vectors : W64) (function : Bool)
  deriving DecidableEq, Repr

/-- What a write to V has replaced (R223): its number, its address, and the bytes and their keys. -/
structure Overwritten where
  no   : Nat
  addr : Nat
  old  : List (Option W8 × Option Nat)
  deriving DecidableEq, Repr

/-- A storage word outside memory (R144): of a warp's registers, of a workgroup's storage, of a record in a ring (context, graph, edge,
slot, word). -/
inductive SoftWord where
  | reg (g w : Nat) (r : RegWord)
  | own (g word : Nat)
  | ring (t n e slot word : Nat)
  deriving DecidableEq, Repr

/-- One entry of the agenda (log 1, log 2): cycles that pass on each core and each die, what the host and
other device agents write to host memory meanwhile, lines in which soft errors appear, ring slots that peers free on the
PEER edges of contexts (R55: context, graph, edge, number), the ranges (address, length) of host memory in which the fabric
fails posted writes from then on (R178), those in which it fails reads (`downs`), soft errors of storage words outside memory
(uncorrectable or not), what the host does that has no row of its own (`acts`), and the step that then takes place. -/
structure Tick where
  cores : List (Nat × Nat) := []
  dies  : List (Nat × Nat) := []
  host  : List Host.Cell := []
  ue    : List Nat := []
  ce    : List Nat := []
  credits : List (Nat × Nat × Nat × Nat) := []
  fails : Option (List (Nat × Nat)) := none
  downs : Option (List (Nat × Nat)) := none
  soft  : List (Bool × SoftWord) := []
  acts  : List HostAct := []
  ev    : Instr
  deriving DecidableEq, Repr

/-- Which memory holds a byte that no write has reached: bytes of device memory (V) are unpredictable (R169),
and so is host memory until the host has written it: an unlisted address has no value of its own (log 4). -/
abbrev Memory := List Host.Cell

/-- The one canonical form of a memory: addresses strictly rising. No entry can equal what an unlisted address
reads as, because that is an unpredictable byte. -/
abbrev Memory.wf (m : Memory) : Bool := SMap.wf m

/-- The module and the world around it. -/
structure State where
  /-- Device memory at V (R119). -/
  vmem     : Memory := []
  /-- The key under which each byte of V was written (R168, R169). -/
  vkey     : SMap Nat := []
  /-- What writes to V have replaced, newest first, while a workgroup may still fetch it, and their number (R223). -/
  vlog     : List Overwritten := []
  vcount   : Nat := 0
  /-- Host memory at Y (R119). -/
  ymem     : Memory := []
  /-- Ranges of host memory in which the fabric fails posted writes (R178). -/
  hostFail : List (Nat × Nat) := []
  /-- Ranges of host memory of which reads fail, and the contexts of failed posted writes not reported yet (R178). -/
  hostDown : List (Nat × Nat) := []
  lost     : List Nat := []
  /-- Bytes of host memory as they stood before a host processor last wrote them (R177). -/
  hostPrev : List (Nat × Option W8) := []
  /-- Lines (device-physical address / 128) with an uncorrectable or a correctable error (R144, R145). -/
  ue       : List Nat := []
  ce       : List Nat := []
  cores    : SMap Core := []
  subs     : SMap Sub := []
  clusters : SMap Cluster := []
  dies     : SMap Die := []
  ctxs     : SMap Context := []
  /-- Module-scope CSRs (R265, R354, R356). -/
  csr      : SMap W64 := []
  wgs      : SMap Wg := []
  /-- Identities not yet used: workgroups, operations, latches, launches and graphs; keys; entry ages. -/
  nextId   : Nat := 1
  nextKey  : Nat := 1
  age      : Nat := 1
  groups   : SMap Nat := []
  fatal    : SMap Fatal := []
  evts     : List W64 := []
  evtOvf   : W32 := 0
  mwin     : W64 := 0
  msixMask : BitVec 64 := 0xFFFFFFFFFFFFFFFF
  msixOff  : Bool := false
  msixPend : BitVec 64 := 0
  msixSent : List Nat := []
  devCtl2  : BitVec 16 := 5
  attest   : Attest := {}
  fused    : Nat := 0
  refused  : Bool := false
  fwVersion : Nat := 0
  fwImage  : List W8 := []
  hostRead : Option HostRead := none
  /-- Datagrams handed to the network (R70). -/
  sent     : List Packet := []
  /-- Copybook: bytes of the buffer used, next SEQ, and whether capture or replay is running (R356). -/
  cpbPos   : Nat := 0
  cpbSeq   : Nat := 0
  cpbOn    : Bool := false
  /-- Watts drawn over the last interval (R351). -/
  watts    : Nat := 0
  /-- The model's own: the steps the agents and the world take next; the warp whose instruction issues; the
  sub-core whose turn it is when the agenda is empty; the counter at which free values are drawn. -/
  agenda   : List Tick := []
  cur      : Option (Nat × Nat) := none
  turn     : Nat := 0
  free     : Nat := 0
  deriving DecidableEq, Repr

/-- Why a step stops. -/
inductive Fault where
  /-- Raised by the meaning of an instruction form when no warp is issuing: an instruction is issued by a warp
  (R20), so there is nothing for it to act on. Safe: the machine never takes such a step. -/
  | noWarp
  deriving DecidableEq, Repr

/-- Why an instruction has no meaning. -/
inductive Refusal where
  /-- Raised by the dispatcher for an instruction this model does not give a meaning yet. Safe. -/
  | notModelled (mnemonic : String)
  deriving DecidableEq, Repr

/-- The machine right after module reset (R5): every field at its reset value. -/
def State.reset : State := {}

end Sys2Proof.Machine
end

