-- ==== Sys2Proof/Machine/Access.lean ====
section
/-! DEFINITION. Reading and updating the parts of the state: the one home of every register and the accessors
through which everything else goes. -/

namespace Sys2Proof.Machine

/-! Lanes. -/

/-- The bits of one lane. -/
def lane (v : Lanes) (l : Nat) : W32 := v.getD l 0

/-- A register from its 32 lanes. -/
def mkLanes (f : Nat → W32) : Lanes := (List.range 32).map f

/-- The register that holds 0 in every lane. -/
def zeroLanes : Lanes := mkLanes fun _ => 0

/-- The lanes of a mask from the new value, the others from the old one (R10). -/
def blend (mask : W32) (old new : Lanes) : Lanes :=
  mkLanes fun l => if mask.getLsbD l then lane new l else lane old l

/-- The numbers of the lanes in a mask, ascending. -/
def lanesOf (mask : W32) : List Nat := (List.range 32).filter fun l => mask.getLsbD l

/-- A mask from a predicate on lanes. -/
def maskOf (p : Nat → Bool) : W32 :=
  BitVec.ofNat 32 ((List.range 32).foldr (fun l acc => if p l then acc + 2 ^ l else acc) 0)

/-- Little-endian bytes of a word. -/
def bytes32 (x : W32) : List W8 := (List.range 4).map fun i => x.extractLsb' (8 * i) 8

/-- Little-endian bytes of a double word. -/
def bytes64 (x : W64) : List W8 := (List.range 8).map fun i => x.extractLsb' (8 * i) 8

/-- A number from its little-endian bytes. -/
def leVal : List W8 → Nat
  | [] => 0
  | b :: bs => b.toNat + 256 * leVal bs

/-- The n low bytes of a number, lowest first. -/
def leList : Nat → Nat → List W8
  | 0, _ => []
  | n + 1, x => BitVec.ofNat 8 x :: leList n (x / 256)

/-- Bits [hi:lo] of a number. -/
def bits (x hi lo : Nat) : Nat := x / 2 ^ lo % 2 ^ (hi + 1 - lo)

/-- One bit of a number. -/
def bit (x i : Nat) : Bool := decide (x / 2 ^ i % 2 = 1)

/-! Registers (R26, R207). `s63` reads 0 and discards writes. -/

/-- A scalar register. -/
def Warp.getS (x : Warp) (n : Nat) : W64 := if n = 63 then 0 else SMap.get n 0 x.sregs

/-- A write of words of the register files clears their soft errors (R145). -/
def Warp.clean (x : Warp) (p : RegWord → Bool) : Warp :=
  { x with ue := x.ue.filter fun r => !p r, ce := x.ce.filter fun r => !p r }

/-- What the instruction that is due has met of errors is that of an older one no more once the warp has issued (R145). -/
def Warp.due (x : Warp) : Warp := if x.metAt = x.lastAt then x else { x with met := [], metCode := [], metAt := x.lastAt }

/-- Writes a scalar register. -/
def Warp.setS (x : Warp) (n : Nat) (v : W64) : Warp :=
  if n = 63 then x else Warp.clean { x with sregs := SMap.put n v x.sregs } fun r => decide (r = .s n)

/-- A predicate register. -/
def Warp.getP (x : Warp) (n : Nat) : W32 := SMap.get n 0 x.pregs

/-- Writes a predicate register whole. -/
def Warp.setP (x : Warp) (n : Nat) (v : W32) : Warp :=
  Warp.clean { x with pregs := SMap.put n v x.pregs } fun r => decide (r = .p n)

/-- A vector register. -/
def Warp.getV (x : Warp) (n : Nat) : Lanes := SMap.get n zeroLanes x.vregs

/-- Writes a vector register whole. -/
def Warp.setV (x : Warp) (n : Nat) (v : Lanes) : Warp := { x with vregs := SMap.put n v x.vregs }

/-- Writes the lanes of a mask (R10). -/
def Warp.setVm (x : Warp) (mask : W32) (n : Nat) (v : Lanes) : Warp :=
  (x.setV n (blend mask (x.getV n) v)).clean fun r => match r with | .v m l => decide (m = n) && mask.getLsbD l | _ => false

/-- The full/empty bit of a register (R26); `s63` is always full. -/
def Warp.isEmpty (x : Warp) (r : Reg) : Bool := decide (r ≠ .s 63) && x.empty.contains r

/-- Marks a register empty. -/
def Warp.markEmpty (x : Warp) (r : Reg) : Warp :=
  if r = .s 63 ∨ x.empty.contains r then x else { x with empty := r :: x.empty }

/-- Marks a register full. -/
def Warp.markFull (x : Warp) (r : Reg) : Warp := { x with empty := x.empty.filter (· ≠ r) }

/-- Writes a value into a register, in the lanes of a mask. -/
def Warp.write (x : Warp) (mask : W32) : RegVal → Warp
  | .s n v => x.setS n v
  | .v n v => x.setVm mask n v

/-- The register a value goes to. -/
def RegVal.reg : RegVal → Reg
  | .s n _ => .s n
  | .v n _ => .v n

/-! Parts of the module. Numbers: core k of the module, its die k / 96, its cluster k / 12 (die × 8 + cluster),
sub-core j of core k at 4 k + j (R259, R264). -/

/-- A core. -/
def State.core (s : State) (c : Nat) : Core := SMap.get c {} s.cores
/-- Updates a core. -/
def State.modCore (s : State) (c : Nat) (f : Core → Core) : State :=
  { s with cores := SMap.put c (f (s.core c)) s.cores }
/-- A sub-core. -/
def State.sub (s : State) (j : Nat) : Sub := SMap.get j {} s.subs
/-- Updates a sub-core. -/
def State.modSub (s : State) (j : Nat) (f : Sub → Sub) : State :=
  { s with subs := SMap.put j (f (s.sub j)) s.subs }
/-- A cluster. -/
def State.cluster (s : State) (k : Nat) : Cluster := SMap.get k {} s.clusters
/-- Updates a cluster. -/
def State.modCluster (s : State) (k : Nat) (f : Cluster → Cluster) : State :=
  { s with clusters := SMap.put k (f (s.cluster k)) s.clusters }
/-- A die. -/
def State.die (s : State) (d : Nat) : Die := SMap.get d {} s.dies
/-- Updates a die. -/
def State.modDie (s : State) (d : Nat) (f : Die → Die) : State :=
  { s with dies := SMap.put d (f (s.die d)) s.dies }

/-- The cluster of a core. -/
def clusterOf (c : Nat) : Nat := c / 12
/-- The die of a core. -/
def dieOf (c : Nat) : Nat := c / 96

/-- A context that is not there. -/
def Context.none (t : Nat) : Context := { tag := t, group := 0, keys := [] }
/-- A context. -/
def State.ctx (s : State) (t : Nat) : Context := SMap.get t (Context.none t) s.ctxs
/-- A context exists and is not being removed. -/
def State.live (s : State) (t : Nat) : Bool :=
  match SMap.find t s.ctxs with
  | some c => c.dying.isNone
  | .none => false
/-- A context exists, being removed or not. -/
def State.hasCtx (s : State) (t : Nat) : Bool := (SMap.find t s.ctxs).isSome
/-- Updates a context that exists. -/
def State.modCtx (s : State) (t : Nat) (f : Context → Context) : State :=
  match SMap.find t s.ctxs with
  | some c => { s with ctxs := SMap.put t (f c) s.ctxs }
  | .none => s

/-- The shape of no workgroup. -/
def Shape.none : Shape := { warps := 0, vregs := 0, localK := 0, tiles := 0, accs := 0, sbars := 0 }
/-- A workgroup that is not there. -/
def Wg.none : Wg := { ctx := 0, queue := 0, basePrio := 0, core := 0, shape := Shape.none }
/-- A workgroup. -/
def State.wg (s : State) (g : Nat) : Wg := SMap.get g Wg.none s.wgs
/-- A workgroup exists. -/
def State.hasWg (s : State) (g : Nat) : Bool := (SMap.find g s.wgs).isSome
/-- Updates a workgroup that exists. -/
def State.modWg (s : State) (g : Nat) (f : Wg → Wg) : State :=
  match SMap.find g s.wgs with
  | some x => { s with wgs := SMap.put g (f x) s.wgs }
  | .none => s

/-- The element at a place of a list, changed. -/
def modAt {α : Type} (f : α → α) : Nat → List α → List α
  | _, [] => []
  | 0, x :: xs => f x :: xs
  | n + 1, x :: xs => x :: modAt f n xs

/-- A warp of a workgroup. -/
def Wg.warp (x : Wg) (w : Nat) : Warp := x.warps.getD w {}
/-- A warp. -/
def State.warp (s : State) (g w : Nat) : Warp := (s.wg g).warp w
/-- Updates a warp. -/
def State.modWarp (s : State) (g w : Nat) (f : Warp → Warp) : State :=
  s.modWg g fun x => { x with warps := modAt f w x.warps }

/-- The core that runs a workgroup. -/
def State.coreOf (s : State) (g : Nat) : Nat := (s.wg g).core
/-- The sub-core of warp w: (b + w) mod 4 (R12), numbered over the module. -/
def State.subOf (s : State) (g w : Nat) : Nat := 4 * s.coreOf g + ((s.wg g).b + w) % 4
/-- The core's cycle counter, as seen by a warp (R251). -/
def State.now (s : State) (g : Nat) : Nat := (s.core (s.coreOf g)).cycle
/-- The key identity of a selector: 0 to 14 are the context's own, 15 is its owner group's (R168). -/
def State.keyOf (s : State) (t sel : Nat) : Nat :=
  if sel = 15 then SMap.get (s.ctx t).group 0 s.groups else (s.ctx t).keys.getD sel 0

/-- Every warp of the module as (workgroup, warp). -/
def State.allWarps (s : State) : List (Nat × Nat) :=
  s.wgs.flatMap fun p => (List.range p.2.warps.length).map fun w => (p.1, w)

/-! Steps of one cycle. -/

/-- Time passes on a core in a tick. -/
def Tick.onCore (c : Nat) (k : Tick) : Bool := k.cores.any fun p => decide (p.1 = c) && decide (0 < p.2)
/-- Time passes on a die in a tick. -/
def Tick.onDie (d : Nat) (k : Tick) : Bool := k.dies.any fun p => decide (p.1 = d) && decide (0 < p.2)

/-- A count that expires. -/
def isTimeout : Instr → Bool
  | .rollCallTimeout _ _ => true
  | .sbarTimeout _ _ => true
  | .satchelDeadlineExpiry _ _ _ => true
  | _ => false

/-- What else the agenda holds for the present cycle of a counter, that is, before a tick in which time passes on it, comes before a
count that expires in that cycle (R37, R88, R143); none when nothing else is left. -/
def State.sameCycle (s : State) (passes : Tick → Bool) (ev : Instr) : Option State :=
  let now := s.agenda.takeWhile fun k => !passes k
  if now.all fun k => isTimeout k.ev then none
  else some { s with agenda := now ++ [{ ev := ev }] ++ s.agenda.drop now.length }

/-! Free values. -/

/-- The bytes of a read, with a fresh free value wherever nothing determines the byte (R169), and the counter
advanced past those drawn. -/
def State.resolve (s : State) (l : List (Option W8)) : List W8 × State :=
  ((List.range l.length).map fun i => (l.getD i none).getD (Config.freeByte (s.free + i)),
    if l.all (·.isSome) then s else { s with free := s.free + l.length })

/-- A fresh identity. -/
def State.fresh (s : State) : Nat × State := (s.nextId, { s with nextId := s.nextId + 1 })

end Sys2Proof.Machine
end

