-- ==== Sys2Proof/Machine/Operands.lean ====
section
/-! DEFINITION. Operands (R207, R208, R213, R28, R29): the registers an instruction reads and writes, their
checks, what is captured of them, and the conditions its issue waits for. -/

namespace Sys2Proof.Machine

/-- An operand of this use is an even/odd pair (R207, R267). -/
def Use.pair (u : Use) (f : Fields) : Bool :=
  match u with
  | .v => f.ty.isPair
  | .vs => (Ty.ofCode f.sc.toNat).isPair
  | _ => false

/-- The registers of an operand. -/
def Use.regs (u : Use) (f : Fields) (x : BitVec 8) : List Reg :=
  match u with
  | .s => [.s x.toNat]
  | .v => if u.pair f then [.v x.toNat, .v (x.toNat + 1)] else [.v x.toNat]
  | .vs => if u.pair f then [.v x.toNat, .v (x.toNat + 1)] else [.v x.toNat]
  | .off => [.v x.toNat]
  | .quad => (List.range 4).map fun i => .v (x.toNat + i)
  | .vg n => (List.range n).map fun i => .v (x.toNat + i)
  | _ => []

/-- An operand names a group of more than two vector registers (R190). -/
def Use.isGroup (u : Use) : Bool :=
  match u with
  | .quad => true
  | .vg n => decide (2 < n)
  | _ => false

/-- The first register of each operand, in the order of R32. -/
def Row.heads (r : Row) (f : Fields) : List Reg :=
  [(r.sa, f.sa), (r.sb, f.sb), (r.sc, f.sc), (r.sd, f.sd), (r.dst, f.dst), (r.dst2, f.dst2)].flatMap fun p => (p.1.regs f p.2).take 1

/-- The sources with the FEB bit of each, in the order SA, SB, SC, SD; SD has none (R208). -/
def Row.sources (r : Row) (f : Fields) : List (Reg × Bool) :=
  (r.sa.regs f f.sa).map (·, f.feb.getLsbD 0) ++ (r.sb.regs f f.sb).map (·, f.feb.getLsbD 1)
    ++ (r.sc.regs f f.sc).map (·, f.feb.getLsbD 2) ++ (r.sd.regs f f.sd).map (·, false)

/-- The destinations, DST then DST2. -/
def Row.dests (r : Row) (f : Fields) : List Reg := r.dst.regs f f.dst ++ r.dst2.regs f f.dst2

/-- The registers of the source groups (R190). -/
def Row.groups (r : Row) (f : Fields) : List Reg :=
  (if r.sa.isGroup then r.sa.regs f f.sa else []) ++ (if r.sb.isGroup then r.sb.regs f f.sb else [])
    ++ (if r.sc.isGroup then r.sc.regs f f.sc else [])

/-- The sources that a re-issued entry reads from the register file: its groups beyond the first two (R190). -/
def Row.lateSources (r : Row) (f : Fields) : List (Reg × Bool) :=
  let g := fun (u : Use) (x : BitVec 8) (b : Bool) => if u.isGroup then ((u.regs f x).drop 2).map (·, b) else []
  g r.sa f.sa (f.feb.getLsbD 0) ++ g r.sb f.sb (f.feb.getLsbD 1) ++ g r.sc f.sc (f.feb.getLsbD 2)

/-- The sources whose full/empty bits an instruction minds: `sli.hi` reads its destination too (R238); `htest` and
`hcancel` read theirs without waiting and without trapping (R256). -/
def sourcesOf (i : Instr) (r : Row) (f : Fields) : List (Reg × Bool) :=
  match i with
  | .sliHi _ => [(.s f.dst.toNat, false)]
  | .htest _ => []
  | .hcancel _ => []
  | _ => r.sources f

/-- The sources an issue reads from the register file. -/
def readsOf (i : Instr) (r : Row) (f : Fields) (re : Bool) : List (Reg × Bool) :=
  match re, i with
  | true, .sliHi _ => sourcesOf i r f
  | true, _ => r.lateSources f
  | false, _ => sourcesOf i r f

/-- The registers that an issue reads from the register file, with those of `htest` and `hcancel`. -/
def fileReads (i : Instr) (r : Row) (f : Fields) (re : Bool) : List Reg :=
  match re, i with
  | false, .htest _ => [.s f.sa.toNat]
  | false, .hcancel _ => [.s f.sa.toNat]
  | _, _ => (readsOf i r f re).map (·.1)

/-- A pair names an odd register (R207): 0x2D. -/
def Row.oddPair (r : Row) (f : Fields) : Bool :=
  [(r.dst, f.dst), (r.sa, f.sa), (r.sb, f.sb), (r.sc, f.sc), (r.sd, f.sd), (r.dst2, f.dst2)].any fun p =>
    p.1.pair f && decide (p.2.toNat % 2 = 1)

/-- The vector registers of a warp (R11): `.vregs` rounded up to a multiple of 8. -/
def Shape.vregs8 (sh : Shape) : Nat := (sh.vregs + 7) / 8 * 8

/-- An operand lies outside the workgroup's reservation (R14): 0x1E. -/
def Use.outside (u : Use) (sh : Shape) (f : Fields) (x : BitVec 8) : Bool :=
  match u with
  | .t => decide (sh.tiles ≤ x.toNat)
  | .tsh => decide (sh.tiles ≤ x.toNat)
  | .a => decide (sh.accs ≤ x.toNat)
  | .cy => decide (sh.accs ≤ x.toNat)
  | .sbar => decide (sh.sbars ≤ x.toNat)
  | _ => (u.regs f x).any fun q =>
    match q with
    | .v n => decide (sh.vregs8 ≤ n)
    | .s _ => false

/-- Some operand lies outside the reservation. -/
def Row.outside (r : Row) (sh : Shape) (f : Fields) : Bool :=
  [(r.dst, f.dst), (r.sa, f.sa), (r.sb, f.sb), (r.sc, f.sc), (r.sd, f.sd), (r.dst2, f.dst2)].any fun p =>
    p.1.outside sh f p.2

/-- A register is held empty by a replay entry, so that a handler must not read it (R186), until the handler writes it. -/
def Warp.replayHeld (x : Warp) (q : Reg) : Bool := (x.replay.any fun e => e.held.contains q) && !x.rewritten.contains q

/-- A handler writes registers: those that replay entries hold empty are filled (R186). -/
def Warp.takeOver (x : Warp) (l : List Reg) : Warp :=
  let k := l.filter x.replayHeld
  { k.foldl Warp.markFull x with rewritten := k ++ x.rewritten }

/-- An empty source is read with FEB set, or is replay-held (R28, R186): 0x08. -/
def febTrap (x : Warp) (src : List (Reg × Bool)) : Bool :=
  src.any fun p => x.isEmpty p.1 && (p.2 || x.replayHeld p.1)

/-- The empty registers that an issue waits for: sources read with FEB clear (R28), and destinations (R29) but those that the entry itself
holds and those a handler may fill (R186). A replay-held source does not wait: it raises 0x08 (R186). -/
def emptyWaits (x : Warp) (re : Option Issued) (src : List (Reg × Bool)) (dst : List Reg) : List Reg :=
  let own := match re with | some e => e.held | none => []
  (src.filter fun p => x.isEmpty p.1 && !p.2 && !x.replayHeld p.1).map (·.1)
    ++ dst.filter fun q => x.isEmpty q && !own.contains q && !x.replayHeld q

/-- The conditions on registers that an issue waits for, in the order of R32: the first register of each operand, then the rest of the
groups (a pair is a group of two here, DEDUCED, log 74); and destinations in a source group of an unfinished instruction (R190). -/
def operandWaits (x : Warp) (re : Option Issued) (heads : List Reg) (src : List (Reg × Bool)) (dst : List Reg) : List Wait :=
  let l := emptyWaits x re src dst
  ((l.filter heads.contains) ++ l.filter fun q => !heads.contains q).map .full
    ++ (dst.filter fun q => x.ops.any fun o => o.ins.group.contains q).map .group

/-- What R189 captures of a scalar or predicate operand. -/
def Use.sop (u : Use) (x : Warp) (i : BitVec 8) : W64 :=
  match u with
  | .s => x.getS i.toNat
  | .p => (x.getP i.toNat).setWidth 64
  | _ => 0

/-- The registers of an operand of which R189 and R190 capture the first two. -/
def Use.captured (u : Use) (f : Fields) (x : BitVec 8) : List Reg :=
  match u with
  | .grp => [.v x.toNat, .v (x.toNat + 1)]
  | _ => u.regs f x

/-- What R189 captures of a vector operand: its first register and its second. -/
def Use.vop (u : Use) (sh : Shape) (f : Fields) (x : Warp) (i : BitVec 8) : List Lanes :=
  let l := (u.captured f i).filterMap fun q =>
    match q with
    | .v n => some (if n < sh.vregs8 then x.getV n else zeroLanes)
    | .s _ => none
  [l.getD 0 zeroLanes, l.getD 1 zeroLanes]

/-- The lanes for which ACTIVE holds (R206): the guard for class L; exec for the others. -/
def activeMask (r : Row) (f : Fields) (x : Warp) : W32 :=
  if r.guard = .L ∧ f.pen then
    x.exec &&& (if f.pneg then ~~~(x.getP f.pred.toNat) else x.getP f.pred.toNat)
  else x.exec

/-- The bits of an instruction, those beyond its length 0 (R189). -/
def wordOf (r : Row) (f : Fields) : W128 := f.word r.opc

/-- The opcodes of the long-latency producers (R27): `saddr`, the loads, the atomics, `resq`, `recv`, `gstat`, the lookups, `rtrd`, and
every instruction that returns a handle (R31, R319). -/
def producers : List Nat :=
  [0x16, 0x80, 0x82, 0x84, 0x86, 0x88, 0x89, 0x8B, 0x92, 0xA1, 0xA2, 0xA5, 0xA8, 0xA9, 0xAA, 0xAB, 0xAC, 0xAD, 0xAF, 0xC2, 0xC4, 0xC6, 0xC7,
   0xC8, 0xC9, 0xCA, 0xCB, 0xCC, 0xD5]

/-- The destinations that an instruction keeps empty from its issue on, inside the reservation (R27, R186). -/
def Row.keeps (r : Row) (f : Fields) (sh : Shape) : List Reg :=
  if producers.contains r.opc.toNat then
    (r.dests f).filter fun q => match q with | .s n => decide (n ≠ 63) | .v n => decide (n < sh.vregs8)
  else []

/-- The captured form of an instruction about to issue (R189), with the destinations it keeps empty. -/
def capture (r : Row) (f : Fields) (sh : Shape) (x : Warp) (pc : W64) : Issued :=
  { insn := wordOf r f, orig := wordOf r f, pc := pc, lmask := activeMask r f x
    sop := [r.sa.sop x f.sa, r.sb.sop x f.sb, r.sc.sop x f.sc, r.sd.sop x f.sd]
    vop := r.sa.vop sh f x f.sa ++ r.sb.vop sh f x f.sb ++ r.sc.vop sh f x f.sc ++ r.sd.vop sh f x f.sd
    held := r.keeps f sh, group := r.groups f }

end Sys2Proof.Machine
end

