-- ==== Sys2Proof/Machine/Csr.lean ====
section
/-! DEFINITION. The CSRs (R261 to R266, R354, R356): one table of fields, from which reading, writing, the
privilege rule and the reset values all follow. -/

namespace Sys2Proof.Machine

/-- How a field may be accessed: R; RW; W (reads 0); "write 0 clears"; "write 1 clears". -/
inductive CsrAcc where
  | r | rw | w | w0c | w1c
  deriving DecidableEq, Repr

/-- A field of a CSR. -/
structure CsrField where
  hi   : Nat
  lo   : Nat
  acc  : CsrAcc
  priv : Bool := false
  reset : Nat := 0
  deriving DecidableEq, Repr

/-- The scope of a CSR, by its number (R265, R354). -/
inductive CsrScope where
  | warp | ctx | core | sub | cluster | die | module
  deriving DecidableEq, Repr

/-- A privileged read-write field. -/
def rwp (hi lo : Nat) (reset : Nat := 0) : CsrField := { hi := hi, lo := lo, acc := .rw, priv := true, reset := reset }
/-- A read-write field. -/
def rwf (hi lo : Nat) (reset : Nat := 0) : CsrField := { hi := hi, lo := lo, acc := .rw, reset := reset }
/-- A read-only field. -/
def rof (hi lo : Nat) (reset : Nat := 0) : CsrField := { hi := hi, lo := lo, acc := .r, reset := reset }
/-- A field that a write of 0 clears. -/
def w0f (hi lo : Nat) : CsrField := { hi := hi, lo := lo, acc := .w0c }

/-- The fields of each CSR but the reserved ones; none for a number that is not assigned. -/
def csrFields (n : Nat) : Option (CsrScope × List CsrField) :=
  match n with
  | 0x000 => some (.warp, [rof 0 0, rof 1 1, rwp 2 2, rwp 3 3, rof 8 4])
  | 0x001 => some (.warp, [rof 5 0, rof 6 6])
  | 0x002 => some (.warp, [rof 63 0])
  | 0x003 => some (.warp, [rwp 63 0])
  | 0x004 => some (.warp, [rof 63 0])
  | 0x005 => some (.warp, [rof 31 0])
  | 0x006 => some (.warp, [rwp 31 0])
  | 0x007 => some (.warp, [rof 63 0])
  | 0x008 => some (.warp, [rof 31 0])
  | 0x100 => some (.ctx, [rwp 0 0, rwp 55 2])
  | 0x101 => some (.ctx, [rwp 55 16])
  | 0x102 => some (.ctx, [rwp 55 16])
  | 0x103 => some (.ctx, [rwp 55 16, rwp 59 56, rwp 60 60])
  | 0x104 => some (.ctx, [rwp 2 0, rwp 3 3, rwp 55 13, rwp 63 60])
  | 0x105 => some (.ctx, [{ hi := 0, lo := 0, acc := .w, priv := true }, { hi := 55, lo := 16, acc := .w, priv := true }])
  | 0x106 => some (.ctx, [rwp 55 5])
  | 0x107 => some (.ctx, [rwp 16 0])
  | 0x108 => some (.ctx, [rwp 4 0, rwp 5 5, rwp 55 6])
  | 0x109 => some (.ctx, [w0f 31 0])
  | 0x10A => some (.ctx, [rwp 0 0])
  | 0x10B => some (.ctx, [w0f 15 0, w0f 30 16, { hi := 31, lo := 31, acc := .w1c }])
  | 0x10C => some (.ctx, [rwp 15 0 0xC0A8, rwp 23 16, rwp 24 24, rwp 30 25, rwp 36 31, rwp 52 37 4096])
  | 0x10D => some (.ctx, [rwp 31 0 250000])
  | 0x10E => some (.ctx, [rwp 31 0 25000000])
  | 0x10F => some (.ctx, [rwp 7 0 8])
  | 0x110 => some (.ctx, [rwp 55 6])
  | 0x111 => some (.ctx, [rwp 0 0])
  | 0x112 => some (.ctx, [rwp 55 6])
  | 0x113 => some (.ctx, [rwp 55 6])
  | 0x114 => some (.ctx, [{ hi := 5, lo := 0, acc := .w }])
  | 0x115 => some (.ctx, [rwp 55 12])
  | 0x116 => some (.ctx, [rwp 31 0 0x01000000])
  | 0x117 => some (.ctx, [rwp 0 0])
  | 0x118 => some (.ctx, [rwf 3 0 15])
  | 0x119 => some (.ctx, [rwp 15 0])
  | 0x11A => some (.ctx, [rwp 55 6])
  | 0x11B => some (.ctx, [rwp 55 6])
  | 0x11C => some (.ctx, [w0f 31 0])
  | 0x11D => some (.ctx, [w0f 15 0, w0f 31 16])
  | 0x200 => some (.core, [rwf 31 0 0x00100000])
  | 0x201 => some (.core, [rwf 15 0 64])
  | 0x202 => some (.core, [w0f 15 0, w0f 31 16])
  | 0x203 => some (.core, [w0f 31 0])
  | 0x204 => some (.core, [rwf 31 0 0x01000000])
  | 0x208 => some (.core, [rwp 0 0, rwp 1 1, rwp 55 2])
  | 0x209 => some (.core, [rwp 0 0, rwp 1 1, rwp 55 2])
  | 0x20A => some (.core, [rwp 0 0, rwp 1 1, rwp 55 2])
  | 0x20B => some (.core, [rwp 0 0, rwp 1 1, rwp 55 2])
  | 0x20C => some (.core, [rwp 0 0, rwp 1 1, rwp 55 2])
  | 0x20D => some (.core, [rwp 0 0, rwp 1 1, rwp 55 2])
  | 0x20E => some (.core, [rwp 0 0, rwp 1 1, rwp 55 2])
  | 0x20F => some (.core, [rwp 0 0, rwp 1 1, rwp 55 2])
  | 0x210 => some (.core, [rwp 11 0])
  | 0x280 => some (.sub, [w0f 31 0])
  | 0x300 => some (.cluster, [rwf 15 0 160])
  | 0x400 => some (.die, [rwp 6 0 8])
  | 0x401 => some (.die, [rwp 4 0, rwp 55 6])
  | 0x402 => some (.die, [rwp 55 4])
  | 0x403 => some (.die, [rwp 8 0 32, rwp 17 9 128, rwp 18 18])
  | 0x404 => some (.die, [rwp 20 0])
  | 0x405 => some (.die, [{ hi := 63, lo := 0, acc := .r, priv := true }])
  | 0x406 => some (.die, [rwp 31 0 0x00400000])
  | 0x500 => some (.module, [rwp 55 5])
  | 0x600 => some (.module, [rwp 3 0 15, rwp 4 4])
  | 0x601 => some (.cluster, [rof 3 0, rof 7 4, rof 8 8, rof 9 9, rof 10 10, rof 11 11])
  | 0x602 => some (.cluster, [rof 11 0, rof 25 16])
  | 0x603 => some (.cluster, [rwp 11 0 0xC00])
  | 0x604 => some (.cluster, [rof 7 0])
  | 0x605 => some (.module, [rwp 7 0 105])
  | 0x606 => some (.cluster, [w0f 15 0, w0f 31 16])
  | 0x610 => some (.cluster, [rof 11 0 0xFFF, rof 12 12])
  | 0x620 => some (.module, [rwp 1 0, rwp 13 2, rwp 18 14, w0f 19 19, w0f 20 20])
  | 0x621 => some (.module, [rwp 55 12])
  | _ => none

/-- The value of a field. -/
def fieldOf (v : Nat) (f : CsrField) : Nat := bits v f.hi f.lo

/-- The reset value of a CSR. -/
def csrReset (n : Nat) : W64 :=
  match csrFields n with
  | some (_, fs) => BitVec.ofNat 64 (fs.foldr (fun f acc => f.reset * 2 ^ f.lo + acc) 0)
  | none => 0

/-- What a write leaves in one field (R261). -/
def fieldWrite (f : CsrField) (old v : Nat) : Nat :=
  match f.acc with
  | .r => fieldOf old f
  | .rw => fieldOf v f
  | .w => 0
  | .w0c => if fieldOf v f = 0 then 0 else fieldOf old f
  | .w1c => if fieldOf v f = 1 then 0 else fieldOf old f

/-- What a write leaves in a CSR; reserved bits are 0 (R261). -/
def csrMerge (fs : List CsrField) (old v : W64) : W64 :=
  BitVec.ofNat 64 (fs.foldr (fun f acc => fieldWrite f old.toNat v.toNat * 2 ^ f.lo + acc) 0)

/-- A CSR has a privileged field. -/
def somePriv (fs : List CsrField) : Bool := fs.any (·.priv)
/-- Every field of a CSR but the reserved ones is privileged. -/
def allPriv (fs : List CsrField) : Bool := fs.all (·.priv)

/-- Warp, sub-core, core and context scope: the second row of R262. -/
def CsrScope.near : CsrScope → Bool
  | .warp => true | .ctx => true | .core => true | .sub => true | _ => false

/-- Whether `csrr` may read (R262). -/
def mayRead (sc : CsrScope) (fs : List CsrField) (ih : Bool) : Bool :=
  if !somePriv fs then true
  else if sc.near then !allPriv fs || ih
  else ih

/-- Whether `csrw` may write (R262). -/
def mayWrite (sc : CsrScope) (fs : List CsrField) (ih : Bool) : Bool :=
  if !somePriv fs then true
  else if sc.near then ih
  else false

/-! The stored CSRs of each unit; an absent entry is at its reset value. -/

/-- A context CSR. -/
def State.cctx (s : State) (t n : Nat) : W64 := SMap.get n (csrReset n) (s.ctx t).csr
/-- A core CSR. -/
def State.ccore (s : State) (c n : Nat) : W64 := SMap.get n (csrReset n) (s.core c).csr
/-- A sub-core CSR. -/
def State.csub (s : State) (j n : Nat) : W64 := SMap.get n (csrReset n) (s.sub j).csr
/-- A cluster CSR as stored; `clk_stat` and the rail voltage come from the cluster's own fields (R354); `rail_i` reads its
reset value until the first sample or control interval (log 7). -/
def State.ccluster (s : State) (k n : Nat) : W64 :=
  let x := s.cluster k
  match n with
  | 0x601 =>
    BitVec.ofNat 64 ((if x.level = 16 then 15 else x.level) + 16 * x.target + (if x.ramp.isSome then 256 else 0)
      + (if x.therm.isSome then 512 else 0)
      + (if x.ilim.isSome ∨ x.cap.isSome then 1024 else 0) + (if x.level = 16 then 2048 else 0))
  | 0x602 =>
    match SMap.find 0x602 x.csr with
    | none => csrReset 0x602
    | some v => BitVec.ofNat 64 (bits v.toNat 11 0 + x.mv * 65536)
  | _ => SMap.get n (csrReset n) x.csr
/-- A die CSR. -/
def State.cdie (s : State) (d n : Nat) : W64 := SMap.get n (csrReset n) (s.die d).csr
/-- A module CSR. -/
def State.cmod (s : State) (n : Nat) : W64 := SMap.get n (csrReset n) s.csr

/-- Sets a context CSR. -/
def State.putCtx (s : State) (t n : Nat) (v : W64) : State := s.modCtx t fun c => { c with csr := SMap.put n v c.csr }
/-- Sets a core CSR. -/
def State.putCore (s : State) (k n : Nat) (v : W64) : State := s.modCore k fun c => { c with csr := SMap.put n v c.csr }
/-- Sets a sub-core CSR. -/
def State.putSub (s : State) (k n : Nat) (v : W64) : State := s.modSub k fun c => { c with csr := SMap.put n v c.csr }
/-- Sets a cluster CSR. -/
def State.putCluster (s : State) (k n : Nat) (v : W64) : State :=
  s.modCluster k fun c => { c with csr := SMap.put n v c.csr }
/-- Sets a die CSR. -/
def State.putDie (s : State) (k n : Nat) (v : W64) : State := s.modDie k fun c => { c with csr := SMap.put n v c.csr }
/-- Sets a module CSR. -/
def State.putMod (s : State) (n : Nat) (v : W64) : State := { s with csr := SMap.put n v s.csr }

/-- A saturating count in a field [hi:lo] of a CSR value, n more. -/
def satAdd (v : W64) (hi lo n : Nat) : W64 :=
  let x := v.toNat
  let top := 2 ^ (hi + 1 - lo) - 1
  BitVec.ofNat 64 (x - bits x hi lo * 2 ^ lo + min top (bits x hi lo + n) * 2 ^ lo)

/-- Counts in a context CSR, saturating. -/
def State.countCtx (s : State) (t n hi lo k : Nat) : State := s.putCtx t n (satAdd (s.cctx t n) hi lo k)
/-- Counts in a core CSR, saturating. -/
def State.countCore (s : State) (c n hi lo k : Nat) : State := s.putCore c n (satAdd (s.ccore c n) hi lo k)

/-! A warp's own CSRs (R187, R35). -/

/-- A warp CSR. -/
def Warp.csr (x : Warp) (n : Nat) : W64 :=
  match n with
  | 0x000 =>
    BitVec.ofNat 64 ((if x.tm then 1 else 0) + (if x.ih then 2 else 0) + (if x.hnd then 4 else 0)
      + (if x.stepOn then 8 else 0) + 16 * x.replay.length)
  | 0x001 => BitVec.ofNat 64 (x.tcause.toNat + if x.tasync then 64 else 0)
  | 0x002 => x.tpc
  | 0x003 => x.trpc
  | 0x004 => x.taddr
  | 0x005 => x.tmask.setWidth 64
  | 0x006 => x.texec.setWidth 64
  | 0x007 => x.taux
  | 0x008 => x.gang.setWidth 64
  | _ => 0

/-- What a `csrw` leaves of a warp's CSRs: the fields HNDPREEMPT, STEP, `trpc` and `texec`. -/
def Warp.putCsr (x : Warp) (n : Nat) (v : W64) : Warp :=
  match n with
  | 0x000 => { x with hnd := v.getLsbD 2, stepOn := v.getLsbD 3 }
  | 0x003 => { x with trpc := v }
  | 0x006 => { x with texec := v.setWidth 32 }
  | _ => x

end Sys2Proof.Machine
end

