-- ==== Sys2Proof/Machine/Events.lean ====
section
/-! DEFINITION. What the module tells the host: MSI-X messages (R175) and host events (R174). -/

namespace Sys2Proof.Machine

/-- Sends an MSI-X message, or sets its pending bit while the vector or the whole function is masked (R175). -/
def State.msix (s : State) (v : Nat) : State :=
  if s.msixOff || s.msixMask.getLsbD v then { s with msixPend := s.msixPend ||| BitVec.ofNat 64 (2 ^ v) }
  else { s with msixSent := s.msixSent ++ [v] }

/-- Posts a host event (R174): vector 0 signals when the FIFO becomes non-empty; a full FIFO counts the drop. DESIGN CHOICE (log 94):
`host_evt_ovf`, which saturates, has 32 bits. -/
def State.postEvent (s : State) (t kind : Nat) : State :=
  if 64 ≤ s.evts.length then
    { s with evtOvf := if s.evtOvf = 0xFFFFFFFF then s.evtOvf else s.evtOvf + 1 }
  else
    let s1 := { s with evts := s.evts ++ [BitVec.ofNat 64 (t + kind * 4096)] }
    if s.evts.isEmpty then s1.msix 0 else s1

end Sys2Proof.Machine
end

