-- ==== Sys2Proof/Machine/Peers.lean ====
section
/-! DEFINITION. What a context has under way towards its peers (R72, R74, R75, R180, R181): its streams as queues, the requests of
the accesses of its warps and engines, and the stores that reach a peer's memory. -/

namespace Sys2Proof.Machine

/-! Streams. -/

/-- A context's stream to a peer. -/
def State.stream (s : State) (t p : Nat) : Stream := SMap.get p {} (s.ctx t).streams
/-- Updates a stream. -/
def State.modStream (s : State) (t p : Nat) (f : Stream → Stream) : State :=
  s.modCtx t fun c => { c with streams := SMap.put p (f (SMap.get p {} c.streams)) c.streams }

/-- A stream of a context to a peer is unreachable (R74 step 7). -/
def State.streamDead (s : State) (t p : Nat) : Bool := (s.stream t p).dead
/-- Its window has room (R74 step 2). -/
def State.streamFree (s : State) (t p : Nat) : Bool := decide ((s.stream t p).unacked.length < 256)

/-- The die that serves a stream: die p of the port p that carries it (R5, R68). -/
def streamDie (t p : Nat) : Nat := (Config.streamPort t p).toNat
/-- The counter that the timers of a stream run on (R75). -/
def State.relNow (s : State) (t p : Nat) : Nat := (s.die (streamDie t p)).counter

/-- The timer values of R75. -/
def State.rtoOf (s : State) (t : Nat) : Nat := max 1 (bits (s.cctx t 0x10D).toNat 31 0)
def State.rtoMaxOf (s : State) (t : Nat) : Nat := max (s.rtoOf t) (bits (s.cctx t 0x10E).toNat 31 0)
def State.retryOf (s : State) (t : Nat) : Nat := max 1 (bits (s.cctx t 0x10F).toNat 7 0)

/-- A datagram joins a stream (R74 step 1); it is sealed and sent once the window of 256 has room for it (step 2), and an
unreachable stream takes none (step 7). -/
def State.relPost (s : State) (t p : Nat) (d : Datagram) : State :=
  if s.streamDead t p then s
  else
    s.modStream t p fun x =>
      { x with next := x.next + 1, unacked := x.unacked ++ [(x.next, { d with rel := true, seq := x.next }, false)]
               timer := if x.timer.isSome then x.timer else some (s.relNow t p + s.rtoOf t)
               rto := if x.timer.isSome then x.rto else s.rtoOf t }

/-- A datagram with empty fields. -/
def Datagram.blank (t type : Nat) : Datagram :=
  { ctx := t, frm := 0, plain := true, version := 1, type := type, rel := false, last := false, copy := 0, abort := false
    zero := true, graph := 0, edge := 0, size := 0, count := 0, frame := 0, first := 0, seq := 0, aux := 0, body := []
    key := 0, nonce := 0 }

/-! Requests (R180). -/

/-- The body of a PEER datagram with one request or response (R180). -/
def peerBody (op atop status len tag pctx addr cmp : Nat) (data : List W8) : List W8 :=
  leList 1 op ++ leList 1 atop ++ leList 1 status ++ leList 1 (len - 1) ++ leList 2 tag ++ leList 2 pctx ++ leList 8 addr
    ++ leList 8 cmp ++ data ++ List.replicate ((8 - data.length % 8) % 8) 0

/-- A reliable datagram that carries a body of its own: COUNT is the body's bytes (log 16). -/
def Datagram.ofBody (t type : Nat) (b : List W8) : Datagram := { Datagram.blank t type with count := b.length, body := b }

/-- A request to a peer joins the stream, and what waits for its response is kept. -/
def State.peerPost (s : State) (t p : Nat) (r : PeerReq) (op atop len pctx addr cmp : Nat) (data : List W8) : State :=
  if s.streamDead t p then s
  else
    let tag := (s.stream t p).tag
    (s.relPost t p (Datagram.ofBody t 7 (peerBody op atop 0 len tag pctx addr cmp data))).modStream t p fun x =>
      { x with tag := (x.tag + 1) % 65536, reqs := x.reqs ++ [{ r with tag := tag }] }

/-- Asks a peer for n bytes that the device itself needs for a context, unless it has (R362). -/
def State.askPeer (s : State) (t p pctx a n : Nat) : State :=
  if (s.stream t p).reads.any fun r => decide (r.pctx = pctx) && decide (r.at_ = a) && decide (r.n = n) then s
  else
    let tag := (s.stream t p).tag
    (s.relPost t p (Datagram.ofBody t 7 (peerBody 0 0 0 n tag pctx a 0 []))).modStream t p fun x =>
      { x with tag := (x.tag + 1) % 65536, reads := x.reads ++ [{ tag := tag, pctx := pctx, at_ := a, n := n }] }

/-- The answer to such a read is used: it is dropped once the act that needs it is over (log 77). -/
def State.useRead (s : State) (t p pctx a n : Nat) : State :=
  s.modStream t p fun x => { x with reads := x.reads.map fun r =>
    if r.pctx = pctx ∧ r.at_ = a ∧ r.n = n then { r with used := true } else r }

/-! The memory of peers as a part of the system point Y (R119, R120). -/

/-- The number under which the buffers hold the byte at an address of a context of a peer; host addresses lie below 2^64. -/
def farAddr (p pctx a : Nat) : Nat := 2 ^ 64 * (1 + 4096 * p + pctx) + a % 2 ^ 64

/-- The peer, its context and the address that a number stands for; none for a host address. -/
def farPlace (n : Nat) : Option (Nat × Nat × Nat) :=
  if n < 2 ^ 64 then none else some ((n / 2 ^ 64 - 1) / 4096, (n / 2 ^ 64 - 1) % 4096, n % 2 ^ 64)

/-- A store reaches a peer's memory: a WRITE joins the stream (R180, R181); on an unreachable one the store fails, and host event 4
tells it. -/
def State.peerStore (s : State) (t p pctx a : Nat) (bs : List W8) (own : Option (Nat × Nat)) (eng : Option (Nat × Nat) := none) (unit : Nat := 0) :
    State :=
  let o := own.getD (0, 0)
  if s.streamDead t p then
    let s1 := if s.live t then s.postEvent t 4 else s
    if own.isSome then s1.modWarp o.1 o.2 fun x => { x with unacked := true } else s1
  else
    s.peerPost t p { tag := 0, wg := o.1, w := o.2, op := 0, unit_ := unit, write := true, eng := eng } 1 0 bs.length pctx a 0 bs

end Sys2Proof.Machine
end

