-- ==== Sys2Proof/Machine/Order.lean ====
section
/-! DEFINITION. The ordering machine's buffers (R119 to R130, R135): reading a byte along a path, placing and
draining entries, releases and acquires. -/

namespace Sys2Proof.Machine

/-- A buffer of the module: C of a core, K of a cluster, D of a die. -/
inductive BufId where
  | core (c : Nat)
  | cluster (k : Nat)
  | die (d : Nat)
  deriving DecidableEq, Repr

/-- The scope level of a buffer (R120): 1 WG, 2 CLUSTER, 3 DIE; V is 4 and Y is 5. -/
def BufId.level : BufId → Nat
  | .core _ => 1 | .cluster _ => 2 | .die _ => 3

/-- The next buffer of the path; none above D, where entries move into V or Y. -/
def BufId.up : BufId → Option BufId
  | .core c => some (.cluster (clusterOf c))
  | .cluster k => some (.die (k / 8))
  | .die _ => none

/-- The buffers on the path of core c, lowest first (R120). -/
def path (c : Nat) : List BufId := [.core c, .cluster (clusterOf c), .die (dieOf c)]

/-- The buffers on the path below a level. -/
def pathBelow (c lvl : Nat) : List BufId := (path c).filter fun b => decide (b.level < lvl)
/-- The buffers on the path at a level or above. -/
def pathFrom (c lvl : Nat) : List BufId := (path c).filter fun b => decide (lvl ≤ b.level)

/-- The entries of a buffer. -/
def State.buf (s : State) : BufId → Buffer
  | .core c => (s.core c).buf
  | .cluster k => (s.cluster k).buf
  | .die d => (s.die d).buf

/-- Replaces the entries of a buffer. -/
def State.setBuf (s : State) (b : BufId) (l : Buffer) : State :=
  match b with
  | .core c => s.modCore c fun x => { x with buf := l }
  | .cluster k => s.modCluster k fun x => { x with buf := l }
  | .die d => s.modDie d fun x => { x with buf := l }

/-- An entry holds byte a. -/
def Entry.covers (e : Entry) (dev : Bool) (a : Nat) : Bool :=
  decide (e.dev = dev) && decide (e.addr ≤ a) && decide (a < e.addr + e.bytes.length)

/-- An entry touches a range. -/
def Entry.touches (e : Entry) (dev : Bool) (a n : Nat) : Bool :=
  decide (e.dev = dev) && decide (e.addr < a + n) && decide (a < e.addr + e.bytes.length)

/-- Two entries share a byte. -/
def Entry.overlaps (e e' : Entry) : Bool := e.touches e'.dev e'.addr e'.bytes.length

/-- What a read under a key gets from an entry's byte: nothing determined under another key (R169). -/
def Entry.byte (e : Entry) (a key : Nat) : Option W8 :=
  if e.dev && decide (e.key ≠ key) then none else e.bytes[a - e.addr]?

/-- The youngest entry for a byte in a buffer (R119). -/
def newest (b : Buffer) (dev : Bool) (a : Nat) : Option Entry :=
  b.foldl (fun acc e => if e.covers dev a then some e else acc) none

/-- The value of a byte at V under a key, or at Y; none where nothing determines it (R169). -/
def State.homeByte (s : State) (dev : Bool) (a key : Nat) : Option W8 :=
  if dev then (if SMap.find a s.vkey = some key then SMap.find a s.vmem else none)
  else SMap.find a s.ymem

/-- A read of a byte from level lvl or above on the path of core c (R124, R127). -/
def State.readByte (s : State) (c lvl : Nat) (dev : Bool) (a key : Nat) : Option W8 :=
  match (pathFrom c lvl).findSome? fun b => newest (s.buf b) dev a with
  | some e => e.byte a key
  | none => s.homeByte dev a key

/-- A read of n bytes. -/
def State.readBytes (s : State) (c lvl : Nat) (dev : Bool) (a n key : Nat) : List (Option W8) :=
  (List.range n).map fun i => s.readByte c lvl dev (a + i) key

/-- A posted write to a byte of host memory fails (R178). -/
def State.fails (s : State) (a : Nat) : Bool := s.hostFail.any fun r => decide (r.1 ≤ a) && decide (a < r.1 + r.2)

/-- Sets one byte at V (under a key) or at Y, where a failed write leaves it as it was (log 26). -/
def State.putByte (s : State) (dev : Bool) (key a : Nat) (v : W8) : State :=
  if dev then { s with vmem := SMap.put a v s.vmem, vkey := SMap.put a key s.vkey }
  else if s.fails a then s
  else { s with ymem := SMap.put a v s.ymem }

/-- The bytes of a posted write to host memory; one of which a part fails is told to the host later (R178). -/
def State.noteFails (s : State) (t a n : Nat) : State :=
  if (List.range n).any fun i => s.fails (a + i) then { s with lost := s.lost ++ [t] } else s

/-- Sets bytes one by one. -/
def State.putAll (s : State) (dev : Bool) (key : Nat) : Nat → List W8 → State
  | _, [] => s
  | a, v :: vs => State.putAll (s.putByte dev key a v) dev key (a + 1) vs

/-- What a write of n bytes to V replaces is remembered while a workgroup may still fetch it (R223). -/
def State.logV (s : State) (a n : Nat) : State :=
  if s.wgs.isEmpty then s
  else
    { s with
      vcount := s.vcount + 1
      vlog := { no := s.vcount + 1, addr := a, old := (List.range n).map fun i => (SMap.find (a + i) s.vmem, SMap.find (a + i) s.vkey) } :: s.vlog }

/-- What no workgroup may fetch any more is forgotten. -/
def State.pruneLog (s : State) : State := { s with vlog := s.vlog.filter fun o => s.wgs.any fun p => decide (p.2.codeAt < o.no) }

/-- Sets bytes at V or at Y. -/
def State.putBytes (s : State) (dev : Bool) (key a : Nat) (l : List W8) : State :=
  (if dev && !l.isEmpty then s.logV a l.length else s).putAll dev key a l

/-- A store entry reaches V or Y (R123): device memory; host memory, where a part of it may fail; or a peer. -/
def State.toHome (s : State) (e : Entry) : State :=
  if e.dev then s.putBytes true e.key e.addr e.bytes
  else
    match farPlace e.addr with
    | some (p, pctx, a) => s.peerStore e.key p pctx a e.bytes e.own
    | none => (s.noteFails e.key e.addr e.bytes.length).putBytes false e.key e.addr e.bytes

/-- Places a store entry at a level of the path of core c, or sets V or Y (R122, R125, R126). -/
def State.place (s : State) (c lvl : Nat) (e : Entry) : State :=
  match (path c).find? fun b => decide (b.level = lvl) with
  | some b => { (s.setBuf b (s.buf b ++ [{ e with age := s.age }])) with age := s.age + 1 }
  | none => s.toHome e

/-- Which store entries of a buffer must move when the selected ones do (R123): an older entry that overlaps a
moving one, and every older one before a moving release mark. The second result are those that move. -/
def mustMove (sel : Entry → Bool) : Buffer → List Bool × List Entry
  | [] => ([], [])
  | e :: es =>
    let r := mustMove sel es
    let m := e.store && (sel e || r.2.any fun y => y.rel || e.overlaps y)
    (m :: r.1, if m then e :: r.2 else r.2)

/-- What a moving store entry leaves behind: a copy entry (R123). -/
def Entry.leave (e : Entry) : Entry := { e with store := false, rel := false, own := none }

/-- Moves the selected store entries of a buffer up one level, oldest first (R123). -/
def State.moveUp (s : State) (b : BufId) (sel : Entry → Bool) : State × List Entry :=
  let m := mustMove sel (s.buf b)
  let s1 := s.setBuf b (((s.buf b).zip m.1).map fun p => if p.2 then p.1.leave else p.1)
  match b.up with
  | some u => (s1.setBuf u (s1.buf u ++ m.2), m.2)
  | none => (m.2.foldl State.toHome s1, m.2)

/-- Moves the selected store entries up through a list of buffers, lowest first. -/
def State.moveThrough (s : State) : List BufId → (Entry → Bool) → State
  | [], _ => s
  | b :: bs, sel =>
    let r := s.moveUp b sel
    State.moveThrough r.1 bs fun e => sel e || r.2.any fun m => decide (m.age = e.age)

/-- Drains the selected store entries of the path below a level up to it. -/
def State.drainTo (s : State) (c lvl : Nat) (sel : Entry → Bool) : State := s.moveThrough (pathBelow c lvl) sel

/-- A warp's own store entries for a range. -/
def ownRange (g w : Nat) (dev : Bool) (a n : Nat) (e : Entry) : Bool :=
  decide (e.own = some (g, w)) && e.touches dev a n

/-- Part 2 of R126: every store entry of the path below a level drains to it. -/
def State.release (s : State) (c lvl : Nat) : State := s.drainTo c lvl fun _ => true

/-- The release a token owes (R65): the entries placed before the act. -/
def State.releaseBefore (s : State) (c lvl act : Nat) : State := s.drainTo c lvl fun e => decide (e.age < act)

/-- Part 3 of R127: copy entries of the path below a level are discarded. -/
def State.acquire (s : State) (c lvl : Nat) : State :=
  (pathBelow c lvl).foldl (fun s b => s.setBuf b ((s.buf b).filter (·.store))) s

/-- The level of the path of core c from which a plain load reads a byte: that of the lowest buffer that holds one, or 4 (V, Y). -/
def State.levelOf (s : State) (c : Nat) (dev : Bool) (a : Nat) : Nat :=
  (((path c).find? fun b => (newest (s.buf b) dev a).isSome).map BufId.level).getD 4

/-- Copy entries of some of the bytes of a value that has been read, in one buffer: one entry for all, or one for each. -/
def State.copyInto (s : State) (b : BufId) (dev : Bool) (a key : Nat) (vs : List W8) (which : Nat → Bool) : State :=
  let one := fun (s : State) (i : Nat) (l : List W8) =>
    { s.setBuf b (s.buf b ++ [{ age := s.age, dev := dev, addr := a + i, key := key, bytes := l, store := false }]) with age := s.age + 1 }
  if (List.range vs.length).all which then one s 0 vs
  else ((List.range vs.length).filter which).foldl (fun s i => one s i [vs.getD i 0]) s

/-- The copy entries that a plain load leaves of the value it read, in those of the buffers below the level each byte was read from
that `copies` names (R124). -/
def State.leaveCopies (s : State) (c copies : Nat) (dev : Bool) (a key : Nat) (vs : List W8) : State :=
  let lv := (List.range vs.length).map fun i => s.levelOf c dev (a + i)
  ((path c).filter fun b => bit copies (b.level - 1)).foldl (fun s b => s.copyInto b dev a key vs fun i => decide (b.level < lv.getD i 0)) s

/-- A value that comes from Y, with the bytes that buffers of the path from a level up hold (R124, R125). -/
def State.overlay (s : State) (c lvl a : Nat) (vs : List W8) : List W8 :=
  (List.range vs.length).map fun i =>
    match (pathFrom c lvl).findSome? fun b => newest (s.buf b) false (a + i) with
    | some e => (e.byte (a + i) 0).getD (vs.getD i 0)
    | none => vs.getD i 0

/-- The buffers of the module that hold anything. -/
def State.allBufs (s : State) : List BufId :=
  s.cores.map (fun p => .core p.1) ++ s.clusters.map (fun p => .cluster p.1) ++ s.dies.map fun p => .die p.1

/-- A buffer and those above it. -/
def BufId.upward : BufId → List BufId
  | .core c => path c
  | .cluster k => [.cluster k, .die (k / 8)]
  | .die d => [.die d]

/-- The promotion of R130: in every buffer, each release-marked store entry that the range meets, with everything
older, drains into V. `all` promotes every release mark (`fence.acq.wgremote`, R129). -/
def State.promote (s : State) (all : Bool) (a n : Nat) : State :=
  s.allBufs.foldl (fun s b => s.moveThrough b.upward fun e => e.rel && (all || e.touches true a n)) s

/-! Render-target buffers (R135). -/

/-- Which entries of a render-target buffer move when the selected ones do: overlapping older ones first. -/
def rtMustMove (sel : RtEntry → Bool) : List RtEntry → List Bool × List RtEntry
  | [] => ([], [])
  | e :: es =>
    let r := rtMustMove sel es
    let m := sel e || r.2.any fun y =>
      decide (e.pa < y.pa + y.bytes.length) && decide (y.pa < e.pa + e.bytes.length)
    (m :: r.1, if m then e :: r.2 else r.2)

/-- Drains the selected entries of a die's render-target buffer into V in age order. -/
def State.rtMove (s : State) (d : Nat) (sel : RtEntry → Bool) : State :=
  let m := rtMustMove sel (s.die d).rt
  m.2.foldl (fun s e => s.putBytes true e.key e.pa e.bytes)
    (s.modDie d fun x => { x with rt := ((x.rt.zip m.1).filter fun p => !p.2).map (·.1) })

/-- A warp's own render-target entries drain into V (R135). -/
def State.rtMoveOwn (s : State) (g w : Nat) : State :=
  s.rtMove (dieOf (s.coreOf g)) fun e => decide (e.own = (g, w))

/-- A release by a warp at a level: its render-target entries first when the level is DEV or SYS (R135), then
part 2 of R126. -/
def State.warpRelease (s : State) (g w lvl : Nat) : State :=
  (if 4 ≤ lvl then s.rtMoveOwn g w else s).release (s.coreOf g) lvl

/-! Soft errors (R144, R145). -/

/-- The lines that a range of device memory touches. -/
def linesOf (a n : Nat) : List Nat := if n = 0 then [] else
  (List.range ((a + n - 1) / 128 - a / 128 + 1)).map (· + a / 128)

/-- The marked lines a read meets. -/
def State.ueLines (s : State) (dev : Bool) (a n : Nat) : List Nat :=
  if dev then (linesOf a n).filter s.ue.contains else []

/-- Bytes of a line with an uncorrectable error read as 0 (R145). -/
def State.maskUe (s : State) (dev : Bool) (a : Nat) (l : List (Option W8)) : List (Option W8) :=
  ((List.range l.length).zip l).map fun p => if dev && s.ue.contains ((a + p.1) / 128) then some 0 else p.2

/-- Counts n uncorrectable errors for a context: UE and UESTICKY (R145, R146). -/
def State.countUe (s : State) (t n : Nat) : State :=
  if n = 0 then s
  else
    let s1 := s.countCtx t 0x10B 30 16 n
    s1.putCtx t 0x10B (s1.cctx t 0x10B ||| 0x80000000)

/-- Correctable errors met by an access are corrected and counted (R144). -/
def State.countCe (s : State) (t : Nat) (dev : Bool) (a n : Nat) : State :=
  let hit := if dev then (linesOf a n).filter s.ce.contains else []
  if hit.isEmpty then s
  else ({ s with ce := s.ce.filter fun l => !hit.contains l }).countCtx t 0x10B 15 0 hit.length

/-- The lines with an uncorrectable error of which a store of n bytes of device memory writes a part; each counts once in UE (R145). -/
def State.partUe (s : State) (a n : Nat) : List Nat :=
  (s.ueLines true a n).filter fun l => !(decide (a ≤ 128 * l) && decide (128 * (l + 1) ≤ a + n))

/-- A store to part of a line with an uncorrectable error sets the rest of the line to 0 and clears the error; a
store of the whole line clears it (R145). -/
def State.clearUe (s : State) (dev : Bool) (key a n : Nat) : State :=
  (s.ueLines dev a n).foldl (fun s l =>
    { (s.putBytes true key (128 * l) (List.replicate 128 0)) with ue := s.ue.filter (· ≠ l) }) s

end Sys2Proof.Machine
end

