-- ==== Sys2Proof/Machine/Translate.lean ====
section
/-! DEFINITION. Translation (R147 to R157, R176): the heap window, the table walk, the leaf checks, the TLB, and
the accesses the device itself makes for a context (R362). -/

namespace Sys2Proof.Machine

/-- The kinds of access that R157 tells apart. -/
inductive Acc where
  | read | write | atomic | fetch
  deriving DecidableEq, Repr

/-- An access of n bytes at a device-physical address lies in installed memory (R147). -/
def installed (pa n : Nat) : Bool := decide (pa < 2 ^ 39) && decide (pa % 2 ^ 37 + n ≤ 0x1800000000)

/-- The warp on whose path an access is made; none for the device itself. -/
abbrev Walker := Option (Nat × Nat)

/-- The youngest store entry of a warp for a byte on its path: what V or Y holds once the warp's own entries have drained, as an
acquire lets them (R127 part 1). -/
def State.ownNewest (s : State) (who : Walker) (dev : Bool) (a : Nat) : Option Entry :=
  match who with
  | none => none
  | some (g, w) => (path (s.coreOf g)).findSome? fun b =>
      newest ((s.buf b).filter fun e => e.store && decide (e.own = some (g, w))) dev a

/-- A byte of V or Y as the device itself reads a structure it is given by a device-physical or host address
(R150, R152, R160): under the key it was written with (log 10); in a line with an uncorrectable error, 0. -/
def State.anyByte (s : State) (host : Bool) (a : Nat) : W8 :=
  if host then (SMap.find a s.ymem).getD (Config.freeCode s.free a)
  else if s.ue.contains (a / 128) then 0
  else (SMap.find a s.vmem).getD (Config.freeCode s.free a)

/-- n bytes of V or Y read by the device itself. -/
def State.anyBytes (s : State) (host : Bool) (a n : Nat) : List W8 :=
  (List.range n).map fun i => s.anyByte host (a + i)

/-- The address of entry p of the peer table (R179). -/
def State.peerAt (s : State) (p : Nat) : Nat := bits (s.cmod 0x500).toNat 55 5 * 32 + 32 * p

/-- Entry p of the peer table (R179): the IPv6 address and the next-hop Ethernet address, when the entry is in use. DESIGN CHOICE (log 82):
an entry with a bit set that must be 0 counts as not in use. -/
def State.peerEntry (s : State) (p : Nat) : Option (Nat × Nat) :=
  let b := s.anyBytes false (s.peerAt p) 32
  if leVal ((b.drop 0x16).take 1) = 1 ∧ (b.drop 0x17).all (· = 0) then some (leVal (b.take 16), leVal ((b.drop 16).take 6)) else none

/-- The IPv6 address of a peer whose entry is in use. -/
def State.peerAddr (s : State) (p : Nat) : Option Nat := (s.peerEntry p).map (·.1)

/-- A byte of a table entry that a walk for a warp, or for the device, reads (R154). -/
def State.walkByte (s : State) (who : Walker) (host : Bool) (a : Nat) : W8 :=
  match s.ownNewest who (!host) a with
  | some e => e.bytes.getD (a - e.addr) 0
  | none => s.anyByte host a

/-- A table entry. -/
def State.entryAt (s : State) (host : Bool) (a : Nat) (who : Walker := none) : Nat :=
  leVal ((List.range 8).map fun i => s.walkByte who host (a + i))

/-- A place in host memory of which the fabric fails reads (R178). -/
def State.down (s : State) (a n : Nat) : Bool := s.hostDown.any fun r => decide (r.1 < a + n) && decide (a < r.1 + r.2)

/-- A table entry that a translation reads: in host memory or on this module, its address and length; `acq` when the read acquires
(R154, R176). -/
structure TableRead where
  host : Bool
  at_  : Nat
  n    : Nat
  acq  : Bool := true
  deriving DecidableEq, Repr

/-- What a translation does beside giving its target: the leaf it used and the bits that it sets in its entry; the leaves that the window
table's own translations used, with theirs (R176, R362); the table entries it read; and whether a free choice between a cached leaf and a
walk was drawn (R155, R156). -/
structure XEff where
  entry  : Option TlbEntry := none
  orBits : Nat := 0
  inner  : List (TlbEntry × Nat) := []
  drew   : Bool := false
  reads  : List TableRead := []
  deriving DecidableEq, Repr

/-- One more entry has been read. -/
def XEff.reading (x : XEff) (r : TableRead) : XEff := { x with reads := x.reads ++ [r] }

/-- A translation made on the way, and what it did. -/
def XEff.within (x y : XEff) : XEff :=
  { x with reads := x.reads ++ y.reads, inner := x.inner ++ y.inner ++ y.entry.toList.map fun e => (e, y.orBits), drew := x.drew || y.drew }

/-- What a window entry gives (R176). -/
inductive WinRes where
  | win (w : Window) (x : XEff)
  | fault (c : Cause) (x : XEff)
  | mig (x : XEff)
  deriving DecidableEq, Repr

/-- Reads a window entry of a number: for a host or a peer leaf, or for a node. -/
abbrev Windows := Nat → Bool → Bool → WinRes

/-- What a walk gives, with what it has done: a cause; a wait on MIG; or the leaf, whether it is of a 64 MiB page and in host memory, and
its address. -/
inductive Leaf where
  | fault (c : Cause) (x : XEff)
  | mig (x : XEff)
  | leaf (e : Nat) (big host : Bool) (at_ : Nat) (x : XEff)

/-- Where an entry of a node lies: in host memory or not, and its address. -/
inductive NodeAt where
  | at_ (host : Bool) (a : Nat) (x : XEff)
  | fault (c : Cause) (x : XEff)
  | mig (x : XEff)

/-- The index bits of a level (R151). -/
def levelLo (lvl : Nat) : Nat := if lvl = 1 then 46 else if lvl = 2 then 36 else if lvl = 3 then 26 else 16

/-- Where an entry of a node lies: a device node in installed memory (R147), or a node behind a host window (R150, R176). -/
def nodePlace (win : Windows) (nk w a : Nat) (x : XEff) : NodeAt :=
  if nk < 2 then (if installed a 8 then .at_ false a x else .fault 0x0C x)
  else
    match win w false true with
    | .win (.host b) y => .at_ true ((b + a) % 2 ^ 64) (x.within y)
    | .win _ y => .fault 0x0C (x.within y)
    | .fault c y => .fault c (x.within y)
    | .mig y => .mig (x.within y)

/-- The walk of R154 from a node of memory kind nk (window w) through the remaining levels. A failed read over the host link
raises 0x10 (R178). -/
def State.walk (s : State) (win : Windows) (who : Walker) (va : Nat) : List Nat → Nat → Nat → Nat → XEff → Leaf
  | [], _, _, _, x => .fault 0x0C x
  | lvl :: rest, node, nk, w, x0 =>
    match nodePlace win nk w (node + 8 * bits va (levelLo lvl + 9) (levelLo lvl)) x0 with
    | .fault c x => .fault c x
    | .mig x => .mig x
    | .at_ host pa x1 =>
      let e := s.entryAt host pa who
      let x := x1.reading { host := host, at_ := pa, n := 8 }
      if host ∧ s.down pa 8 then .fault 0x10 x1
      else if lvl ≤ 2 ∧ bits e 3 1 ≠ 0 then .fault 0x0C x
      else if lvl = 4 ∨ (lvl = 3 ∧ bits e 3 1 ≠ 0) then
        if !bit e 0 then .fault 0x0B x
        else if bit e 15 then .mig x
        else .leaf e (decide (lvl = 3)) host pa x
      else if !bit e 0 ∨ 2 < bits e 14 12 then .fault 0x0C x
      else if bit e 15 then .mig x
      else s.walk win who va rest (bits e 55 16 * 2 ^ 16 + bits e 58 56 * 2 ^ 13) (bits e 14 12) (bits e 63 60) x

/-- The walk from `ptbr` (R150, R154). -/
def State.walkFrom (s : State) (t : Nat) (win : Windows) (who : Walker) (va : Nat) : Leaf :=
  let p := (s.cctx t 0x104).toNat
  if !bit p 3 ∨ 2 < bits p 2 0 then .fault 0x0C {}
  else s.walk win who va [1, 2, 3, 4] (bits p 55 13 * 2 ^ 13) (bits p 2 0) (bits p 63 60) {}

/-- The rights a leaf must give (R157). -/
def leafAllows (e : Nat) : Acc → Bool
  | .read => bit e 1 | .write => bit e 2 | .atomic => bit e 1 && bit e 2 | .fetch => bit e 3

/-- Where a leaf leads, with what has been done: a target, with the window it names; a cause; or a wait on MIG of the window table's own
translation. -/
inductive LeafRes where
  | ok (t : Target) (w : Option Window) (x : XEff)
  | fault (c : Cause) (x : XEff)
  | mig (x : XEff)
  deriving DecidableEq, Repr

/-- The checks of R153 on a leaf and then the permissions (R157), for an access of n bytes; `win` gives the window that the leaf
names, and x is what the walk has done. The result is where the access lands; of a peer, its entry of the peer table is read (R179).
DESIGN CHOICE (log 82): a window BASE that is not 64 KiB aligned is added as it stands. -/
def State.leafTarget (s : State) (t : Nat) (win : Nat → Bool → WinRes) (e : Nat) (big : Bool) (va n : Nat) (acc : Acc) (x : XEff) :
    LeafRes :=
  let size := if big then 2 ^ 26 else 2 ^ 16
  let frame := bits e 55 16
  let kind := bits e 14 12
  let cmp := bits e 9 7
  let mdp := bits e 11 10
  let off := va % size
  if 3 < kind then .fault 0x0D x
  else if big ∧ frame % 1024 ≠ 0 then .fault 0x0D x
  else if kind < 2 ∧ !installed (frame * 2 ^ 16) size then .fault 0x0D x
  else if 3 < cmp ∨ (cmp ≠ 0 ∧ (mdp = 3 ∨ 2 ≤ kind)) then .fault 0x0E x
  else if cmp ≠ 0 ∧ mdp = 2 ∧ size - 1024 < off + n then .fault 0x0D x
  else if !leafAllows e acc then .fault 0x0D x
  else if kind < 2 then .ok (.dev (frame * 2 ^ 16 + off) (s.keyOf t (bits e 59 56))) none x
  else
    match win (bits e 63 60) (decide (kind = 3)) with
    | .win (.host b) y => .ok (.host ((b + frame * 2 ^ 16 + off) % 2 ^ 64) (bit e 6)) (some (.host b)) (x.within y)
    | .win (.peer b p c) y =>
      .ok (.peer p c ((b + frame * 2 ^ 16 + off) % 2 ^ 64)) (some (.peer b p c))
        ((x.within y).reading { host := false, at_ := s.peerAt p, n := 32, acq := false })
    | .fault c y => .fault c (x.within y)
    | .mig y => .mig (x.within y)

/-- The heap window's answer (R149): none when the access is translated by paging. -/
def State.heapTarget (s : State) (t va n : Nat) (acc : Acc) : Option (Except Cause Target) :=
  let base := bits (s.cctx t 0x101).toNat 55 16 * 2 ^ 16
  let limit := bits (s.cctx t 0x102).toNat 55 16 * 2 ^ 16
  let off := (s.cctx t 0x103).toNat
  if limit = 0 ∨ va < base ∨ base + limit ≤ va then none
  else
    let pa := (va + bits off 55 16 * 2 ^ 16) % 2 ^ 56
    some <|
      if base + limit < va + n then .error 0x0A
      else if !installed pa n then .error 0x0A
      else if (acc = .write ∨ acc = .atomic) ∧ bit off 60 then .error 0x0D
      else .ok (.dev pa (s.keyOf t (bits off 59 56)))

/-- The result of a translation, with what it does. -/
inductive XRes where
  | ok (t : Target) (e : XEff)
  | fault (c : Cause) (e : XEff)
  | mig (e : XEff)
  deriving DecidableEq, Repr

/-- The cached leaf for an address (R155). -/
def State.cached (s : State) (t va : Nat) : Option TlbEntry :=
  (s.ctx t).tlb.find? fun e => decide (e.page = if e.big then va / 2 ^ 26 else va / 2 ^ 16)

/-- A paged access (R151 to R157). A cached leaf, with its window, may be used or dropped and walked again: a free choice, the
k-th drawn at this step. -/
def State.paged (s : State) (t k : Nat) (win : Windows) (who : Walker) (va n : Nat) (acc : Acc) : XRes :=
  if 2 ^ 56 ≤ va then .fault 0x0D {}
  else
    let c := s.cached t va
    let use := c.isSome && Config.freeBit (s.free + k)
    let l : Leaf :=
      match use, c with
      | true, some e => .leaf e.leaf.toNat e.big e.host e.at_ {}
      | _, _ => s.walkFrom t win who va
    let wins := fun w peer =>
      match use, c.bind TlbEntry.win with
      | true, some x => .win x {}
      | _, _ => win w peer false
    match l with
    | .fault c x => .fault c x
    | .mig x => .mig x
    | .leaf e big host at_ x =>
      match s.leafTarget t wins e big va n acc x with
      | .fault c x => .fault c x
      | .mig x => .mig x
      | .ok tgt w x =>
        let wr := decide (acc = .write ∨ acc = .atomic)
        let or := (if use then 0 else 16) + (if wr && !bit e 5 then 32 else 0)
        let e' := e ||| or
        .ok tgt { x with
          entry := some { page := if big then va / 2 ^ 26 else va / 2 ^ 16, big := big
                          leaf := BitVec.ofNat 64 e', host := host, at_ := at_, win := w }
          orBits := or, drew := x.drew || c.isSome }

/-- A translation that may not use windows: that of the window table itself (R362). -/
def State.translateNoWin (s : State) (t k va n : Nat) (acc : Acc) (who : Walker := none) : XRes :=
  match s.heapTarget t va n acc with
  | some (.ok tgt) => .ok tgt {}
  | some (.error c) => .fault c {}
  | none => s.paged t k (fun _ _ node => .fault (if node then 0x0C else 0x0D) {}) who va n acc

/-- Entry w of the window table (R176), read with acquire at DEV: when it is in use, of the kind asked for and well formed; otherwise 0x0D,
or 0x0C for a node. The table's own translation may find a cause of its own, or wait on MIG (R362). -/
def State.window (s : State) (t k : Nat) (who : Walker) (w : Nat) (peer node : Bool) : WinRes :=
  match s.translateNoWin t k (bits (s.cctx t 0x110).toNat 55 6 * 64 + 16 * w) 16 .read who with
  | .ok (.dev pa key) x0 =>
    let y := x0.reading { host := false, at_ := pa, n := 16 }
    let b := (List.range 16).map fun i =>
      match s.ownNewest who true (pa + i) with
      | some e => (e.byte (pa + i) key).getD (Config.freeCode s.free (pa + i))
      | none => ((s.maskUe true (pa + i) [s.homeByte true (pa + i) key]).getD 0 none).getD (Config.freeCode s.free (pa + i))
    let base := leVal (b.take 8)
    let x := leVal (b.drop 8)
    if !bit x 21 ∨ bit x 20 ≠ peer ∨ x / 2 ^ 22 ≠ 0 then .fault (if node then 0x0C else 0x0D) y
    else if peer then .win (.peer base (bits x 7 0) (bits x 19 8)) y else .win (.host base) y
  | .ok _ y => .fault (if node then 0x0C else 0x0D) y
  | .fault c y => .fault c y
  | .mig y => .mig y

/-- A translation by paging, whatever the heap window (R154). -/
def State.translatePaged (s : State) (t k va n : Nat) (acc : Acc) (who : Walker := none) : XRes :=
  s.paged t k (s.window t (k + 1) who) who va n acc

/-- A translation (R149, R154), for a warp or for the device. -/
def State.translate (s : State) (t k va n : Nat) (acc : Acc) (who : Walker := none) : XRes :=
  match s.heapTarget t va n acc with
  | some (.ok tgt) => .ok tgt {}
  | some (.error c) => .fault c {}
  | none => s.translatePaged t k va n acc who

/-- The acquires of a walk for a warp (R127, R154): at DEV for a device node, at SYS for one in host memory. -/
def State.walkAcquires (s : State) (g w : Nat) (l : List TableRead) : State :=
  l.foldl (fun s r =>
    let lvl := if r.host then 5 else 4
    (s.drainTo (s.coreOf g) lvl (ownRange g w (!r.host) r.at_ r.n)).acquire (s.coreOf g) lvl) s

/-- What walking does for a warp (R127); a walk of no warp's has nothing to acquire for. -/
def State.walked (s : State) (who : Walker) (e : XEff) : State :=
  match who with
  | some (g, w) => s.walkAcquires g w (e.reads.filter (·.acq))
  | none => s

/-- The lines with an uncorrectable error in which a translation's table reads have found it (R145); their bytes are 0. -/
def XEff.lines (s : State) (e : XEff) : List Nat := (e.reads.flatMap fun r => s.ueLines (!r.host) r.at_ r.n).eraseDups

/-- The accessed and dirty bits of a leaf are set by an atomic OR on its entry, and it is cached (R155). -/
def State.leafUsed (s : State) (t : Nat) (x : TlbEntry) (orBits : Nat) : State :=
  let b := s.anyByte x.host x.at_ ||| BitVec.ofNat 8 orBits
  let s1 := if orBits = 0 then s
    else if x.host then { s with ymem := SMap.put x.at_ b s.ymem } else { s.logV x.at_ 1 with vmem := SMap.put x.at_ b s.vmem }
  s1.modCtx t fun c => { c with tlb := x :: c.tlb.filter fun y => !(decide (y.page = x.page) && decide (y.big = x.big)) }

/-- The effects of a translation but for the count of uncorrectable errors: correctable ones are corrected and counted (R144), a walk for a
warp acquires (R154), and the leaves used are marked and cached (R155). -/
def State.walkDone (s : State) (t : Nat) (who : Walker) (e : XEff) : State :=
  let s0 := (e.reads.foldl (fun s r => s.countCe t (!r.host) r.at_ r.n) s).walked who e
  let s1 := (e.inner ++ e.entry.toList.map fun x => (x, e.orBits)).foldl (fun s x => s.leafUsed t x.1 x.2) s0
  if e.drew then { s1 with free := s1.free + 2 } else s1

/-- Lines with an uncorrectable error that the instruction due of a warp meets in code or tables, or the device for a context: each counts
once for the instruction (R145). -/
def State.meetLines (s : State) (t : Nat) (who : Walker) (lines : List Nat) : State :=
  if lines.isEmpty then s
  else
    match who with
    | some (g, w) =>
      let new := lines.filter fun l => !(s.warp g w).due.metCode.contains l
      (s.modWarp g w fun x => { x.due with metCode := x.due.metCode ++ new }).countUe t new.length
    | none => s.countUe t lines.length

/-- The effects of a translation at the issue of an instruction, or of one that the device makes. -/
def State.translated (s : State) (t : Nat) (who : Walker) (e : XEff) : State := (s.meetLines t who (e.lines s)).walkDone t who e

/-- The entry of a peer is read for a context's traffic with it (R144, R145, R179). -/
def State.peerMet (s : State) (t p : Nat) : State :=
  (s.countUe t (s.ueLines true (s.peerAt p) 32).length).countCe t true (s.peerAt p) 32

/-- Free values drawn. -/
def State.drew (s : State) (n : Nat) : State := { s with free := s.free + n }

/-- Free choices of a translation that gave no leaf are not drawn again. -/
def State.drawn (s : State) : State := { s with free := s.free + 2 }

/-- The effects of one that gave a cause, or waits. -/
def State.missed (s : State) (t : Nat) (who : Walker) (e : XEff) : State := (s.translated t who { e with drew := false }).drawn

/-! Accesses the device makes on a context's behalf (R362, R363): at V or Y, with the causes R363 names. -/

/-- The result of a device access, with the state it leaves; `later` when a walk waits on MIG, or a peer's answer has not come, so
that the act it serves is made again (R154). -/
inductive DevRes (α : Type) where
  | ok (x : α) (s : State)
  | fault (c : Cause) (s : State)
  | later (s : State)

/-- The result as far as this module's and the host's memory go; `peer` where the bytes lie with a peer. -/
inductive DevAt (α : Type) where
  | ok (x : α) (s : State)
  | fault (c : Cause) (s : State)
  | mig (s : State)
  | peer (p pctx a : Nat) (s : State)

/-- Reads n bytes at a virtual address of a context, acquiring at DEV (R362). -/
def State.devReadAt (s : State) (t va n : Nat) : DevAt (List W8) :=
  match s.translate t 0 va n .read with
  | .fault c e => .fault c (s.missed t none e)
  | .mig e => .mig (s.missed t none e)
  | .ok tgt e =>
    let s1 := s.translated t none e
    match tgt with
    | .dev pa key =>
      let hit := s1.ueLines true pa n
      let s2 := (s1.countUe t hit.length).countCe t true pa n
      if !hit.isEmpty && (s1.cctx t 0x10A).getLsbD 0 then .fault 0x1B s2
      else
        let r := s2.resolve (s1.maskUe true pa ((List.range n).map fun i => s1.homeByte true (pa + i) key))
        .ok r.1 r.2
    | .host a _ =>
      if s1.down a n then .fault 0x10 s1
      else
        let r := s1.resolve ((List.range n).map fun i => s1.homeByte false (a + i) 0)
        .ok r.1 r.2
    | .peer p pctx a => .peer p pctx a s1
    | .loc _ => .fault 0x0D s1

/-- Writes bytes at a virtual address of a context, at V or Y or into a peer's memory (R362): a store to a line with an
uncorrectable error behaves as R145 gives, and fails while STRICT = 1 when it would leave a part of the line (R89, log 20). -/
def State.devWriteAt (s : State) (t va : Nat) (bs : List W8) : DevAt Unit :=
  match s.translate t 0 va bs.length .write with
  | .fault c e => .fault c (s.missed t none e)
  | .mig e => .mig (s.missed t none e)
  | .ok tgt e =>
    let s1 := s.translated t none e
    match tgt with
    | .dev pa key =>
      let part := s1.partUe pa bs.length
      let s2 := s1.countUe t part.length
      if !part.isEmpty && (s1.cctx t 0x10A).getLsbD 0 then .fault 0x1B s2
      else .ok () ((s2.clearUe true key pa bs.length).putBytes true key pa bs)
    | .host a _ => .ok () ((s1.noteFails t a bs.length).putBytes false t a bs)
    | .peer p pctx a => .peer p pctx a s1
    | .loc _ => .fault 0x0D s1

end Sys2Proof.Machine
end

