-- ==== Sys2Proof/Machine/Fetch.lean ====
section
/-! DEFINITION. Instruction fetch (R204, R223): the 32-byte block, fill words, and what the decoder makes of the
words at the warp's address. -/

namespace Sys2Proof.Machine

/-- A byte of V before some writes, newest first, under a key: nothing determined under another (R169). -/
def State.codeByte (s : State) (undo : List Overwritten) (a key : Nat) : Option W8 :=
  match undo.reverse.find? fun o => decide (o.addr ≤ a) && decide (a < o.addr + o.old.length) with
  | some o =>
    match o.old.getD (a - o.addr) (none, none) with
    | (v, k) => if k = some key then v else none
  | none => s.homeByte true a key

/-- A byte of V as it stood when a workgroup started. -/
def Wg.codeByte (x : Wg) (a key : Nat) : Option W8 := if SMap.find a x.codeKey = some key then SMap.find a x.code else Option.none

/-- The writes since a workgroup started that have changed a block, newest first. -/
def State.since (s : State) (g a : Nat) : List Overwritten :=
  s.vlog.filter fun o => decide ((s.wg g).codeAt < o.no) && decide (o.addr < a + 32) && decide (a < o.addr + o.old.length)

/-- A fetch block (R204, R223): as it stood when the workgroup started, or as a later value in V, by free choices: writes are taken back,
newest first, as far as the choices go. Those of block k (0, or 1 for the one past a fill word) are drawn at every second place. A line with
an uncorrectable error reads as 0 (R145). -/
def State.codeBlock (s : State) (g k a key : Nat) : List W8 :=
  let l := s.since g a
  let n := (((List.range l.length).takeWhile fun i => Config.freeBit (s.free + 6 + k + 2 * i))).length
  let old := (List.range 32).map fun i => (s.wg g).codeByte (a + i) key
  let now := (List.range 32).map fun i => s.codeByte (l.take n) (a + i) key
  (List.range 32).map fun i =>
    let v := if old ≠ now ∧ Config.freeBit (s.free + 4 + k) then old.getD i none else now.getD i none
    if s.ue.contains (a / 128) then 0 else v.getD (Config.freeCode s.free (a + i))

/-- What fetch finds at an address, with what the translation did: bytes, and where they lie; a cause; a wait on MIG; or code in a peer's
memory that has not come yet. -/
inductive Block where
  | bytes (b : List W8) (tgt : Target) (e : XEff)
  | fault (c : Cause) (e : XEff)
  | mig (e : XEff)
  | ask (p pctx a : Nat) (e : XEff)
  deriving DecidableEq, Repr

/-- Reads the block that holds an address (R204); fetch needs X, or the heap window (R223). It may lie in host memory, of which a read may
fail (R178), or in a peer's, where it is read like any structure (R362, R179). -/
def State.fetchBlock (s : State) (g w k : Nat) (pc : W64) : Block :=
  let t := (s.wg g).ctx
  match s.translate t (2 * k) (pc.toNat / 32 * 32) 32 .fetch (some (g, w)) with
  | .fault c e => .fault c e
  | .mig e => .mig e
  | .ok tgt e =>
    match tgt with
    | .dev pa key => .bytes (s.codeBlock g k pa key) tgt e
    | .host a _ => if s.down a 32 then .fault 0x10 e else .bytes ((List.range 32).map fun i => s.anyByte true (a + i)) tgt e
    | .peer p pctx a =>
      if (s.peerAddr p).isNone || s.streamDead t p then .fault 0x11 e
      else
        (match ((s.stream t p).reads.find? fun r => decide (r.pctx = pctx) && decide (r.at_ = a) && decide (r.n = 32)).bind (·.answer) with
          | some (st, b) => if st = 0 then .bytes b tgt e else .fault (BitVec.ofNat 6 st) e
          | none => .ask p pctx a e)
    | .loc _ => .fault 0x0D e

/-- The next instruction of a warp: the instruction with its address; a word that decodes to none, with the
captured words and the length (R204); a fetch fault; a walk that waits; or code that a peer is to be asked for. -/
inductive Fetched where
  | ins (i : Instr) (pc : W64)
  | bad (c : Cause) (insn : W128) (pc : W64) (len : Nat)
  | fault (c : Cause) (pc : W64)
  | mig
  | ask (p pctx a : Nat)
  deriving DecidableEq, Repr

/-- The captured words of an instruction that raises 0x04 or 0x05 (R204): at most four, to the block's end. -/
def wordsAt (bs : List W8) : W128 := BitVec.ofNat 128 (leNat (bs.take 16))

/-- Decodes at an address in a block; a fill word is passed to `next`. A word that raises 0x06 names an instruction, whose execution
raises it (R189, R215 step 4). -/
def fetchIn (b : List W8) (pc : W64) (next : Fetched) : Fetched :=
  let bs := b.drop (pc.toNat % 32)
  match decode bs with
  | .ins i => .ins i pc
  | .fill => next
  | .bad c =>
    match c, named bs with
    | 0x06, some i => .ins i pc
    | _, _ => .bad c (wordsAt bs) pc (lenAt bs)

/-- The address past a fill word: the start of the next block (R204). -/
def nextBlock (pc : W64) : W64 := BitVec.ofNat 64 ((pc.toNat / 32 + 1) * 32)

/-- What a block gives at an address. -/
def Block.at_ (b : Block) (pc : W64) (next : Fetched) : Fetched :=
  match b with
  | .bytes l _ _ => fetchIn l pc next
  | .fault c _ => .fault c pc
  | .mig _ => .mig
  | .ask p pctx a _ => .ask p pctx a

/-- Fetches the instruction at an address: past a fill word, at the start of the next block (R204). -/
def State.fetchAt (s : State) (g w : Nat) (pc : W64) : Fetched :=
  (s.fetchBlock g w 0 pc).at_ pc ((s.fetchBlock g w 1 (nextBlock pc)).at_ (nextBlock pc) (.bad 0x04 0 (nextBlock pc) 4))

/-- The instruction that a warp issues next: the first replay entry to be re-issued (R191), else the one at its
address. -/
def State.nextInstr (s : State) (g w : Nat) : Fetched :=
  let x := s.warp g w
  match x.reissue with
  | e :: _ =>
    let bs := (leBytes 16 e.insn.toNat).take e.tail
    match decode bs with
    | .ins i => .ins i e.pc
    | .fill => .bad 0x04 e.insn e.pc 4
    | .bad c =>
      match c, named bs with
      | 0x06, some i => .ins i e.pc
      | _, _ => .bad c e.insn e.pc (lenAt bs)
  | [] => s.fetchAt g w x.pc

/-- The effects of a block's fetch: of its translation, and of the errors met in its line (R144, R145). DESIGN CHOICE (log 85): R145 gives no
result for a fetch under STRICT = 1; the line reads as 0 and is counted, once for the instruction that is due, as under STRICT = 0. -/
def State.blockUsed (s : State) (g w : Nat) (tgt : Target) (e : XEff) : State :=
  let t := (s.wg g).ctx
  let s1 := s.translated t (some (g, w)) e
  match tgt with
  | .dev pa _ => (s1.meetLines t (some (g, w)) (s1.ueLines true pa 32)).countCe t true pa 32
  | .peer p pctx a => s1.useRead t p pctx a 32
  | _ => s1

/-- The effects of a block's fetch, whatever it gives. -/
def State.blockMet (s : State) (g w : Nat) : Block → State
  | .bytes _ tgt e => s.blockUsed g w tgt e
  | .fault _ e => s.missed (s.wg g).ctx (some (g, w)) e
  | .mig e => s.missed (s.wg g).ctx (some (g, w)) e
  | .ask _ _ _ e => s.missed (s.wg g).ctx (some (g, w)) e

/-- The effects of the fetch of an instruction: of the block at the address, and past a fill word of the next one. Free choices are drawn
once. -/
def State.fetched (s : State) (g w : Nat) : State :=
  let x := s.warp g w
  if x.reissue.isEmpty then
    match s.fetchBlock g w 0 x.pc with
    | .bytes b tgt e =>
      let s1 := s.blockUsed g w tgt e
      let drawn := fun (s1 : State) => { s1 with free := s1.free + 8 + 2 * s.vlog.length }
      match decode (b.drop (x.pc.toNat % 32)) with
      | .fill => drawn (s1.blockMet g w (s.fetchBlock g w 1 (nextBlock x.pc)))
      | _ => if s.vlog.isEmpty then s1 else drawn s1
    | r => s.blockMet g w r
  else s

/-- What the next instruction of a warp waits for: its walk has read what it has, and code in a peer's memory is asked for. -/
def State.fetchAsk (s : State) (g w : Nat) : State :=
  match s.nextInstr g w with
  | .ask p pctx a => (s.fetched g w).askPeer (s.wg g).ctx p pctx a 32
  | .mig => s.fetched g w
  | _ => s

end Sys2Proof.Machine
end

