-- ==== Sys2Proof/Machine/Rings.lean ====
section
/-! DEFINITION. Graphs, edges and their rings as the other layers look at them (R47 to R58, R77, R87). -/

namespace Sys2Proof.Machine

/-- Serial comparison of frames (R77): a is later than b. -/
def later (a b : W32) : Bool := decide (1 ≤ (a - b).toNat) && decide ((a - b).toNat < 2 ^ 31)
/-- a is b or later. -/
def laterEq (a b : W32) : Bool := decide ((a - b).toNat < 2 ^ 31)

/-- A graph that is not there. -/
def Graph.none : Graph :=
  { at_ := 0, queue := 0, die := 0, far := false, gid := 0, frame0 := 0, stages := [], edges := [], cut := 0
    place := 0, since := 0, oldCut := 0, oldPlace := 0, cur := 0 }
/-- An edge that is not there. -/
def Edge.none : Edge :=
  { prod := 0, cons := 0, size := 0, slots := 0, perWg := 1, kind := 0, sparse := false, subst := 0, pmask := 0
    ringDie := 0, peer := 0, keys := 0, window := 0, holdMax := 0, deadline := 0 }
/-- A stage that is not there. -/
def Stage.none : Stage :=
  { entry := 0, shape := Shape.none, kind := 0, trigger := 0, trigen := false, queue := 0, closeDec := .none
    state := 0, stateSz := 0, slots := 0, arg := 0 }

/-- A graph of a context. -/
def State.graph (s : State) (t n : Nat) : Graph := SMap.get n Graph.none (s.ctx t).graphs
/-- Updates a graph. -/
def State.modGraph (s : State) (t n : Nat) (f : Graph → Graph) : State :=
  s.modCtx t fun c =>
    match SMap.find n c.graphs with
    | some g => { c with graphs := SMap.put n (f g) c.graphs }
    | .none => c
/-- An edge of a graph. -/
def Graph.edge (g : Graph) (e : Nat) : Edge := g.edges.getD e Edge.none
/-- A stage of a graph. -/
def Graph.stage (g : Graph) (n : Nat) : Stage := g.stages.getD n Stage.none
/-- Updates an edge. -/
def State.modEdge (s : State) (t n e : Nat) (f : Edge → Edge) : State :=
  s.modGraph t n fun g => { g with edges := modAt f e g.edges }
/-- An edge. -/
def State.edge (s : State) (t n e : Nat) : Edge := (s.graph t n).edge e

/-- A move is in progress that leaves a frame under the old cut (R87); after it, the live cut governs every frame (R86). -/
def Graph.before (g : Graph) (f : W32) : Bool :=
  (match g.move with | .some m => m.accepted | .none => false) && !laterEq f g.since
/-- The cut vector that governs a frame (R87). -/
def Graph.cutAt (g : Graph) (f : W32) : W32 := if g.before f then g.oldCut else g.cut
/-- The placement that governs a frame (R87). -/
def Graph.placeAt (g : Graph) (f : W32) : BitVec 16 := if g.before f then g.oldPlace else g.place
/-- A stage runs on this unit for a frame (R51, R87). -/
def Graph.here (g : Graph) (f : W32) (stage : Nat) : Bool := decide ((g.placeAt f).getLsbD stage = g.far)
/-- The live kind of an edge for a frame: 0 LOCAL, 1 PEER, 2 REMOTE (R87). -/
def Graph.kindAt (g : Graph) (f : W32) (e : Nat) : Nat :=
  if (g.edge e).kind = 1 then 1 else if (g.cutAt f).getLsbD e then 2 else 0

/-- The outgoing edges of a stage. -/
def Graph.outEdges (g : Graph) (stage : Nat) : List Nat :=
  (List.range g.edges.length).filter fun e => decide ((g.edge e).prod = stage)

/-- A raster edge (R335): from a MESH stage to a PIXEL stage. -/
def Graph.raster (g : Graph) (e : Nat) : Bool :=
  decide ((g.stage (g.edge e).prod).kind = 2) && decide ((g.stage (g.edge e).cons).kind = 3)

/-- A frame of a stage. -/
def Graph.frameOf (g : Graph) (k : Nat) (f : W32) : Frame :=
  (g.frames.find? fun x => decide (x.stage = k) && decide (x.frame = f)).getD { stage := k, frame := f }
/-- Updates a frame of a stage. -/
def State.modFrame (s : State) (t n k : Nat) (f : W32) (h : Frame → Frame) : State :=
  s.modGraph t n fun g =>
    { g with frames := h (g.frameOf k f) :: g.frames.filter fun x => !(decide (x.stage = k) && decide (x.frame = f)) }

/-- The graph number of a workgroup, 0 (no graph) when it has none. -/
def Wg.graphNo (x : Wg) : Nat := x.graph.getD 0
/-- The stage number of a workgroup (R8): 0xFF when it comes from no stage. -/
def Wg.stageNo (x : Wg) : Nat := x.stage.getD 0xFF
/-- The graph of a workgroup. -/
def State.graphOf (s : State) (g : Nat) : Graph := s.graph (s.wg g).ctx (s.wg g).graphNo
/-- The kind of a workgroup's stage (R49); 8 when it comes from no stage. -/
def State.stageKind (s : State) (g : Nat) : Nat :=
  match (s.wg g).stage with
  | some n => ((s.graphOf g).stage n).kind
  | .none => 8

/-- Free slots for the producer of an edge: of the ring (LOCAL), of the peer's ring as credits (PEER), of the send
ring (REMOTE) (R53, R55). -/
def Graph.space (gr : Graph) (f : W32) (e : Nat) : Nat :=
  let x := gr.edge e
  match gr.kindAt f e with
  | 0 => x.slots - x.ring.length
  | 1 => x.credits
  | _ => x.slots - x.send.length

/-- A record of a frame that waits in the ring of an edge, not delivered to any workgroup (R57). -/
def Edge.hasRecord (x : Edge) (f : W32) : Bool := x.ring.any fun p => !p.2 && decide (p.1.frame = f)

end Sys2Proof.Machine
end

