-- ==== Sys2Proof/Machine/Handles.lean ====
section
/-! DEFINITION. Handle slots (R30, R31): taking one, binding registers, completing, and the value written. -/

namespace Sys2Proof.Machine

/-- A slot of a core. -/
def Core.slot (c : Core) (n : Nat) : HSlot := SMap.get n {} c.slots

/-- Updates a slot. -/
def State.modSlot (s : State) (c n : Nat) (f : HSlot → HSlot) : State :=
  s.modCore c fun x => { x with slots := SMap.put n (f (x.slot n)) x.slots }

/-- Bits [15:0] of a handle: SLOT and GEN (R30). -/
def handleId (slot : Nat) (gen : BitVec 4) : W64 := BitVec.ofNat 64 (slot + 4096 * gen.toNat)

/-- The final value of a handle (R30). -/
def handleValue (slot : Nat) (gen : BitVec 4) (fault : Bool) (code : Cause) (data : BitVec 40) : W64 :=
  BitVec.ofNat 64 (slot + 4096 * gen.toNat + 65536 * code.toNat + (if fault then 2 ^ 23 else 0) + 2 ^ 24 * data.toNat)

/-- The slot that an operation takes next, with its new generation: one never taken, else the least recently
completed (R31); none when every slot is live. -/
def Core.nextSlot (c : Core) : Option (Nat × BitVec 4) :=
  if c.fresh < 4096 then some (c.fresh, 0)
  else match c.recent with
    | n :: _ => some (n, (c.slot n).gen + 1)
    | [] => none

/-- Takes a slot for an operation of a context, bound to a register of a warp when it has one: its id goes into
bits [15:0] of the register, which becomes empty (R30). The answer gives the slot. -/
def State.takeSlot (s : State) (c ctx : Nat) (bind : Option (Nat × Nat × Nat)) : Option (Nat × State) :=
  match (s.core c).nextSlot with
  | none => none
  | some (n, gen) =>
    let s1 := s.modCore c fun x =>
      { x with
        slots := SMap.put n { gen := gen, live := true, bound := bind.toList.filter fun b => b.2.2 ≠ 63, own := bind.map (·.1), ctx := ctx } x.slots
        fresh := if x.fresh < 4096 then x.fresh + 1 else x.fresh
        recent := if x.fresh < 4096 then x.recent else x.recent.drop 1 }
    some (n, match bind with
      | some (g, w, r) => s1.modWarp g w fun x => (x.setS r (handleId n gen)).markEmpty (.s r)
      | none => s1)

/-- Completes a slot: its final value is kept and fills every bound register (R30, R31). -/
def State.completeSlot (s : State) (c n : Nat) (fault : Bool) (code : Cause) (data : BitVec 40) : State :=
  let h := (s.core c).slot n
  if !h.live then s
  else
    let v := handleValue n h.gen fault code data
    let s1 := s.modCore c fun x =>
      { x with slots := SMap.put n { h with live := false, final := v, bound := [], pend := none } x.slots
               recent := x.recent ++ [n] }
    h.bound.foldl (fun s b => s.modWarp b.1 b.2.1 fun x => (x.setS b.2.2 v).markFull (.s b.2.2)) s1

/-- Marks a slot's operation as done, with what HANDLE_COMPLETE will fill in. -/
def State.pendSlot (s : State) (c n : Nat) (fault : Bool) (code : Cause) (data : BitVec 40) : State :=
  s.modSlot c n fun h =>
    if h.live && h.pend.isNone then { h with pend := some (handleValue n h.gen fault code data) } else h

/-- Gives a slot back: it completes as cancelled, which fills the registers bound to it but the operation's own
destination (R309). -/
def State.freeSlot (s : State) (c n : Nat) (own : List (Nat × Nat × Nat)) : State :=
  let h := (s.core c).slot n
  let s1 := s.modSlot c n fun h => { h with bound := h.bound.filter fun b => !own.contains b }
  if h.live then s1.completeSlot c n false 0x01 0 else s

/-- A wait on the handle with this SLOT and GEN has ended (R111, R134): the accumulators it guarded are settled. -/
def State.handleWaited (s : State) (g id : Nat) : State :=
  s.modWg g fun x => { x with taint := x.taint.filter fun p => !p.2.2.contains id }

end Sys2Proof.Machine
end

