-- ==== Sys2Proof/Machine/Sched.lean ====
section
/-! DEFINITION. The group scheduler (R18 to R25, R32, R33): readiness, ranking, the cloakroom and exchanges. -/

namespace Sys2Proof.Machine

/-- The edge is one of the graph's and leaves (`out`) or enters the stage of the workgroup (R320). -/
def State.edgeFits (s : State) (g e : Nat) (out : Bool) : Bool :=
  match (s.wg g).stage with
  | some k =>
    let gr := s.graphOf g
    decide (e < gr.edges.length) && decide ((if out then (gr.edge e).prod else (gr.edge e).cons) = k)
  | none => false

/-- The opcode map for an instruction of workgroup g: the source group of an `emit` has the size of its edge's records (R319, R320), where
the edge is one that the workgroup may name. -/
def State.rowOf (s : State) (g : Nat) (i : Instr) : Option Row :=
  match i with
  | .emit f =>
    let e := f.ext.toNat % 32
    (row i).map fun r => if s.edgeFits g e true then { r with sa := .vg (4 * (((s.graphOf g).edge e).size + 1)) } else r
  | _ => row i

/-- An operation stands in the issue queue (R121): it accesses memory, or is a fence. Those of the sampler and the ray unit stand in
their engine's queue (R133). -/
def Op.isMem (o : Op) : Bool :=
  match o.kind with
  | .fill => false
  | .look => false
  | _ => true

/-- An operation has something to perform. -/
def Op.works (o : Op) : Bool := decide (o.kind ≠ .fill)

/-- An operation is performed: its release part, every unit, and its acquire or fence part. -/
def Op.performed (o : Op) : Bool :=
  (o.opened || !o.rel) && o.units.all (·.done)
    && (o.closed || !(o.acq || decide (o.kind = .fence) || decide (o.kind = .cflush)))

/-- The earlier memory operations of a warp are performed (R121, R126 part 1). -/
def Warp.allPerformed (x : Warp) : Bool := x.ops.all fun o => !o.isMem || o.performed

/-- No earlier acquire, fence or atomic with acquire is unperformed (R121). -/
def Warp.noAcquire (x : Warp) : Bool :=
  x.ops.all fun o => !(o.isMem && (o.acq || decide (o.kind = .fence))) || o.performed

/-- Every batch up to n has completed (R139): none of the uncompleted ones is at or before n. -/
def Warp.batchesDone (x : Warp) (n : BitVec 16) : Bool :=
  x.batches.all fun b => b.2.isEmpty || decide (2 ^ 15 ≤ (n - b.1).toNat)

/-- The tickets that some fine pixels of a primitive must wait for at `ordb` (R337) have all been released: those of
every lower-ranked primitive of the raster edge on those pixels. Rank is by frame, then sequence number. -/
def ticketsFree (prims : List Prim) (frame : W32) (seq : Nat) (px : List (Nat × Nat)) : Bool :=
  prims.all fun p =>
    !(later frame p.frame || (decide (p.frame = frame) && decide (p.seq < seq))) || px.all fun q => !p.tickets.contains q

/-- The fine pixels of some lanes. -/
def Pixel.pixelsOf (p : Pixel) (lanes : W32) : List (Nat × Nat) :=
  (List.range 32).flatMap fun l => if lanes.getLsbD l then p.fine.getD l [] else []

/-- The fine pixels of the lanes whose tickets a warp has not released. -/
def Pixel.leftPixels (p : Pixel) : List (Nat × Nat) := p.pixelsOf p.left

/-- One of a core's 8 latches is free (R36); those of an evicted workgroup are saved with it (R38). -/
def Core.latchFree (k : Core) : Bool := decide ((k.latches.filter fun l => l.left.isNone).length < 8)

/-- An address lies in a range that `tlb_inv` names: a page, or everything (R156). -/
def inRange (page : Option Nat) (va : Nat) : Bool :=
  match page with
  | none => true
  | some n => decide (va / 2 ^ 16 = n) || decide (va / 2 ^ 26 = n / 1024)

/-- Every access of a context that has used a translation of a range is performed (R156): those of the issue queues, which are
translated at issue, and those that engines have sent to the host or to a peer. -/
def State.xlatFree (s : State) (t : Nat) (page : Option Nat) : Bool :=
  (s.wgs.all fun p => decide (p.2.ctx ≠ t) || p.2.warps.all fun x => x.ops.all fun o =>
    o.performed || decide (o.kind = OpKind.look) || o.units.all fun u => u.done || !inRange page u.va)
  && s.cores.all fun p => p.2.eops.all fun e => decide (e.ctx ≠ t) || e.units.all fun u => !u.sent || u.done
    || !([u.src, u.dst].any fun x => match x with | .va a => inRange page a | _ => false)

/-- A wait condition is met (R32). -/
def State.waitMet (s : State) (g w : Nat) : Wait → Bool
  | .full r => !(s.warp g w).isEmpty r
  | .group r => !((s.warp g w).ops.any fun o => o.ins.group.contains r)
  | .room => decide ((s.warp g w).ops.length < 16)
  | .refit => decide ((s.warp g w).ops.length + (s.warp g w).replay.length ≤ 16)
  | .performed => (s.warp g w).allPerformed
  | .acquired => (s.warp g w).noAcquire
  | .batch n => (s.warp g w).batchesDone n
  | .ring e n =>
    decide (n ≤ (s.graphOf g).space (s.wg g).frame e)
      && ((s.graphOf g).kindAt (s.wg g).frame e ≠ 1 ∨ s.streamFree (s.wg g).ctx ((s.graphOf g).edge e).peer)
    || (decide ((s.graphOf g).kindAt (s.wg g).frame e = 1) && s.streamDead (s.wg g).ctx ((s.graphOf g).edge e).peer)
  | .records e =>
    let x := (s.graphOf g).edge e
    x.hasRecord (s.wg g).frame || x.closedAt.contains (s.wg g).frame
  | .latch _ => (s.core (s.coreOf g)).latchFree
      || (s.core (s.coreOf g)).latches.any fun l => decide (l.wg = g) && decide (l.members = (s.warp g w).gang)
  | .launchBuf => decide ((s.core (s.coreOf g)).launches.length < 16)
  | .slot => ((s.core (s.coreOf g)).nextSlot).isSome
  | .mig at_ => decide (at_ ≤ s.now g)
  | .op id => (s.warp g w).ops.all fun o => decide (o.id ≠ id)
  | .engine id => (s.core (s.coreOf g)).eops.all fun o => decide (o.id ≠ id)
  | .xlat page => s.xlatFree (s.wg g).ctx page
  | .acks => (s.ctx (s.wg g).ctx).streams.all fun p => p.2.reqs.all fun q =>
      !(q.write && decide (q.wg = g) && decide (q.w = w))
  | .looks l => s.wgs.all fun p => p.2.warps.all fun x => x.ops.all fun o => !l.contains o.id || o.units.all (·.done)
  | .bar => false
  | .sbar _ => false
  | .rollCall _ => false
  | .hall _ => false
  | .ticket m =>
    match (s.warp g w).pixel with
    | none => true
    | some p => ticketsFree ((s.graphOf g).edge p.edge).prims p.frame p.seq (p.pixelsOf m)

/-- A wait that parks (R32) and is a blocking point (R45): those that R32 lists, and those that other rules call blocking points or treat
like an empty register (R36, R154, R167, R184, R190, R321). The others hold the warp only: those of R121 and R126 part 1 for its earlier
memory operations, of `rte`, and of `csrw` (R156, R175, R263). -/
def Wait.parks : Wait → Bool
  | .performed => false
  | .acquired => false
  | .refit => false
  | .xlat _ => false
  | .acks => false
  | .engine _ => false
  | _ => true

/-- What keeps a warp from being ready for its next instruction (R19): one not fetched because its walk waits on MIG or a peer's answer, a
seventeenth instruction (R184), or registers. -/
def State.nextWaits (s : State) (g w : Nat) : List Wait :=
  let x := s.warp g w
  match s.nextInstr g w with
  | .ins i _ =>
    match s.rowOf g i, fields i with
    | some r, some f =>
      if 16 ≤ x.ops.length then [.room]
      else if (formCause r f).isSome ∨ r.oddPair f ∨ r.outside (s.wg g).shape f then []
      else operandWaits x x.reissue.head? (r.heads f) (readsOf i r f (!x.reissue.isEmpty)) (r.dests f)
    | _, _ => []
  | .bad _ _ _ _ => if 16 ≤ x.ops.length then [.room] else []
  | .mig => [.mig (s.now g + 256)]
  | .ask _ _ _ => [.mig (s.now g + 256)]
  | .fault _ _ => []

/-- A warp could issue but for the registers of its next instruction. -/
def State.runnable (s : State) (g w : Nat) : Bool :=
  let x := s.warp g w
  s.live (s.wg g).ctx && !(s.wg g).saved && !(s.wg g).evicting && !x.ended && x.blocked.isNone && x.trapping.isNone && !x.poll
    && x.parked.all (s.waitMet g w) && (match x.paused with | some t => decide (t ≤ s.now g) | none => true)
    && (match (s.wg g).halt with | some h => decide (h = w) | none => true)

/-- R19: a warp is ready. -/
def State.ready (s : State) (g w : Nat) : Bool := s.runnable g w && (s.nextWaits g w).isEmpty

/-- The warps of a sub-core that have not ended and are not evicted. -/
def State.subWarps (s : State) (j : Nat) : List (Nat × Nat) :=
  s.allWarps.filter fun p => decide (s.subOf p.1 p.2 = j) && !(s.warp p.1 p.2).ended && !(s.wg p.1).saved

/-- Effective priority of a warp (R24). -/
def Warp.eprio (x : Warp) : Nat := min 15 (x.prio + x.aged / 2 ^ 20)

/-- The warp slot of a warp (R259). -/
def State.slotOf (s : State) (g w : Nat) : Nat := (s.wg g).slots.getD w 0

/-- R20's ranking of two warps of one sub-core: effective priority, then age (cycles since the last issue), then the
lower warp slot. -/
def State.ranks (s : State) (p q : Nat × Nat) : Bool :=
  let x := s.warp p.1 p.2
  let y := s.warp q.1 q.2
  if x.eprio ≠ y.eprio then decide (y.eprio < x.eprio)
  else if x.lastAt ≠ y.lastAt then decide (x.lastAt < y.lastAt)
  else decide (s.slotOf p.1 p.2 < s.slotOf q.1 q.2)

/-- The first of a list under a ranking. -/
def bestOf (better : Nat × Nat → Nat × Nat → Bool) : List (Nat × Nat) → Option (Nat × Nat)
  | [] => none
  | p :: ps =>
    match bestOf better ps with
    | none => some p
    | some q => if better q p then some q else some p

/-- Warps that take part in the exchange in progress on a sub-core do not issue (R21). -/
def State.exchanging (s : State) (j : Nat) (p : Nat × Nat) : Bool :=
  match (s.sub j).xchg with
  | some x => decide (x.out = some p) || decide (x.inn = some p)
  | none => false

/-- The best ready pending warp of a sub-core. -/
def State.bestPending (s : State) (j : Nat) : Option (Nat × Nat) :=
  bestOf s.ranks ((s.subWarps j).filter fun p => !(s.warp p.1 p.2).active && s.ready p.1 p.2 && !s.exchanging j p)

/-- The best ready active warp of a sub-core (R20). -/
def State.bestActive (s : State) (j : Nat) : Option (Nat × Nat) :=
  bestOf s.ranks ((s.subWarps j).filter fun p => (s.warp p.1 p.2).active && s.ready p.1 p.2 && !s.exchanging j p)

/-- The number of active warps of a sub-core, with a warp that is moving in. -/
def State.activeCount (s : State) (j : Nat) : Nat :=
  ((s.subWarps j).filter fun p => (s.warp p.1 p.2).active).length
    + (match (s.sub j).xchg with | some x => if x.out.isNone && x.inn.isSome then 1 else 0 | none => 0)

/-- The number of pending warps of a sub-core. -/
def State.pendingCount (s : State) (j : Nat) : Nat :=
  ((s.subWarps j).filter fun p => !(s.warp p.1 p.2).active).length

/-- Cloakroom entries in use on a sub-core: the unmet conditions that parked warps hold (R32). -/
def State.cloakUsed (s : State) (j : Nat) : Nat :=
  (s.subWarps j).foldl (fun n p =>
    let x := s.warp p.1 p.2
    n + if x.blocked.isSome then x.parked.length else (x.parked.filter fun c => c.parks && !s.waitMet p.1 p.2 c).length) 0

/-- Begins an exchange of an active warp with the best ready pending one, when there is one and no exchange is in
progress on the sub-core (R21). -/
def State.exchange (s : State) (j : Nat) (out : Nat × Nat) : State :=
  match (s.sub j).xchg, s.bestPending j with
  | none, some inn => s.modSub j fun x => { x with xchg := some { out := some out, inn := some inn, ends := s.now out.1 + 4 } }
  | _, _ => s

/-- A warp parks for the first four of its unmet conditions, or enters poll state when the cloakroom lacks room
(R32, R33); an active warp is then exchanged, or moves to the pending set (R21). DESIGN CHOICE (log 74): a warp that stalls while
another exchange is in progress, or while no pending warp is ready, starts no exchange of case 1 later; case 2 takes it out. A wait that
does not park holds the warp where it stands. -/
def State.park (s : State) (g w : Nat) (ws : List Wait) : State :=
  if !ws.all Wait.parks then s.modWarp g w fun x => { x with parked := ws, waits := ws, poll := false } else
  let j := s.subOf g w
  let fits := decide (s.cloakUsed j + min 4 ws.length ≤ 32)
  let s1 := if fits then s.modWarp g w fun x => { x with parked := ws.take 4, waits := ws, poll := false }
    else (s.modWarp g w fun x => { x with parked := [], waits := ws, poll := true }).putSub j 0x280
      (satAdd (s.csub j 0x280) 31 0 1)
  if !(s.warp g w).active then s1
  else if (s1.sub j).xchg.isNone && (s1.bestPending j).isSome then s1.exchange j (g, w)
  else if !fits && decide (s1.pendingCount j < 16) then s1.modWarp g w fun x => { x with active := false }
  else s1

/-- Cloakroom entries whose conditions are met are freed (R32): a warp that holds none any more is ready, whatever becomes of them. -/
def Warp.unpark (x : Warp) (met : Wait → Bool) : Warp :=
  if x.blocked.isSome || !x.parked.any met then x else { x with parked := x.parked.filter fun c => !met c }

/-- The entries of every warp whose conditions are met are freed. -/
def State.freeEntries (s : State) : State :=
  s.allWarps.foldl (fun s p => if (s.warp p.1 p.2).parked.isEmpty then s else s.modWarp p.1 p.2 fun x => x.unpark (s.waitMet p.1 p.2)) s

/-- The scheduler examines a warp that nothing else holds: one whose next instruction must wait parks (R28, R32), and again for
the next four of its conditions. -/
def State.examine (s : State) (j g w : Nat) : State :=
  if s.runnable g w && !s.exchanging j (g, w) then
    match s.nextWaits g w with
    | [] => s
    | l => (s.fetchAsk g w).park g w l
  else s

end Sys2Proof.Machine
end

