-- ==== Sys2Proof/Machine/Ops.lean ====
section
/-! DEFINITION. The operations every instruction is built from: filling destinations, taking a trap and returning
from one (R185 to R192), fatal causes (R193, R199), waiting, completing, and the order of the checks of an issue
(R215). -/

namespace Sys2Proof.Machine

/-! Results of long-latency producers (R27). -/

/-- The bytes that an operation has for a lane, in the order of their offsets. -/
def Op.laneBytes (o : Op) (l : Nat) : List W8 := (o.units.filter fun u => u.lane = l).flatMap (·.rd)

/-- Every unit of a lane is performed. -/
def Op.laneDone (o : Op) (l : Nat) : Bool := o.units.all fun u => decide (u.lane ≠ l) || u.done

/-- A loaded value of a type at its width, extended to 32 bits in a vector lane (R281). -/
def extend32 (ty : Ty) (width x : Nat) : Nat :=
  if width < 4 ∧ ty.isSigned ∧ bit x (8 * width - 1) then x + (2 ^ 32 - 2 ^ (8 * width)) else x

/-- A loaded value in a scalar register (R284): sign-extended for the signed types, else zero-extended. -/
def extend64 (ty : Ty) (width x : Nat) : Nat :=
  if width < 8 ∧ ty.isSigned ∧ bit x (8 * width - 1) then x + (2 ^ 64 - 2 ^ (8 * width)) else x

/-- What an operation's units have read, for its destination registers. -/
def Op.results (o : Op) : List RegVal :=
  (match o.dst with
    | none => []
    | some (.s n) => [.s n (BitVec.ofNat 64 (extend64 o.ty o.width (leVal (o.laneBytes 0))))]
    | some (.v n) =>
      (List.range ((o.width + 3) / 4)).map fun i =>
        .v (n + i) (mkLanes fun l => BitVec.ofNat 32 (extend32 o.ty o.width (leVal (o.laneBytes l)) / 2 ^ (32 * i))))
  ++ ((List.range o.regs.length).map fun i =>
      .v (o.regs.getD i 0) (mkLanes fun l => BitVec.ofNat 32 (leVal ((o.laneBytes l).drop (4 * i) |>.take 4))))
  ++ o.vals

/-- Writes results into the lanes of a mask, leaving the full/empty bits. -/
def Warp.writeAll (x : Warp) (mask : W32) (l : List RegVal) : Warp := l.foldl (fun x v => x.write mask v) x

/-- The destinations an operation fills when it finishes: those it holds but its handle, which its slot fills. -/
def Op.fills (o : Op) : List Reg :=
  if o.slot.isNone then o.ins.held else o.ins.held.filter fun r => !o.ins.prior.any fun p => decide (r = .s p.1)

/-- An operation finishes: its results fill its destinations (R27) and it leaves the queue. -/
def Warp.finishOp (x : Warp) (o : Op) : Warp :=
  let y := x.writeAll o.ins.lmask o.results
  let z := o.fills.foldl Warp.markFull y
  { z with ops := z.ops.filter fun p => p.id ≠ o.id }

/-! Fatal causes (R182, R193, R199). -/

/-- A fatal cause marks the context: none of its warps issues again, and CONTEXT_REMOVAL follows. The record of
R193 names the warp, its `tpc`, and for a double fault the inner cause. -/
def State.kill (s : State) (t : Nat) (c inner : Cause) (warp : Option (Nat × Nat)) (pc : W64) : State :=
  s.modCtx t fun x =>
    if x.dying.isSome then x else { x with dying := some c, inner := inner, dyingWarp := warp, dyingPc := pc }

/-! Trap entry (R184 to R187). -/

/-- The lowest cause of a list. -/
def lowest : List Cause → Option Cause
  | [] => none
  | c :: cs => some (cs.foldl (fun a b => if b.toNat < a.toNat then b else a) c)

/-- The causes an atomic's lanes have met (R289). -/
def Op.allFaults (o : Op) : List Cause := o.faults ++ o.units.filterMap (·.fault)

/-- What becomes of an unfinished instruction at a trap (R185 step 2): it is completed when all its lanes are
performed, split when some are, captured when none is. -/
inductive Drained where
  | finish
  | split (mask : W32)
  | capture
  deriving DecidableEq, Repr

/-- A value of an operation is on its way from the host or a peer: a trap waits for it (R185 step 2, log 11). -/
def Op.onItsWay (o : Op) : Bool := o.units.any fun u => u.sent && !u.done

/-- Decides R185 step 2 for an operation. -/
def Op.drain (o : Op) : Drained :=
  if o.performed ∨ !o.works then .finish
  else if o.units.any (·.done) then
    .split (maskOf fun l => o.ins.lmask.getLsbD l && !o.laneDone l)
  else .capture

/-- Applies R185 step 2 to one operation of a warp: the warp and the replay entries so far. -/
def drainOp (p : Warp × List Issued) (o : Op) : Warp × List Issued :=
  match o.drain with
  | .finish => (p.1.finishOp o, p.2)
  | .split m =>
    let y := p.1.writeAll (o.ins.lmask &&& ~~~m) o.results
    ({ y with ops := y.ops.filter fun q => q.id ≠ o.id }, p.2 ++ [{ o.ins with lmask := m, faults := o.allFaults, fellBack := o.fellBack }])
  | .capture => ({ p.1 with ops := p.1.ops.filter fun q => q.id ≠ o.id }, p.2 ++ [o.ins])

/-- A cause that stops the other warps of the workgroup under `dbg_halt_wg` (R202). -/
def isDebug (c : Cause) : Bool := decide (c = 0x00) || decide (c = 0x01) || decide (c = 0x02) || decide (c = 0x2C)

/-- The destinations of the trapping instruction, which stay empty, held by its entry (R185, R186; log 72). -/
def TrapInfo.holds (i : TrapInfo) : List Reg := match i.cap with | some e => e.held | none => []

/-- The warp after steps 1 to 4 of R185, fetching at `entry`. -/
def Warp.enterTrap (x : Warp) (i : TrapInfo) (entry : W64) : Warp :=
  let d := x.ops.foldl drainOp (x, [])
  { i.holds.foldl Warp.markEmpty d.1 with
    replay := d.2 ++ i.cap.toList ++ i.rest, reissue := []
    tcause := i.cause, tasync := i.async, tpc := i.tpc, trpc := i.trpc, taddr := i.addr, tmask := i.mask
    taux := i.aux, texec := x.exec, tm := true, ih := true, pc := entry, rewritten := [], trapping := none
    parked := [], waits := [], poll := false, blocked := none, noBp := false, stepped := false }

/-- An instruction of which anything is captured gives its handle slot back, to take a new one when it is re-issued,
as R309 gives for `mma`. -/
def State.freeDrained (s : State) (g w : Nat) : State :=
  ((s.warp g w).ops.filter fun o => match o.drain with | .capture => true | .split _ => true | _ => false).foldl (fun s o =>
    match o.slot with
    | some n => s.freeSlot (s.coreOf g) n (o.ins.prior.map fun p => (g, w, p.1))
    | none => s) s

/-- Steps 2 to 4 of R185: with `tvec`.EN = 0 the context is removed with 0x33; otherwise the warp goes on at its handler. -/
def State.enter (s : State) (g w : Nat) (i : TrapInfo) : State :=
  let t := (s.wg g).ctx
  let tvec := s.cctx t 0x100
  let s1 := (s.freeDrained g w).modWarp g w fun x => x.enterTrap i (tvec &&& 0x00FFFFFFFFFFFFFC)
  let s2 := if isDebug i.cause && (s.cctx t 0x117).getLsbD 0 then s1.modWg g fun y => { y with halt := some w } else s1
  { (if tvec.getLsbD 0 then s2 else s2.kill t 0x33 0 (some (g, w)) i.tpc) with cur := none }

/-- Takes a trap (R185): a double fault while TM = 1 (R192) removes the context with 0x1A. The warp stops issuing, and once the
values on their way have come it enters its handler (step 2); a cause that comes up meanwhile belongs to an instruction that is
captured and raises it again (log 11). -/
def State.trap (s : State) (g w : Nat) (i : TrapInfo) : State :=
  let x := s.warp g w
  if x.tm then { s.kill (s.wg g).ctx 0x1A i.cause (some (g, w)) x.tpc with cur := none }
  else if x.trapping.isSome then { s with cur := none }
  else if x.ops.any Op.onItsWay then
    { (s.modWarp g w fun x => { x with trapping := some i, parked := [], waits := [], poll := false, blocked := none }) with cur := none }
  else s.enter g w i

/-- A value has come: a trap that waited for the last one is entered (R185 step 2). -/
def State.arrived (s : State) (g w : Nat) : State :=
  let x := s.warp g w
  match x.trapping with
  | some i => if x.ops.any Op.onItsWay then s else { s.enter g w i with cur := s.cur }
  | none => s

/-- An entry's OPC, LEN and TYPE are those captured (R191): bits [9:0] and [63:60]. -/
def Issued.intact (e : Issued) : Bool :=
  decide (e.insn.extractLsb' 0 10 = e.orig.extractLsb' 0 10) && decide (e.insn.extractLsb' 60 4 = e.orig.extractLsb' 60 4)

/-- The return of `rte` (R191): the checks of step 1, then `exec`, TM and IH, and the entries to re-issue; fetch goes
on at `trpc`, where fetch breakpoints do not match first. -/
def State.returnFromTrap (s : State) (g w : Nat) : State :=
  let x := s.warp g w
  if !x.replay.all Issued.intact then { s.kill (s.wg g).ctx 0x1C 0 (some (g, w)) x.tpc with cur := none }
  else
    let s1 := s.modWarp g w fun x =>
      { x with exec := x.texec, tm := false, ih := false, reissue := x.replay, replay := [], rewritten := [], pc := x.trpc, noBp := true
               lastAt := s.now g, aged := 0, stepped := false }
    { (s1.modWg g fun y => if y.halt = some w then { y with halt := none } else y) with cur := none }

/-! Issue (R215). -/

/-- What an instruction sees when it issues: the warp, its fields, its address and the captured operands (R189). -/
structure Cx where
  g   : Nat
  w   : Nat
  f   : Fields
  ins : Issued
  re  : Bool
  deriving DecidableEq, Repr

/-- What an instruction does at issue. -/
inductive Res where
  /-- It issues; the warp goes on after it. -/
  | done (s : State)
  /-- It issues; the warp goes on at an address. -/
  | goto (s : State) (pc : W64)
  /-- It raises a cause and enters the replay queue (R185). -/
  | trap (c : Cause) (mask : W32) (addr aux : W64)
  /-- The same, keeping what translation has done (R155). -/
  | trapIn (s : State) (c : Cause) (mask : W32) (addr aux : W64)
  /-- It raises a cause and has completed: it is not captured (`brk` and `trap`, R185). -/
  | trapAfter (c : Cause)
  /-- It waits and has not issued. -/
  | wait (l : List Wait)
  /-- The same, keeping what translation has done. -/
  | waitIn (s : State) (l : List Wait)
  /-- It issues, and the warp parks after it (R32). -/
  | park (s : State) (l : List Wait)
  /-- It has acted and waits inside itself. -/
  | block (s : State) (c : Wait)
  /-- It ends the warp's run at this step with the state as it stands. -/
  | final (s : State)

/-- The active lanes at issue. -/
def Cx.act (c : Cx) : W32 := c.ins.lmask
/-- Scalar source A, B, C, D as captured. -/
def Cx.sA (c : Cx) : W64 := c.ins.sop.getD 0 0
def Cx.sB (c : Cx) : W64 := c.ins.sop.getD 1 0
def Cx.sC (c : Cx) : W64 := c.ins.sop.getD 2 0
def Cx.sD (c : Cx) : W64 := c.ins.sop.getD 3 0
/-- Vector source register i of the eight captured slots. -/
def Cx.vop (c : Cx) (i : Nat) : Lanes := c.ins.vop.getD i zeroLanes
def Cx.vA (c : Cx) : Lanes := c.vop 0
def Cx.vB (c : Cx) : Lanes := c.vop 2
def Cx.vC (c : Cx) : Lanes := c.vop 4
def Cx.vD (c : Cx) : Lanes := c.vop 6

/-- Register i of a source group whose operand has captured slots `slot` and `slot + 1` (R190): the first two are
captured, the rest is read from the register file. -/
def State.groupReg (s : State) (c : Cx) (slot base i : Nat) : Lanes :=
  if i < 2 then c.vop (slot + i) else (s.warp c.g c.w).getV (base + i)

/-- IMM32 sign-extended to 64 bits (R213). -/
def Cx.imm64 (c : Cx) : W64 := c.f.imm.signExtend 64

/-- The address after an instruction. -/
def Cx.nextPc (c : Cx) : W64 := c.ins.pc + BitVec.ofNat 64 c.f.len.bytes

/-- The warp has issued an instruction (R20, R24): its age restarts; a re-issued entry leaves the queue. The warp
goes on at `pc`. -/
def Warp.issued (x : Warp) (now : Nat) (re : Bool) (pc : W64) : Warp :=
  { x with
    pc := pc
    reissue := if re then x.reissue.drop 1 else x.reissue
    lastAt := now, aged := 0, stepped := x.stepOn && !x.ih, noBp := x.noBp && re, parked := [], waits := [] }

/-- The warp goes on after an issued instruction. -/
def State.advance (s : State) (c : Cx) (pc : W64) : State :=
  { (s.modWarp c.g c.w fun x => x.issued (s.now c.g) c.re pc) with cur := none }

/-- A blocked instruction ends: the warp goes on after it, from poll state once it is next examined (R33). -/
def State.unblock (s : State) (g w : Nat) : State :=
  match (s.warp g w).blocked with
  | none => s
  | some b =>
    s.modWarp g w fun x =>
      { x with pc := if b.re then x.pc else b.ins.pc + BitVec.ofNat 64 (lenAt (leBytes 16 b.ins.insn.toNat))
               reissue := if b.re then x.reissue.drop 1 else x.reissue
               blocked := none, parked := [], waits := [] }

/-- The address after a warp's youngest issued instruction (R187). -/
def Warp.after (x : Warp) : W64 :=
  match x.blocked with
  | some b => if b.re then x.pc else b.ins.pc + BitVec.ofNat 64 (lenAt (leBytes 16 b.ins.insn.toNat))
  | none => x.pc

/-- The entries a trap leaves to be re-issued behind those it captures (R191). -/
def Warp.behind (x : Warp) : List Issued :=
  match x.blocked with
  | some b => if b.re then x.reissue.drop 1 else x.reissue
  | none => x.reissue

/-- A cause raised at a wait is taken for the waiting instruction (R185). -/
def State.trapBlocked (s : State) (g w : Nat) (c : Cause) (aux : W64) : State :=
  let x := s.warp g w
  match x.blocked with
  | none => s
  | some b =>
    let cur := s.cur
    { s.trap g w
      { cause := c, mask := b.ins.lmask, aux := aux, tpc := b.ins.pc, cap := some b.ins
        trpc := x.after, rest := x.behind } with cur := cur }

/-- A warp's waiting instruction waits for another condition. -/
def State.rewait (s : State) (g w : Nat) (old new : Wait) : State :=
  s.modWarp g w fun x =>
    match x.blocked with
    | some b => if b.wait = old then
        { x with blocked := some { b with wait := new }, parked := x.parked.map fun p => if p = old then new else p
                 waits := x.waits.map fun p => if p = old then new else p } else x
    | none => x

/-- Updates a core's hall. -/
def State.modHall (s : State) (c : Nat) (f : Hall → Hall) : State := s.modCore c fun k => { k with hall := f k.hall }

/-- Handles of `adrain` that wait for an operation (R314). -/
def State.drainsAfter (s : State) (c id : Nat) (fault : Option Cause) : State :=
  let upd := fun (h : Nat × HWaitFor) =>
    match h.2 with
    | .drain g a ops fs => if ops.contains id then (h.1, .drain g a (ops.filter (· ≠ id)) (fs ++ fault.toList)) else h
    | _ => h
  let l := (s.core c).hwait.map upd
  let emptied := l.filterMap fun h => match h.2 with | .drain _ _ [] fs => some (h.1, fs) | _ => none
  emptied.foldl (fun s h =>
    match lowest h.2 with
    | some x => s.pendSlot c h.1 true x 0
    | none => s.pendSlot c h.1 false 0x00 0)
    (s.modCore c fun k => { k with hwait := l.filter fun h => match h.2 with | .drain _ _ [] _ => false | _ => true })

/-- The holder of the pass had an `mma` waiting until now (R41). -/
def State.hallUsed (s : State) (c : Nat) (q : Nat × Nat) : State :=
  s.modHall c fun h => if h.holder = some q then { h with lastUse := (s.core c).cycle } else h

/-- A member whose `mma` has not issued to the array withdraws and gives its slot back (R309 step 5). Its operation is accepted no longer:
the other members of a joint `mma` wait at the roll call again (log 73), for a latch where none is free (R36), and an `adrain` does not
wait for it (R314). -/
def State.leaveMma (s : State) (g w : Nat) (o : MmaOp) (own : List (Nat × Nat × Nat)) : State :=
  let c := s.coreOf g
  let mine := o.members.filter fun m => m.1 = w
  let rest := o.members.filter fun m => m.1 ≠ w
  let s1 := (mine.foldl (fun s m => s.freeSlot c m.2 own) s).modWg g fun x => { x with taint := x.taint.filter fun p => p.2.1 ≠ o.id }
  let s2 := ((s1.modCore c fun k => { k with mma := k.mma.filter fun p => p.id ≠ o.id }).drainsAfter c o.id none).hallUsed c (o.ctx, o.queue)
  if rest.isEmpty then s2
  else if (s2.core c).latchFree then
    rest.foldl (fun s m => s.rewait g m.1 (.hall o.id) (.rollCall o.id)) (s2.modCore c fun k =>
      { k with latches := k.latches ++
          [{ id := o.id, wg := g, members := o.gang, ins := o.ins, sop := [0, 0, 0, o.sl], arrived := rest, since := k.cycle }] })
  else rest.foldl (fun s m => s.rewait g m.1 (.hall o.id) (.latch m.2)) s2

/-- What a trap does with an instruction that waits inside itself (R185): an arrival at a barrier that has not
opened, or at a latch, is taken back and the instruction is captured, having performed nothing; so is an `mma` that waits for the pass
(R309 step 5). With an arrival at a stage barrier its timeout stops, since not all warps have arrived any more (R143). The state, and what
is captured. -/
def State.unwind (s : State) (g w : Nat) : State × Option Issued :=
  match (s.warp g w).blocked with
  | none => (s, none)
  | some b =>
    match b.wait with
    | .bar =>
      if (s.wg g).barArr.contains w then
        (s.modWg g fun y => { y with barArr := y.barArr.filter (· ≠ w) }, some b.ins)
      else (s.modWg g fun y => { y with waves := y.waves.map fun v => { v with rest := v.rest.filter (· ≠ w) } }, none)
    | .sbar n =>
      if ((s.wg g).sbars.getD n {}).arr.contains w then
        (s.modWg g fun y =>
          { y with sbars := modAt (fun z => { z with arr := z.arr.filter (· ≠ w), since := none }) n y.sbars }, some b.ins)
      else (s.modWg g fun y => { y with waves := y.waves.map fun v => { v with rest := v.rest.filter (· ≠ w) } }, none)
    | .rollCall id =>
      let c := s.coreOf g
      let own := b.ins.prior.map fun p => (g, w, p.1)
      let s1 := (((s.core c).latches.filter fun l => l.id = id).flatMap (·.arrived)).foldl
        (fun s a => if a.1 = w then s.freeSlot c a.2 own else s) s
      (s1.modCore c fun k =>
        { k with latches := (k.latches.map fun l =>
                   if l.id = id then { l with arrived := l.arrived.filter fun a => a.1 ≠ w } else l).filter
                     fun l => !l.arrived.isEmpty }, some b.ins)
    | .hall id =>
      match (s.core (s.coreOf g)).mma.find? fun o => decide (o.id = id) && !o.issued with
      | none => (s, none)
      | some o => (s.leaveMma g w o (b.ins.prior.map fun p => (g, w, p.1)), some b.ins)
    | .latch n => (s.freeSlot (s.coreOf g) n (b.ins.prior.map fun p => (g, w, p.1)), some b.ins)
    | _ => (s, some b.ins)

/-- A trap raised by an unfinished instruction of a warp (R185), for the lanes of a mask. -/
def State.trapOp (s : State) (g w id : Nat) (c : Cause) (mask : W32) (addr : Nat) : State :=
  let x := s.warp g w
  match x.ops.find? fun o => o.id = id with
  | none => s
  | some o =>
    let u := s.unwind g w
    u.1.trap g w { cause := c, mask := mask, addr := BitVec.ofNat 64 addr, tpc := o.ins.pc, trpc := x.after
                   cap := u.2, rest := x.behind }

/-- An asynchronous cause is kept until before the warp's next issue (R185); while traps are masked it is a double fault (R192). -/
def State.postAsync (s : State) (g w : Nat) (a : AsyncCause) : State :=
  let x := s.warp g w
  if x.ended then s
  else if x.tm then s.kill (s.wg g).ctx 0x1A a.cause (some (g, w)) x.tpc
  else s.modWarp g w fun x => { x with async := x.async ++ [a] }

/-- The address at which a warp goes on after an instruction: a re-issued entry leaves the pc (R191). -/
def State.pcAfter (s : State) (c : Cx) : W64 := if c.re then (s.warp c.g c.w).pc else c.nextPc

/-- A warp has issued an instruction that raises a cause: its age and its ageing count restart (R20, R24). -/
def State.reaged (s : State) (g w : Nat) : State := s.modWarp g w fun x => { x with lastAt := s.now g, aged := 0 }

/-- A trap of the issuing instruction (R185), captured or completed. -/
def State.trapCx (s : State) (c : Cx) (cap : Option Issued) (cause : Cause) (mask : W32) (addr aux : W64) : State :=
  (s.reaged c.g c.w).trap c.g c.w
    { cause := cause, mask := mask, addr := addr, aux := aux, tpc := c.ins.pc, cap := cap, trpc := s.pcAfter c
      rest := if c.re then (s.warp c.g c.w).reissue.drop 1 else (s.warp c.g c.w).reissue }

/-- Carries a result out on the issuing warp. -/
def State.conclude (s : State) (c : Cx) : Res → State
  | .done t => t.advance c (t.pcAfter c)
  | .goto t pc => t.advance c pc
  | .trap cause mask addr aux => s.trapCx c (some c.ins) cause mask addr aux
  | .trapIn t cause mask addr aux => t.trapCx c (some c.ins) cause mask addr aux
  | .trapAfter cause => s.trapCx c none cause c.ins.lmask 0 0
  | .wait l => { s.park c.g c.w l with cur := none }
  | .waitIn t l => { t.park c.g c.w l with cur := none }
  | .park t l => { (t.advance c (t.pcAfter c)).park c.g c.w l with cur := none }
  | .block t wt =>
    { (t.modWarp c.g c.w fun x =>
        { x with blocked := some { wait := wt, ins := c.ins, re := c.re }, parked := []
                 lastAt := t.now c.g, aged := 0, stepped := x.stepOn && !x.ih, noBp := x.noBp && c.re }).park c.g c.w [wt] with cur := none }
  | .final t => { t with cur := none }

/-- The context of an instruction issued by a warp: captured from its registers (R189), or from the entry that is
re-issued (R191), whose INSN the handler may have changed. -/
def State.context (s : State) (g w : Nat) (r : Row) (f : Fields) : Cx :=
  let x := s.warp g w
  match x.reissue with
  | e :: _ => { g := g, w := w, f := f, ins := { e with insn := wordOf r f, group := r.groups f }, re := true }
  | [] => { g := g, w := w, f := f, ins := capture r f (s.wg g).shape x x.pc, re := false }

/-- A trap of an instruction for the whole warp: all its lanes, no address (R187). -/
def Cx.raise (c : Cx) (cause : Cause) : Res := .trap cause c.act 0 0

/-- The checks of an issue in R215's order: encoding (steps 2 to 4), privilege (5), odd pair and reservation (6), the
instruction's own checks on no register (7), the waits for registers (R19), empty sources with FEB set (8), and then the
instruction with its own checks on values (9). A seventeenth instruction waits before all of them (R184). -/
def State.issueRes (s : State) (i : Instr) (r : Row) (f : Fields) (c : Cx) (priv : Bool)
    (pre : Cx → State → Option Res) (body : Cx → State → Res) : Res :=
  let x := s.warp c.g c.w
  if 16 ≤ x.ops.length then .wait [.room]
  else
  match formCause r f with
  | some cause => c.raise cause
  | none =>
    if priv then c.raise 0x07
    else if r.oddPair f then c.raise 0x2D
    else if r.outside (s.wg c.g).shape f then c.raise 0x1E
    else
      match pre c s with
      | some res => res
      | none =>
        match operandWaits x x.reissue.head? (r.heads f) (readsOf i r f c.re) (r.dests f) with
        | [] => if febTrap x (readsOf i r f c.re) then c.raise 0x08 else body c s
        | l => .wait l

/-- A handler's instruction that passes the checks on its encoding and its sources, and has nothing to wait for, takes over those of its destinations that replay
entries hold empty: its writes are performed at once (R186). -/
def State.takeOver (s : State) (i : Instr) (r : Row) (f : Fields) (c : Cx) : State :=
  let x := s.warp c.g c.w
  if (r.dests f).any x.replayHeld && (formCause r f).isNone && !r.oddPair f && !r.outside (s.wg c.g).shape f && decide (x.ops.length < 16)
      && (operandWaits x x.reissue.head? (r.heads f) (readsOf i r f c.re) (r.dests f)).isEmpty && !febTrap x (readsOf i r f c.re) then
    s.modWarp c.g c.w fun x => x.takeOver (r.dests f)
  else s

/-- An instruction form issues from the current warp. -/
def issue (i : Instr) (s : State) (priv : Warp → Bool) (pre : Cx → State → Option Res) (body : Cx → State → Res) :
    Host.Outcome State Fault Refusal :=
  match s.cur with
  | none => .fault .noWarp
  | some (g, w) =>
    match s.rowOf g i, fields i with
    | some r, some f =>
      let c := s.context g w r f
      let s1 := s.takeOver i r f c
      .next (s1.conclude c (s1.issueRes i r f c (priv (s.warp g w)) pre body))
    | _, _ => .fault .noWarp

/-- No privilege is needed. -/
def open_ : Warp → Bool := fun _ => false
/-- No own check before the registers. -/
def noPre : Cx → State → Option Res := fun _ _ => none

/-- An instruction with no privilege and no early checks of its own. -/
def run (i : Instr) (s : State) (body : Cx → State → Res) : Host.Outcome State Fault Refusal :=
  issue i s open_ noPre body

/-! Writing results at issue. -/

/-- Writes a scalar destination. -/
def State.setS (s : State) (c : Cx) (v : W64) : State := s.modWarp c.g c.w fun x => x.setS c.f.dst.toNat v
/-- Writes a vector destination in the active lanes (R10). -/
def State.setV (s : State) (c : Cx) (v : Lanes) : State := s.modWarp c.g c.w fun x => x.setVm c.act c.f.dst.toNat v
/-- Writes a vector pair in the active lanes: the low words, then the high words (R267). -/
def State.setPair (s : State) (c : Cx) (lo hi : Lanes) : State :=
  s.modWarp c.g c.w fun x => (x.setVm c.act c.f.dst.toNat lo).setVm c.act (c.f.dst.toNat + 1) hi
/-- Writes a predicate destination in the active lanes (R10). -/
def State.setP (s : State) (c : Cx) (v : W32) : State :=
  s.modWarp c.g c.w fun x => x.setP c.f.dst.toNat ((v &&& c.act) ||| (x.getP c.f.dst.toNat &&& ~~~c.act))

/-- A long-latency producer issues (R27): its destinations become empty and it joins the warp's unfinished
instructions. -/
def State.launchOp (s : State) (c : Cx) (dst : List Reg) (o : Nat → Op) : State :=
  let (id, s1) := s.fresh
  s1.modWarp c.g c.w fun x =>
    let y := dst.foldl Warp.markEmpty x
    { y with ops := y.ops ++ [o id] }

/-- The captured form with the destinations it will hold (R186). -/
def Cx.held (c : Cx) (dst : List Reg) : Issued := { c.ins with held := dst }

end Sys2Proof.Machine
end

