-- ==== Sys2Proof/Machine/Copybook.lean ====
section
/-! DEFINITION. The copybook (R356 to R358): capture of a context's inputs, and their replay. -/

namespace Sys2Proof.Machine

/-- The mode in force: 1 capture, 2 replay; 0 when off or with a size out of range. -/
def State.cpbMode (s : State) : Nat :=
  let v := (s.cmod 0x620).toNat
  if s.cpbOn ∧ 4 ≤ bits v 18 14 ∧ bits v 18 14 ≤ 20 ∧ bits v 1 0 < 3 then bits v 1 0 else 0
/-- The context captured or replayed. -/
def State.cpbTag (s : State) : Nat := bits (s.cmod 0x620).toNat 13 2
/-- The size of the buffer in bytes. -/
def State.cpbSize (s : State) : Nat := 1024 * 2 ^ bits (s.cmod 0x620).toNat 18 14
/-- The next free or unread place of the buffer. -/
def State.cpbAt (s : State) : Nat := bits (s.cmod 0x621).toNat 55 12 * 4096 + s.cpbPos

/-- The length of a record with its header and padding (R357). -/
def cpbLen (n : Nat) : Nat := 16 + (n + 15) / 16 * 16

/-- A context's input is captured: one record is appended, or capture stops and OVF is set (R356). The buffer is
written under selector 0 of the captured context (log 14). -/
def State.capture (s : State) (t type key : Nat) (payload : List W8) : State :=
  if s.cpbMode ≠ 1 ∨ s.cpbTag ≠ t then s
  else
    let n := cpbLen payload.length
    if s.cpbSize < s.cpbPos + n then { s.putMod 0x620 (s.cmod 0x620 ||| 0x80000) with cpbOn := false }
    else
      let h := leList 2 type ++ leList 2 payload.length ++ leList 4 s.cpbSeq ++ leList 8 key
      { s.putBytes true (s.keyOf t 0) s.cpbAt (h ++ payload ++ List.replicate (n - 16 - payload.length) 0) with
        cpbPos := s.cpbPos + n, cpbSeq := s.cpbSeq + 1 }

/-- A context is being replayed. -/
def State.replaying (s : State) (t : Nat) : Bool := decide (s.cpbMode = 2) && decide (s.cpbTag = t)

/-- A record of the buffer. -/
structure CpbRec where
  type    : Nat
  key     : Nat
  payload : List W8
  deriving DecidableEq, Repr

/-- The next record to be replayed, if the buffer holds it. -/
def State.cpbNext (s : State) : Option CpbRec :=
  let h := s.anyBytes false s.cpbAt 16
  let n := leVal ((h.drop 2).take 2)
  if s.cpbSize < s.cpbPos + cpbLen n ∨ leVal ((h.drop 4).take 4) ≠ s.cpbSeq % 2 ^ 32 then none
  else some { type := leVal (h.take 1), key := leVal (h.drop 8), payload := s.anyBytes false (s.cpbAt + 16) n }

/-- Takes the next record. -/
def State.cpbTake (s : State) (r : CpbRec) : State :=
  { s with cpbPos := s.cpbPos + cpbLen r.payload.length, cpbSeq := s.cpbSeq + 1 }

/-- A replay diverges (R358): DIVERGED is set and the context removes itself with cause 0x37. -/
def State.diverge (s : State) (t : Nat) : State :=
  { (s.putMod 0x620 (s.cmod 0x620 ||| 0x100000)).kill t 0x37 0 none 0 with cpbOn := false }

/-- A replayed context asks for an input of a type (R358): the record, or none and the divergence. -/
def State.cpbAsk (s : State) (t type : Nat) : Option (List W8) × State :=
  match s.cpbNext with
  | some r => if r.type = type then (some r.payload, s.cpbTake r) else (none, s.diverge t)
  | none => (none, s.diverge t)

/-! Host and peer reads. -/

/-- A read of host or peer memory by a warp, or by an engine for it, is captured: the bytes, or for one that fails zeros and the cause
(log 92). -/
def State.captureRead (s : State) (t va n : Nat) (r : Except Cause (List W8)) : State :=
  s.capture t 5 va (match r with
    | .ok b => b
    | .error c => List.replicate n 0 ++ leList 1 c.toNat)

/-- In replay such a read takes its bytes and its cause from the copybook, for an atomic always with a status; one that the next record
does not fit diverges (R358). -/
def State.cpbRead (s : State) (t va n : Nat) (atomic : Bool) : Option (List W8 × Nat) × State :=
  match s.cpbNext with
  | some r =>
    if r.type = 5 ∧ r.key = va ∧ ((!atomic && decide (r.payload.length = n)) || decide (r.payload.length = n + 1)) then
      (some (r.payload.take n, leVal (r.payload.drop n)), s.cpbTake r)
    else (none, s.diverge t)
  | none => (none, s.diverge t)

/-- An act that waits, to be made again, has read nothing yet. -/
def State.cpbBack (s s0 : State) : State :=
  if s.cpbSeq = s0.cpbSeq ∧ s.cpbOn = s0.cpbOn then s
  else { s with cpbPos := s0.cpbPos, cpbSeq := s0.cpbSeq, cpbOn := s0.cpbOn }.putMod 0x620 (s0.cmod 0x620)

end Sys2Proof.Machine
end

