-- ==== Sys2Proof/Machine/Wire.lean ====
section
/-! DEFINITION. A datagram as the bytes that follow the UDP header (R70, R72): the 32-byte header, the body and the tag. -/

namespace Sys2Proof.Machine

/-- The flags at offset 0x02: REL, LAST, COPY, ABORT, and the bits marked 0 (one of them set when `zero` is false). -/
def gramFlags (d : Datagram) : Nat :=
  (if d.rel then 1 else 0) + (if d.last then 2 else 0) + 4 * (d.copy % 4) + (if d.abort then 16 else 0) + if d.zero then 0 else 32

/-- The header, little-endian. -/
def gramHeader (d : Datagram) : List W8 :=
  leList 1 d.version ++ leList 1 d.type ++ leList 2 (gramFlags d) ++ leList 4 d.graph.toNat ++ leList 1 d.edge ++ leList 1 d.size
    ++ leList 2 d.count ++ leList 4 d.frame.toNat ++ leList 4 d.first.toNat ++ leList 8 d.seq ++ leList 4 d.aux.toNat

/-- The nonce: SEQ, then the word N, both big-endian (R72). -/
def gramNonce (d : Datagram) : List W8 := (leList 8 d.seq).reverse ++ (leList 4 d.nonce.toNat).reverse

/-- The payload of the UDP datagram: the header is authenticated, the body is encrypted, and the tag of 16 bytes ends it. -/
def gramWire (d : Datagram) : List W8 := gramHeader d ++ Config.sealed d.key (gramNonce d) (gramHeader d) d.body

/-- A little-endian field of a header. -/
def headField (h : List W8) (off n : Nat) : Nat := leVal ((h.drop off).take n)

/-- The datagram that 32 header bytes and an opened body make, for a context and a peer. -/
def gramOfHeader (t p : Nat) (plain : Bool) (key : BitVec 256) (nonce : W32) (h body : List W8) : Datagram :=
  let w := headField h 2 2
  { ctx := t, frm := p, plain := plain, version := headField h 0 1, type := headField h 1 1, rel := bit w 0, last := bit w 1
    copy := bits w 3 2, abort := bit w 4, zero := decide (bits w 15 5 = 0), graph := BitVec.ofNat 32 (headField h 4 4)
    edge := headField h 8 1, size := headField h 9 1, count := headField h 0x0A 2, frame := BitVec.ofNat 32 (headField h 0x0C 4)
    first := BitVec.ofNat 32 (headField h 0x10 4), seq := headField h 0x14 8, aux := BitVec.ofNat 32 (headField h 0x1C 4)
    body := body, key := key, nonce := nonce }

/-- Every field of a datagram lies in its place of the header. -/
def gramFits (d : Datagram) : Bool :=
  decide (d.version < 2 ^ 8) && decide (d.type < 2 ^ 8) && decide (d.copy < 4) && decide (d.edge < 2 ^ 8) && decide (d.size < 2 ^ 8)
    && decide (d.count < 2 ^ 16) && decide (d.seq < 2 ^ 64)

/-- What a packet carries after its UDP header. -/
def Packet.payload (p : Packet) : List W8 := gramWire p.gram

end Sys2Proof.Machine
end

