-- ==== Sys2Proof/Machine/Reliable.lean ====
section
/-! DEFINITION. Reliable streams, sending side (R68, R69, R72, R74, R179, R180): keys, sealing, the window; and the accesses the
device itself makes for a context, which may reach a peer (R362). -/

namespace Sys2Proof.Machine

/-- A datagram as it leaves by a port (R68, R69, R179): to the address of the peer by its next hop, under the UDP port of `cw_cfg` and the
DSCP of its class; none when the peer table has no such entry. -/
def State.packet (s : State) (p port : Nat) (d : Datagram) : Option Packet :=
  (s.peerEntry p).map fun e =>
    let cfg := s.cctx d.ctx 0x10C
    { port := port, peer := p, addr := e.1, mac := e.2, udp := cfg.extractLsb' 0 16
      dscp := if d.rel then cfg.extractLsb' 31 6 else cfg.extractLsb' 25 6, gram := d }

/-- Hands a datagram to the network. -/
def State.transmit (s : State) (p port : Nat) (d : Datagram) : State :=
  let s1 := s.peerMet d.ctx p
  { s1 with sent := s1.sent ++ (s.packet p port d).toList }

/-- The nonce word N of a reliable datagram sent by this module (`sent`) or by the other side (R72). -/
def State.relNonce (s : State) (p : Nat) (sent : Bool) : W32 :=
  let low := decide (Config.ownAddress.toNat < (s.peerAddr p).getD 0)
  if low = sent then 0 else 0x80000000

/-- The nonce word N of a reliable datagram of a type (R72): records and closes of a PEER edge carry GRAPHID[30:0] below DIR
(log 78). -/
def State.relNonceOf (s : State) (p : Nat) (sent : Bool) (d : Datagram) : W32 :=
  s.relNonce p sent + if d.type < 2 then BitVec.ofNat 32 (bits d.graph.toNat 30 0) else 0

/-! Accesses of the device to a peer's memory (R362, R181). -/

/-- Answers that an act has used are kept for it while it must be made again (log 77). -/
def State.keepReads (s : State) (t : Nat) : State :=
  s.modCtx t fun c => { c with streams := c.streams.map fun q => (q.1, { q.2 with reads := q.2.reads.map fun r => { r with used := false } }) }

/-- Answers that an act has used, which is over, are dropped. -/
def State.dropReads (s : State) : State :=
  if s.ctxs.all fun c => c.2.streams.all fun q => q.2.reads.all fun r => !r.used then s
  else { s with ctxs := s.ctxs.map fun c => (c.1, { c.2 with streams := c.2.streams.map fun q =>
    (q.1, { q.2 with reads := q.2.reads.filter fun r => !r.used }) }) }

/-- A range as requests of at most 256 bytes each (R180). -/
def peerParts (a n : Nat) : List (Nat × Nat) := (List.range ((n + 255) / 256)).map fun i => (a + 256 * i, min 256 (n - 256 * i))

/-- The answer that a stream holds to a read of the device. -/
def Stream.answer (x : Stream) (pctx a n : Nat) : Option (Nat × List W8) :=
  (x.reads.find? fun r => decide (r.pctx = pctx) && decide (r.at_ = a) && decide (r.n = n)).bind (·.answer)

/-- Reads n bytes of a peer's memory for a context: asks once, waits for the answers, and takes the first STATUS that is not 0 as the
cause. What is asked leaves when the stream sends next. -/
def State.peerGet (s : State) (t p pctx a n : Nat) : DevRes (List W8) :=
  let l := peerParts a n
  if (s.peerAddr p).isNone || s.streamDead t p then .fault 0x11 s
  else
    let got := l.filterMap fun r => (s.stream t p).answer pctx r.1 r.2
    if got.length < l.length then .later ((l.foldl (fun s r => s.askPeer t p pctx r.1 r.2) s).keepReads t)
    else
      let s1 := l.foldl (fun s r => s.useRead t p pctx r.1 r.2) s
      match got.find? fun r => decide (r.1 ≠ 0) with
      | some r => .fault (BitVec.ofNat 6 r.1) s1
      | none => .ok (got.flatMap (·.2)) s1

/-! The keys of streams. -/

/-- The key of a stream (R179): 32 bytes of 0 are none (R266); a failed read posts host event 6 (R363). A table that lies with a peer is
read by a request to it (R362): the key waits for the answer, which never comes where it needs the key itself (log 12). -/
def State.relKey (s : State) (t p : Nat) : DevRes (Option (BitVec 256)) :=
  let of := fun (r : DevRes (List W8)) =>
    match r with
    | .ok b s1 => DevRes.ok (if b.all (· = 0) then none else some (BitVec.ofNat 256 (leVal b))) s1
    | .fault _ s1 => .ok none (s1.postEvent t 6)
    | .later s1 => .later s1
  match s.devReadAt t (bits (s.cctx t 0x112).toNat 55 6 * 64 + 32 * p) 32 with
  | .ok b s1 => of (.ok b s1)
  | .fault c s1 => of (.fault c s1)
  | .peer q qctx a s1 => of (s1.peerGet t q qctx a 32)
  | .mig s1 => .later (s1.keepReads t)

/-- Seals a datagram with the stream's key and hands it to the network (R72), once the key has been read; without a key or an address it
is not sent. -/
def State.relSeal (s : State) (t p : Nat) (d : Datagram) : DevRes (Option Datagram) :=
  match s.relKey t p with
  | .later s1 => .later s1
  | .fault c s1 => .fault c s1
  | .ok none s1 => .ok none s1
  | .ok (some key) s1 =>
    if (s1.peerAddr p).isNone then .ok none (s1.peerMet t p)
    else
      let d' := { d with key := key, nonce := s1.relNonceOf p true d }
      .ok (some d') (s1.transmit p (Config.streamPort t p).toNat d')

/-- Seals and sends what the window admits and has not been tried yet, in order (R74 step 2). -/
def State.relTry (t p : Nat) : List (Nat × Datagram × Bool) → State → State
  | [], s => s
  | u :: l, s =>
    match s.relSeal t p u.2.1 with
    | .later s1 => s1
    | .fault _ s1 => s1
    | .ok d s1 =>
      State.relTry t p l (s1.modStream t p fun x =>
        { x with tried := u.1 + 1
                 unacked := x.unacked.map fun v => if v.1 = u.1 then (v.1, d.getD v.2.1, d.isSome) else v })

/-- The datagrams that a stream may try to send. -/
def Stream.due (x : Stream) : List (Nat × Datagram × Bool) := (x.unacked.take 256).filter fun u => decide (x.tried ≤ u.1)

/-- The stream sends what it may. -/
def State.relFlush (s : State) (t p : Nat) : State := if s.streamDead t p then s else State.relTry t p (s.stream t p).due s

/-- Every stream of the module sends what it may: requests of stores that have reached Y, and what waited for a key. -/
def State.flushStreams (s : State) : State :=
  s.ctxs.foldl (fun s c => (c.2.streams.filter fun q => !q.2.due.isEmpty).foldl (fun s q => s.relFlush c.1 q.1) s) s

/-- Sends a datagram on a stream (R74). -/
def State.relSend (s : State) (t p : Nat) (d : Datagram) : State := (s.relPost t p d).relFlush t p

/-- A stream can take one more datagram (R74 step 2). -/
def State.relOpen (s : State) (t p : Nat) : Bool := !s.streamDead t p && s.streamFree t p

/-- Sends a request to a peer and remembers what waits for its response. -/
def State.peerAsk (s : State) (t p : Nat) (r : PeerReq) (op atop len pctx addr cmp : Nat) (data : List W8) : State :=
  (s.peerPost t p r op atop len pctx addr cmp data).relFlush t p

/-! Accesses of the device that may reach a peer's memory (R362, R181). -/

/-- Reads n bytes of a peer's memory for a context, and sends what it asks for. -/
def State.peerRead (s : State) (t p pctx a n : Nat) : DevRes (List W8) :=
  match s.peerGet t p pctx a n with
  | .later s1 => .later (s1.relFlush t p)
  | r => r

/-- Reads n bytes at a virtual address of a context, acquiring at DEV (R362). -/
def State.devRead (s : State) (t va n : Nat) : DevRes (List W8) :=
  match s.devReadAt t va n with
  | .ok b s1 => .ok b s1
  | .fault c s1 => .fault c s1
  | .mig s1 => .later (s1.keepReads t)
  | .peer p pctx a s1 => s1.peerRead t p pctx a n

/-- Writes bytes at a virtual address of a context (R362); into a peer's memory by a request that is not waited for, whose failure
posts host event 4 (R181). -/
def State.devWrite (s : State) (t va : Nat) (bs : List W8) : DevRes Unit :=
  match s.devWriteAt t va bs with
  | .ok _ s1 => .ok () s1
  | .fault c s1 => .fault c s1
  | .mig s1 => .later (s1.keepReads t)
  | .peer p pctx a s1 =>
    if (s1.peerAddr p).isNone || s1.streamDead t p then .fault 0x11 s1
    else .ok () (((peerParts a bs.length).foldl (fun s r => s.peerStore t p pctx r.1 ((bs.drop (r.1 - a)).take r.2) none) s1).relFlush t p)

end Sys2Proof.Machine
end

