-- ==== Sys2Proof/Machine/Depend.lean ====
section
/-! DEFINITION. Queue tokens (R65, R132) and dependence counters (R62, R63, R363). -/

namespace Sys2Proof.Machine

/-! Tokens. -/

/-- The scope S between a producing core, or the host, and the core of the consumer (R65). -/
def tokenScope (p : Option Nat) (c : Nat) : Nat :=
  match p with
  | none => 5
  | some k => if k = c then 1 else if clusterOf k = clusterOf c then 2 else if dieOf k = dieOf c then 3 else 4

/-- The scope of a token for a consumer on a core (R65, R66). -/
def Token.scope (t : Token) (c : Nat) : Nat := if t.dev then 4 else tokenScope t.core c

/-- The release that a token owes at a scope is completed: over the entries placed before its act, those of the producing warp to render
targets first at DEV and SYS (R65, R132, R135). -/
def State.payToken (s : State) (sc : Nat) (t : Token) : State :=
  match t.core with
  | some k =>
    (match t.own with
      | some (g, w) => if 4 ≤ sc then s.rtMove (dieOf k) fun e => decide (e.own = (g, w)) && decide (e.age < t.act) else s
      | none => s).releaseBefore k sc t.act
  | none => s

/-- The consumer of tokens has been placed on a core: the releases they owe are completed, and the core acquires (R65, R132). -/
def State.meetTokens (s : State) (c : Nat) (ts : List Token) : State :=
  let l := ts.filter fun t => !t.void
  let s1 := l.foldl (fun s t => s.payToken (t.scope c) t) s
  l.foldl (fun s t => s.acquire c (t.scope c)) s1

/-- The token of a record or a close of a REMOTE edge, which orders nothing (R65, R84). -/
def Token.remote : Token := { void := true }

/-- A token whose act is now, on a core. -/
def State.token (s : State) (core : Option Nat) : Token := { core := core, act := s.age }
/-- A token whose act is now, by a warp. -/
def State.warpToken (s : State) (g w : Nat) : Token := { core := some (s.coreOf g), act := s.age, own := some (g, w) }

/-! Counters. -/

/-- The address of counter n (R266). -/
def State.depAddr (s : State) (t n : Nat) : Nat := bits (s.cctx t 0x11B).toNat 55 6 * 64 + 4 * n

/-- The counter that a record waits for. -/
def Aside.waitsOn (a : Aside) (t n : Nat) : Bool := decide (a.ctx = t) && decide (a.lrec.wait = some n)

/-- Updates the records set aside for a counter, on every die. -/
def State.modAsides (s : State) (t n : Nat) (f : Aside → Aside) : State :=
  { s with dies := s.dies.map fun p => (p.1, { p.2 with aside := p.2.aside.map fun a => if a.waitsOn t n then f a else a }) }

/-- The decrements of a counter since it last reached 0. -/
def State.depTokens (s : State) (t n : Nat) : List Token := SMap.get n [] (s.ctx t).depTokens

/-- A counter has been taken to v by a decrement, or stood at 0 (`under`): at 1 to 0 every record that waits on it is
admitted (R63); records that could not be tested are tested (R363). -/
def State.depAfter (s : State) (t n v : Nat) (under : Bool) : State :=
  let ts := s.depTokens t n
  let s1 := s.modAsides t n fun a =>
    if a.ready then a
    else if v = 0 && (!under || a.tested.isSome) then { a with ready := true, tested := none, tokens := a.tokens ++ ts }
    else { a with tested := none }
  if v = 0 && !under then s1.modCtx t fun c => { c with depTokens := SMap.put n [] c.depTokens } else s1

/-- The die whose counter times the retry of a decrement: that of the core of its token, and die 0 for one with no core (DESIGN CHOICE,
log 50). -/
def decDie (toks : List Token) : Nat := dieOf ((toks.findSome? (·.core)).getD 0)

/-- One decrement of counter n by an act with its tokens (R62): at 0 it counts `dep_uflow`; one that cannot reach the counter is lost
and posts event 6; one whose walk waits on MIG is made again 256 cycles later (R154). -/
def State.decrement (s : State) (t n : Nat) (toks : List Token) : State :=
  let a := s.depAddr t n
  let later := fun (s : State) => s.modCtx t fun c => { c with decs := c.decs ++ [(n, toks, (s.die (decDie toks)).counter + 256)] }
  match s.devRead t a 4 with
  | .fault _ s1 => s1.postEvent t 6
  | .later s1 => later s1
  | .ok b s1 =>
    let v := leVal b
    let note := fun (s : State) => s.modCtx t fun c =>
      { c with depTokens := SMap.put n (SMap.get n [] c.depTokens ++ toks) c.depTokens }
    if v = 0 then ((note s1).countCtx t 0x11C 31 0 1).depAfter t n 0 true
    else
      match s1.devWrite t a (leList 4 (v - 1)) with
      | .fault _ s2 => s2.postEvent t 6
      | .later s2 => later s2
      | .ok _ s2 => (note s2).depAfter t n (v - 1) false

/-- The decrements of a context whose walks are due are made again (R154). -/
def State.retryDecs (s : State) (t : Nat) : State :=
  let due := (s.ctx t).decs.filter fun d => decide (d.2.2 ≤ (s.die (decDie d.2.1)).counter)
  due.foldl (fun s d => s.decrement t d.1 d.2.1)
    (s.modCtx t fun c => { c with decs := c.decs.filter fun d => !due.contains d })

end Sys2Proof.Machine
end

