-- ==== Sys2Proof/Machine/Flags.lean ====
section
/-! DEFINITION. Conditions and predicates (R210, R235, R246): what takes the place of flags on this hardware. -/

namespace Sys2Proof.Machine

/-- The condition of SUB on the order of two values (R210); no order means that one of them is NaN. -/
def condHolds (sub : Nat) (o : Option Ordering) : Bool :=
  match sub with
  | 0 => decide (o = some .eq)
  | 1 => decide (o ≠ some .eq)
  | 2 => decide (o = some .lt)
  | 3 => decide (o = some .lt) || decide (o = some .eq)
  | 4 => decide (o = some .gt)
  | 5 => decide (o = some .gt) || decide (o = some .eq)
  | 6 => decide (o = none)
  | _ => decide (o ≠ none)

/-- A value of width w as a signed integer. -/
def sInt (w x : Nat) : Int := if x < 2 ^ (w - 1) then (x : Int) else (x : Int) - (2 ^ w : Nat)

/-- A value of an integer type as an integer: signed for i types, unsigned for n and b types (R210, R235). -/
def tyInt (ty : Ty) (w x : Nat) : Int := if ty.isSigned then sInt w x else (x : Int)

/-- The low w bits of an integer. -/
def lowBits (w : Nat) (r : Int) : Nat := (r % (2 ^ w : Nat)).toNat

/-- The order of two integers. -/
def intOrder (a b : Int) : Ordering := if a < b then .lt else if a = b then .eq else .gt

/-- The logic operations of `plog` (R246). -/
def plogOp (sub : Nat) (a b : W32) : W32 :=
  match sub with
  | 0 => a &&& b
  | 1 => a ||| b
  | 2 => a ^^^ b
  | 3 => a &&& ~~~b
  | 4 => a ||| ~~~b
  | 5 => ~~~a
  | _ => a

end Sys2Proof.Machine
end

