-- ==== Sys2Proof/Machine/Float.lean ====
section
/-! DEFINITION. Floating point (R91 to R93): a value is exact until one rounding makes it bits again. -/

namespace Sys2Proof.Machine

/-- A value: NaN, an infinity, or ± n / d × 2^e with d not 0; zero keeps its sign. -/
inductive FVal where
  | nan
  | inf (neg : Bool)
  | fin (neg : Bool) (n d : Nat) (e : Int)
  deriving DecidableEq, Repr

/-- A binary format (R91): exponent bits, fraction bits, bias. -/
structure Fmt where
  eb   : Nat
  mb   : Nat
  bias : Nat
  deriving DecidableEq, Repr

def fp64 : Fmt := { eb := 11, mb := 52, bias := 1023 }
def fp32 : Fmt := { eb := 8, mb := 23, bias := 127 }
def fp16 : Fmt := { eb := 5, mb := 10, bias := 15 }
def bf16 : Fmt := { eb := 8, mb := 7, bias := 127 }

/-- The format of a float type. -/
def fmtOf (t : Ty) : Fmt :=
  match t with
  | .f64 => fp64 | .f16 => fp16 | .bf16 => bf16 | _ => fp32

/-- Bits of +∞, which lie above those of every finite value. -/
def Fmt.infBits (f : Fmt) : Nat := (2 ^ f.eb - 1) * 2 ^ f.mb
/-- The canonical NaN (R91). -/
def Fmt.nanBits (f : Fmt) : Nat := f.infBits + 2 ^ (f.mb - 1)
/-- The sign bit. -/
def Fmt.signBit (f : Fmt) : Nat := 2 ^ (f.eb + f.mb)

/-- The value of a bit pattern; subnormals are honoured (R92). -/
def decodeF (f : Fmt) (x : Nat) : FVal :=
  let neg := bit x (f.eb + f.mb)
  let ex := x / 2 ^ f.mb % 2 ^ f.eb
  let m := x % 2 ^ f.mb
  if ex = 2 ^ f.eb - 1 then (if m = 0 then .inf neg else .nan)
  else if ex = 0 then .fin neg m 1 (1 - (f.bias : Int) - f.mb)
  else .fin neg (2 ^ f.mb + m) 1 ((ex : Int) - f.bias - f.mb)

/-- Whether a magnitude k + r/d (r < d) is rounded up, by the rounding mode (R93). -/
def roundsUp (mode : Nat) (neg : Bool) (k r d : Nat) : Bool :=
  match mode with
  | 0 => decide (d < 2 * r) || (decide (2 * r = d) && decide (k % 2 = 1))
  | 1 => false
  | 2 => neg && decide (r ≠ 0)
  | 3 => !neg && decide (r ≠ 0)
  | _ => decide (d ≤ 2 * r)

/-- An overflowing result goes to infinity, or to the largest finite value (R93). -/
def overflowsToInf (mode : Nat) (neg : Bool) : Bool :=
  match mode with
  | 1 => false | 2 => neg | 3 => !neg | _ => true

/-- floor(log2(n / d)) for n, d not 0. -/
def ratLog2 (n d : Nat) : Int :=
  let k : Int := (Nat.log2 n : Int) - Nat.log2 d
  if d * 2 ^ k.toNat ≤ n * 2 ^ (-k).toNat then k else k - 1

/-- n × 2^s / d split into whole part, remainder and divisor. -/
def scaleDiv (n d : Nat) (s : Int) : Nat × Nat × Nat :=
  let n' := n * 2 ^ s.toNat
  let d' := d * 2 ^ (-s).toNat
  (n' / d', n' % d', d')

/-- One rounding of an exact value into a format (R93). -/
def roundF (f : Fmt) (mode : Nat) : FVal → Nat
  | .nan => f.nanBits
  | .inf neg => f.infBits + if neg then f.signBit else 0
  | .fin neg n d e =>
    let sign := if neg then f.signBit else 0
    if n = 0 then sign
    else
      let qmin : Int := 1 - (f.bias : Int) - f.mb
      let q := max qmin (ratLog2 n d + e - f.mb)
      let p := scaleDiv n d (e - q)
      let k := p.1 + if roundsUp mode neg p.1 p.2.1 p.2.2 then 1 else 0
      let x := (q - qmin).toNat * 2 ^ f.mb + k
      sign + if f.infBits ≤ x then (if overflowsToInf mode neg then f.infBits else f.infBits - 1) else x

/-- The value of an integer. -/
def FVal.ofInt (i : Int) : FVal := .fin (decide (i < 0)) i.natAbs 1 0

/-- Negation. -/
def FVal.neg : FVal → FVal
  | .nan => .nan
  | .inf s => .inf (!s)
  | .fin s n d e => .fin (!s) n d e

/-- Magnitude. -/
def FVal.abs : FVal → FVal
  | .nan => .nan
  | .inf _ => .inf false
  | .fin _ n d e => .fin false n d e

/-- The signed numerators of two finite values over their common denominator and exponent. -/
def alignFin (s1 : Bool) (n1 d1 : Nat) (e1 : Int) (s2 : Bool) (n2 d2 : Nat) (e2 : Int) : Int × Int × Nat × Int :=
  let e := min e1 e2
  let a : Int := (n1 * 2 ^ (e1 - e).toNat * d2 : Nat)
  let b : Int := (n2 * 2 ^ (e2 - e).toNat * d1 : Nat)
  (if s1 then -a else a, if s2 then -b else b, d1 * d2, e)

/-- The exact sum. A zero sum has the operands' common sign, else − only under RDN (IEEE 754-2019). -/
def FVal.add (mode : Nat) : FVal → FVal → FVal
  | .nan, _ => .nan
  | _, .nan => .nan
  | .inf s, .inf s' => if s = s' then .inf s else .nan
  | .inf s, _ => .inf s
  | _, .inf s => .inf s
  | .fin s1 n1 d1 e1, .fin s2 n2 d2 e2 =>
    let p := alignFin s1 n1 d1 e1 s2 n2 d2 e2
    let t := p.1 + p.2.1
    if t = 0 then .fin (if s1 = s2 then s1 else decide (mode = 2)) 0 1 0
    else .fin (decide (t < 0)) t.natAbs p.2.2.1 p.2.2.2

/-- The exact product. -/
def FVal.mul : FVal → FVal → FVal
  | .nan, _ => .nan
  | _, .nan => .nan
  | .inf s, .inf s' => .inf (s ^^ s')
  | .inf s, .fin s' n _ _ => if n = 0 then .nan else .inf (s ^^ s')
  | .fin s' n _ _, .inf s => if n = 0 then .nan else .inf (s ^^ s')
  | .fin s1 n1 d1 e1, .fin s2 n2 d2 e2 => .fin (s1 ^^ s2) (n1 * n2) (d1 * d2) (e1 + e2)

/-- The exact quotient. -/
def FVal.div : FVal → FVal → FVal
  | .nan, _ => .nan
  | _, .nan => .nan
  | .inf _, .inf _ => .nan
  | .inf s, .fin s' _ _ _ => .inf (s ^^ s')
  | .fin s _ _ _, .inf s' => .fin (s ^^ s') 0 1 0
  | .fin s1 n1 d1 e1, .fin s2 n2 d2 e2 =>
    if n2 = 0 then (if n1 = 0 then .nan else .inf (s1 ^^ s2))
    else .fin (s1 ^^ s2) (n1 * d2) (d1 * n2) (e1 - e2)

/-- The order of two values, none with a NaN; −0 equals +0 (R210). -/
def FVal.cmp : FVal → FVal → Option Ordering
  | .nan, _ => none
  | _, .nan => none
  | .inf s, .inf s' => some (if s = s' then .eq else if s then .lt else .gt)
  | .inf s, _ => some (if s then .lt else .gt)
  | _, .inf s => some (if s then .gt else .lt)
  | .fin s1 n1 d1 e1, .fin s2 n2 d2 e2 =>
    let p := alignFin s1 n1 d1 e1 s2 n2 d2 e2
    some (intOrder p.1 p.2.1)

/-- The value is NaN. -/
def FVal.isNan : FVal → Bool
  | .nan => true | _ => false
/-- The value is zero. -/
def FVal.isZero : FVal → Bool
  | .fin _ n _ _ => decide (n = 0) | _ => false
/-- The sign. -/
def FVal.sign : FVal → Bool
  | .nan => false | .inf s => s | .fin s _ _ _ => s
/-- a < b. -/
def FVal.lt (a b : FVal) : Bool := decide (a.cmp b = some .lt)
/-- a ≤ b. -/
def FVal.le (a b : FVal) : Bool := a.lt b || decide (a.cmp b = some .eq)

/-- minimumNumber (`less`) or maximumNumber of IEEE 754-2019, −0 below +0 (R270). -/
def FVal.pick (less : Bool) (a b : FVal) : FVal :=
  if a.isNan then b
  else if b.isNan then a
  else
    match a.cmp b with
    | some .lt => if less then a else b
    | some .gt => if less then b else a
    | _ => if a.sign = less then a else b

/-- The value rounded to an integer in a mode; none for NaN and infinities. -/
def FVal.toInt (mode : Nat) : FVal → Option Int
  | .fin neg n d e =>
    let p := scaleDiv n d e
    let k : Int := (p.1 + if roundsUp mode neg p.1 p.2.1 p.2.2 then 1 else 0 : Nat)
    some (if neg then -k else k)
  | _ => none

/-- Conversion to an integer range: rounded in the mode, then saturated; NaN gives 0 (R99). -/
def FVal.toRange (mode : Nat) (lo hi : Int) (v : FVal) : Int :=
  match v with
  | .nan => 0
  | .inf neg => if neg then lo else hi
  | v => max lo (min hi ((v.toInt mode).getD 0))

/-- The value rounded to an integral value, keeping ±∞, ±0 and the sign (R276). -/
def FVal.toIntegral (mode : Nat) : FVal → FVal
  | .fin neg n d e => .fin neg (((FVal.fin neg n d e).toInt mode).getD 0).natAbs 1 0
  | v => v

/-! Roots. -/

/-- floor(√n), by its binary digits from bit k down. -/
def isqrtFrom (n : Nat) : Nat → Nat → Nat
  | 0, r => if (r + 1) * (r + 1) ≤ n then r + 1 else r
  | k + 1, r => isqrtFrom n k (if (r + 2 ^ (k + 1)) * (r + 2 ^ (k + 1)) ≤ n then r + 2 ^ (k + 1) else r)
/-- floor(√n). -/
def isqrt (n : Nat) : Nat := isqrtFrom n (Nat.log2 n / 2 + 1) 0

/-- √(n/d × 2^e) to at least `prec` bits, with a last bit that is 1 when the root is not exact: a value that every
rounding mode rounds as it would the root itself. -/
def rootFin (prec n d : Nat) (e : Int) : FVal :=
  let e' := if e % 2 = 0 then e else e - 1
  let n' := if e % 2 = 0 then n else 2 * n
  let k := 2 * prec + 2 * Nat.log2 d + 4
  let r := isqrt (n' * 2 ^ (2 * k) / d)
  let exact := decide (r * r * d = n' * 2 ^ (2 * k))
  .fin false (2 * r + if exact then 0 else 1) 1 (e' / 2 - k - 1)

/-- √a (R272). -/
def FVal.sqrt (v : FVal) : FVal :=
  match v with
  | .nan => .nan
  | .inf neg => if neg then .nan else .inf false
  | .fin neg n d e => if n = 0 then v else if neg then .nan else rootFin 64 n d e

/-- 1/√a (R272). -/
def FVal.rsqrt (v : FVal) : FVal :=
  match v with
  | .nan => .nan
  | .inf neg => if neg then .nan else .fin false 0 1 0
  | .fin neg n d e => if n = 0 then .inf neg else if neg then .nan else rootFin 64 d n (-e)

/-- floor of the m-th root of n, by its binary digits from bit k down. -/
def irootFrom (m n : Nat) : Nat → Nat → Nat
  | 0, r => if (r + 1) ^ m ≤ n then r + 1 else r
  | k + 1, r => irootFrom m n k (if (r + 2 ^ (k + 1)) ^ m ≤ n then r + 2 ^ (k + 1) else r)

/-- The m-th root of n/d to 128 fraction bits, with a last bit that is 1 when the root is not exact. -/
def rootNth (m n d : Nat) : FVal :=
  let x := n * 2 ^ (128 * m) / d
  let r := irootFrom m x (Nat.log2 x / m + 1) 0
  .fin false (2 * r + if r ^ m * d = n * 2 ^ (128 * m) then 0 else 1) 1 (-129)

/-! 2^a, log2 a, sin πa and cos πa, to several hundred bits (log 13). Fixed point: an integer x stands for
x / 2^P. -/

/-- The number of fraction bits. -/
def fixP : Nat := 512

/-- The product of 2^(2^−i) over the set bits i of f / 2^m, from root c = 2^(2^−i) of the current bit. -/
def exp2Bits (m f : Nat) : Nat → Nat → Nat → Nat
  | 0, _, acc => acc
  | k + 1, c, acc =>
    exp2Bits m f k (isqrt (c * 2 ^ fixP)) (if bit f k ∧ k < m then acc * c / 2 ^ fixP else acc)

/-- 2^a (R272). -/
def FVal.exp2 (v : FVal) : FVal :=
  match v with
  | .nan => .nan
  | .inf neg => if neg then .fin false 0 1 0 else .inf false
  | .fin neg n d e =>
    if n = 0 then .fin false 1 1 0
    else if (FVal.fin false n d e).lt (.fin false 200 1 0) then
      let m := (-e).toNat
      let x : Int := if neg then -(n * 2 ^ e.toNat : Nat) else (n * 2 ^ e.toNat : Nat)
      let whole := x / (2 ^ m : Nat)
      let f := (x % (2 ^ m : Nat)).toNat
      if f = 0 then .fin false 1 1 whole
      else .fin false (exp2Bits m f m (isqrt (2 * 2 ^ (2 * fixP))) (2 ^ fixP)) 1 (whole - fixP)
    else if neg then .fin false 1 1 (-400) else .fin false 1 1 400

/-- The first k binary digits of log2 x, for 1 ≤ x < 2 in fixed point. -/
def log2Bits : Nat → Nat → Nat → Nat
  | 0, _, acc => acc
  | k + 1, x, acc =>
    let y := x * x / 2 ^ fixP
    if 2 * 2 ^ fixP ≤ y then log2Bits k (y / 2) (2 * acc + 1) else log2Bits k y (2 * acc)

/-- log2 a (R272), for a with d = 1. -/
def FVal.log2 (v : FVal) : FVal :=
  match v with
  | .nan => .nan
  | .inf neg => if neg then .nan else .inf false
  | .fin neg n d e =>
    if n = 0 then .inf true
    else if neg then .nan
    else
      let k := ratLog2 n d
      let x := (scaleDiv n d (fixP - k)).1
      let whole := k + e
      if x = 2 ^ fixP then FVal.ofInt whole
      else
        let y : Int := whole * (2 ^ 201 : Nat) + (2 * log2Bits 200 x 0 + 1 : Nat)
        .fin (decide (y < 0)) y.natAbs 1 (-201)

/-- arctan(1/q) in fixed point, by its series: `k` terms from power `p` (1/q^(2i+1)) on. -/
def arctanSeries (q : Nat) : Nat → Nat → Nat → Int → Int
  | 0, _, _, acc => acc
  | k + 1, i, p, acc =>
    arctanSeries q k (i + 1) (p / (q * q)) (if i % 2 = 0 then acc + (p / (2 * i + 1) : Nat) else acc - (p / (2 * i + 1) : Nat))

/-- π in fixed point, by Machin's formula. -/
def piFix : Nat :=
  (4 * (4 * arctanSeries 5 120 0 (2 ^ fixP / 5) 0 - arctanSeries 239 40 0 (2 ^ fixP / 239) 0)).toNat

/-- The Taylor series of sin (from i = 1) or cos (from i = 0) at t in fixed point: `k` terms, `p` the current power over
its factorial. -/
def trigSeries (t : Nat) : Nat → Nat → Nat → Bool → Int → Int
  | 0, _, _, _, acc => acc
  | k + 1, i, p, neg, acc =>
    trigSeries t k (i + 2) (p * t / 2 ^ fixP * t / 2 ^ fixP / ((i + 1) * (i + 2))) (!neg)
      (if neg then acc - p else acc + p)

/-- sin(π r) or cos(π r) for r = x / 2^m with 0 < r ≤ 1/4. -/
def trigSmall (cos : Bool) (x m : Nat) : FVal :=
  let t := x * piFix / 2 ^ m
  let y := if cos then trigSeries t 60 0 (2 ^ fixP) false 0 else trigSeries t 60 1 t false 0
  .fin false (2 * y.toNat + 1) 1 (-(fixP : Int) - 1)

/-- sin(π r) for r = x / 2^m in [0, 1/2]. -/
def sinQuarter (x m : Nat) : FVal :=
  if x = 0 then .fin false 0 1 0
  else if 2 * x = 2 ^ m then .fin false 1 1 0
  else if 4 * x ≤ 2 ^ m then trigSmall false x m
  else trigSmall true (2 ^ (m - 1) - x) m

/-- sin(π r) for r = x / 2^m in [0, 2), with the sign of the half. -/
def sinTurn (x m : Nat) : FVal :=
  let half := x % 2 ^ m
  let v := if 2 * half ≤ 2 ^ m then sinQuarter half m else sinQuarter (2 ^ m - half) m
  if 2 ^ m ≤ x then v.neg else v

/-- sin(π a) or cos(π a) (R272). -/
def FVal.trigPi (cos : Bool) (v : FVal) : FVal :=
  match v with
  | .nan => .nan
  | .inf _ => .nan
  | .fin neg n _ e =>
    let m := max 1 (-e).toNat
    let x := n * 2 ^ (e + m).toNat % 2 ^ (m + 1)
    if cos then
      let r := sinTurn ((x + 2 ^ (m - 1)) % 2 ^ (m + 1)) m
      if r.isZero then .fin false 0 1 0 else r
    else
      let r := sinTurn x m
      if r.isZero then .fin neg 0 1 0 else if neg then r.neg else r

end Sys2Proof.Machine
end

