-- ==== Sys2Proof/Machine/Front.lean ====
section
/-! DEFINITION. What comes before an instruction issues (R185, R200 to R204): a pending asynchronous cause, a single
step, a fetch breakpoint, a fetch fault, a word that decodes to nothing. -/

namespace Sys2Proof.Machine

/-- The front end's answer: the state after a trap or a wait, or the instruction to execute. -/
inductive Front where
  | state (s : State)
  | ins (i : Instr) (s : State)

/-- The next address to issue: of the first entry to re-issue, else the pc. -/
def Warp.nextAt (x : Warp) : W64 :=
  match x.reissue with
  | e :: _ => e.pc
  | [] => x.pc

/-- The lowest breakpoint register of a core that matches an address as a fetch (`data` false) or a data access to a
4-byte word, for a context (R200). -/
def State.breakpoint (s : State) (c t : Nat) (data : Bool) (a : Nat) : Option Nat :=
  if (s.ccore c 0x210).toNat ≠ t then none
  else (List.range 8).find? fun k =>
    let v := (s.ccore c (0x208 + k)).toNat
    bit v 0 && decide (bit v 1 = data) && decide (bits v 55 2 = bits a 55 2)

/-- The front end of a warp's issue. DESIGN CHOICE (log 96): of several pending asynchronous causes the oldest is taken first, and the others,
as one that is pending when a synchronous trap is taken, stay pending until TM is 0 again. -/
def State.front (s : State) (g w : Nat) : Front :=
  let x := s.warp g w
  match (if x.tm then [] else x.async) with
  | a :: rest =>
    .state ((s.modWarp g w fun x => { x with async := rest }).trap g w
      { cause := a.cause, mask := a.mask, addr := a.addr, aux := a.aux, async := true, tpc := x.nextAt, trpc := x.pc
        rest := x.reissue })
  | [] =>
    if x.stepped then
      .state (s.trap g w { cause := 0x02, mask := x.exec, tpc := x.nextAt, trpc := x.pc, rest := x.reissue })
    else
      match s.nextInstr g w with
      | .mig => .state { (s.fetchAsk g w).park g w [.mig (s.now g + 256)] with cur := none }
      | .ask _ _ _ => .state { (s.fetchAsk g w).park g w [.mig (s.now g + 256)] with cur := none }
      | .fault c pc => .state ((s.fetched g w).trap g w { cause := c, mask := x.exec, addr := pc, tpc := pc, trpc := pc })
      | .bad c insn pc len =>
        let bp := if x.noBp ∨ x.ih ∨ !x.reissue.isEmpty then none
          else s.breakpoint (s.coreOf g) (s.wg g).ctx false pc.toNat
        match bp with
        | some k => .state (s.trap g w { cause := 0x01, mask := x.exec, aux := BitVec.ofNat 64 k, tpc := pc, trpc := pc })
        | none =>
          if 16 ≤ x.ops.length then .state { s.park g w [.room] with cur := none } else
          let cap := match x.reissue with
            | e :: _ => e
            | [] => { insn := insn, orig := insn, pc := pc, lmask := x.exec, tail := min 16 (32 - pc.toNat % 32) }
          .state (((s.fetched g w).reaged g w).trap g w
            { cause := c, mask := cap.lmask, tpc := pc, cap := some cap, rest := x.reissue.drop 1
              trpc := if x.reissue.isEmpty then pc + BitVec.ofNat 64 len else x.pc })
      | .ins i pc =>
        let bp := if x.noBp ∨ x.ih ∨ !x.reissue.isEmpty then none
          else s.breakpoint (s.coreOf g) (s.wg g).ctx false pc.toNat
        match bp with
        | some k => .state (s.trap g w { cause := 0x01, mask := x.exec, aux := BitVec.ofNat 64 k, tpc := pc, trpc := pc })
        | none => .ins i ((s.fetched g w).modWarp g w fun x => if x.reissue.isEmpty then { x with pc := pc } else x)

end Sys2Proof.Machine
end

