-- ==== Sys2Proof/Machine/Storage.lean ====
section
/-! DEFINITION. A workgroup's own storage: local memory, tiles, shapes, accumulators and residue registers (R115, R300,
R301, R110), with the values that an `mma` may still see (R134). -/

namespace Sys2Proof.Machine

/-- The operand number of byte b of tile t, of a local byte, and of byte b of a shape register. -/
def tileByte (t b : Nat) : Nat := 16384 * t + b
def localByte (off : Nat) : Nat := 2 ^ 20 + off
def shapeByte (t b : Nat) : Nat := 2 ^ 24 + 8 * t + b

/-- The value of an operand byte; none for a byte of local memory that nothing has written (log 4). -/
def Wg.operand (x : Wg) (k : Nat) : Option W8 :=
  if k < 2 ^ 20 then some (SMap.get k 0 x.tiles)
  else if k < 2 ^ 24 then SMap.find (k - 2 ^ 20) x.local_
  else some ((SMap.get ((k - 2 ^ 24) / 8) 0 x.tshapes).extractLsb' (8 * (k % 8)) 8)

/-- Sets an operand byte. -/
def Wg.setOperand (x : Wg) (k : Nat) (v : W8) : Wg :=
  if k < 2 ^ 20 then { x with tiles := SMap.put k v x.tiles }
  else if k < 2 ^ 24 then { x with local_ := SMap.put (k - 2 ^ 20) v x.local_ }
  else
    let t := (k - 2 ^ 24) / 8
    let old := SMap.get t 0 x.tshapes
    let m : W64 := (0xFF : W64) <<< (8 * (k % 8))
    { x with tshapes := SMap.put t ((old &&& ~~~m) ||| (v.setWidth 64 <<< (8 * (k % 8)))) x.tshapes }

/-- Adds earlier values of operand bytes to a record of them. -/
def addHist (l : List (Nat × W8)) (h : SMap (List W8)) : SMap (List W8) :=
  l.foldl (fun h p => SMap.put p.1 (p.2 :: SMap.get p.1 [] h) h) h

/-! Soft errors of a workgroup's storage (R144, R145). Word k holds operand bytes 4 k to 4 k + 3. -/

/-- The words of accumulator a and of residue register c. -/
def accSoft (a i : Nat) : Nat := 2 ^ 26 + 4096 * a + i
def cySoft (c i : Nat) : Nat := 2 ^ 27 + 64 * c + i

/-- Words of operand bytes. -/
def softOf (ks : List Nat) : List Nat := (ks.map (· / 4)).eraseDups

/-- The words with an uncorrectable error among some. -/
def Wg.badWords (x : Wg) (l : List Nat) : List Nat := x.ue.filter l.contains

/-- A write clears the errors of the words it writes. -/
def Wg.clean (x : Wg) (l : List Nat) : Wg :=
  if x.ue.isEmpty && x.ce.isEmpty then x
  else { x with ue := x.ue.filter fun k => !l.contains k, ce := x.ce.filter fun k => !l.contains k }

/-- A read of words meets their errors: a correctable one is corrected and counted in CE (R144); the words with an uncorrectable one, which
hold 0, are counted in UE but for those in `seen` (R145). -/
def State.meetSoft (s : State) (g : Nat) (l seen : List Nat) : State :=
  let x := s.wg g
  if x.ue.isEmpty && x.ce.isEmpty then s
  else
    let fixed := x.ce.filter l.contains
    let s1 := if fixed.isEmpty then s
      else (s.modWg g fun x => { x with ce := x.ce.filter fun k => !l.contains k }).countCtx x.ctx 0x10B 15 0 fixed.length
    s1.countUe x.ctx ((x.badWords l).filter fun k => !seen.contains k).length

/-- Writes operand bytes; what they held is kept for the workgroup, until an `oprdy`, and for its `mma`s in flight
(R134). A part of a word with an uncorrectable error leaves the rest of it 0 and counts once (R145). -/
def State.putOperands (s : State) (g : Nat) (ws : List (Nat × W8)) : State :=
  let s := if (s.wg g).ue.isEmpty && (s.wg g).ce.isEmpty then s
    else
      let l := softOf (ws.map (·.1))
      let part := ((s.wg g).badWords l).filter fun k => !((List.range 4).all fun i => ws.any fun p => p.1 = 4 * k + i)
      (s.countUe (s.wg g).ctx part.length).modWg g fun x => x.clean l
  let x := s.wg g
  let olds := ws.filterMap fun p =>
    let o := (x.operand p.1).getD (Config.freeByte p.1)
    if o = p.2 then none else some (p.1, o)
  (s.modWg g fun x => { ws.foldl (fun x p => x.setOperand p.1 p.2) x with hist := addHist olds x.hist }).modCore (s.coreOf g)
    fun c => { c with mma := c.mma.map fun o => if o.wg = g then { o with hist := addHist olds o.hist } else o }

/-- Bytes of local memory. -/
def Wg.localBytes (x : Wg) (off n : Nat) : List (Option W8) := (List.range n).map fun i => SMap.find (off + i) x.local_

/-- Writes local memory. -/
def State.putLocal (s : State) (g off : Nat) (bs : List W8) : State :=
  s.putOperands g (((List.range bs.length).zip bs).map fun p => (localByte (off + p.1), p.2))

/-- A range lies in a workgroup's local memory (R14). -/
def Wg.inLocal (x : Wg) (off n : Nat) : Bool := decide (off + n ≤ 1024 * x.shape.localK)

end Sys2Proof.Machine
end

