-- ==== Sys2Proof/Machine/Memory.lean ====
section
/-! DEFINITION. Memory instructions at issue (R280 to R291): addresses, the checks of every lane, and the operation that
enters the issue queue. -/

namespace Sys2Proof.Machine

/-- A lane of a memory instruction after its checks: where it lands, or the cause it finds. -/
structure LaneAt where
  lane : Nat
  va   : Nat
  at_  : Except Cause Target

/-- Bytes further on in the same page. -/
def Target.add (t : Target) (k : Nat) : Target :=
  match t with
  | .dev pa key => .dev (pa + k) key
  | .host a hx => .host (a + k) hx
  | .peer p c a => .peer p c (a + k)
  | .loc off => .loc (off + k)

/-- The target is memory of the host or of a peer. -/
def Target.far (t : Target) : Bool :=
  match t with
  | .host _ _ => true | .peer _ _ _ => true | _ => false

/-- A place of the ordering machine: of device memory or not, its number, and the key of its entries (the context's tag beyond device
memory, R178); none for local memory. -/
def Target.cell (t : Target) (ctx : Nat) : Option (Bool × Nat × Nat) :=
  match t with
  | .dev pa key => some (true, pa, key)
  | .host a _ => some (false, a, ctx)
  | .peer p pctx a => some (false, farAddr p pctx a, ctx)
  | .loc _ => none

/-- What the memory kind forbids (R282 step 5): WG.remote on host or peer memory (R130), an invalid or unreachable peer
(R179, R74), an atomic that has no form on a peer page (R289). -/
def State.kindCause (s : State) (t : Nat) (remote peerAtomOk : Bool) (tgt : Target) : Option Cause :=
  match tgt with
  | .dev _ _ => none
  | .loc _ => none
  | .host _ _ => if remote then some 0x06 else none
  | .peer p _ _ =>
    if remote || !peerAtomOk then some 0x06
    else if (s.peerAddr p).isNone || (s.stream t p).dead then some 0x11
    else none

/-- What checking the lanes gives. -/
inductive Checked where
  | mig (s : State)
  | lanes (s : State) (l : List LaneAt)

/-- Checks the lanes of a memory instruction in ascending order (R282), translating each. -/
def State.checkLanes (s : State) (t : Nat) (who : Walker) (n align : Nat) (acc : Acc) (kind : State → Target → Option Cause) :
    List (Nat × Nat) → List LaneAt → Checked
  | [], acc' => .lanes s acc'
  | (l, va) :: rest, acc' =>
    if va % align ≠ 0 then State.checkLanes s t who n align acc kind rest (acc' ++ [⟨l, va, .error 0x09⟩])
    else
      match s.translate t 0 va n acc who with
      | .mig e => .mig (s.missed t who e)
      | .fault c e => State.checkLanes (s.missed t who e) t who n align acc kind rest (acc' ++ [⟨l, va, .error c⟩])
      | .ok tgt e =>
        let r : Except Cause Target := match kind s tgt with | some c => .error c | none => .ok tgt
        State.checkLanes (s.translated t who e) t who n align acc kind rest (acc' ++ [⟨l, va, r⟩])

/-- The lowest cause among lanes, the lanes that found it and the address of the lowest of them (R158). -/
def lowestFault (l : List LaneAt) : Option (Cause × W32 × W64) :=
  let cs := l.filterMap fun x => match x.at_ with | .error c => some c.toNat | .ok _ => none
  match cs with
  | [] => none
  | c :: rest =>
    let m := rest.foldl min c
    let hit := l.filter fun x => match x.at_ with | .error c => decide (c.toNat = m) | .ok _ => false
    some (BitVec.ofNat 6 m, maskOf fun k => hit.any fun x => x.lane = k, BitVec.ofNat 64 ((hit.map (·.va)).headD 0))

/-- The 4-byte words that an access touches. -/
def wordsOf (va n : Nat) : List Nat := (List.range ((va % 4 + n + 3) / 4)).map fun i => va / 4 * 4 + 4 * i

/-- A breakpoint may match a data access of an instruction (R200): it is no re-issued entry, its warp is in no handler, and a data
breakpoint is set for its context. -/
def State.watches (s : State) (c : Cx) : Bool :=
  let core := s.coreOf c.g
  !c.re && !(s.warp c.g c.w).ih && decide ((s.ccore core 0x210).toNat = (s.wg c.g).ctx)
    && (List.range 8).any fun k => bits (s.ccore core (0x208 + k)).toNat 1 0 = 3

/-- The data watchpoint that the accesses of an instruction meet (R200), each with its lane, address and size: the lowest-numbered
register, the lanes that match it and the address of the lowest of them. -/
def State.watchAll (s : State) (c : Cx) (l : List (Nat × Nat × Nat)) : Option (Nat × W32 × W64) :=
  if !s.watches c then none
  else
    let core := s.coreOf c.g
    let t := (s.wg c.g).ctx
    let hits := l.filterMap fun p =>
      ((wordsOf p.2.1 p.2.2).filterMap fun a => s.breakpoint core t true a).min?.map fun k => (k, p.1, p.2.1)
    match (hits.map (·.1)).min? with
    | none => none
    | some k =>
      let ls := (hits.filter fun h => h.1 = k).map (·.2)
      some (k, maskOf fun l => ls.any fun p => p.1 = l, BitVec.ofNat 64 ((ls.map (·.2)).headD 0))

/-- The same for accesses of one size. -/
def State.watch (s : State) (c : Cx) (n : Nat) (lanes : List (Nat × Nat)) : Option (Nat × W32 × W64) :=
  s.watchAll c (lanes.map fun p => (p.1, p.2, n))

/-- The lanes that passed. -/
def landed (l : List LaneAt) : List (Nat × Nat × Target) :=
  l.filterMap fun x => match x.at_ with | .ok t => some (x.lane, x.va, t) | .error _ => none

/-- The common part of a memory instruction: checks every lane, and goes on when none finds a cause (R282, R158). -/
def memIssue (c : Cx) (s : State) (lanes : List (Nat × Nat)) (n align : Nat) (acc : Acc)
    (kind : State → Target → Option Cause) (k : State → List (Nat × Nat × Target) → Res) : Res :=
  match s.checkLanes (s.wg c.g).ctx (some (c.g, c.w)) n align acc kind lanes [] with
  | .mig s1 => .waitIn s1 [.mig (s.now c.g + 256)]
  | .lanes s1 l =>
    match lowestFault l with
    | some (cause, mask, va) => .trapIn s1 cause mask va 0
    | none =>
      match s1.watch c n lanes with
      | some (r, mask, va) => .trapIn s1 0x2C mask va (BitVec.ofNat 64 r)
      | none => k s1 (landed l)

/-- Addresses of a vector form (R280). -/
def Cx.laneAddrs (c : Cx) (voff : Bool) : List (Nat × Nat) :=
  (lanesOf c.act).map fun l =>
    (l, (c.sA + (if voff then (lane c.vB l).signExtend 64 else 0) + c.imm64).toNat)
/-- The address of a scalar form: one lane, numbered 0. -/
def Cx.scalarAddr (c : Cx) : List (Nat × Nat) := [(0, (c.sA + c.imm64).toNat)]

/-- The units of an operation: one per lane for an access of at most 8 bytes, two for one of 16 (R117, R283). -/
def mkUnits (n : Nat) (wr cmp : Nat → List W8) (l : List (Nat × Nat × Target)) : List MUnit :=
  l.flatMap fun p =>
    if n ≤ 8 then [{ lane := p.1, off := 0, size := n, va := p.2.1, tgt := p.2.2, wr := wr p.1, cmp := cmp p.1 }]
    else
      (List.range (n / 8)).map fun k =>
        { lane := p.1, off := 8 * k, size := 8, va := p.2.1 + 8 * k, tgt := p.2.2.add (8 * k)
          wr := ((wr p.1).drop (8 * k)).take 8 }

/-- No bytes to write. -/
def noBytes : Nat → List W8 := fun _ => []

/-- A load enters the issue queue; one of host or peer memory parks its warp (R32). -/
def loadIssue (c : Cx) (dst : List Reg) (o : Op) (s : State) : Res :=
  let id := s.nextId
  let s1 := s.launchOp c dst fun id => { o with id := id, ins := c.held dst, ctx := (s.wg c.g).ctx, kind := .load }
  if o.units.any (·.tgt.far) then .park s1 [.op id] else .done s1

/-- A store enters the issue queue; one with nothing to do does not. -/
def storeIssue (c : Cx) (o : Op) (s : State) : Res :=
  if o.units.isEmpty && !o.rel then .done s
  else .done (s.launchOp c [] fun id => { o with id := id, ins := c.ins, ctx := (s.wg c.g).ctx, kind := .store })

/-- Memory kinds for a load or a store: WG.remote needs device memory. -/
def plainKind (c : Cx) (s : State) : Target → Option Cause :=
  s.kindCause (s.wg c.g).ctx (decide (c.f.fs = 6)) true

/-- The destination of a vector load: a register or a pair. -/
def Cx.vdst (c : Cx) : List Reg :=
  if c.f.ty.isPair then [.v c.f.dst.toNat, .v (c.f.dst.toNat + 1)] else [.v c.f.dst.toNat]

/-- The acquire or release bit of a load or a store (R210). -/
def Cx.ordered (c : Cx) : Bool := c.f.sub.getLsbD 0
/-- VOFF (R210). -/
def Cx.voff (c : Cx) : Bool := c.f.sub.getLsbD 2

/-- The data a lane stores: the low bytes of vC, or of its pair (R281). -/
def Cx.storeBytes (c : Cx) (l : Nat) : List W8 :=
  leList c.f.ty.bytes ((lane (c.vop 4) l).toNat + (lane (c.vop 5) l).toNat * 2 ^ 32)

/-- A quad index that is not a multiple of 4 raises 0x06 (R283). -/
def quadPre (x : Cx → BitVec 8) (c : Cx) (_ : State) : Option Res := if (x c).toNat % 4 ≠ 0 then some (c.raise 0x06) else none

/-- R283: a vector load of n bytes per lane into registers. -/
def ldBody (n : Nat) (dst : Cx → List Reg) (c : Cx) (s : State) : Res :=
  memIssue c s (c.laneAddrs c.voff) n n .read (plainKind c) fun s1 l =>
    loadIssue c (dst c) { id := 0, ins := c.ins, kind := .load, ty := c.f.ty, scope := c.f.fs.toNat, acq := c.ordered
                          units := mkUnits n noBytes noBytes l, dst := some (.v c.f.dst.toNat), width := n } s1
def execLd (f : Fields) (s : State) := run (.ld f) s (ldBody f.ty.bytes Cx.vdst)
def execLdp (f : Fields) (s : State) := issue (.ldp f) s open_ (quadPre fun c => c.f.dst)
  (ldBody 16 fun c => (List.range 4).map fun i => .v (c.f.dst.toNat + i))

/-- R283: a vector store of n bytes per lane. -/
def stBody (n : Nat) (data : Cx → State → Nat → List W8) (c : Cx) (s : State) : Res :=
  memIssue c s (c.laneAddrs c.voff) n n .write (plainKind c) fun s1 l =>
    storeIssue c { id := 0, ins := c.ins, kind := .store, ty := c.f.ty, scope := c.f.fs.toNat, rel := c.ordered
                   units := mkUnits n (data c s) noBytes l, width := n } s1
/-- The 16 bytes of a quad in a lane (R283). -/
def quadBytes (c : Cx) (s : State) (l : Nat) : List W8 :=
  (List.range 4).flatMap fun i => bytes32 (lane (s.groupReg c 4 c.f.sc.toNat i) l)
def execSt (f : Fields) (s : State) := run (.st f) s (stBody f.ty.bytes fun c _ => c.storeBytes)
def execStp (f : Fields) (s : State) := issue (.stp f) s open_ (quadPre fun c => c.f.sc) (stBody 16 quadBytes)

/-- R284: a scalar load. -/
def ldsBody (c : Cx) (s : State) : Res :=
  let n := c.f.ty.bytes
  memIssue c s c.scalarAddr n n .read (plainKind c) fun s1 l =>
    loadIssue c [.s c.f.dst.toNat] { id := 0, ins := c.ins, kind := .load, ty := c.f.ty, scope := c.f.fs.toNat
                                     acq := c.ordered, units := mkUnits n noBytes noBytes l
                                     dst := some (.s c.f.dst.toNat), width := n } s1
def execLds (f : Fields) (s : State) := run (.lds f) s ldsBody

/-- R284: a scalar store. -/
def stsBody (c : Cx) (s : State) : Res :=
  let n := c.f.ty.bytes
  memIssue c s c.scalarAddr n n .write (plainKind c) fun s1 l =>
    storeIssue c { id := 0, ins := c.ins, kind := .store, ty := c.f.ty, scope := c.f.fs.toNat, rel := c.ordered
                   units := mkUnits n (fun _ => leList n c.sC.toNat) noBytes l, width := n } s1
def execSts (f : Fields) (s : State) := run (.sts f) s stsBody

/-! Local memory (R285). -/

/-- The lanes of a local access: alignment, then the range (R282). -/
def localLanes (x : Wg) (n : Nat) (l : List (Nat × Nat)) : List LaneAt :=
  l.map fun p =>
    ⟨p.1, p.2, if p.2 % n ≠ 0 then .error 0x09 else if x.inLocal p.2 n then .ok (.loc p.2) else .error 0x1E⟩

/-- A local access checks its lanes. -/
def localIssue (c : Cx) (s : State) (k : List (Nat × Nat × Target) → Res) : Res :=
  let l := localLanes (s.wg c.g) c.f.ty.bytes (c.laneAddrs c.voff)
  match lowestFault l with
  | some (cause, mask, va) => .trap cause mask va 0
  | none => k (landed l)

def ldlBody (c : Cx) (s : State) : Res :=
  localIssue c s fun l =>
    loadIssue c c.vdst { id := 0, ins := c.ins, kind := .load, ty := c.f.ty, units := mkUnits c.f.ty.bytes noBytes noBytes l
                         dst := some (.v c.f.dst.toNat), width := c.f.ty.bytes } s
def execLdl (f : Fields) (s : State) := run (.ldl f) s ldlBody

def stlBody (c : Cx) (s : State) : Res :=
  localIssue c s fun l =>
    storeIssue c { id := 0, ins := c.ins, kind := .store, ty := c.f.ty
                   units := mkUnits c.f.ty.bytes c.storeBytes noBytes l, width := c.f.ty.bytes } s
def execStl (f : Fields) (s : State) := run (.stl f) s stlBody

/-! Atomics (R287 to R289). -/

/-- An operation that a peer can perform (R289): integer add, swap and compare-and-swap. -/
def peerAtomOk (f : Fields) : Bool :=
  (decide (f.sub = 0) && decide (f.ty ≠ .f32)) || decide (f.sub = 1) || decide (f.sub = 2)

/-- A register's contents before a handle replaces them (R191); those of a re-issued entry stay. -/
def State.priorOf (s : State) (c : Cx) (h : Nat) : List (Nat × W64) :=
  if c.ins.prior.isEmpty then [(h, (s.warp c.g c.w).getS h)] else c.ins.prior

/-- The FAULT and CODE that an atomic's handle gets (R289). -/
def Op.status (o : Op) : Bool × Cause :=
  match o.allFaults with
  | [] => (false, if o.fellBack then 0x02 else 0x00)
  | c :: cs => (true, cs.foldl (fun a b => if b.toNat < a.toNat then b else a) c)

/-- An atomic enters the issue queue with a handle slot when it names one. -/
def atomIssue (c : Cx) (dst : List Reg) (o : Op) (s : State) : Res :=
  let h := c.f.dst2.toNat
  let t := (s.wg c.g).ctx
  let id := s.nextId
  let op := { o with kind := .atomic c.f.sub.toNat, ctx := t, ty := c.f.ty, scope := c.f.fs.toNat
                     acq := c.f.ext.getLsbD 0, rel := c.f.ext.getLsbD 1, feb := c.f.feb.getLsbD 0
                     faults := c.ins.faults, fellBack := c.ins.fellBack }
  let go := fun (s1 : State) => if o.units.any (·.tgt.far) then Res.park s1 [.op id] else Res.done s1
  if h = 63 then go (s.launchOp c dst fun id => { op with id := id, ins := c.held dst })
  else
    match s.takeSlot (s.coreOf c.g) t (some (c.g, c.w, h)) with
    | none => .wait [.slot]
    | some (n, s1) =>
      let ins := { c.held (dst ++ [.s h]) with prior := s.priorOf c h }
      let s2 := s1.launchOp c (dst ++ [.s h]) fun id =>
        { op with id := id, ins := ins, slot := some n, closed := o.units.isEmpty && !op.acq && !op.rel }
      go (if o.units.isEmpty && !op.acq && !op.rel then s2.pendSlot (s.coreOf c.g) n op.status.1 op.status.2 0 else s2)

/-- The memory kinds of an atomic. -/
def atomKind (c : Cx) (s : State) : Target → Option Cause :=
  s.kindCause (s.wg c.g).ctx (decide (c.f.fs = 6)) (peerAtomOk c.f)

def atomBody (c : Cx) (s : State) : Res :=
  let n := c.f.ty.bytes
  memIssue c s (c.laneAddrs (c.f.ext.getLsbD 2)) n n .atomic (atomKind c) fun s1 l =>
    atomIssue c c.vdst
      { id := 0, ins := c.ins, kind := .load
        units := mkUnits n c.storeBytes
          (fun k => leList n ((lane (c.vop 6) k).toNat + (lane (c.vop 7) k).toNat * 2 ^ 32)) l
        dst := some (.v c.f.dst.toNat), width := n } s1
def execAtom (f : Fields) (s : State) := run (.atom f) s atomBody

def atomsBody (c : Cx) (s : State) : Res :=
  let n := c.f.ty.bytes
  memIssue c s c.scalarAddr n n .atomic (atomKind c) fun s1 l =>
    atomIssue c [.s c.f.dst.toNat]
      { id := 0, ins := c.ins, kind := .load
        units := mkUnits n (fun _ => leList n c.sC.toNat) (fun _ => leList n c.sD.toNat) l
        dst := some (.s c.f.dst.toNat), width := n } s1
def execAtoms (f : Fields) (s : State) := run (.atoms f) s atomsBody

/-! Fences, prefetch and flush (R290, R291). -/

/-- A peer write of a warp is still to be answered: it is not performed, lies in a buffer, or waits for its WRITEACK (R181). -/
def State.peerPending (s : State) (g w : Nat) : Bool :=
  ((s.warp g w).ops.any fun o => decide (o.kind = .store) && o.units.any fun u => !u.done && match u.tgt with | .peer _ _ _ => true | _ => false)
    || ((path (s.coreOf g)).any fun b => (s.buf b).any fun e => e.store && !e.dev && decide (e.own = some (g, w)) && (farPlace e.addr).isSome)
    || !s.waitMet g w .acks

/-- A fence enters the issue queue; a release at SYS that peer writes hold back parks its warp (R181, R290). -/
def fenceBody (acq rel : Bool) (c : Cx) (s : State) : Res :=
  let id := s.nextId
  let s1 := s.launchOp c [] fun id =>
    { id := id, ins := c.ins, kind := .fence, scope := c.f.fs.toNat, acq := acq, rel := rel, ctx := (s.wg c.g).ctx }
  if rel ∧ c.f.fs = 5 ∧ s.peerPending c.g c.w then .park s1 [.op id] else .done s1
def execFenceAcq (f : Fields) (s : State) := run (.fenceAcq f) s (fenceBody true false)
def execFenceRel (f : Fields) (s : State) := run (.fenceRel f) s (fenceBody false true)
def execFenceAr (f : Fields) (s : State) := run (.fenceAr f) s (fenceBody true true)

/-- The lines of device memory of a prefetch that translate and may be read; a lane that does not does nothing (R157, R291). None
while a walk waits on MIG (R154). -/
def State.prefLanes (s : State) (t : Nat) (who : Walker) : List (Nat × Nat) → List (Nat × Nat × Target) →
    State × Option (List (Nat × Nat × Target))
  | [], acc => (s, some acc)
  | (l, va) :: rest, acc =>
    match s.translate t 0 (va / 128 * 128) 128 .read who with
    | .ok tgt e =>
      State.prefLanes (s.translated t who e) t who rest
        (match tgt with | .dev _ _ => acc ++ [(l, va / 128 * 128, tgt)] | _ => acc)
    | .fault _ e => State.prefLanes (s.missed t who e) t who rest acc
    | .mig e => (s.missed t who e, none)

/-- R291: a prefetch is a load of whole lines whose value goes nowhere; it may leave copies (R129). -/
def prefBody (c : Cx) (s : State) : Res :=
  match s.prefLanes (s.wg c.g).ctx (some (c.g, c.w)) (c.laneAddrs c.voff) [] with
  | (s1, none) => .waitIn s1 [.mig (s.now c.g + 256)]
  | (s1, some []) => .done s1
  | (s1, some l) =>
    .done (s1.launchOp c [] fun id =>
      { id := id, ins := c.ins, kind := .load, ctx := (s.wg c.g).ctx, width := 0
        units := l.map fun p => { lane := p.1, off := 0, size := 128, va := p.2.1, tgt := p.2.2 } })
def execPref (f : Fields) (s : State) := run (.pref f) s prefBody

/-- The pieces of a range, cut at every 64 KiB of address. -/
def pagePieces : Nat → Nat → Nat → List (Nat × Nat)
  | 0, _, _ => []
  | k + 1, a, n =>
    if n = 0 then []
    else
      let m := min n (2 ^ 16 - a % 2 ^ 16)
      (a, m) :: pagePieces k (a + m) (n - m)

/-- An access that an engine makes as a whole (R149): where it begins inside the heap window it is one piece of it, else it is paged,
in pieces that no 64 KiB boundary cuts. -/
def State.cutUnit (s : State) (t va n : Nat) : Bool × List (Nat × Nat) :=
  if (s.heapTarget t va n .read).isSome then (false, [(va, n)]) else (true, pagePieces 2 va n)

/-- A piece of such an access translates. -/
def State.translateCut (s : State) (paged : Bool) (t va n : Nat) (acc : Acc) (who : Walker) : XRes :=
  if paged then s.translatePaged t 0 va n acc who else s.translate t 0 va n acc who

/-- Pieces cut again before the last KiB of each 64 KiB, which a page with MDP = 2 does not map (R153). -/
def cutLastKib (l : List (Nat × Nat)) : List (Nat × Nat) :=
  l.flatMap fun p =>
    let k := 64512 - min 64512 (p.1 % 2 ^ 16)
    if k = 0 ∨ p.2 ≤ k then [p] else [(p.1, k), (p.1 + k, p.2 - k)]

/-- The pieces of a flushed range that translate, for reading or for writing; the rest is skipped (R291). None while a walk waits on
MIG (R154). -/
def State.flushUnits (s : State) (t : Nat) (who : Walker) : List (Nat × Nat) → List MUnit → State × Option (List MUnit)
  | [], acc => (s, some acc)
  | (a, n) :: rest, acc =>
    let go := fun (tgt : Target) (e : XEff) =>
      State.flushUnits (s.translated t who e) t who rest (acc ++ [{ lane := 0, off := 0, size := n, va := a, tgt := tgt }])
    match s.translate t 0 a n .read who with
    | .ok tgt e => go tgt e
    | .mig e => (s.missed t who e, none)
    | .fault _ _ =>
      match s.translate t 0 a n .write who with
      | .ok tgt e => go tgt e
      | .mig e => (s.missed t who e, none)
      | .fault _ e => State.flushUnits (s.missed t who e) t who rest acc

/-- The length of a flush (R291). -/
def flushPre (c : Cx) (_ : State) : Option Res :=
  if c.f.imm = 0 ∨ 2 ^ 24 < c.f.imm.toNat then some (c.raise 0x06) else none
def cflushBody (c : Cx) (s : State) : Res :=
  match s.flushUnits (s.wg c.g).ctx (some (c.g, c.w)) (cutLastKib (pagePieces 258 c.sA.toNat c.f.imm.toNat)) [] with
  | (s1, none) => .waitIn s1 [.mig (s.now c.g + 256)]
  | (s1, some []) => .done s1
  | (s1, some l) =>
    .done (s1.launchOp c [] fun id =>
      { id := id, ins := c.ins, kind := .cflush, scope := c.f.fs.toNat, ctx := (s.wg c.g).ctx, units := l })
def execCflush (f : Fields) (s : State) := issue (.cflush f) s open_ flushPre cflushBody

end Sys2Proof.Machine
end

