-- ==== Sys2Proof/Machine/Perform.lean ====
section
/-! DEFINITION. Performing the operations of the issue queues (R117, R121 to R130), their completion, and the steps of
the ordering machine that nobody asks for (R123, R124, R135). -/

namespace Sys2Proof.Machine

/-- An operation of a warp. -/
def State.opOf (s : State) (g w id : Nat) : Option Op := (s.warp g w).ops.find? fun o => o.id = id
/-- Updates an operation. -/
def State.modOp (s : State) (g w id : Nat) (f : Op → Op) : State :=
  s.modWarp g w fun x => { x with ops := x.ops.map fun o => if o.id = id then f o else o }
/-- Updates a unit of an operation. -/
def State.modUnit (s : State) (g w id k : Nat) (f : MUnit → MUnit) : State :=
  s.modOp g w id fun o => { o with units := modAt f k o.units }

/-- The level at which an operation acts (R125): WG.remote acts as DEV, and so does an atomic of scope 0. -/
def Op.level (o : Op) : Nat :=
  if o.scope = 6 then 4
  else if o.scope = 0 then (match o.kind with | .atomic _ => 4 | _ => 1)
  else o.scope

/-- The level of an operation's release and acquire parts: SYS for an atomic that reaches the host or a peer, whatever its scope
(R289). -/
def Op.relLevel (o : Op) : Nat :=
  match o.kind with
  | .atomic _ => if o.units.any (·.tgt.far) then 5 else o.level
  | _ => o.level

/-- Two ranges share a byte. -/
def Target.meets (a : Target) (n : Nat) (b : Target) (m : Nat) : Bool :=
  match a, b with
  | .dev x _, .dev y _ => decide (x < y + m) && decide (y < x + n)
  | .host x _, .host y _ => decide (x < y + m) && decide (y < x + n)
  | .peer p c x, .peer p' c' y => decide (p = p') && decide (c = c') && decide (x < y + m) && decide (y < x + n)
  | .loc x, .loc y => decide (x < y + m) && decide (y < x + n)
  | _, _ => false

/-- The earlier operations of a warp. -/
def Warp.before (x : Warp) (id : Nat) : List Op := x.ops.takeWhile fun o => o.id ≠ id

/-- An operation of an engine, or of a render-target buffer, performs its accesses only after every earlier memory operation of the
warp (R133, R135). -/
def Op.afterAll (o : Op) : Bool := decide (o.kind = .look) || decide (o.kind = .rtw) || decide (o.kind = .rtr)

/-- R121: no earlier acquire, fence or atomic with acquire is unperformed, and a release waits for everything; so does what R133
orders. -/
def orderOk (before : List Op) (o : Op) : Bool :=
  before.all fun p => !p.isMem || p.performed || !(p.acq || decide (p.kind = .fence) || o.rel || o.afterAll)

/-- R121: no earlier unperformed unit touches the bytes of a unit. -/
def bytesOk (before : List Op) (u : MUnit) : Bool :=
  before.all fun p => !p.isMem || p.units.all fun v => v.done || !v.tgt.meets v.size u.tgt u.size

/-- The highest lane that writes a byte decides it (R117): a lower lane's unit waits for it and is performed with it. -/
def shadowed (o : Op) (u : MUnit) : Bool :=
  (decide (o.kind = .store) || decide (o.kind = .rtw)) && o.units.any fun v =>
    !v.done && decide (u.lane < v.lane) && v.tgt.meets v.size u.tgt u.size

/-! Atomic arithmetic (R288). -/

/-- The new value of an atomic step. -/
def atomNew (op : Nat) (ty : Ty) (old c e : Nat) : Nat :=
  let w := ty.width
  let f := decodeF fp32
  match op with
  | 0 => if ty = .f32 then roundF fp32 0 (FVal.add 0 (f old) (f c)) else lowBits w (old + c : Nat)
  | 1 => c
  | 2 => if old = e then c else old
  | 3 => if ty = .f32 then roundF fp32 0 (FVal.pick true (f old) (f c)) else lowBits w (min (tyInt ty w old) (tyInt ty w c))
  | 4 => if ty = .f32 then roundF fp32 0 (FVal.pick false (f old) (f c)) else lowBits w (max (tyInt ty w old) (tyInt ty w c))
  | 5 => old &&& c
  | 6 => old ||| c
  | _ => old ^^^ c

/-- The operation number of an atomic. -/
def Op.atomOp (o : Op) : Nat := match o.kind with | .atomic k => k | _ => 0
/-- What an atomic unit leaves in memory, given what was there. -/
def atomBytes (o : Op) (u : MUnit) (old : List W8) : List W8 :=
  leList u.size (atomNew o.atomOp o.ty (leVal old) (leVal u.wr) (leVal u.cmp))

/-! Settling an operation whose parts are all done. -/

/-- The asynchronous trap of a faulted atomic (R177, R289). -/
def State.atomTrap (s : State) (g w : Nat) (o : Op) : State :=
  if o.allFaults.isEmpty || !(o.feb || o.slot.isNone) then s
  else
    let hit := o.units.filter fun u => u.fault = some o.status.2
    let id := match o.slot with | some n => handleId n ((s.core (s.coreOf g)).slot n).gen | none => 0
    s.postAsync g w { cause := o.status.2, aux := id, mask := maskOf fun l => hit.any fun u => u.lane = l
                      addr := BitVec.ofNat 64 ((hit.map (·.va)).headD 0) }

/-- The units of a load that have failed. -/
def Op.failed (o : Op) : List MUnit := o.units.filter fun u => u.fault.isSome && !u.done

/-- Each unit of a load or a lookup is performed or has failed: the instruction traps with the lowest cause, for the lanes that found
it (R158, R178). A lookup then has performed no lane. -/
def State.trapFailed (s : State) (g w : Nat) (o : Op) : State :=
  match lowest (o.failed.filterMap (·.fault)) with
  | none => s
  | some c =>
    let hit := o.failed.filter fun u => u.fault = some c
    if o.units.all fun u => u.done || u.fault.isSome then
      (if o.kind = .look then s.modOp g w o.id fun o => { o with units := o.units.map fun u => { u with done := false } } else s).trapOp
        g w o.id c (maskOf fun l => hit.any fun u => u.lane = l) ((hit.map (·.va)).headD 0)
    else s

/-- Once an operation's release part and units are done, its acquire part is made (R127), an atomic's handle is settled
(R289), and an operation without destinations is finished; a load of which units have failed traps. -/
def State.settle (s : State) (g w id : Nat) : State :=
  match s.opOf g w id with
  | none => s
  | some o =>
    if !o.failed.isEmpty then s.trapFailed g w o
    else if o.closed || !(o.units.all (·.done)) || (o.rel && !o.opened) then s
    else
      let c := s.coreOf g
      let s1 := if o.acq then s.acquire c o.relLevel else s
      let s2 := match o.kind with
        | .atomic _ => (match o.slot with | some n => s1.pendSlot c n o.status.1 o.status.2 0 | none => s1).atomTrap g w o
        | _ => s1
      if o.ins.held.isEmpty then s2.modWarp g w fun x => { x with ops := x.ops.filter fun p => p.id ≠ id }
      else s2.modOp g w id fun o => { o with closed := true }

/-- A unit is performed: what it read is kept, and the operation is settled if it was the last. -/
def State.unitDone (s : State) (g w id k : Nat) (rd : List W8) (fault : Option Cause) : State :=
  ((s.modUnit g w id k fun u => { u with done := true, sent := false, rd := rd, fault := fault }).settle g w id).arrived g w

/-! Soft errors (R144, R145). -/

/-- Counts marked lines that an operation meets for the first time. -/
def State.opUe (s : State) (g w : Nat) (o : Op) (lines : List Nat) : State :=
  let new := lines.filter fun l => !o.ueLines.contains l
  if new.isEmpty then s
  else (s.countUe o.ctx new.length).modOp g w o.id fun o => { o with ueLines := o.ueLines ++ new }

/-- The storage words of a range of local memory. -/
def localSoft (off n : Nat) : List Nat := softOf ((List.range n).map fun i => localByte (off + i))

/-- The lanes of an operation of a workgroup that meet marked lines, or words of local memory with an uncorrectable error. -/
def State.ueLanes (s : State) (g : Nat) (o : Op) : W32 :=
  maskOf fun l => o.units.any fun u => decide (u.lane = l) && !u.done && match u.tgt with
    | .dev pa _ => !(s.ueLines true pa u.size).isEmpty
    | .loc off => !((s.wg g).badWords (localSoft off u.size)).isEmpty
    | _ => false

/-- The bytes of a line are all written by one store (R145). -/
def wholeLine (o : Op) (l : Nat) : Bool :=
  (List.range 128).all fun i => o.units.any fun u => match u.tgt with
    | .dev pa _ => decide (pa ≤ 128 * l + i) && decide (128 * l + i < pa + u.size)
    | _ => false

/-! Units of device memory (R122, R124 to R128, R130). -/

/-- The own entries of a scoped access drain first (R125), and a WG.remote acquire promotes (R130). -/
def State.prepare (s : State) (g w : Nat) (o : Op) (dev : Bool) (a n : Nat) : State :=
  let s1 := if o.scope = 6 then s.promote false a n else s
  if o.level = 1 ∧ o.scope = 0 then s1 else s1.drainTo (s.coreOf g) o.level (ownRange g w dev a n)

/-- Copies of what a plain load has read (R124). -/
def State.copied (s : State) (g : Nat) (o : Op) (u : MUnit) (copies : Nat) (bs : List W8) : State :=
  match o.scope, u.tgt.cell o.ctx with
  | 0, some (dev, a, key) => s.leaveCopies (s.coreOf g) copies dev a key bs
  | _, _ => s

/-- A load unit of device memory. -/
def State.loadUnit (s : State) (g w : Nat) (o : Op) (k : Nat) (u : MUnit) (pa key copies : Nat) : State :=
  let c := s.coreOf g
  let s1 := s.prepare g w o true pa u.size
  let hit := if o.width = 0 then [] else s1.ueLines true pa u.size
  let s2 := s1.opUe g w o hit
  if !hit.isEmpty && (s.cctx o.ctx 0x10A).getLsbD 0 then s2.trapOp g w o.id 0x1B (s.ueLanes g o) u.va
  else
    let r := (s2.countCe o.ctx true pa u.size).resolve (s2.maskUe true pa (s2.readBytes c o.level true pa u.size key))
    (r.2.copied g o u copies r.1).unitDone g w o.id k r.1 none

/-- The units of lower lanes for the bytes of a unit are performed with it (R117). -/
def State.withLower (s : State) (g w id : Nat) (u : MUnit) : State :=
  s.modOp g w id fun o => { o with units := o.units.map fun v =>
    { v with done := v.done || (decide (v.lane < u.lane) && v.tgt.meets v.size u.tgt u.size) } }

/-- A store unit of device or host memory: it is placed at its level (R122, R125, R126); a marked line is cleared (R145). -/
def State.storeUnit (s : State) (g w : Nat) (o : Op) (k : Nat) (u : MUnit) (dev : Bool) (a key : Nat) : State :=
  let s1 := s.prepare g w o dev a u.size
  let s2 := (s1.opUe g w o ((s1.ueLines dev a u.size).filter fun l => !wholeLine o l)).clearUe dev key a u.size
  let s3 := s2.place (s.coreOf g) o.level
    { age := 0, dev := dev, addr := a, key := key, bytes := u.wr, store := true, rel := o.rel, own := some (g, w) }
  (s3.withLower g w o.id u).unitDone g w o.id k [] none

/-- A load unit of local memory: words with an uncorrectable error hold 0 and count once, or are cause 0x1B (R145). Their numbers stand
above those of the lines. -/
def State.localUnit (s : State) (g w : Nat) (o : Op) (k : Nat) (u : MUnit) (off : Nat) : State :=
  let l := localSoft off u.size
  let bad := ((s.wg g).badWords l).map (· + 2 ^ 40)
  let s1 := (s.meetSoft g l l).opUe g w o bad
  if !bad.isEmpty && (s.cctx o.ctx 0x10A).getLsbD 0 then s1.trapOp g w o.id 0x1B (s.ueLanes g o) u.va
  else
    let r := s1.resolve ((s1.wg g).localBytes off u.size)
    r.2.unitDone g w o.id k r.1 none

/-- The words of local memory that one store instruction writes whole: it clears their errors without a count (R145). -/
def State.cleanLocal (s : State) (g : Nat) (o : Op) (l : List Nat) : State :=
  s.modWg g fun x => x.clean (l.filter fun k => (List.range 4).all fun i => o.units.any fun u => match u.tgt with
    | .loc off => decide (localByte off ≤ 4 * k + i) && decide (4 * k + i < localByte off + u.size)
    | _ => false)

/-- An atomic unit of device memory (R128): read, computation and write are one step. -/
def State.atomUnit (s : State) (g w : Nat) (o : Op) (k : Nat) (u : MUnit) (pa key : Nat) : State :=
  let c := s.coreOf g
  let s1 := s.prepare g w o true pa u.size
  let hit := s1.ueLines true pa u.size
  let s2 := s1.opUe g w o hit
  if !hit.isEmpty && (s.cctx o.ctx 0x10A).getLsbD 0 then s2.trapOp g w o.id 0x1B (s.ueLanes g o) u.va
  else
    let r := (s2.countCe o.ctx true pa u.size).resolve (s2.maskUe true pa (s2.readBytes c o.level true pa u.size key))
    let s3 := (r.2.clearUe true key pa u.size).place c o.level
      { age := 0, dev := true, addr := pa, key := key, bytes := atomBytes o u r.1, store := true, rel := o.rel
        own := some (g, w) }
    s3.unitDone g w o.id k r.1 none

/-! Host and peer units (R177, R178, R181). -/

/-- Every byte of a host range lies in a buffer of the path at a level or above. -/
def State.buffered (s : State) (c lvl a n : Nat) : Bool :=
  (List.range n).all fun i => (pathFrom c lvl).any fun b => (newest (s.buf b) false (a + i)).isSome

/-- A unit of a warp's load fails with a cause (R178). -/
def State.loadFails (s : State) (g w id k : Nat) (c : Cause) : State :=
  ((s.modUnit g w id k fun u => { u with sent := false, fault := some c }).settle g w id).arrived g w

/-- A load of host or peer memory fails: an input that the copybook captures (R356). -/
def State.farFails (s : State) (g w : Nat) (o : Op) (k : Nat) (u : MUnit) (c : Cause) : State :=
  (s.captureRead o.ctx u.va u.size (.error c)).loadFails g w o.id k c

/-- An atomic on host or peer memory completes with its old value and its status, an input that the copybook captures (R356, R357). -/
def State.farOld (s : State) (g w : Nat) (o : Op) (k : Nat) (u : MUnit) (old : List W8) (status : Nat) (fault : Option Cause) : State :=
  (s.capture o.ctx 5 u.va (old ++ leList 1 status)).unitDone g w o.id k old fault

/-- A replayed context takes what a host or peer read returns from the copybook (R358); the old value of an atomic is
followed by its status. -/
def State.replayUnit (s : State) (g w : Nat) (o : Op) (k : Nat) (u : MUnit) : State :=
  let atomic := match o.kind with | .atomic _ => true | _ => false
  match s.cpbRead o.ctx u.va u.size atomic with
  | (none, s1) => s1
  | (some (b, st), s1) =>
    if st = 0 then s1.unitDone g w o.id k b none
    else if !atomic then s1.loadFails g w o.id k (BitVec.ofNat 6 st)
    else if st = 2 then (s1.modOp g w o.id fun o => { o with fellBack := true }).unitDone g w o.id k b none
    else s1.unitDone g w o.id k b (some (BitVec.ofNat 6 st))

/-- A load or an atomic goes out: to the host over the link, where it completes (R178), or to a peer as a request on the reliable
stream (R180, R181). On an unreachable stream a load traps with 0x11 and an atomic's handle completes with it (R74). -/
def State.farAsk (s : State) (g w : Nat) (o : Op) (k : Nat) (u : MUnit) (copies : Nat) : State :=
  let sent := fun (s : State) => s.modUnit g w o.id k fun u => { u with sent := true, copies := copies }
  match u.tgt with
  | .peer p pctx a =>
    let q : PeerReq := { tag := 0, wg := g, w := w, op := o.id, unit_ := k, write := false }
    (match o.kind, s.streamDead o.ctx p with
      | .atomic _, true => s.farOld g w o k u (List.replicate u.size 0) 0x11 (some 0x11)
      | _, true => s.farFails g w o k u 0x11
      | .atomic n, false => sent (s.peerAsk o.ctx p q 2 n u.size pctx a (leVal u.cmp) (leList 8 (leVal u.wr)))
      | _, false => sent (s.peerAsk o.ctx p q 0 0 u.size pctx a 0 []))
  | _ => sent s

/-- A unit of host or peer memory: a store is placed like any other; a load whose bytes all lie in buffers completes from them; other
loads, and atomics, which act at Y, go out (R122 to R128, R289). DEDUCED (log 92): a load that completes from buffers is captured too, so that
its replay does not depend on what the buffers hold by then. -/
def State.farUnit (s : State) (g w : Nat) (o : Op) (k : Nat) (u : MUnit) (a copies : Nat) : State :=
  let c := s.coreOf g
  match o.kind with
  | .store => s.storeUnit g w o k u false a o.ctx
  | .atomic _ =>
    if s.replaying o.ctx then s.replayUnit g w o k u
    else (s.drainTo c 5 (ownRange g w false a u.size)).farAsk g w o k u copies
  | _ =>
    if s.replaying o.ctx then s.replayUnit g w o k u
    else
      let s1 := if o.scope = 0 then s else s.drainTo c o.level (ownRange g w false a u.size)
      if s1.buffered c o.level a u.size then
        let r := s1.resolve (s1.readBytes c o.level false a u.size 0)
        ((r.2.captureRead o.ctx u.va u.size (.ok r.1)).copied g o u copies r.1).unitDone g w o.id k r.1 none
      else s1.farAsk g w o k u copies

/-- What comes back from Y for a load, under what the buffers of the path hold by then (R124, R125). -/
def State.farReturns (s : State) (g w : Nat) (o : Op) (k : Nat) (u : MUnit) (bs : List W8) : State :=
  match u.tgt.cell o.ctx with
  | some (_, a, _) =>
    let b := s.overlay (s.coreOf g) o.level a bs
    ((s.captureRead o.ctx u.va u.size (.ok b)).copied g o u u.copies b).unitDone g w o.id k b none
  | none => s

/-- Performs one unit. -/
def State.performUnit (s : State) (g w : Nat) (o : Op) (k : Nat) (u : MUnit) (copies : Nat) : State :=
  match u.tgt with
  | .dev pa key =>
    match o.kind with
    | .store => s.storeUnit g w o k u true pa key
    | .atomic _ => s.atomUnit g w o k u pa key
    | _ => s.loadUnit g w o k u pa key copies
  | .loc off =>
    match o.kind with
    | .store =>
      (((s.cleanLocal g o (localSoft off u.size)).putLocal g off u.wr).withLower g w o.id u).unitDone g w o.id k [] none
    | _ => s.localUnit g w o k u off
  | .host a _ => s.farUnit g w o k u a copies
  | .peer p pctx a => s.farUnit g w o k u (farAddr p pctx a) copies

/-- A release at SYS whose entries have drained: once every peer write of the warp is answered it goes on with `k`; when one was
lost on an unreachable stream, the instruction traps with 0x11 (R181, R290, R74). -/
def State.afterAcks (s : State) (g w : Nat) (o : Op) (k : State → State) : State :=
  if (s.warp g w).unacked then
    (s.modWarp g w fun x => { x with unacked := false }).trapOp g w o.id 0x11 o.ins.lmask 0
  else if s.waitMet g w .acks then k s
  else s

/-- The release part of an operation at a level: the buffers of the path drain to it (R126 part 2); at SYS the WRITEACKs of the
warp's peer writes are then waited for (R181). -/
def State.releasePart (s : State) (g w : Nat) (o : Op) (lvl : Nat) (k : State → State) : State :=
  let s1 := if o.drained then s else (s.warpRelease g w lvl).modOp g w o.id fun o => { o with drained := true }
  if lvl = 5 then s1.afterAcks g w o k else k s1

/-- A fence is performed (R129, R130): its release part, then its acquire part. -/
def State.performFence (s : State) (g w : Nat) (o : Op) : State :=
  let c := s.coreOf g
  let fin := fun (s : State) =>
    let s2 := if o.scope = 6 then s.promote true 0 0 else s
    let s3 := if o.acq then s2.acquire c o.level else s2
    s3.modWarp g w fun x => { x with ops := x.ops.filter fun p => p.id ≠ o.id }
  if o.rel then s.releasePart g w o o.level fin else fin s

/-- A flush is performed (R129): over each piece, store entries below its level drain to it and copies are discarded. -/
def State.performFlush (s : State) (g w : Nat) (o : Op) : State :=
  let c := s.coreOf g
  let s1 := o.units.foldl (fun s u =>
    match u.tgt.cell o.ctx with
    | none => s
    | some (dev, a, _) =>
      (pathBelow c o.level).foldl (fun s b => s.setBuf b ((s.buf b).filter fun e => e.store || !e.touches dev a u.size))
        (s.drainTo c o.level fun e => e.touches dev a u.size)) s
  s1.modWarp g w fun x => { x with ops := x.ops.filter fun p => p.id ≠ o.id }

/-! Completions from the host link. -/

/-- R178: a host read of a warp completes. -/
def State.hostReadWarp (s : State) (g w id k : Nat) (st : HostStatus) : State :=
  match s.opOf g w id with
  | none => s
  | some o =>
    match o.units[k]?, o.kind with
    | some u, .load =>
      match u.tgt, u.sent && !u.done with
      | .host a _, true =>
        if st = .success then
          let r := s.resolve ((List.range u.size).map fun i => s.homeByte false (a + i) 0)
          r.2.farReturns g w o k u r.1
        else s.farFails g w o k u 0x10
      | _, _ => s
    | _, _ => s

/-- A host operation has an AtomicOp form and the endpoint may request it (R170, R177). -/
def State.hostForm (s : State) (o : Op) : Bool :=
  s.devCtl2.getLsbD 6 && decide (o.atomOp < 3) && decide (o.ty ≠ .f32)

/-- Host memory as a fallback's read may have found it: before the host's last writes, which its own write then overwrites (R177), or
after them. -/
def State.fallbackRead (s : State) (a n : Nat) : List (Option W8) :=
  (List.range n).map fun i =>
    match Config.freeBit s.free, s.hostPrev.find? fun p => p.1 = a + i with
    | true, some p => p.2
    | _, _ => s.homeByte false (a + i) 0

/-- Host memory is written by an AtomicOp, which is no posted write (R177). -/
def State.pokeHost (s : State) (a : Nat) (bs : List W8) : State :=
  { s with ymem := ((List.range bs.length).zip bs).foldl (fun m p => SMap.put (a + p.1) p.2 m) s.ymem }

/-- R177: an AtomicOp completes, falls back or faults. A fallback's read and write stand in this one step, with the host's writes of
the same cycle before, between or after them (log 17). -/
def State.hostAtomic (s : State) (g w id k : Nat) (st : HostStatus) : State :=
  match s.opOf g w id with
  | none => s
  | some o =>
    match o.units[k]?, o.kind with
    | some u, .atomic _ =>
      match u.tgt, u.sent && !u.done with
      | .host a hx, true =>
        let fin := fun (s : State) (rd : List W8) (code : Nat) (fault : Option Cause) =>
          s.farOld g w o k u rd code fault
        let zero := List.replicate u.size (0 : W8)
        let now := s.resolve ((List.range u.size).map fun i => s.homeByte false (a + i) 0)
        match if s.hostForm o then st else .unsupported with
        | .success => fin (now.2.pokeHost a (atomBytes o u now.1)) now.1 0 none
        | .unsupported =>
          if hx && (s.cctx o.ctx 0x111).getLsbD 0 then
            let r := ({ s with free := s.free + 1 }).resolve (s.fallbackRead a u.size)
            fin (((r.2.noteFails o.ctx a u.size).putBytes false o.ctx a (atomBytes o u r.1)).modOp g w id fun o => { o with fellBack := true })
              r.1 2 none
          else fin s zero 0x0F (some 0x0F)
        | _ =>
          let new := atomBytes o u now.1
          let mixed := ((List.range u.size).zip (now.1.zip new)).map fun p =>
            if Config.freeBit (now.2.free + p.1) then p.2.2 else p.2.1
          fin ({ now.2 with free := now.2.free + u.size }.pokeHost a mixed) zero 0x10 (some 0x10)
      | _, _ => s
    | _, _ => s

def execHostAtomicCompletion (wg w op unit : Nat) (st : HostStatus) (s : State) : Host.Outcome State Fault Refusal :=
  .next (s.hostAtomic wg w op unit st)

/-! Filling and the ordering machine's own steps. -/

/-- R27: a long-latency producer completes. -/
def execLongLatencyFill (wg w op : Nat) (s : State) : Host.Outcome State Fault Refusal :=
  match s.opOf wg w op with
  | some o => if o.works && !o.performed then .next s else .next (s.modWarp wg w fun x => x.finishOp o)
  | none => .next s

/-- An entry of a buffer may move up (R123). -/
def mayDrain (b : Buffer) (pos : Nat) : Bool :=
  match b[pos]? with
  | none => false
  | some e => e.store && (b.take pos).all fun o => !o.store || !(e.rel || o.overlaps e)

/-- R123: a store entry of the buf-th buffer that holds anything moves up one level. -/
def execStoreDrain (buf pos : Nat) (s : State) : Host.Outcome State Fault Refusal :=
  match s.allBufs[buf]? with
  | none => .next s
  | some b =>
    match (s.buf b)[pos]? with
    | none => .next s
    | some e => if mayDrain (s.buf b) pos then .next (s.moveUp b fun x => decide (x.age = e.age)).1 else .next s

/-- R124: a copy entry is discarded. -/
def execCopyEntryDiscard (buf pos : Nat) (s : State) : Host.Outcome State Fault Refusal :=
  match s.allBufs[buf]? with
  | none => .next s
  | some b =>
    match (s.buf b)[pos]? with
    | none => .next s
    | some e => if e.store then .next s else .next (s.setBuf b ((s.buf b).eraseIdx pos))

/-- R135: a render-target entry drains into V, after the older ones of its bytes. -/
def execRtDrain (die pos : Nat) (s : State) : Host.Outcome State Fault Refusal :=
  match (s.die die).rt[pos]? with
  | none => .next s
  | some e => .next (s.rtMove die fun x => decide (x.age = e.age))

end Sys2Proof.Machine
end

