-- ==== Sys2Proof/Machine/Pool.lean ====
section
/-! DEFINITION. Plain loads made whole in one step: those of buffer records at issue (R227, R228), of launch records, and of the
sampler, the ray unit and the matrix unit (R133). -/

namespace Sys2Proof.Machine

/-- A load of host or peer memory made so is captured, whatever it gives (R356). -/
def DevRes.captured (r : DevRes (List W8)) (t va n : Nat) : DevRes (List W8) :=
  match r with
  | .ok b s => .ok b (s.captureRead t va n (.ok b))
  | .fault c s => .fault c (s.captureRead t va n (.error c))
  | .later s => .later s

/-- In replay it comes from the copybook (R358); a context that has diverged is no more. -/
def State.replayLoad (s : State) (t va n : Nat) : DevRes (List W8) :=
  match s.cpbRead t va n false with
  | (none, s1) => .later s1
  | (some (b, st), s1) => if st = 0 then .ok b s1 else .fault (BitVec.ofNat 6 st) s1

/-- A load by a core of a place to which va translates, from a level of its path up, with what correctable errors it meets: the bytes; a
cause, of a host read that fails (R178) or of a peer (R181); or `later`, while a peer's answer has not come. Bytes of a line with an
uncorrectable error are 0 (R145). -/
def State.loadAt (s : State) (t c lvl va : Nat) (tgt : Target) (n : Nat) : DevRes (List W8) :=
  let got := fun (s : State) (l : List (Option W8)) => let r := s.resolve l; DevRes.ok r.1 r.2
  match tgt with
  | .dev pa key => let s1 := s.countCe t true pa n; got s1 (s1.maskUe true pa (s1.readBytes c lvl true pa n key))
  | .host a _ =>
    if s.replaying t then s.replayLoad t va n
    else (if s.down a n && !s.buffered c lvl a n then .fault 0x10 s else got s (s.readBytes c lvl false a n 0)).captured t va n
  | .peer p pctx a =>
    let f := farAddr p pctx a
    if s.replaying t then s.replayLoad t va n
    else if s.buffered c lvl f n then (got s (s.readBytes c lvl false f n 0)).captured t va n
    else
      DevRes.captured (match s.peerRead t p pctx a n with
        | .ok b s1 => .ok (s1.overlay c lvl f b) s1
        | r => r) t va n
  | .loc _ => .fault 0x0D s

/-- The lines with an uncorrectable error that a load of a place meets. -/
def State.ueAt (s : State) (tgt : Target) (n : Nat) : List Nat :=
  match tgt with
  | .dev pa _ => s.ueLines true pa n
  | _ => []

/-- A record of n bytes is loaded whole for a warp, plainly. With STRICT = 1 a line with an uncorrectable error is cause 0x1B, unless
`quiet`: the instructions that never trap so (R145). -/
def State.recLoad (s : State) (g w va n : Nat) (quiet : Bool) : DevRes (List W8) :=
  let t := (s.wg g).ctx
  match s.translate t 0 va n .read (some (g, w)) with
  | .fault x e => .fault x (s.missed t (some (g, w)) e)
  | .mig e => .later ((s.missed t (some (g, w)) e).keepReads t)
  | .ok tgt e =>
    let s1 := s.translated t (some (g, w)) e
    let hit := s1.ueAt tgt n
    let s2 := s1.meetLines t (some (g, w)) hit
    if !hit.isEmpty && !quiet && (s.cctx t 0x10A).getLsbD 0 then .fault 0x1B s2 else s2.loadAt t (s.coreOf g) 1 va tgt n

/-- A buffer record (R227). -/
structure PoolRec where
  base   : Nat
  size   : Nat
  kind   : Nat
  srgb   : Bool
  stride : Nat
  fmt    : Nat
  levels : Nat
  layers : Nat
  rmap   : Nat
  valid  : Bool
  deriving DecidableEq, Repr

/-- Reads the fields of a record; `valid` when it breaks no rule of R227's table. -/
def PoolRec.parse (b : List W8) : PoolRec :=
  let w1 := leVal ((b.drop 8).take 8)
  let w2 := leVal ((b.drop 0x14).take 4)
  { base := leVal (b.take 8), size := bits w1 39 0, kind := bits w1 43 40, srgb := bit w1 44
    stride := leVal ((b.drop 0x10).take 4), fmt := bits w2 7 0, levels := bits w2 11 8, layers := bits w2 23 12
    rmap := leVal ((b.drop 0x18).take 8)
    valid := decide (bits w1 63 45 = 0) && decide (bits w2 31 24 = 0) && decide (bits w1 43 40 < 4)
      && decide (bits w2 7 0 < 10) && (decide (bits w1 43 40 ≠ 2) || decide (leVal ((b.drop 0x10).take 4) = 0)) }

/-- Bytes per texel of a format (R227). -/
def texelBytes (fmt : Nat) : Nat :=
  match fmt with
  | 0 => 1 | 1 => 2 | 2 => 4 | 3 => 2 | 4 => 4 | 5 => 8 | 6 => 4 | 7 => 8 | 8 => 16 | _ => 4

/-- What reading the record of an instruction gives: the record; a cause; or a wait, with the state it leaves. -/
inductive RecRes where
  | ok (p : PoolRec) (b : List W8) (s : State)
  | fault (c : Cause) (va : Nat) (s : State)
  | wait (s : State) (l : List Wait)

/-- Reads the buffer record of an instruction by a plain load at issue (R228), which waits like any load for the warp's earlier
operations (R121) and for MIG (R154). -/
def State.readRec (s : State) (c : Cx) (quiet : Bool) : RecRes :=
  let va := bits (s.cctx (s.wg c.g).ctx 0x106).toNat 55 5 * 32 + 32 * c.f.ext.toNat
  if !(s.warp c.g c.w).allPerformed then .wait s [.performed]
  else
    match s.recLoad c.g c.w va 32 quiet with
    | .ok b s1 => .ok (PoolRec.parse b) b s1
    | .fault x s1 => .fault x va s1
    | .later s1 => .wait s1 [.mig (s.now c.g + 256)]

/-- The pool record of an instruction (R228): its index check, the load of the record, and the check of its KIND against those the
instruction takes; with `rt` a record that breaks R227 in any field, its KIND among them, raises 0x2B. -/
def State.poolRec (s : State) (c : Cx) (kinds : List Nat) (rt quiet : Bool) (k : PoolRec → List W8 → State → Res) : Res :=
  if min 65536 (bits (s.cctx (s.wg c.g).ctx 0x107).toNat 16 0) ≤ c.f.ext.toNat then c.raise 0x2A
  else
    match s.readRec c quiet with
    | .wait s1 l => .waitIn s1 l
    | .fault x va s1 => .trapIn s1 x c.act (BitVec.ofNat 64 va) 0
    | .ok p b s1 =>
      if rt && !p.valid then .trapIn s1 0x2B c.act 0 0
      else if !kinds.contains p.kind ∨ (!rt ∧ 10 ≤ p.fmt) then .trapIn s1 0x29 c.act 0 0
      else k p b s1

/-- The checks of a pool record as checks that need no register (R215 step 7). -/
def poolPre (kinds : List Nat) (rt quiet : Bool) (more : PoolRec → Option Cause) (c : Cx) (s : State) : Option Res :=
  match s.poolRec c kinds rt quiet fun p _ s1 => match more p with | some x => .trapIn s1 x c.act 0 0 | none => .done s1 with
  | .done _ => none
  | r => some r

/-! Unit loads of the sampler and the ray unit (R133, R145). -/

/-- n bytes of a place to which va translates, as a plain load of core c that may leave copy entries; marked lines read as zeros. -/
def State.unitLoad (s : State) (t c va : Nat) (tgt : Target) (n : Nat) : DevRes (List W8) :=
  match s.loadAt t c 1 va tgt n with
  | .fault x s1 => .fault x s1
  | .later s1 => .later s1
  | .ok b s1 =>
    let copies := (if Config.freeBit s1.free then 1 else 0) + (if Config.freeBit (s1.free + 1) then 2 else 0)
      + if Config.freeBit (s1.free + 2) then 4 else 0
    let s2 := { s1 with free := s1.free + 3 }
    .ok b (match tgt.cell t with | some (dev, a, key) => s2.leaveCopies c copies dev a key b | none => s2)

end Sys2Proof.Machine
end

