-- ==== Sys2Proof/Machine/Scalar.lean ====
section
/-! DEFINITION. Scalar arithmetic and logic (R235 to R240). -/

namespace Sys2Proof.Machine

/-- The width W of a scalar type (R235). -/
def sWidth (t : Ty) : Nat := if t = .i64 ∨ t = .n64 then 64 else 32

/-- The result written to sD (R235): res modulo 2^W, sign-extended for i32, zero-extended for n32 and b32. -/
def sExtend (t : Ty) (r : Int) : W64 :=
  let m := lowBits (sWidth t) r
  if t = .i32 then BitVec.ofInt 64 (sInt 32 m) else BitVec.ofNat 64 m

/-- Operand a: the low W bits of sA. -/
def Cx.a (c : Cx) : Nat := c.sA.toNat % 2 ^ sWidth c.f.ty
/-- The 64 bits of source B: sB, or IMM32 sign-extended in the 96-bit form (R213). -/
def Cx.b64 (c : Cx) : W64 := if c.f.len = .f96 then c.imm64 else c.sB
/-- Operand b: its low W bits. -/
def Cx.b (c : Cx) : Nat := c.b64.toNat % 2 ^ sWidth c.f.ty

/-- A scalar instruction of R236: sD := extend(OP(a, b)). -/
def alu (op : Ty → Nat → Nat → Int) (c : Cx) (s : State) : Res :=
  .done (s.setS c (sExtend c.f.ty (op c.f.ty c.a c.b)))

def opAdd (_ : Ty) (a b : Nat) : Int := a + b
def opSub (_ : Ty) (a b : Nat) : Int := (a : Int) - b
def opMul (_ : Ty) (a b : Nat) : Int := a * b
/-- The high W bits of the exact product. -/
def opMulh (t : Ty) (a b : Nat) : Int := (tyInt t (sWidth t) a * tyInt t (sWidth t) b) / (2 ^ sWidth t : Nat)
/-- Division towards zero; by 0, all bits 1. The overflow case wraps to −2^(W−1). -/
def opDiv (t : Ty) (a b : Nat) : Int :=
  if b = 0 then -1 else (tyInt t (sWidth t) a).tdiv (tyInt t (sWidth t) b)
/-- Remainder with the sign of the dividend; by 0, the dividend. -/
def opRem (t : Ty) (a b : Nat) : Int :=
  if b = 0 then tyInt t (sWidth t) a else (tyInt t (sWidth t) a).tmod (tyInt t (sWidth t) b)
def opAnd (_ : Ty) (a b : Nat) : Int := ((a &&& b : Nat) : Int)
def opOr (_ : Ty) (a b : Nat) : Int := ((a ||| b : Nat) : Int)
def opXor (_ : Ty) (a b : Nat) : Int := ((a ^^^ b : Nat) : Int)
def opShl (t : Ty) (a b : Nat) : Int := if sWidth t ≤ b then 0 else ((a * 2 ^ b : Nat) : Int)
def opShr (t : Ty) (a b : Nat) : Int := if sWidth t ≤ b then 0 else ((a / 2 ^ b : Nat) : Int)
/-- Arithmetic shift, whatever the type. -/
def opSra (t : Ty) (a b : Nat) : Int :=
  if sWidth t ≤ b then (if 2 ^ (sWidth t - 1) ≤ a then -1 else 0) else sInt (sWidth t) a / (2 ^ b : Nat)
def opMin (t : Ty) (a b : Nat) : Int := min (tyInt t (sWidth t) a) (tyInt t (sWidth t) b)
def opMax (t : Ty) (a b : Nat) : Int := max (tyInt t (sWidth t) a) (tyInt t (sWidth t) b)

def execSadd (f : Fields) (s : State) := run (.sadd f) s (alu opAdd)
def execSsub (f : Fields) (s : State) := run (.ssub f) s (alu opSub)
def execSmul (f : Fields) (s : State) := run (.smul f) s (alu opMul)
def execSmulh (f : Fields) (s : State) := run (.smulh f) s (alu opMulh)
def execSdiv (f : Fields) (s : State) := run (.sdiv f) s (alu opDiv)
def execSrem (f : Fields) (s : State) := run (.srem f) s (alu opRem)
def execSand (f : Fields) (s : State) := run (.sand f) s (alu opAnd)
def execSor (f : Fields) (s : State) := run (.sor f) s (alu opOr)
def execSxor (f : Fields) (s : State) := run (.sxor f) s (alu opXor)
def execSshl (f : Fields) (s : State) := run (.sshl f) s (alu opShl)
def execSshr (f : Fields) (s : State) := run (.sshr f) s (alu opShr)
def execSsra (f : Fields) (s : State) := run (.ssra f) s (alu opSra)
def execSmin (f : Fields) (s : State) := run (.smin f) s (alu opMin)
def execSmax (f : Fields) (s : State) := run (.smax f) s (alu opMax)

/-- R237: 1 when the condition of SUB holds between a and b, else 0. -/
def scmpBody (c : Cx) (s : State) : Res :=
  let o := intOrder (tyInt c.f.ty (sWidth c.f.ty) c.a) (tyInt c.f.ty (sWidth c.f.ty) c.b)
  .done (s.setS c (if condHolds c.f.sub.toNat (some o) then 1 else 0))
def execScmp (f : Fields) (s : State) := run (.scmp f) s scmpBody

/-- R238: sD := sC ≠ 0 ? sA : sB. -/
def execSsel (f : Fields) (s : State) := run (.ssel f) s fun c s => .done (s.setS c (if c.sC ≠ 0 then c.sA else c.sB))
/-- R238: sD := sA. -/
def execSmov (f : Fields) (s : State) := run (.smov f) s fun c s => .done (s.setS c c.sA)
/-- R238: sD := sext64(IMM32). -/
def execSli (f : Fields) (s : State) := run (.sli f) s fun c s => .done (s.setS c c.imm64)
/-- R238: sD[63:32] := IMM32, sD[31:0] kept. -/
def execSliHi (f : Fields) (s : State) := run (.sliHi f) s fun c s =>
  .done (s.setS c (c.f.imm ++ ((s.warp c.g c.w).getS c.f.dst.toNat).setWidth 32))

/-- Leading zeros of a within w bits; w when a = 0. -/
def clz (w a : Nat) : Nat := if a = 0 then w else w - 1 - Nat.log2 a
/-- The number of 1 bits among the low w. -/
def popc (w a : Nat) : Nat := ((List.range w).filter fun i => bit a i).length

/-- R238. -/
def execSclz (f : Fields) (s : State) := run (.sclz f) s fun c s =>
  .done (s.setS c (sExtend c.f.ty (clz (sWidth c.f.ty) c.a : Nat)))
/-- R238. -/
def execSpopc (f : Fields) (s : State) := run (.spopc f) s fun c s =>
  .done (s.setS c (sExtend c.f.ty (popc (sWidth c.f.ty) c.a : Nat)))

/-- The position and clamped length of a bit field (R239). -/
def bfRange (w b : Nat) : Nat × Nat :=
  let pos := b % 256
  (pos, if w ≤ pos then 0 else min (b / 256 % 256) (w - pos))

/-- R239: extract, sign-extended for a signed type. -/
def bfExtract (signed : Bool) (w a b : Nat) : Int :=
  let r := bfRange w b
  let x := a / 2 ^ r.1 % 2 ^ r.2
  if signed ∧ 1 ≤ r.2 then sInt r.2 x else x

/-- R239: insert the low len bits of a into `into`. -/
def bfInsert (w a b into : Nat) : Nat :=
  let r := bfRange w b
  if r.2 = 0 then into
  else into - into / 2 ^ r.1 % 2 ^ r.2 * 2 ^ r.1 + a % 2 ^ r.2 * 2 ^ r.1

/-- R239. -/
def execSbfx (f : Fields) (s : State) := run (.sbfx f) s (alu fun t a b => bfExtract t.isSigned (sWidth t) a b)
/-- R239. -/
def execSbfi (f : Fields) (s : State) := run (.sbfi f) s fun c s =>
  let w := sWidth c.f.ty
  .done (s.setS c (sExtend c.f.ty (bfInsert w c.a c.b (c.sC.toNat % 2 ^ w) : Nat)))

/-- R240: BASE of a buffer record plus a displacement, as a long-latency producer (R27). -/
def saddrBody (c : Cx) (s : State) : Res :=
  s.poolRec c [0, 1, 2, 3] false false fun p _ s1 =>
    let d : List Reg := [.s c.f.dst.toNat]
    .done (s1.launchOp c d fun id =>
      { id := id, ins := c.held d, kind := .fill, ctx := (s1.wg c.g).ctx
        vals := [.s c.f.dst.toNat (BitVec.ofNat 64 p.base + c.imm64)] })
def execSaddr (f : Fields) (s : State) :=
  issue (.saddr f) s open_ (poolPre [0, 1, 2, 3] false false fun _ => none) saddrBody

end Sys2Proof.Machine
end

