-- ==== Sys2Proof/Machine/Control.lean ====
section
/-! DEFINITION. Branches, calls, the execution mask, predicates, and the small control instructions (R241 to R247,
R249 to R254, R191). -/

namespace Sys2Proof.Machine

/-- The target of a relative branch (R241). -/
def Cx.target (c : Cx) : W64 := c.ins.pc + c.imm64

/-- A branch or call target that is not a multiple of 4 raises 0x20, taken or not (R241). -/
def targetPre (c : Cx) (_ : State) : Option Res := if c.target.toNat % 4 ≠ 0 then some (c.raise 0x20) else none

/-- Goes to the target when the condition holds. -/
def branchIf (p : Bool) (c : Cx) (s : State) : Res := if p then .goto s c.target else .done s

def execBra (f : Fields) (s : State) := issue (.bra f) s open_ targetPre (branchIf true)
def execBz (f : Fields) (s : State) := issue (.bz f) s open_ targetPre fun c => branchIf (decide (c.sA = 0)) c
def execBnz (f : Fields) (s : State) := issue (.bnz f) s open_ targetPre fun c => branchIf (decide (c.sA ≠ 0)) c
def execBexz (f : Fields) (s : State) := issue (.bexz f) s open_ targetPre fun c s =>
  branchIf (decide ((s.warp c.g c.w).exec = 0)) c s

/-- A push onto a full return stack raises 0x21 (R243). -/
def pushPre (c : Cx) (s : State) : Option Res :=
  if 16 ≤ (s.warp c.g c.w).stack.length then some (c.raise 0x21) else none

/-- Pushes the address after the instruction (R241, R242). -/
def State.push (s : State) (c : Cx) : State := s.modWarp c.g c.w fun x => { x with stack := c.nextPc :: x.stack }

def execCall (f : Fields) (s : State) :=
  issue (.call f) s open_ (fun c s => (targetPre c s).or (pushPre c s)) fun c s => .goto (s.push c) c.target

/-- R242: the jump to sA; an address that is not a multiple of 4 raises 0x20. -/
def jumpTo (c : Cx) (s : State) : Res := if c.sA.toNat % 4 ≠ 0 then c.raise 0x20 else .goto s c.sA
def execJmp (f : Fields) (s : State) := run (.jmp f) s jumpTo
def execJmpLink (f : Fields) (s : State) :=
  issue (.jmpLink f) s open_ pushPre fun c s => if c.sA.toNat % 4 ≠ 0 then c.raise 0x20 else .goto (s.push c) c.sA

/-- R242: pops the youngest entry; an empty stack raises 0x22. -/
def retBody (c : Cx) (s : State) : Res :=
  match (s.warp c.g c.w).stack with
  | [] => c.raise 0x22
  | a :: rest => .goto (s.modWarp c.g c.w fun x => { x with stack := rest }) a
def execRet (f : Fields) (s : State) := run (.ret f) s retBody

/-- Sets exec (R244). -/
def State.setExec (s : State) (c : Cx) (v : W32) : State := s.modWarp c.g c.w fun x => { x with exec := v }

def execMand (f : Fields) (s : State) := run (.mand f) s fun c s =>
  .done (s.setExec c ((s.warp c.g c.w).exec &&& c.sA.setWidth 32))
def execMset (f : Fields) (s : State) := run (.mset f) s fun c s => .done (s.setExec c (c.sA.setWidth 32))
def execMget (f : Fields) (s : State) := run (.mget f) s fun c s =>
  .done (s.setS c ((s.warp c.g c.w).exec.setWidth 64))
def execMandn (f : Fields) (s : State) := run (.mandn f) s fun c s =>
  .done (s.setExec c ((s.warp c.g c.w).exec &&& ~~~(c.sA.setWidth 32)))

/-- R245: whole predicates, whatever exec holds. -/
def execPmovToScalar (f : Fields) (s : State) := run (.pmovToScalar f) s fun c s => .done (s.setS c c.sA)
def execPmovToPredicate (f : Fields) (s : State) := run (.pmovToPredicate f) s fun c s =>
  .done (s.modWarp c.g c.w fun x => x.setP c.f.dst.toNat (c.sA.setWidth 32))

/-- R246. -/
def execPlog (f : Fields) (s : State) := run (.plog f) s fun c s =>
  .done (s.setP c (plogOp c.f.sub.toNat (c.sA.setWidth 32) (c.sB.setWidth 32)))

/-- R247. -/
def execNop (f : Fields) (s : State) := run (.nop f) s fun _ s => .done s

/-- R249: age 0, and an exchange when a ready pending warp exists. -/
def execYield (f : Fields) (s : State) := run (.yield f) s fun c s =>
  .done (if (s.warp c.g c.w).active then s.exchange (s.subOf c.g c.w) (c.g, c.w) else s)

/-- R250: not ready for n cycles of the core's counter. -/
def execPause (f : Fields) (s : State) := run (.pause f) s fun c s =>
  let n := min c.b64.toNat (2 ^ 20)
  .done (if n = 0 then s else s.modWarp c.g c.w fun x => { x with paused := some (s.now c.g + n) })

/-- R250: the count of a pause expires. -/
def execPauseEnd (wg w : Nat) (s : State) : Host.Outcome State Fault Refusal :=
  match (s.warp wg w).paused with
  | some t => if t ≤ s.now wg then .next (s.modWarp wg w fun x => { x with paused := none }) else .next s
  | none => .next s

/-- R251. -/
def execCyc (f : Fields) (s : State) := run (.cyc f) s fun c s => .done (s.setS c (BitVec.ofNat 64 (s.now c.g)))

/-- R252: the cause IMM32 selects; any other value raises 0x06. -/
def trapBody (c : Cx) (_ : State) : Res :=
  if c.f.imm = 0 then .trapAfter 0x03
  else if c.f.imm.toNat ≤ 8 then .trapAfter (BitVec.ofNat 6 (0x37 + c.f.imm.toNat))
  else c.raise 0x06
def execTrapI (f : Fields) (s : State) := run (.trapI f) s trapBody
def execBrk (f : Fields) (s : State) := run (.brk f) s fun _ _ => .trapAfter 0x00

/-- Outside a handler: 0x23 (R253, R254). -/
def handlerPre (c : Cx) (s : State) : Option Res := if (s.warp c.g c.w).ih then none else some (c.raise 0x23)

/-- R191, R253; it waits until the unfinished instructions and the entries are 16 at most (R184, R189; log 76). -/
def execRte (f : Fields) (s : State) := issue (.rte f) s open_ handlerPre fun c s =>
  if !s.waitMet c.g c.w .refit then .wait [.refit] else .final (s.returnFromTrap c.g c.w)

/-- The entry a replay-queue instruction names: 0x23 outside a handler, 0x06 for an entry at or above RQN or a
non-zero IMM32[31:4] (R254). -/
def entryPre (c : Cx) (s : State) : Option Res :=
  (handlerPre c s).or
    (if 16 ≤ c.f.imm.toNat ∨ (s.warp c.g c.w).replay.length ≤ c.f.imm.toNat then some (c.raise 0x06) else none)

/-- Word w of a replay entry (R189). -/
def Issued.word (e : Issued) (w : Nat) : W64 :=
  if w = 0 then e.insn.setWidth 64
  else if w = 1 then (e.insn >>> 64).setWidth 64
  else if w = 2 then e.pc
  else if w = 3 then e.lmask.setWidth 64
  else if w < 8 then e.sop.getD (w - 4) 0
  else
    let v := e.vop.getD ((w - 8) / 16) zeroLanes
    (lane v (2 * ((w - 8) % 16) + 1)) ++ (lane v (2 * ((w - 8) % 16)))

/-- A list with element i set, padded to length n with a default. -/
def setPad {α : Type} (n i : Nat) (d v : α) (l : List α) : List α :=
  (List.range n).map fun k => if k = i then v else l.getD k d

/-- Sets word w of a replay entry (R254). -/
def Issued.setWord (e : Issued) (w : Nat) (v : W64) : Issued :=
  if w = 0 then { e with insn := e.insn.extractLsb' 64 64 ++ v }
  else if w = 1 then { e with insn := v ++ e.insn.setWidth 64 }
  else if w = 2 then e
  else if w = 3 then { e with lmask := v.setWidth 32 }
  else if w < 8 then { e with sop := setPad 4 (w - 4) 0 v e.sop }
  else
    let i := (w - 8) / 16
    let l := 2 * ((w - 8) % 16)
    let old := e.vop.getD i zeroLanes
    let new := mkLanes fun k =>
      if k = l then v.setWidth 32 else if k = l + 1 then v.extractLsb' 32 32 else lane old k
    { e with vop := setPad 8 i zeroLanes new e.vop }

/-- R254: sD := word w of entry e. -/
def rqrdBody (c : Cx) (s : State) : Res :=
  if 136 ≤ c.sA.toNat then c.raise 0x06
  else .done (s.setS c (((s.warp c.g c.w).replay.getD c.f.imm.toNat {}).word c.sA.toNat))
def execRqrd (f : Fields) (s : State) := issue (.rqrd f) s open_ entryPre rqrdBody

/-- R254: word w of entry e := sV. -/
def rqwrBody (c : Cx) (s : State) : Res :=
  if 136 ≤ c.sA.toNat then c.raise 0x06
  else .done (s.modWarp c.g c.w fun x =>
    { x with replay := modAt (fun e => e.setWord c.sA.toNat c.sB) c.f.imm.toNat x.replay })
def execRqwr (f : Fields) (s : State) := issue (.rqwr f) s open_ entryPre rqwrBody

/-- Removes a replay entry: its destinations fill with what they held before it issued (R191). -/
def Warp.dropEntry (x : Warp) (e : Nat) : Warp :=
  let d := x.replay.getD e {}
  let y := (d.held.filter fun r => x.empty.contains r && !x.rewritten.contains r).foldl (fun x r =>
    match r with
    | .s n => (match d.prior.find? (fun (p : Nat × W64) => p.1 = n) with | some p => x.setS n p.2 | none => x).markFull r
    | .v _ => x.markFull r) x
  { y with replay := y.replay.eraseIdx e }

/-- R191. -/
def execRqdrop (f : Fields) (s : State) := issue (.rqdrop f) s open_ entryPre fun c s =>
  .done (s.modWarp c.g c.w fun x => x.dropEntry c.f.imm.toNat)

end Sys2Proof.Machine
end

