-- ==== Sys2Proof/Machine/System.lean ====
section
/-! DEFINITION. CSR access and what particular CSRs do when written (R156, R161, R166, R175, R261 to R263), handles as
registers (R255, R256, R258), identity and priority (R259, R260). -/

namespace Sys2Proof.Machine

/-- The instance a CSR access acts on, by the CSR's scope (R261). -/
structure Unit_ where
  ctx     : Nat
  core    : Nat
  sub     : Nat
  cluster : Nat
  die     : Nat
  deriving DecidableEq, Repr

/-- The units of a warp. -/
def State.unitsOf (s : State) (g w : Nat) : Unit_ :=
  let c := s.coreOf g
  { ctx := (s.wg g).ctx, core := c, sub := s.subOf g w, cluster := clusterOf c, die := dieOf c }

/-- A stored CSR of a unit, as it reads: a field that is W alone reads 0 (it is never stored). -/
def State.csrAt (s : State) (u : Unit_) (sc : CsrScope) (n : Nat) : W64 :=
  match sc with
  | .ctx => s.cctx u.ctx n
  | .core => s.ccore u.core n
  | .sub => s.csub u.sub n
  | .cluster => s.ccluster u.cluster n
  | .die => s.cdie u.die n
  | .module => s.cmod n
  | .warp => 0

/-- Stores a CSR of a unit. -/
def State.putAt (s : State) (u : Unit_) (sc : CsrScope) (n : Nat) (v : W64) : State :=
  match sc with
  | .ctx => s.putCtx u.ctx n v
  | .core => s.putCore u.core n v
  | .sub => s.putSub u.sub n v
  | .cluster => s.putCluster u.cluster n v
  | .die => s.putDie u.die n v
  | .module => s.putMod n v
  | .warp => s

/-- Bytes of ring space that a die's graphs use (R52, R78, R87). -/
def Edge.demand (e : Edge) (live : Bool) : Nat :=
  let sz := 16 * (e.size + 1)
  e.slots * (sz + 16) + (if live && !e.sparse then 2 * e.keys * (sz + 8) else 0)

/-- A decoder that has frames to close still needs its cache. -/
def Decoder.needed (d : Decoder) : Bool := match d.until_ with | some f => Sys2Proof.Machine.later f (d.c + 1) | none => true

/-- The ring space that edge e of a graph takes: its ring from the first time the consumer runs here until the context is removed (R52),
also for a move that is asked for or in progress; a cache for each decoder; and the hold buffer of a move (R78, R87). -/
def Graph.ringBytes (g : Graph) (e : Nat) : Nat :=
  let x := g.edge e
  let in_ := fun (p : BitVec 16) => decide (p.getLsbD x.cons = g.far)
  let due := match g.move with | .some m => m.cut.getLsbD e && in_ m.place && !m.accepted | .none => false
  let here := x.pinned || in_ g.place || (match g.move with | .some m => (if m.accepted then in_ g.oldPlace else in_ m.place) | .none => false)
  let live := (match x.decoder with | .some d => d.needed | .none => false) || due
  let hold := match g.move with
    | .some m => m.cut.getLsbD e && m.stages.any fun st => st.toHere && !st.isOver && decide (st.stage = x.cons)
    | .none => false
  (if here then x.demand live else 0) + (if hold then x.holdMax * (16 * (x.size + 1) + 16) else 0)
    + if x.sparse then 0 else (x.older.filter Decoder.needed).length * (2 * x.keys * (16 * (x.size + 1) + 8))

/-- The ring space in use on a die. -/
def State.ringUse (s : State) (d : Nat) : Nat :=
  s.ctxs.foldl (fun n p => p.2.graphs.foldl (fun n q =>
    ((List.range q.2.edges.length).filter fun e => decide ((q.2.edge e).ringDie = d)).foldl (fun n e => n + q.2.ringBytes e) n) n) 0

/-- MIB of `ring_area` (R52): values above 64 act as 64. -/
def ringMib (v : W64) : Nat := min 64 (bits v.toNat 6 0)

/-- A write of a CSR that its access rules allow (R261): the fields written, and what the CSR's own rule adds; one of `rail_i`, of which
every field is R, changes nothing (R354). The result is a cause where the write raises one. -/
def State.writeCsr (s : State) (u : Unit_) (sc : CsrScope) (fs : List CsrField) (n : Nat) (v : W64) :
    Except Cause State :=
  let new := csrMerge fs (s.csrAt u sc n) v
  let s1 := s.putAt u sc n new
  if n = 0x118 ∧ bits (s.cmod 0x600).toNat 3 0 < bits v.toNat 3 0 then .error 0x36
  else if n = 0x602 then .ok s
  else if n = 0x400 ∧ ringMib new * 2 ^ 20 < s.ringUse u.die then .ok s
  else if n = 0x108 then
    .ok ((s1.cores.filter fun p => p.2.filter.ctx = u.ctx).foldl (fun s p =>
      s.modCore p.1 fun x => { x with filter := { x.filter with keys := [] } }) s1)
  else if n = 0x620 then .ok { s1 with cpbPos := 0, cpbSeq := 0, cpbOn := decide (bits new.toNat 1 0 ≠ 0) }
  else .ok s1

/-- A read of a CSR by a warp. -/
def State.readCsr (s : State) (g w n : Nat) (sc : CsrScope) : W64 :=
  if sc = .warp then (s.warp g w).csr n else s.csrAt (s.unitsOf g w) sc n

/-- Privilege of a `csrr` of CSR n, IMM32[11:0] (R261, R262). -/
def csrrPriv (n : Nat) (x : Warp) : Bool :=
  match csrFields n with
  | some (sc, fs) => !mayRead sc fs x.ih
  | none => false

/-- Privilege of a `csrw` (R262). -/
def csrwPriv (n : Nat) (x : Warp) : Bool :=
  match csrFields n with
  | some (sc, fs) => !mayWrite sc fs x.ih
  | none => false

/-- IMM32[31:12] set, or an unassigned number, raises 0x06 (R213, R261). -/
def csrPre (c : Cx) (_ : State) : Option Res :=
  if 4096 ≤ c.f.imm.toNat ∨ (csrFields c.f.imm.toNat).isNone then some (c.raise 0x06) else none

/-- Takes the oldest ready frame of a die (R161). -/
def State.sweepPop (s : State) (d : Nat) : W64 × State :=
  match (s.die d).ready with
  | [] => (BitVec.ofNat 64 (2 ^ 63), s)
  | i :: rest => (BitVec.ofNat 64 i, s.modDie d fun x => { x with ready := rest })

/-- R261: a read; `sweep_pop` pops. -/
def csrrBody (c : Cx) (s : State) : Res :=
  let n := c.f.imm.toNat
  match csrFields n with
  | none => c.raise 0x06
  | some (sc, _) =>
    if n = 0x405 then
      let r := s.sweepPop (s.unitsOf c.g c.w).die
      .done (r.2.setS c r.1)
    else .done (s.setS c (s.readCsr c.g c.w n sc))

def execCsrr (f : Fields) (s : State) := issue (.csrr f) s (csrrPriv (f.imm.toNat % 4096)) csrPre csrrBody
def execSweepPop (f : Fields) (s : State) := issue (.sweepPop f) s (csrrPriv (f.imm.toNat % 4096)) csrPre csrrBody

/-- Drops the cached translations that `tlb_inv` names (R156): all, or those of the 64 KiB page and of the 64 MiB page
that contains it. -/
def State.dropTlb (s : State) (t : Nat) (all : Bool) (page : Nat) : State :=
  s.modCtx t fun c =>
    { c with tlb := if all then [] else c.tlb.filter fun e => decide (e.page ≠ if e.big then page / 1024 else page) }

/-- R261 to R263 with the ordering of `tlb_inv` (R156) and `host_irq` (R175): a write. -/
def csrwBody (c : Cx) (s : State) : Res :=
  let n := c.f.imm.toNat
  let x := s.warp c.g c.w
  let u := s.unitsOf c.g c.w
  match csrFields n with
  | none => c.raise 0x06
  | some (sc, fs) =>
    if n = 0x105 then
      let all := bit c.sA.toNat 0
      let page := bits c.sA.toNat 55 16
      let pg := if all then none else some page
      if !x.allPerformed then .wait [.performed]
      else
        let s1 := s.warpRelease c.g c.w 4
        if !s1.waitMet c.g c.w (.xlat pg) then .waitIn s1 [.xlat pg] else .done (s1.dropTlb u.ctx all page)
    else if n = 0x114 then
      if !x.allPerformed then .wait [.performed]
      else
        let v := bits c.sA.toNat 5 0
        let s1 := s.warpRelease c.g c.w 5
        if (s1.warp c.g c.w).unacked then
          .trapIn (s1.modWarp c.g c.w fun x => { x with unacked := false }) 0x11 c.act 0 0
        else if !s1.waitMet c.g c.w .acks then .waitIn s1 [.acks]
        else .done (if v = 0 then s1 else s1.msix v)
    else if sc = .warp then .done (s.modWarp c.g c.w fun x => x.putCsr n c.sA)
    else
      match s.writeCsr u sc fs n c.sA with
      | .error e => c.raise e
      | .ok s1 => .done s1

def execCsrw (f : Fields) (s : State) := issue (.csrw f) s (csrwPriv (f.imm.toNat % 4096)) csrPre csrwBody
def execTlbInv (f : Fields) (s : State) := issue (.tlbInv f) s (csrwPriv (f.imm.toNat % 4096)) csrPre csrwBody
def execHostIrq (f : Fields) (s : State) := issue (.hostIrq f) s (csrwPriv (f.imm.toNat % 4096)) csrPre csrwBody
def execFbCtlWrite (f : Fields) (s : State) := issue (.fbCtlWrite f) s (csrwPriv (f.imm.toNat % 4096)) csrPre csrwBody

/-- SLOT and GEN of a register's low bits (R30). -/
def idSlot (v : W64) : Nat := bits v.toNat 11 0
def idGen (v : W64) : BitVec 4 := BitVec.ofNat 4 (bits v.toNat 15 12)

/-- R255: once sA is full, the acquire of R133 at WG, which lies at the lowest level of the path and so discards
nothing; the wait settles what the handle guarded (R111). -/
def execHwait (f : Fields) (s : State) := run (.hwait f) s fun c s =>
  .done ((s.acquire (s.coreOf c.g) 1).handleWaited c.g (bits c.sA.toNat 15 0))

/-- R256: bits [15:0] of a register that is empty at issue, in `was`; a full one with bit 22 set. -/
def htestBody (was : State) (c : Cx) (s : State) : Res :=
  let x := was.warp c.g c.w
  let v := if c.re then c.sA else x.getS c.f.sa.toNat
  .done (s.setS c (if x.isEmpty (.s c.f.sa.toNat) then (v.setWidth 16).setWidth 64 else v ||| 0x400000))
def execHtest (f : Fields) (s : State) := run (.htest f) s (htestBody s)

/-- R258, R31. DESIGN CHOICE (log 86): a slot that has not been taken since reset, which no rule names, counts as one whose generation has
passed: the handle is stale. -/
def hbindBody (c : Cx) (s : State) : Res :=
  let k := s.coreOf c.g
  let n := idSlot c.sA
  let h := (s.core k).slot n
  let d := c.f.dst.toNat
  if c.sB.toNat ≠ k ∨ h.gen ≠ idGen c.sA ∨ (s.core k).fresh ≤ n then
    .done (s.setS c (handleValue n (idGen c.sA) true 0x06 0))
  else if !h.live then .done (s.setS c h.final)
  else if 4 ≤ h.bound.length then c.raise 0x06
  else .done ((s.modSlot k n fun h => { h with bound := h.bound ++ [(c.g, c.w, d)] }).modWarp c.g c.w fun x =>
    (x.setS d (handleId n h.gen)).markEmpty (.s d))
def execHbind (f : Fields) (s : State) := run (.hbind f) s hbindBody

/-- The value of a `getid` selector that goes to a scalar register (R259). -/
def State.identity (s : State) (c : Cx) : W64 :=
  let x := s.wg c.g
  let w := s.warp c.g c.w
  match c.f.imm.toNat with
  | 1 => BitVec.ofNat 64 c.w
  | 2 => BitVec.ofNat 64 x.warps.length
  | 3 => x.num.setWidth 64
  | 4 => x.count.setWidth 64
  | 5 => BitVec.ofNat 64 x.stageNo
  | 6 => x.frame.setWidth 64
  | 7 => x.arg
  | 8 => BitVec.ofNat 64 x.ctx
  | 9 => BitVec.ofNat 64 x.queue
  | 10 => BitVec.ofNat 64 x.core
  | 11 => BitVec.ofNat 64 ((x.b + c.w) % 4)
  | 12 => BitVec.ofNat 64 (s.slotOf c.g c.w)
  | 13 => BitVec.ofNat 64 w.prio
  | 14 => BitVec.ofNat 64 w.eprio
  | _ => if x.role then 1 else 0

/-- R259. -/
def execGetid (f : Fields) (s : State) := run (.getid f) s fun c s =>
  if c.f.imm = 0 then .done (s.setV c (mkLanes fun l => BitVec.ofNat 32 l)) else .done (s.setS c (s.identity c))

/-- R260: the base priority, clamped to the launch's (R23). -/
def execSprio (f : Fields) (s : State) := run (.sprio f) s fun c s =>
  .done (s.modWarp c.g c.w fun x => { x with prio := min c.b64.toNat (s.wg c.g).basePrio })

end Sys2Proof.Machine
end

