-- ==== Sys2Proof/Machine/Barrier.lean ====
section
/-! DEFINITION. The workgroup barrier, stage barriers and release waves (R42, R43, R131, R140 to R143, R295, R296). -/

namespace Sys2Proof.Machine

/-- The frequency of a cluster in MHz (R350): level n runs at 1,000 + 100 n, the boost point (16) at 2,700. -/
def Cluster.mhz (k : Cluster) : Nat := if k.level = 16 then 2700 else 1000 + 100 * k.level

/-- The distance D between release waves (R42), none when staggering is disabled. -/
def State.waveDist (s : State) (g : Nat) : Option Nat :=
  let k := clusterOf (s.coreOf g)
  let slope := bits (s.ccluster k 0x300).toNat 15 0
  if slope = 0 then none else some ((8 * (s.cluster k).mhz + slope - 1) / slope)

/-- Opens a barrier for the warps that wait at it (R42): the first wave is released at once, later ones D cycles apart. -/
def State.openBarrier (s : State) (g : Nat) (b : Option Nat) (waiting : List Nat) : State :=
  let l := (List.range 32).filter waiting.contains
  let first := match s.waveDist g with | none => l | some _ => l.take 4
  let rest := l.drop first.length
  let s1 := first.foldl (fun s w => s.unblock g w) s
  match s.waveDist g, rest with
  | some d, _ :: _ => s1.modWg g fun x => { x with waves := x.waves ++ [{ sbar := b, rest := rest, dist := d, next := s.now g + d }] }
  | _, _ => s1

/-- The warps of a workgroup that have ended. -/
def Wg.endedCount (x : Wg) : Nat := (x.warps.filter (·.ended)).length

/-- The workgroup barrier opens when the arrived and the ended warps are all of them (R295). -/
def State.checkBar (s : State) (g : Nat) : State :=
  let x := s.wg g
  if x.barArr.isEmpty ∨ x.barArr.length + x.endedCount < x.warps.length then s
  else (s.modWg g fun y => { y with barArr := [] }).openBarrier g none x.barArr

/-- A stage barrier of a workgroup. -/
def Wg.sbar (x : Wg) (b : Nat) : Sbar := x.sbars.getD b {}
/-- Updates a stage barrier. -/
def State.modSbar (s : State) (g b : Nat) (f : Sbar → Sbar) : State :=
  s.modWg g fun x => { x with sbars := modAt f b x.sbars }

/-- A stage barrier opens when every warp has arrived or ended and GOT = EXP (R141); with GOT below EXP the timeout of
R143 starts. -/
def State.checkSbar (s : State) (g b : Nat) : State :=
  let x := s.wg g
  let z := x.sbar b
  if z.broken ∨ z.arr.isEmpty ∨ z.arr.length + x.endedCount < x.warps.length then s
  else if z.got = z.exp then
    (s.modSbar g b fun z => { z with exp := 0, got := 0, arr := [], phase := !z.phase, since := none }).openBarrier g (some b) z.arr
  else if z.got.toNat < z.exp.toNat ∧ z.since.isNone then s.modSbar g b fun z => { z with since := some (s.now g) }
  else s

/-- Every barrier of a workgroup is examined, as when a warp ends. -/
def State.checkBars (s : State) (g : Nat) : State :=
  (List.range (s.wg g).sbars.length).foldl (fun s b => s.checkSbar g b) (s.checkBar g)

/-- The warps waiting at a stage barrier raise a cause; their arrivals end (R141 to R143). -/
def State.failSbar (s : State) (g b : Nat) (c : Cause) : State :=
  let arr := ((s.wg g).sbar b).arr
  arr.foldl (fun s w => s.trapBlocked g w c (BitVec.ofNat 64 b))
    (s.modSbar g b fun z => { z with arr := [], since := none })

/-- Bytes are delivered to a stage barrier (R141, R142). -/
def State.deliver (s : State) (g b n : Nat) : State :=
  let z := (s.wg g).sbar b
  if z.broken ∨ (s.wg g).ended then s
  else if z.exp.toNat < z.got.toNat + n then (s.modSbar g b fun z => { z with broken := true }).failSbar g b 0x16
  else (s.modSbar g b fun z => { z with got := z.got + BitVec.ofNat 32 n }).checkSbar g b

/-- An instruction that has acted and waits inside itself, after which `k` may end the wait. -/
def blockThen (c : Cx) (s : State) (wt : Wait) (k : State → State) : Res := .final (k (s.conclude c (.block s wt)))

/-- R295: the arrival waits for the warp's earlier operations, as a `fence.rel.wg` (R131). -/
def barBody (c : Cx) (s : State) : Res :=
  if !(s.warp c.g c.w).allPerformed then .wait [.performed]
  else blockThen c (s.modWg c.g fun x => { x with barArr := x.barArr ++ [c.w] }) .bar fun t => t.checkBar c.g
def execBar (f : Fields) (s : State) := run (.bar f) s barBody

/-- The barrier an `sbar` names. -/
def Cx.bar (c : Cx) : Nat := c.f.dst.toNat

/-- R141: EXP := EXP + n. -/
def execSbarExpect (f : Fields) (s : State) := run (.sbarExpect f) s fun c s =>
  .done ((s.modSbar c.g c.bar fun z => { z with exp := z.exp + c.b64.setWidth 32 }).checkSbar c.g c.bar)

/-- R141, R142: arrive and wait; a BROKEN barrier raises 0x16. -/
def sbarArrBody (c : Cx) (s : State) : Res :=
  if ((s.wg c.g).sbar c.bar).broken then .trap 0x16 c.act 0 (BitVec.ofNat 64 c.bar)
  else if !(s.warp c.g c.w).allPerformed then .wait [.performed]
  else blockThen c (s.modSbar c.g c.bar fun z => { z with arr := z.arr ++ [c.w] }) (.sbar c.bar) fun t =>
    t.checkSbar c.g c.bar
def execSbarArr (f : Fields) (s : State) := run (.sbarArr f) s sbarArrBody

/-- R141: clears BROKEN, EXP, GOT and ARR; the waiting warps raise 0x17. -/
def execSbarReset (f : Fields) (s : State) := run (.sbarReset f) s fun c s =>
  .done ((s.failSbar c.g c.bar 0x17).modSbar c.g c.bar fun z => { z with broken := false, exp := 0, got := 0 })

/-- The waves left once one of an opening's has been released. -/
def nextWaves (bar : Nat) (l : List Wave) : List Wave :=
  let m := modAt (fun v => { v with rest := v.rest.drop 4, next := v.next + v.dist }) bar l
  m.filter fun v => !v.rest.isEmpty

/-- R42: D cycles after the previous wave, the next four warps are released; `bar` is the place of the opening among
those still releasing. -/
def execBarrierReleaseWave (wg bar : Nat) (s : State) : Host.Outcome State Fault Refusal :=
  match (s.wg wg).waves[bar]? with
  | none => .next s
  | some v =>
    if s.now wg < v.next then .next s
    else
      let s1 := (v.rest.take 4).foldl (fun s w => s.unblock wg w) s
      .next (s1.modWg wg fun x => { x with waves := nextWaves bar x.waves })

/-- R143: the count of a stage barrier expires; a delivery in that cycle comes first. -/
def execSbarTimeout (wg bar : Nat) (s : State) : Host.Outcome State Fault Refusal :=
  let n := bits (s.ccore (s.coreOf wg) 0x204).toNat 31 0
  match ((s.wg wg).sbar bar).since with
  | none => .next s
  | some t =>
    let broken := (s.modSbar wg bar fun z => { z with broken := true }).failSbar wg bar 0x17
    if n = 0 ∨ (s.wg wg).saved ∨ s.now wg < t + n ∨ ((s.wg wg).sbar bar).broken then .next s
    else if s.now wg = t + n then .next ((s.sameCycle (Tick.onCore (s.coreOf wg)) (.sbarTimeout wg bar)).getD broken)
    else .next broken

end Sys2Proof.Machine
end

