-- ==== Sys2Proof/Machine/Formats.lean ====
section
/-! DEFINITION. Taper8, the narrow integers and the format slots (R94 to R102). -/

namespace Sys2Proof.Machine

/-! Taper8 (R97, R98). -/

/-- The magnitude of a code c in 0 to 127, in units of 2^−19 (R97). -/
def taperUnits (c : Nat) : Nat :=
  if c = 0 then 0
  else
    let z := 6 - Nat.log2 c
    let rest := c - 2 ^ (6 - z)
    let fw := 4 - z
    let base := if z < 5 then 19 - 4 * z else if z = 5 then 1 else 0
    (2 ^ fw + rest % 2 ^ fw) * 2 ^ (base + rest / 2 ^ fw) / 2 ^ fw

/-- The value of a Taper8 byte (R97). -/
def taperValue (x : Nat) : FVal :=
  let c := x % 128
  if c = 0 ∧ bit x 7 then .nan else .fin (bit x 7) (taperUnits c) 1 (-19)

/-- The code nearest to a magnitude, ties to an even code, saturating (R98). -/
def taperCode (n d : Nat) (e : Int) : Nat :=
  let p := scaleDiv n d (e + 20)
  let t := 2 * p.1 + if p.2.1 = 0 then 0 else 1
  ((List.range 127).filter fun c =>
    let m := 2 * (taperUnits c + taperUnits (c + 1))
    decide (m < t) || (decide (m = t) && decide (c % 2 = 1))).length

/-- A value rounded into Taper8 (R98). -/
def taperBits : FVal → Nat
  | .nan => 0x80
  | .inf neg => if neg then 0xFF else 0x7F
  | .fin neg n d e =>
    let c := taperCode n d e
    if c = 0 then 0 else c + if neg then 128 else 0

/-! Elements (R94 to R99): 0 FP32, 1 BF16, 2 FP16, 3 Taper8, 4 INT8, 5 INT4. -/

/-- The width of an element in bits. -/
def elemBits (elem : Nat) : Nat :=
  match elem with
  | 0 => 32 | 1 => 16 | 2 => 16 | 3 => 8 | 4 => 8 | _ => 4

/-- The value of an element; the reserved INT4 code is 0 (R96). -/
def elemValue (elem x : Nat) : FVal :=
  match elem with
  | 0 => decodeF fp32 x
  | 1 => decodeF bf16 x
  | 2 => decodeF fp16 x
  | 3 => taperValue x
  | 4 => FVal.ofInt (sInt 8 x)
  | _ => if x = 8 then FVal.ofInt 0 else FVal.ofInt (sInt 4 x)

/-- A value converted to an element in a rounding mode (R99). -/
def elemOf (elem mode : Nat) (v : FVal) : Nat :=
  match elem with
  | 0 => roundF fp32 mode v
  | 1 => roundF bf16 mode v
  | 2 => roundF fp16 mode v
  | 3 => taperBits v
  | 4 => lowBits 8 (v.toRange mode (-127) 127)
  | _ => lowBits 4 (v.toRange mode (-7) 7)

/-! Format slots (R100 to R102). -/

/-- The fields of a slot (R100). -/
structure Slot where
  elem   : Nat
  skind  : Nat
  bsize  : Nat
  axis   : Bool
  round  : Nat
  shaped : Bool
  zero   : Bool
  tscale : Nat
  addr   : Nat
  deriving DecidableEq, Repr

/-- Reads a slot's fields. -/
def Slot.ofBits (w : W128) : Slot :=
  let x := w.toNat
  { elem := bits x 3 0, skind := bits x 5 4, bsize := bits x 7 6, axis := bit x 8, round := bits x 11 9
    shaped := bit x 12, zero := decide (bits x 31 13 = 0), tscale := bits x 63 32, addr := bits x 127 64 }

/-- R101: the slot may be used. -/
def Slot.ok (f : Slot) : Bool :=
  decide (f.elem < 6) && decide (f.skind < 3) && !(decide (f.skind = 2) && decide (f.bsize = 3)) && decide (f.round < 5)
    && f.zero
    && !(decide (f.skind = 1) && (match decodeF fp32 f.tscale with | .fin _ _ _ _ => false | _ => true))
    && !(decide (f.skind = 2) && decide (f.elem = 0))
    && !(f.shaped && decide (f.elem < 3))

/-- The block size. -/
def Slot.block (f : Slot) : Nat := 16 * 2 ^ f.bsize

/-- The scale of a slot that has none or a per-tensor one (R102). -/
def Slot.scale (f : Slot) : FVal := if f.skind = 1 then decodeF fp32 f.tscale else FVal.ofInt 1

/-- Slot n of a workgroup; one whose template could not be read is invalid (R101). -/
def Wg.slot (x : Wg) (n : Nat) : Slot := Slot.ofBits (x.fs.getD n (BitVec.allOnes 128))

end Sys2Proof.Machine
end

