-- ==== Sys2Proof/Machine/Quant.lean ====
section
/-! DEFINITION. Accumulators and residue registers, and the shaped quantising store (R107 to R111, R315, R316). -/

namespace Sys2Proof.Machine

/-! Accumulator and residue words. One under an `mma` that nobody has waited for reads as free values (R111, R134). -/

/-- An accumulator is under an unwaited `mma` that was accepted before operation id. -/
def Wg.tainted (x : Wg) (a id : Nat) : Bool := x.taint.any fun p => decide (p.1 = a) && decide (p.2.1 < id)

/-- Word i of accumulator a for operation id; an undefined one is the k-th free value drawn. -/
def State.accWord (s : State) (g id a i k : Nat) : W32 :=
  let x := s.wg g
  if x.tainted a id ∨ x.accUndef.contains a then Config.freeWord (s.free + k) else SMap.get (4096 * a + i) 0 x.accs

/-- Entry i of residue register c. -/
def State.cyWord (s : State) (g id c i k : Nat) : W32 :=
  let x := s.wg g
  if x.tainted c id ∨ x.cyUndef.contains c then Config.freeWord (s.free + k) else SMap.get (64 * c + i) 0 x.cys

/-- Writes words of an accumulator; a write under an unwaited `mma` leaves it undefined (R134). -/
def State.putAcc (s : State) (g id a : Nat) (ws : List (Nat × W32)) : State :=
  s.modWg g fun x =>
    { x.clean (ws.map fun p => accSoft a p.1) with
             accs := ws.foldl (fun m p => SMap.put (4096 * a + p.1) p.2 m) x.accs
             accUndef := if x.tainted a id ∧ !x.accUndef.contains a then a :: x.accUndef else x.accUndef }

/-- Writes entries of a residue register. -/
def State.putCy (s : State) (g id c : Nat) (ws : List (Nat × W32)) : State :=
  s.modWg g fun x =>
    { x.clean (ws.map fun p => cySoft c p.1) with
             cys := ws.foldl (fun m p => SMap.put (64 * c + p.1) p.2 m) x.cys
             cyUndef := if x.tainted c id ∧ !x.cyUndef.contains c then c :: x.cyUndef else x.cyUndef }

/-! Quantising (R107 to R109). -/

/-- A value clamped to ± the bound. -/
def clampF (c bound : FVal) : FVal :=
  if bound.lt c then bound else if c.lt bound.neg then bound.neg else c

/-- The bound |s| · H (R108). -/
def carryBound (elem : Nat) (sc : FVal) : FVal :=
  sc.abs.mul (if elem = 3 then .fin false 1 4 0 else .fin false 1 2 0)

/-- The largest value of a format with a sign, as a code. -/
def largest (elem : Nat) (neg : Bool) : Nat := elemOf elem 0 (.inf neg)

/-- The loop of R108 over one block whose scale is not 0: the codes and the carry. -/
def quantBlock (elem : Nat) (shaped : Bool) (sc : FVal) : FVal → List Nat → List Nat × FVal
  | c, [] => ([], c)
  | c, x :: xs =>
    let y := decodeF fp32 (roundF fp32 0 (FVal.add 0 (decodeF fp32 x) c))
    let p : Nat × FVal :=
      match y with
      | .nan => (if elem = 3 then 0x80 else 0, FVal.ofInt 0)
      | .inf neg => (largest elem neg, FVal.ofInt 0)
      | _ =>
        let q := elemOf elem 0 (y.div sc)
        let d := decodeF fp32 (roundF fp32 0 (FVal.add 0 y ((sc.mul (elemValue elem q)).neg)))
        (q, if shaped then clampF d (carryBound elem sc) else FVal.ofInt 0)
    let r := quantBlock elem shaped sc p.2 xs
    (p.1 :: r.1, r.2)

/-- The largest magnitude of the finite elements of a block; 0 when there are none (R109). -/
def maxAbs (l : List Nat) : FVal :=
  l.foldl (fun m x => match decodeF fp32 x with
    | .fin _ n d e => if m.lt (.fin false n d e) then .fin false n d e else m
    | _ => m) (FVal.ofInt 0)

/-- The scale that `qst` computes for a block, as BF16 bits (R109). -/
def blockScale (elem : Nat) (l : List Nat) : Nat :=
  roundF bf16 3 ((maxAbs l).div (if elem = 3 then .fin false 31 2 0 else if elem = 4 then FVal.ofInt 127 else FVal.ofInt 7))

/-- R108 over the blocks of a line: codes, block scales (BF16 bits) and the carry. -/
def quantBlocks (f : Slot) : FVal → List (List Nat) → List Nat × List Nat × FVal
  | c, [] => ([], [], c)
  | c, b :: bs =>
    let bits := blockScale f.elem b
    let sc := if f.skind = 2 then decodeF bf16 bits else f.scale
    let p : List Nat × FVal :=
      if sc.isZero then (b.map fun _ => 0, FVal.ofInt 0)
      else quantBlock f.elem f.shaped sc (clampF c (carryBound f.elem sc)) b
    let r := quantBlocks f p.2 bs
    (p.1 ++ r.1, bits :: r.2.1, r.2.2)

/-- A list cut into blocks of n. -/
def chunks {α : Type} (n : Nat) : Nat → List α → List (List α)
  | 0, _ => []
  | _, [] => []
  | k + 1, x :: xs => ((x :: xs).take n) :: chunks n k ((x :: xs).drop n)

/-- One line under a slot, from a carry (R107): codes, scales and the carry left. DESIGN CHOICE (log 90): a carry clamped to a bound that
is no FP32 number is rounded to nearest even, as the FP32 entry it becomes (R108 gives the bounds as exact). -/
def quantLine (f : Slot) (carry : Nat) (xs : List Nat) : List Nat × List Nat × Nat :=
  if f.elem < 3 then (xs.map fun x => elemOf f.elem f.round (decodeF fp32 x), [], 0)
  else
    let c := if f.shaped then decodeF fp32 carry else FVal.ofInt 0
    let r := quantBlocks f (if c.isNan then FVal.ofInt 0 else c)
      (chunks (if f.skind = 2 then f.block else max 1 xs.length) xs.length xs)
    (r.1, r.2.1, roundF fp32 0 r.2.2)

/-- The region descriptor (R315): first row and column, rows and columns. -/
def regionOf (x : W64) : Nat × Nat × Nat × Nat :=
  (bits x.toNat 5 0, bits x.toNat 13 8, bits x.toNat 21 16 + 1, bits x.toNat 29 24 + 1)

/-- The pitch of a transfer or store: packed rows are rounded up to a multiple of 4 (R304, R316). -/
def pitchOf (p rb : Nat) : Nat := if p % 2 ^ 32 = 0 then (rb + 3) / 4 * 4 else p % 2 ^ 32

/-- A range cut at every 8-byte boundary of its address: offset and size of each unit (R117). -/
def unitsOf : Nat → Nat → Nat → Nat → List (Nat × Nat)
  | 0, _, _, _ => []
  | k + 1, a, off, n =>
    if n = 0 then []
    else
      let m := min n (8 - (a + off) % 8)
      (off, m) :: unitsOf k a (off + m) (n - m)

/-- An address or a local offset. -/
def placeAtOff (loc : Bool) (a : Nat) : Place := if loc then .loc a else .va (a % 2 ^ 64)

/-- Units that write bytes to consecutive places. -/
def writeUnits (loc : Bool) (a : Nat) (b : List W8) : List EUnit :=
  (unitsOf (b.length + 1) a 0 b.length).map fun p =>
    { src := .val ((b.drop p.1).take p.2), dst := placeAtOff loc (a + p.1), size := p.2 }

/-- The codes of a row packed in their layout (R94). -/
def packRow (w : Nat) (l : List Nat) : List W8 :=
  leList (l.length * w / 8) (l.foldr (fun x acc => x + 2 ^ w * acc) 0)

/-- What a `qst` computes at its turn (R316): its stores, those of scales marked `late`; the new carries; a cause of its own; and the words
of the accumulator, and with a carry in of the residue register, that it reads (R108). -/
def State.qstCompute (s : State) (g id : Nat) (f : Fields) (sop : List W64) :
    List EUnit × List (Nat × W32) × List Cause × List Nat :=
  let x := s.wg g
  let sl := x.slot f.fs.toNat
  let a := f.sb.toNat
  let r := regionOf (sop.getD 2 0)
  let row0 := r.1
  let col0 := r.2.1
  let nr := r.2.2.1
  let nc := r.2.2.2
  let w := elemBits sl.elem
  let lines := if sl.axis then nc else nr
  let len := if sl.axis then nr else nc
  let elt := fun l j => (s.accWord g id a (if sl.axis then 64 * (row0 + j) + col0 + l else 64 * (row0 + l) + col0 + j)
    (64 * l + j)).toNat
  let carried := f.ext.getLsbD 0 && sl.shaped && decide (3 ≤ sl.elem)
  let out := (List.range lines).map fun l =>
    quantLine sl (if carried then (s.cyWord g id a l (4096 + l)).toNat else 0) ((List.range len).map (elt l))
  let code := fun i j => if sl.axis then ((out.getD j ([], [], 0)).1).getD i 0 else ((out.getD i ([], [], 0)).1).getD j 0
  let pitch := pitchOf (sop.getD 3 0).toNat (nc * w / 8)
  let loc := f.sub.getLsbD 0
  let elems := (List.range nr).flatMap fun i =>
    writeUnits loc ((sop.getD 0 0).toNat + i * pitch) (packRow w ((List.range nc).map (code i)))
  let nb := (len + sl.block - 1) / sl.block
  let sa := (BitVec.ofNat 64 sl.addr + f.imm.signExtend 64).toNat
  let scales := if sl.skind = 2 ∧ sa % 2 = 0 then
      (List.range lines).flatMap fun l =>
        (List.range nb).flatMap fun b =>
          (writeUnits false (sa + 2 * (l * nb + b)) (leList 2 (((out.getD l ([], [], 0)).2.1).getD b 0))).map fun u =>
            { u with late := true }
    else []
  (elems ++ scales,
    (List.range 64).map fun l => (l, BitVec.ofNat 32 (if l < lines then (out.getD l ([], [], 0)).2.2 else 0)),
    if sl.skind = 2 ∧ sa % 2 ≠ 0 then [0x09] else [],
    ((List.range nr).flatMap fun i => (List.range nc).map fun j => accSoft a (64 * (row0 + i) + col0 + j)) ++
      if carried then (List.range lines).map (cySoft a) else [])

end Sys2Proof.Machine
end

