-- ==== Sys2Proof/Machine/Tiles.lean ====
section
/-! DEFINITION. Tiles and their shapes (R300, R301) and the instructions that act on them without a handle (R302, R305 to
R307, R313). -/

namespace Sys2Proof.Machine

/-! Shapes (R301). -/

/-- The fields of a shape register. -/
structure TShape where
  width : Nat
  rows  : Nat
  cols  : Nat
  soff  : Nat
  deriving DecidableEq, Repr

/-- Reads a shape register. -/
def TShape.ofBits (x : W64) : TShape :=
  { width := bits x.toNat 5 0, rows := bits x.toNat 12 6, cols := bits x.toNat 22 13, soff := bits x.toNat 63 32 }

/-- A shape register from its fields. -/
def TShape.toBits (t : TShape) : W64 :=
  BitVec.ofNat 64 (t.width % 64 + 64 * (t.rows % 128) + 2 ^ 13 * (t.cols % 1024) + 2 ^ 32 * t.soff)

/-- R301: a valid shape. -/
def TShape.valid (t : TShape) : Bool :=
  (decide (t.width = 4) || decide (t.width = 8) || decide (t.width = 16) || decide (t.width = 32))
    && decide (1 ≤ t.rows) && decide (t.rows ≤ 64) && decide (1 ≤ t.cols)
    && decide (t.cols * t.width % 8 = 0) && decide (t.cols * t.width ≤ 2048)

/-- Row bytes. -/
def TShape.rb (t : TShape) : Nat := t.cols * t.width / 8

/-- The shape of a tile. -/
def Wg.tshape (x : Wg) (t : Nat) : TShape := TShape.ofBits (SMap.get t 0 x.tshapes)

/-- Writes a shape register; its bytes are operand bytes of `mma` (R134). -/
def State.putShape (s : State) (g t : Nat) (v : TShape) : State :=
  s.putOperands g ((List.range 8).map fun i => (shapeByte t i, v.toBits.extractLsb' (8 * i) 8))

/-! Elements. -/

/-- Element (r, c) of width w in an image of rows of 256 bytes (R300, R94). -/
def elemAt (byte : Nat → W8) (w r c : Nat) : Nat :=
  if w = 4 then
    let b := (byte (256 * r + c / 2)).toNat
    if c % 2 = 0 then b % 16 else b / 16
  else leVal ((List.range (w / 8)).map fun i => byte (256 * r + c * (w / 8) + i))

/-- The 16,384 bytes of a tile whose rows are packed codes of width w, and 0 elsewhere. -/
def tileImage (w : Nat) (rows : List (List Nat)) : List W8 :=
  (List.range 64).flatMap fun r =>
    let b := packRow w (rows.getD r [])
    b ++ List.replicate (256 - b.length) 0

/-- The bytes of a tile. -/
def Wg.tileAt (x : Wg) (t off : Nat) : W8 := SMap.get (tileByte t off) 0 x.tiles

/-- Writes a whole tile. -/
def State.putTile (s : State) (g t : Nat) (b : List W8) : State :=
  s.putOperands g (((List.range b.length).zip b).map fun p => (tileByte t p.1, p.2))

/-! What the instructions without a handle do (R305 to R307). -/

/-- Reserved INT4 codes are counted on the core (R96). -/
def State.countInt4 (s : State) (c n : Nat) : State := if n = 0 then s else s.countCore c 0x203 31 0 n

/-- Reads and converts one element between slots (R307). -/
def convertElem (x y : Slot) (e : Nat) : Nat := elemOf y.elem y.round (((elemValue x.elem e).mul x.scale).div y.scale)

/-- A written accumulator, or residue register, is defined again when no `mma` still acts on it. -/
def State.settleAcc (s : State) (g id a : Nat) : State :=
  s.modWg g fun x => if x.tainted a id then x else { x with accUndef := x.accUndef.filter (· ≠ a) }
def State.settleCy (s : State) (g id c : Nat) : State :=
  s.modWg g fun x => if x.tainted c id then x else { x with cyUndef := x.cyUndef.filter (· ≠ c) }

/-- The storage words of the used part of a tile. -/
def TShape.soft (t : TShape) (n : Nat) : List Nat :=
  (List.range t.rows).flatMap fun r => softOf ((List.range t.rb).map fun b => tileByte n (256 * r + b))

/-- The words that an instruction on tiles reads (R144). -/
def actSoft (i : Instr) (t : TShape) : List Nat :=
  match i with
  | .tmov f => (List.range 4096).map fun k => 4096 * f.sa.toNat + k
  | .ttrans f => t.soft f.sa.toNat
  | .tcvt f => t.soft f.sa.toNat
  | _ => []

/-- The effect of an instruction on tiles, accumulators and residue registers, `sh` the shape it works on; id places it
among the operations that the core has accepted (R111). Words with an uncorrectable error read as 0 (R145). -/
def State.matAct (s : State) (g id : Nat) (i : Instr) (sh : W64) : State :=
  let x := s.wg g
  let t := TShape.ofBits sh
  let s := if x.ue.isEmpty && x.ce.isEmpty then s else s.meetSoft g (actSoft i t) []
  match i with
  | .tzero f => s.putTile g f.dst.toNat (List.replicate 16384 0)
  | .azero f =>
    (s.putAcc g id f.dst.toNat ((List.range 4096).map fun k => (k, 0))).settleAcc g id f.dst.toNat
  | .cyzero f =>
    (s.putCy g id f.dst.toNat ((List.range 64).map fun k => (k, 0))).settleCy g id f.dst.toNat
  | .tmov f => s.putTile g f.dst.toNat ((List.range 16384).map (x.tileAt f.sa.toNat))
  | .ttrans f =>
    s.putTile g f.dst.toNat (tileImage t.width ((List.range t.cols).map fun j =>
      (List.range t.rows).map fun i => elemAt (x.tileAt f.sa.toNat) t.width i j))
  | .tcvt f =>
    let fx := x.slot f.fs.toNat
    let fy := x.slot (bits f.ext.toNat 2 0)
    let src := (List.range t.rows).map fun r => (List.range t.cols).map fun c => elemAt (x.tileAt f.sa.toNat) t.width r c
    let n := if fx.elem = 5 then (src.flatten.filter (· = 8)).length else 0
    (s.countInt4 (s.coreOf g) n).putTile g f.dst.toNat
      (tileImage (elemBits fy.elem) (src.map fun row => row.map (convertElem fx fy)))
  | _ => s

/-- What such an instruction writes and reads: tile t is t, accumulator a is 16 + a, residue register c is 24 + c. An
`oprdy` comes before every later write of a tile (R313). -/
def actWrites (i : Instr) : List Nat :=
  match i with
  | .tzero f => [f.dst.toNat]
  | .azero f => [16 + f.dst.toNat]
  | .cyzero f => [24 + f.dst.toNat]
  | .tmov f => [f.dst.toNat]
  | .ttrans f => [f.dst.toNat]
  | .tcvt f => [f.dst.toNat]
  | .oprdy _ => List.range 16
  | _ => []
def actReads (i : Instr) : List Nat :=
  match i with
  | .tmov f => [f.sa.toNat]
  | .ttrans f => [f.sa.toNat]
  | .tcvt f => [f.sa.toNat]
  | _ => []

/-- The array sees the tiles as they stand (R313): earlier values of their bytes are forgotten. -/
def State.tilesSeen (s : State) (g : Nat) : State :=
  s.modWg g fun x => { x with hist := x.hist.filter fun p => decide (2 ^ 20 ≤ p.1) }

/-- The array sees shapes and local memory as they stand (R313). -/
def State.othersSeen (s : State) (g : Nat) : State :=
  s.modWg g fun x => { x with hist := x.hist.filter fun p => decide (p.1 < 2 ^ 20) }

end Sys2Proof.Machine
end

