-- ==== Sys2Proof/Machine/Engine.lean ====
section
/-! DEFINITION. The engine queues (R119, R133, R292 to R294, R299, R304): the copy engine, the units of a matrix transfer,
completion and batches. -/

namespace Sys2Proof.Machine

/-! What matrix-unit operations name, for the order of R111 and R299. Tile t is t, accumulator a is 16 + a, residue
register c is 24 + c. -/

/-- What an operation in the queue has still to write. -/
def EOp.writes (e : EOp) : List Nat :=
  match e.kind with
  | .tile t => [t]
  | .acc a => [16 + a]
  | .cy c => [24 + c]
  | .qst f _ => if e.begun then [] else [24 + f.sb.toNat]
  | .act i _ => actWrites i
  | _ => []

/-- The number of a place of the tile register file. -/
def Place.file (p : Place) : List Nat :=
  match p with
  | .tile t _ => [t]
  | .acc a _ => [16 + a]
  | .cy c _ => [24 + c]
  | _ => []

/-- What it has still to read. -/
def EOp.readsOf (e : EOp) : List Nat :=
  match e.kind with
  | .qst f _ => if e.begun then [] else [16 + f.sb.toNat, 24 + f.sb.toNat]
  | .act i _ => actReads i
  | _ => e.reads.flatMap Place.file

/-- An earlier operation holds back one that reads and writes these (R299). -/
def EOp.holdsBack (e : EOp) (reads writes : List Nat) : Bool :=
  (e.writes.any fun x => reads.contains x || writes.contains x) || e.readsOf.any writes.contains

/-- The queued operation of a workgroup that holds back one with these reads and writes, if any (the youngest). -/
def State.holder (s : State) (g : Nat) (reads writes : List Nat) : Option Nat :=
  ((s.core (s.coreOf g)).eops.reverse.find? fun e => decide (e.wg = g) && e.holdsBack reads writes).map (·.id)

/-- A held instruction, and an `oprdy` among them. -/
def EOp.isAct (e : EOp) : Bool := match e.kind with | .act _ _ => true | _ => false
def EOp.isReady (e : EOp) : Bool := match e.kind with | .act (.oprdy _) _ => true | _ => false

/-- It writes memory only: none of the workgroup's registers, tiles, accumulators, residue registers or local memory (R15). -/
def EOp.memOnly (e : EOp) : Bool :=
  !e.isAct && e.writes.isEmpty && e.units.all fun u => match u.dst with | .va _ => true | _ => false
/-- It reads an accumulator or a residue register, which is saved only after it (R113). -/
def EOp.namesAcc (e : EOp) : Bool := e.readsOf.any fun n => decide (16 ≤ n)

/-- Updates a queued operation. -/
def State.modEop (s : State) (c id : Nat) (f : EOp → EOp) : State :=
  s.modCore c fun k => { k with eops := k.eops.map fun e => if e.id = id then f e else e }
/-- A queued operation. -/
def State.eop (s : State) (c id : Nat) : Option EOp := (s.core c).eops.find? fun e => e.id = id

/-- The operations in a warp's issue queue that are not performed (R133). -/
def State.unperformed (s : State) (g w : Nat) : List Nat := ((s.warp g w).ops.filter fun o => o.isMem && !o.performed).map (·.id)

/-- An operation of a warp enters the engine queue, with the handle slot it has taken (R133). -/
def State.enqueue (s : State) (g w : Nat) (slot : Option Nat) (kind : EKind) (units : List EUnit) (reads : List Place) : State :=
  let r := s.fresh
  r.2.modCore (s.coreOf g) fun k =>
    { k with eops := k.eops ++ [{ id := r.1, wg := g, w := w, ctx := (s.wg g).ctx, kind := kind, slot := slot
                                  after := s.unperformed g w, units := units, reads := reads }] }

/-- An instruction that returns a handle takes a slot for it, bound to its destination, or waits for one (R31). -/
def withSlot (c : Cx) (s : State) (k : State → Nat → Res) : Res :=
  match s.takeSlot (s.coreOf c.g) (s.wg c.g).ctx (some (c.g, c.w, c.f.dst.toNat)) with
  | none => .wait [.slot]
  | some (n, s1) => k s1 n

/-! Unit accesses. -/

/-- The scope of an engine operation's accesses; 0 is plain. -/
def EOp.scope (e : EOp) : Nat := match e.kind with | .copy sc _ => sc | _ => 0
/-- The level at which they act. -/
def EOp.level (e : EOp) : Nat := if e.scope = 0 then 1 else e.scope

/-- The issuing warp's own entries drain before a scoped access (R125). -/
def State.eprepare (s : State) (e : EOp) (dev : Bool) (a n : Nat) : State :=
  if e.scope = 0 then s else s.drainTo (s.coreOf e.wg) e.scope (ownRange e.wg e.w dev a n)

/-- Lines and storage words with an uncorrectable error that an engine operation meets are counted the first time (R145). -/
def State.eopUe (s : State) (c : Nat) (e : EOp) (lines : List Nat) : State :=
  let new := lines.filter fun l => !(((s.eop c e.id).map (·.ueLines)).getD []).contains l
  if new.isEmpty then s else (s.countUe e.ctx new.length).modEop c e.id fun e => { e with ueLines := e.ueLines ++ new }

/-- Updates a unit of an operation, which has begun. -/
def State.modEunit (s : State) (c id k : Nat) (f : EUnit → EUnit) : State :=
  s.modEop c id fun e => { e with begun := true, units := modAt f k e.units }

/-- A unit is performed with a cause, or without one. -/
def State.eunitDone (s : State) (c id k : Nat) (fault : Option Cause) : State :=
  (s.modEunit c id k fun u => { u with done := true, sent := false }).modEop c id fun e => { e with faults := e.faults ++ fault.toList }

/-- A stored unit of a copy counts for its stage barrier (R141). -/
def State.ecount (s : State) (e : EOp) (n : Nat) : State :=
  match e.kind with
  | .copy _ (some b) => s.deliver e.wg b n
  | _ => s

/-- A unit is performed once its bytes are written. -/
def State.eunitWritten (s : State) (c : Nat) (e : EOp) (k n : Nat) : State := (s.eunitDone c e.id k none).ecount e n

/-- What reading a unit's source gives: all its bytes; a cause; or the state to go on from later. -/
inductive ERead where
  | bytes (b : List W8) (s : State)
  | fault (c : Cause) (s : State)
  | wait (s : State)

/-- STRICT of a context (R145). -/
def State.strict (s : State) (t : Nat) : Bool := (s.cctx t 0x10A).getLsbD 0

/-- A unit reads words of its workgroup's storage; those with an uncorrectable error, which hold 0, count once for the operation and are
cause 0x1B while STRICT = 1 (R144, R145, R304). Their numbers stand above those of the lines. -/
def State.readSoft (s : State) (c : Nat) (e : EOp) (l : List Nat) (k : State → ERead) : ERead :=
  let bad := ((s.wg e.wg).badWords l).map (· + 2 ^ 40)
  let s1 := (s.meetSoft e.wg l l).eopUe c e bad
  if !bad.isEmpty && s.strict e.ctx then .fault 0x1B s1 else k s1

/-- Words of the tile register file as bytes; undefined ones are free values. -/
def State.wordBytes (s : State) (f : Nat → Nat → W32) (i n : Nat) : List W8 × State :=
  ((List.range (n / 4)).flatMap fun k => bytes32 (f (i + k) k), s.drew (n / 4))

/-- A read of a piece of a unit's source is sent to the host or a peer; `far` keeps its place, `got` what has been read before it. -/
def State.eunitSent (s : State) (c id k : Nat) (got : List W8) (a n copies : Nat) : State :=
  s.modEunit c id k fun u => { u with sent := true, far := [(a, n)], got := some got, copies := copies }

/-- A piece of a unit's source in the host's or a peer's memory, `a` its number in the buffers, `va` its address: from the buffers when
they hold all of it, else by a read that is sent (R124, R133, R178, R181); in replay from the copybook (R358). -/
def State.farPiece (s : State) (c : Nat) (e : EOp) (k : Nat) (got : List W8) (va a n copies : Nat) : ERead :=
  if s.replaying e.ctx then
    match s.cpbRead e.ctx va n false with
    | (some (b, st), s2) => if st = 0 then .bytes b s2 else .fault (BitVec.ofNat 6 st) s2
    | (none, s2) => .wait s2
  else
    let s1 := s.eprepare e false a n
    if s1.buffered c e.level a n then
      let r := s1.resolve (s1.readBytes c e.level false a n 0)
      let s2 := r.2.captureRead e.ctx va n (.ok r.1)
      .bytes r.1 (if e.scope = 0 then s2.leaveCopies c copies false a e.ctx r.1 else s2)
    else
      match farPlace a with
      | none => .wait (s1.eunitSent c e.id k got a n copies)
      | some (p, pctx, pa) =>
        if s1.streamDead e.ctx p then .fault 0x11 (s1.captureRead e.ctx va n (.error 0x11))
        else
          .wait ((s1.peerAsk e.ctx p { tag := 0, wg := e.wg, w := e.w, op := e.id, unit_ := k, write := false, eng := some (c, e.id) }
            0 0 n pctx pa 0 []).eunitSent c e.id k got a n copies)

/-- The effects of a translation that an engine makes for an operation (R133), whose lines with uncorrectable errors count once for the
operation (R145). -/
def State.engineWalked (s : State) (c : Nat) (e : EOp) (x : XEff) : State :=
  (s.eopUe c e (x.lines s)).walkDone e.ctx (some (e.wg, e.w)) x

/-- The effects of one that gave a cause, or waits. -/
def State.engineMissed (s : State) (c : Nat) (e : EOp) (x : XEff) : State := (s.engineWalked c e { x with drew := false }).drawn

/-- One piece of a unit's source in memory, which the engine translates for itself (R133). -/
def State.readPiece (s : State) (c : Nat) (e : EOp) (k : Nat) (paged : Bool) (got : List W8) (va n copies : Nat) : ERead :=
  match s.translateCut paged e.ctx va n .read (some (e.wg, e.w)) with
  | .mig x => .wait (s.engineMissed c e x)
  | .fault y x => .fault y (s.engineMissed c e x)
  | .ok tgt x =>
    let s1 := s.engineWalked c e x
    match tgt with
    | .dev pa key =>
      let s2 := s1.eprepare e true pa n
      let hit := s2.ueLines true pa n
      let s3 := s2.eopUe c e hit
      if !hit.isEmpty && s.strict e.ctx then .fault 0x1B s3
      else
        let r := (s3.countCe e.ctx true pa n).resolve (s3.maskUe true pa (s3.readBytes c e.level true pa n key))
        .bytes r.1 (if e.scope = 0 then r.2.leaveCopies c copies true pa key r.1 else r.2)
    | .host a _ => s1.farPiece c e k got va a n copies
    | .peer p pctx a => if (s1.peerAddr p).isNone then .fault 0x11 s1 else s1.farPiece c e k got va (farAddr p pctx a) n copies
    | .loc _ => .fault 0x0D s1

/-- The pieces of a unit's source that are still to be read, behind the bytes that have been. -/
def State.readPieces (c : Nat) (e : EOp) (k copies : Nat) (paged : Bool) : List (Nat × Nat) → List W8 → State → ERead
  | [], got, s => .bytes got s
  | (va, n) :: rest, got, s =>
    match s.readPiece c e k paged got va n copies with
    | .bytes b s1 => State.readPieces c e k copies paged rest (got ++ b) s1
    | r => r

/-- A unit reads its source (R133), checked as a whole against the heap window (R149); one that is paged and crosses a 64 KiB boundary in
two pieces. -/
def State.engineRead (s : State) (c : Nat) (e : EOp) (k : Nat) (u : EUnit) (copies : Nat) : ERead :=
  let got := u.got.getD []
  let of := fun (r : List W8 × State) => ERead.bytes r.1 r.2
  match u.src with
  | .val b => .bytes b s
  | .loc off => s.readSoft c e (softOf ((List.range u.size).map fun i => localByte (off + i))) fun s =>
      of (s.resolve ((s.wg e.wg).localBytes off u.size))
  | .tile t off => s.readSoft c e (softOf ((List.range u.size).map fun i => tileByte t (off + i))) fun s =>
      of (s.resolve ((List.range u.size).map fun i => (s.wg e.wg).operand (tileByte t (off + i))))
  | .acc a i => s.readSoft c e ((List.range (u.size / 4)).map fun j => accSoft a (i + j)) fun s =>
      of (s.wordBytes (s.accWord e.wg e.id a) i u.size)
  | .cy y i => s.readSoft c e ((List.range (u.size / 4)).map fun j => cySoft y (i + j)) fun s =>
      of (s.wordBytes (s.cyWord e.wg e.id y) i u.size)
  | .va va =>
    let cut := s.cutUnit e.ctx va u.size
    State.readPieces c e k copies cut.1 (if cut.1 then pagePieces 2 ((va + got.length) % 2 ^ 64) (u.size - got.length) else cut.2) got s

/-- Little-endian words of bytes, numbered from i. -/
def wordsFrom (i : Nat) (b : List W8) : List (Nat × W32) :=
  (List.range (b.length / 4)).map fun k => (i + k, BitVec.ofNat 32 (leVal ((b.drop (4 * k)).take 4)))

/-- A unit's store goes to a peer's memory itself, at DEV or SYS (R181): behind the warp's own stores to the bytes, a WRITE that is
performed with its answer, whose cause the handle takes (R293; log 89). -/
def State.engineToPeer (s : State) (c : Nat) (e : EOp) (k p pctx a : Nat) (b : List W8) : State :=
  let s1 := s.drainTo c 5 (ownRange e.wg e.w false (farAddr p pctx a) b.length)
  if (s1.peerAddr p).isNone ∨ s1.streamDead e.ctx p then s1.eunitDone c e.id k (some 0x11)
  else
    ((s1.peerStore e.ctx p pctx a b (some (e.wg, e.w)) (some (c, e.id)) k).relFlush e.ctx p).modEunit c e.id k fun u =>
      { u with sent := true, got := none }

/-- A unit writes its destination (R133); while the walk waits on MIG it keeps the bytes. DESIGN CHOICE (log 20): each unit is a store of its
own under R145, so that units that together cover a marked line count UE once, as stores of parts of it. -/
def State.engineWrite (s : State) (c : Nat) (e : EOp) (k : Nat) (u : EUnit) (b : List W8) : State :=
  match u.dst with
  | .val _ => (s.modEunit c e.id k fun u => { u with got := some b }).eunitDone c e.id k none
  | .loc off => (s.putLocal e.wg off b).eunitWritten c e k b.length
  | .tile t off =>
    (s.putOperands e.wg (((List.range b.length).zip b).map fun p => (tileByte t (off + p.1), p.2))).eunitDone c e.id k none
  | .acc a i => (s.putAcc e.wg e.id a (wordsFrom i b)).eunitDone c e.id k none
  | .cy y i => (s.putCy e.wg e.id y (wordsFrom i b)).eunitDone c e.id k none
  | .va va =>
    match s.translate e.ctx 0 va b.length .write (some (e.wg, e.w)) with
    | .mig x => (s.engineMissed c e x).modEunit c e.id k fun u => { u with sent := false, got := some b }
    | .fault y x => (s.engineMissed c e x).eunitDone c e.id k (some y)
    | .ok tgt x =>
      let s1 := s.engineWalked c e x
      let put := fun (dev : Bool) (a key : Nat) =>
        let s2 := s1.eprepare e dev a b.length
        let s3 := (s2.eopUe c e (s2.ueLines dev a b.length)).clearUe dev key a b.length
        (s3.place c e.level { age := 0, dev := dev, addr := a, key := key, bytes := b, store := true
                              own := some (e.wg, e.w) }).eunitWritten c e k b.length
      match tgt with
      | .dev pa key => put true pa key
      | .host a _ => put false a e.ctx
      | .peer p pctx a =>
        if 4 ≤ e.level then s1.engineToPeer c e k p pctx a b
        else if (s1.peerAddr p).isNone ∨ s1.streamDead e.ctx p then s1.eunitDone c e.id k (some 0x11)
        else put false (farAddr p pctx a) e.ctx
      | .loc _ => s1.eunitDone c e.id k (some 0x0D)

/-- The operation's turn has come: earlier operations of its warps are performed (R133), and no earlier matrix operation
holds it back (R299). An `oprdy` waits for the earlier instructions that the matrix unit holds, not for transfers (R313). -/
def State.eturn (s : State) (c : Nat) (e : EOp) : Bool :=
  (e.isAct || (s.wg e.wg).warps.all fun x => x.ops.all fun o => !e.after.contains o.id || o.performed)
    && (((s.core c).eops.takeWhile fun o => o.id ≠ e.id).all fun o =>
      decide (o.wg ≠ e.wg) || (if e.isReady then !o.isAct else !o.holdsBack e.readsOf e.writes))

/-- A held instruction acts at its turn, and is over. -/
def State.actNow (s : State) (c : Nat) (e : EOp) (i : Instr) (sh : W64) : State :=
  let s1 := s.modCore c fun k => { k with eops := k.eops.filter fun o => o.id ≠ e.id }
  if e.isReady then
    (s1.tilesSeen e.wg).modCore c fun k =>
      { k with mma := k.mma.map fun o => if o.after.contains e.id then
          { o with after := o.after.filter (· ≠ e.id), hist := o.hist.filter fun p => decide (2 ^ 20 ≤ p.1) } else o }
  else s1.matAct e.wg e.id i sh

/-- The addresses of a `qst`'s scales translate (R102): the causes that they find, none while a walk waits on MIG; and what the walks that
did not succeed have done. -/
def State.scalesFit (s : State) (c : Nat) (e : EOp) (l : List EUnit) : Option (List Cause) × State :=
  let r := (l.filter (·.late)).filterMap fun u => match u.dst with
    | .va a => some (s.translate e.ctx 0 a u.size .write (some (e.wg, e.w)))
    | _ => none
  (if r.any fun x => match x with | .mig _ => true | _ => false then none
    else some (r.filterMap fun x => match x with | .fault y _ => some y | _ => none),
    r.foldl (fun s x => match x with | .ok _ _ => s | .fault _ y => s.engineMissed c e y | .mig y => s.engineMissed c e y) s)

/-- A `qst` computes at its turn (R316): its carries are written and its stores become units, none of them when the address of a scale
is misaligned or does not translate (R102). One that finds an uncorrectable error in a word it reads, under STRICT = 1, computes nothing:
it leaves its residue register as it was and stores nothing (R145). -/
def State.beginQst (s : State) (c : Nat) (e : EOp) (f : Fields) (sop : List W64) : State :=
  let r := s.qstCompute e.wg e.id f sop
  match s.scalesFit c e r.1 with
  | (none, s1) => s1
  | (some fs, s1) =>
    let begin_ := fun (s : State) (bad : List Cause) =>
      (((s.drew (4096 + 64)).putCy e.wg e.id f.sb.toNat r.2.1).settleCy e.wg e.id f.sb.toNat).modEop c e.id fun e =>
        { e with begun := true, units := if bad.isEmpty then r.1.map fun u => { u with late := false } else [], faults := e.faults ++ bad }
    match s1.readSoft c e r.2.2.2 fun s => .wait (begin_ s (r.2.2.1 ++ fs)) with
    | .fault x s1 => s1.modEop c e.id fun e => { e with begun := true, units := [], faults := e.faults ++ [x] }
    | .bytes _ s1 => s1
    | .wait s1 => s1

/-- ENGINE_ACCESS: one unit of a queued operation. -/
def State.engineAccess (s : State) (c id k copies : Nat) : State :=
  match s.eop c id with
  | none => s
  | some e =>
    if e.cancelled ∨ !s.eturn c e then s
    else
      match e.kind, e.begun with
      | .qst f sop, false => s.beginQst c e f sop
      | .act i sh, _ => s.actNow c e i sh
      | _, _ =>
        match e.units[k]? with
        | none => s
        | some u =>
          if u.done || u.sent then s
          else
            match s.engineRead c e k u copies with
            | .bytes b t => t.engineWrite c e k u b
            | .fault x t => t.eunitDone c id k (some x)
            | .wait t => t

def execEngineAccess (core op unit copies : Nat) (s : State) : Host.Outcome State Fault Refusal :=
  .next (s.engineAccess core op unit copies)

/-- A read of an engine's unit returns (R178, R181): bytes, under what the buffers hold by then, which complete the unit's source or
leave a further piece to be read; or a cause. -/
def State.engineReturns (s : State) (c id k : Nat) (r : Except Cause (List W8)) : State :=
  match s.eop c id with
  | none => s
  | some e =>
    match e.units[k]? with
    | none => s
    | some u =>
      let got := u.got.getD []
      match r, u.src, u.far.head?, u.sent && !u.done with
      | .error x, .va va, some (_, n), true =>
        (s.captureRead e.ctx ((va + got.length) % 2 ^ 64) n (.error x)).eunitDone c id k (some x)
      | .ok b0, .va va, some (a, n), true =>
        let b := s.overlay c e.level a b0
        let s1 := s.captureRead e.ctx ((va + got.length) % 2 ^ 64) n (.ok b)
        let s2 := if e.scope = 0 then s1.leaveCopies c u.copies false a e.ctx b else s1
        if u.size ≤ got.length + b.length then s2.engineWrite c e k u (got ++ b)
        else s2.modEunit c id k fun u => { u with sent := false, far := [], got := some (got ++ b) }
      | _, _, _, _ => s

/-- The answer to a WRITE of an engine's unit: the unit is performed, or has found a cause, which host event 4 tells too (R181). -/
def State.engineWrote (s : State) (c id k : Nat) (cause : Option Cause) : State :=
  match s.eop c id with
  | none => s
  | some e =>
    match e.units[k]?, cause with
    | some u, none => if u.sent && !u.done then s.eunitWritten c e k u.size else s
    | some u, some x => if u.sent && !u.done then s.eunitDone c id k (some x) else s
    | none, _ => s

/-- R178: a host read of an engine completes. -/
def State.hostReadEngine (s : State) (c id k : Nat) (st : HostStatus) : State :=
  match (s.eop c id).bind fun e => e.units[k]?.bind fun u => u.far.head? with
  | some (a, n) =>
    if (farPlace a).isSome then s
    else if st ≠ .success then s.engineReturns c id k (.error 0x10)
    else
      let r := s.resolve ((List.range n).map fun i => s.homeByte false (a + i) 0)
      r.2.engineReturns c id k (.ok r.1)
  | none => s

def execHostReadCompletion (wg w op unit : Nat) (st : HostStatus) (s : State) : Host.Outcome State Fault Refusal :=
  .next (if (s.opOf wg w op).isSome then s.hostReadWarp wg w op unit st else s.hostReadEngine (s.coreOf wg) op unit st)

/-! Completion. -/

/-- A copy has completed, been cancelled or faulted (R138). -/
def State.copyOver (s : State) (g w id : Nat) : State :=
  s.modWarp g w fun x =>
    { x with copies := x.copies.filter (· ≠ id)
             batches := (x.batches.map fun b => (b.1, b.2.filter (· ≠ id))).filter fun b => !b.2.isEmpty }

/-- An operation leaves its queue with a status. -/
def State.eopOver (s : State) (c : Nat) (e : EOp) (fault : Bool) (code : Cause) : State :=
  let s1 := (s.modCore c fun k => { k with eops := k.eops.filter fun o => o.id ≠ e.id }).copyOver e.wg e.w e.id
  match e.slot with
  | some n => s1.pendSlot c n fault code 0
  | none => s1

/-- An operation is complete: every access is performed, or one has found a cause. DESIGN CHOICE (log 81): an operation of which one unit
has found a cause may complete before its other units have been performed, and the causes that those would find then do not count for
the lowest (R30); units that are performed before it completes do count. -/
def EOp.complete (e : EOp) : Bool :=
  (match e.kind with | .qst _ _ => e.begun | .act _ _ => false | .scales _ => false | _ => true) && (e.units.all (·.done) || !e.faults.isEmpty)

/-- R133: an engine operation completes. -/
def execEngineOpComplete (core op : Nat) (s : State) : Host.Outcome State Fault Refusal :=
  match s.eop core op with
  | none => .next s
  | some e =>
    if !e.complete ∨ !s.eturn core e then .next s
    else
      match lowest e.faults with
      | some x => .next (s.eopOver core e true x)
      | none =>
        let s1 := match e.kind with
          | .acc a => s.settleAcc e.wg e.id a
          | .cy y => s.settleCy e.wg e.id y
          | _ => s
        .next (s1.eopOver core e false 0x00)

/-- R30: a slot whose operation is done fills the registers bound to it. -/
def execHandleComplete (core slot : Nat) (s : State) : Host.Outcome State Fault Refusal :=
  match ((s.core core).slot slot).pend with
  | none => .next s
  | some v =>
    .next (s.completeSlot core slot (v.getLsbD 23) (v.extractLsb' 16 6) (v.extractLsb' 24 40))

/-! The copy engine (R292, R293). -/

/-- The checks of R292 that need no register: the length, and a counted barrier. -/
def copyPre (c : Cx) (s : State) : Option Res :=
  let n := c.f.imm.toNat
  if n = 0 ∨ 2 ^ 24 < n then some (c.raise 0x35)
  else if n % 4 ≠ 0 then some (c.raise 0x09)
  else if c.f.ext.getLsbD 3 ∧ (s.wg c.g).shape.sbars ≤ bits c.f.ext.toNat 2 0 then some (c.raise 0x1E)
  else none

/-- The units of a copy: the destination is cut at every 8-byte boundary. -/
def copyUnits (srcLoc dstLoc : Bool) (src dst n : Nat) : List EUnit :=
  (unitsOf (n / 4 + 1) dst 0 n).map fun p =>
    { src := placeAtOff srcLoc (src + p.1), dst := placeAtOff dstLoc (dst + p.1), size := p.2 }

def copyBody (c : Cx) (s : State) : Res :=
  let n := c.f.imm.toNat
  let dir := c.f.sub.toNat
  let dstLoc := decide (dir = 0) || decide (dir = 3)
  let srcLoc := decide (dir = 1) || decide (dir = 3)
  let x := s.wg c.g
  if c.sA.toNat % 4 ≠ 0 ∨ c.sB.toNat % 4 ≠ 0 then c.raise 0x09
  else if (dstLoc ∧ !x.inLocal c.sA.toNat n) ∨ (srcLoc ∧ !x.inLocal c.sB.toNat n) then c.raise 0x1E
  else
    withSlot c s fun s1 slot =>
      let bar := if c.f.ext.getLsbD 3 then some (bits c.f.ext.toNat 2 0) else none
      let id := s1.nextId
      .done ((s1.enqueue c.g c.w (some slot) (.copy c.f.fs.toNat bar)
        (copyUnits srcLoc dstLoc c.sB.toNat c.sA.toNat n) []).modWarp c.g c.w fun y => { y with copies := y.copies ++ [id] })
def execCopy (f : Fields) (s : State) := issue (.copy f) s open_ copyPre copyBody

/-- R138: closes the open copies into the next batch. -/
def execCbatch (f : Fields) (s : State) := run (.cbatch f) s fun c s =>
  let n := (s.warp c.g c.w).batch + 1
  .done ((s.modWarp c.g c.w fun x =>
    { x with batch := n, batches := if x.copies.isEmpty then x.batches else x.batches ++ [(n, x.copies)], copies := [] }).setS c
      (n.setWidth 64))

/-- R139: waits for every batch up to n; the acquire of R133 lies at the lowest level and discards nothing. -/
def cwaitBody (c : Cx) (s : State) : Res :=
  let n := c.sA.setWidth 16
  let d := (n - (s.warp c.g c.w).batch).toNat
  if 1 ≤ d ∧ d < 2 ^ 15 then c.raise 0x06
  else if !(s.warp c.g c.w).batchesDone n then .wait [.batch n]
  else .done (s.acquire (s.coreOf c.g) 1)
def execCwait (f : Fields) (s : State) := run (.cwait f) s cwaitBody

end Sys2Proof.Machine
end

