-- ==== Sys2Proof/Machine/Mma.lean ====
section
/-! DEFINITION. The hall pass (R39 to R41), what an array operation reads and computes (R102 to R106, R134, R310 to R312),
its issue and its retirement, and the drains that wait for it (R314). -/

namespace Sys2Proof.Machine

/-! The hall pass. -/

/-- Operations of a queue that wait on the core, for the pass or for a place in the array queue (R41). -/
def State.hallWaiters (s : State) (c : Nat) (q : Nat × Nat) : List MmaOp :=
  (s.core c).mma.filter fun o => !o.issued && decide ((o.ctx, o.queue) = q) && !(s.wg o.wg).saved

/-- The leases of a queue are granted with its pass (R318). -/
def State.grantLeases (s : State) (c : Nat) (q : Nat × Nat) : State :=
  let mine := (s.core c).hwait.filter fun h => decide (h.2 = .lease q.1 q.2)
  mine.foldl (fun s h => s.pendSlot c h.1 false 0x00 0)
    (s.modCore c fun k => { k with hwait := k.hwait.filter fun h => !mine.contains h })

/-- The arbiter grants a free pass to the head of the list; HPGRANT counts and wraps (R41, R44). -/
def State.hallGrant (s : State) (c : Nat) : State :=
  let h := (s.core c).hall
  match h.holder, h.queue with
  | none, q :: rest =>
    let s1 := s.modHall c fun _ => { holder := some q, used := 0, queue := rest, lastUse := (s.core c).cycle }
    let v := s1.ccore c 0x202
    (s1.putCore c 0x202 ((v &&& 0xFFFF) ||| BitVec.ofNat 64 (65536 * ((bits v.toNat 31 16 + 1) % 65536)))).grantLeases c q
  | _, _ => s

/-- A queue enters the request list (R41). -/
def State.hallAsk (s : State) (c : Nat) (q : Nat × Nat) : State :=
  let h := (s.core c).hall
  if h.holder = some q ∨ h.queue.contains q then s
  else (s.modHall c fun h => { h with queue := h.queue ++ [q] }).hallGrant c

/-- The pass becomes free; a holder with operations left asks again (R41). -/
def State.hallFree (s : State) (c : Nat) : State :=
  match (s.core c).hall.holder with
  | none => s
  | some q =>
    let s1 := s.modHall c fun h => { h with holder := none, used := 0 }
    (if (s1.hallWaiters c q).isEmpty then s1 else s1.hallAsk c q).hallGrant c

/-- R41: the pass is freed after 1,024 cycles in which its holder had no `mma` waiting. -/
def execHallPassIdleRelease (core : Nat) (s : State) : Host.Outcome State Fault Refusal :=
  let h := (s.core core).hall
  match h.holder with
  | none => .next s
  | some q =>
    .next (if !(s.hallWaiters core q).isEmpty ∨ (s.core core).cycle < h.lastUse + 1024 then s else s.hallFree core)

/-! Acceptance. -/

/-- An `mma` whose roll call is complete, or that needs none, is accepted (R309, R111, R134): it starts with the values that
operand bytes have had since the last `oprdy`, and its accumulator is guarded by its handles. -/
def State.mmaAccept (s : State) (c g : Nat) (members : List (Nat × Nat)) (f : Fields) (gang : W32) (sl : W64) : State :=
  let r := s.fresh
  let x := s.wg g
  let ready := ((s.core c).eops.filter fun e => decide (e.wg = g) && e.isReady).map (·.id)
  let before := members.flatMap fun m => s.unperformed g m.1
  let ids := members.map fun m => (handleId m.2 ((s.core c).slot m.2).gen).toNat
  let s1 := (r.2.modCore c fun k =>
    { k with mma := k.mma ++ [{ id := r.1, wg := g, queue := x.queue, ctx := x.ctx, members := members, ins := f
                                gang := gang, sl := sl, after := ready, before := before, hist := x.hist }] }).modWg g fun x =>
      { x with taint := x.taint ++ [(f.sc.toNat, r.1, ids)] }
  s1.hallAsk c (x.ctx, x.queue)

/-- An operation of the array. -/
def State.mmaOp (s : State) (c id : Nat) : Option MmaOp := (s.core c).mma.find? fun o => o.id = id

/-! What the array reads (R134). -/

/-- One of the values a byte has had, or the one it has. -/
def pickOld (i : Nat) : List W8 → W8 → W8
  | [], cur => cur
  | v :: vs, cur => if Config.freeBit i then v else pickOld (i + 1) vs cur

/-- An operand byte as the array reads it: any value it has had since the last `oprdy` before the `mma`, each byte chosen
separately; `salt` tells the two operands apart. -/
def State.seenByte (s : State) (o : MmaOp) (salt k : Nat) : W8 :=
  pickOld (s.free + 2 ^ 50 * salt + 2 ^ 20 * k) (SMap.get k [] o.hist)
    (((s.wg o.wg).operand k).getD (Config.freeByte (s.free + k)))

/-- A shape register as the array reads it. -/
def State.seenShape (s : State) (o : MmaOp) (salt t : Nat) : TShape :=
  TShape.ofBits (BitVec.ofNat 64 (leVal ((List.range 8).map fun i => s.seenByte o salt (shapeByte t i))))

/-- The codes of an operand: `rows` rows of n elements of width w. -/
def codesOf (byte : Nat → W8) (w rows n : Nat) : List (List Nat) :=
  (List.range (min 64 rows)).map fun r => (List.range n).map fun c => elemAt byte w r c

/-- The place of a byte of the local operand B (R311): row n at sL + n × pitch. -/
def lbPlace (sl pitch off : Nat) : Nat := localByte (sl + off / 256 * pitch + off % 256)

/-- The reads of the scales of an operand with n rows and nb blocks in each, where its slot has them (R102, R310). -/
def scaleUnits (f : Slot) (sh : TShape) (n nb : Nat) : List EUnit :=
  if f.skind ≠ 2 then []
  else (List.range (n * nb)).map fun i => { src := .va ((f.addr + sh.soff + 2 * i) % 2 ^ 64), dst := .val [], size := 2 }

/-- The address of its scales is misaligned (R102). -/
def scalesOdd (f : Slot) (sh : TShape) : Bool := decide (f.skind = 2) && decide ((f.addr + sh.soff) % 2 ≠ 0)

/-- The scales that units have read. -/
def scalesRead (l : List EUnit) : List Nat := l.map fun u => leVal (u.got.getD [])

/-! The computation. -/

/-- One block of the float path (R105): the exact sum of exact products. -/
def blockSum : List (FVal × FVal) → FVal
  | [] => FVal.ofInt 0
  | p :: ps => ps.foldl (fun acc q => FVal.add 0 acc (q.1.mul q.2)) (p.1.mul p.2)

/-- One element on the float path: the blocks in ascending order, each with its two scales. -/
def floatElem (a : Nat) (l : List (List (FVal × FVal) × FVal × FVal)) : Nat :=
  l.foldl (fun acc b =>
    let term := roundF fp32 0 (((blockSum b.1).mul b.2.1).mul b.2.2)
    roundF fp32 0 (FVal.add 0 (decodeF fp32 acc) (decodeF fp32 term))) a

/-- The integer value of an element (R95, R96). -/
def intElem (elem x : Nat) : Int := if elem = 5 then (if x = 8 then 0 else sInt 4 x) else sInt 8 x

/-- One element on the integer path (R106). -/
def intElemSum (ea eb a : Nat) (l : List (Nat × Nat)) : Nat :=
  lowBits 32 ((a : Int) + l.foldl (fun acc p => acc + intElem ea p.1 * intElem eb p.2) 0)

/-- The summation block of a pair of slots (R105). -/
def sumBlock (x y : Slot) : Nat := if x.skind = 2 then x.block else if y.skind = 2 then y.block else 16

/-- The scale of block b of row r. -/
def scaleAt (f : Slot) (l : List Nat) (nb r b : Nat) : FVal :=
  if f.skind = 2 then decodeF bf16 (l.getD (r * nb + b) 0) else f.scale

/-- The new value of element (m, n) of the accumulator. -/
def mmaElem (x y : Slot) (sa sb : List Nat) (nb : Nat) (old : Nat) (m n : Nat) (ra rb : List Nat) : Nat :=
  if 4 ≤ x.elem ∧ x.skind = 0 ∧ y.skind = 0 then intElemSum x.elem y.elem old (ra.zip rb)
  else
    let bs := sumBlock x y
    let blocks := chunks bs ra.length (ra.zip rb)
    floatElem old (((List.range blocks.length).zip blocks).map fun p =>
      (p.2.map fun q => (elemValue x.elem q.1, elemValue y.elem q.2), scaleAt x sa nb m p.1, scaleAt y sb nb n p.1))

/-- An operation enters the array: it reads its shapes, at some moment before it completes (R134), and the reads of its scales enter
the engine queue (R133, R310). -/
def State.startMma (s : State) (c : Nat) (o : MmaOp) : State :=
  let x := (s.wg o.wg).slot o.ins.fs.toNat
  let y := (s.wg o.wg).slot (bits o.ins.ext.toNat 2 0)
  let shA := s.seenShape o 0 o.ins.sa.toNat
  let shB := s.seenShape o 1 o.ins.sb.toNat
  let nb := (shA.cols + sumBlock x y - 1) / sumBlock x y
  let r := (s.drew (2 ^ 60)).fresh
  r.2.modCore c fun k =>
    { k with mma := k.mma.map fun p => if p.id = o.id then { p with issued := true, shA := shA.toBits, shB := shB.toBits } else p
             eops := k.eops ++ [{ id := r.1, wg := o.wg, w := (o.members.headD (0, 0)).1, ctx := o.ctx, kind := .scales o.id, slot := none
                                  after := o.before
                                  units := scaleUnits x shA (min 64 shA.rows) nb ++ scaleUnits y shB (min 64 shB.rows) nb
                                  faults := if scalesOdd x shA || scalesOdd y shB then [0x09] else [] }] }

/-- R309: the pass is held and the array queue, of 4 operations, has a place: the operation issues once and counts once
against the pass; its members go on. -/
def execMmaArrayIssue (core op : Nat) (s : State) : Host.Outcome State Fault Refusal :=
  match s.mmaOp core op with
  | none => .next s
  | some o =>
    let k := s.core core
    if o.issued ∨ k.hall.holder ≠ some (o.ctx, o.queue) ∨ 4 ≤ (k.mma.filter (·.issued)).length ∨ (s.wg o.wg).saved ∨ !s.live o.ctx then
      .next s
    else
      let s1 := (s.modCore core fun k => { k with hall := { k.hall with used := k.hall.used + 1, lastUse := k.cycle } }).startMma core o
      let s2 := o.members.foldl (fun s m =>
        match (s.warp o.wg m.1).blocked with
        | some b => if b.wait = .hall op then s.unblock o.wg m.1 else s
        | none => s) s1
      .next (if max 1 (bits (s.ccore core 0x201).toNat 15 0) ≤ k.hall.used + 1 then s2.hallFree core else s2)

/-! Retirement. -/

/-- A workgroup remembers the lowest cause of the `mma`s on an accumulator that faulted (R314). -/
def Wg.noteFault (x : Wg) (acc : Nat) (e : Cause) : Wg :=
  { x with mmaFaults := SMap.put acc ((lowest (e :: (SMap.find acc x.mmaFaults).toList)).getD e) x.mmaFaults }

/-- An array operation leaves with a status that fills every member's handle. -/
def State.mmaOver (s : State) (c : Nat) (o : MmaOp) (fault : Bool) (code : Cause) : State :=
  let s0 := s.modCore c fun k => { k with mma := k.mma.filter fun p => p.id ≠ o.id }
  let s1 := if fault then s0.modWg o.wg fun x => x.noteFault o.ins.sc.toNat code else s0
  (o.members.foldl (fun s m => s.pendSlot c m.2 fault code 0) s1).drainsAfter c o.id (if fault then some code else none)

/-- Nothing that the core accepted before the operation still has to act on its accumulator, and every earlier `oprdy` is
complete (R299, R313). -/
def State.mmaTurn (s : State) (c : Nat) (o : MmaOp) : Bool :=
  o.after.isEmpty && (s.core c).eops.all fun e =>
    decide (e.wg ≠ o.wg) || decide (o.id ≤ e.id)
      || !((e.writes.any fun n => decide (n = 16 + o.ins.sc.toNat)) || e.readsOf.any fun n => decide (n = 16 + o.ins.sc.toNat))

/-- The asynchronous cause 0x13 of a redundant operation whose results differ (R312, R188). -/
def State.mismatch (s : State) (o : MmaOp) : State :=
  o.members.foldl (fun s m => s.postAsync o.wg m.1
    { cause := 0x13, aux := BitVec.ofNat 64 (o.ins.sc.toNat + 2 ^ 32 * o.gang.toNat), mask := (s.warp o.wg m.1).exec }) s

/-- The storage words that the array reads (R144): of its tiles, of local memory, of its accumulator. -/
def State.mmaSoft (o : MmaOp) (shA shB : TShape) : List Nat :=
  let f := o.ins
  shA.soft f.sa.toNat
    ++ (if f.sub.getLsbD 0 then
        (List.range shB.rows).flatMap fun n => softOf ((List.range shB.rb).map fun b => lbPlace o.sl.toNat (pitchOf 0 shB.rb) (256 * n + b))
      else shB.soft f.sb.toNat)
    ++ (List.range (min 64 shA.rows)).flatMap fun m => (List.range (min 64 shB.rows)).map fun n => accSoft f.sc.toNat (64 * m + n)

/-- R310: what the operation leaves once its scales are read. A reserved code is counted once for each element of its operands, which are
one tile when A and B are the same (R96). -/
def State.mmaCompute (s : State) (c : Nat) (o : MmaOp) (x y : Slot) (shA shB : TShape) (nb : Nat) (sa sb : List Nat)
    (mismatch : Bool) : State :=
  let f := o.ins
  let wa := elemBits x.elem
  let wb := elemBits y.elem
  let k := shA.cols
  let lb := f.sub.getLsbD 0
  let a := codesOf (fun off => s.seenByte o 0 (tileByte f.sa.toNat off)) wa shA.rows k
  let b := codesOf (fun off => s.seenByte o 1
    (if lb then lbPlace o.sl.toNat (pitchOf 0 shB.rb) off else tileByte f.sb.toNat off)) wb shB.rows k
  let acc := f.sc.toNat
  let new := ((List.range a.length).zip a).flatMap fun ra => ((List.range b.length).zip b).map fun rb =>
    let i := 64 * ra.1 + rb.1
    (i, (BitVec.ofNat 32 (mmaElem x y sa sb nb (s.accWord o.wg o.id acc i i).toNat ra.1 rb.1 ra.2 rb.2) : W32))
  let reserved := fun (e : Nat) (l : List (List Nat)) => if e = 5 then (l.flatten.filter (· = 8)).length else 0
  let n := reserved x.elem a + if !lb && decide (f.sa = f.sb) then 0 else reserved y.elem b
  let s1 := ((s.drew (2 ^ 60)).putAcc o.wg o.id acc new).countInt4 c n
  let s2 := if f.ext.getLsbD 3 ∧ mismatch then s1.mismatch o else s1
  let s3 := s2.mmaOver c o false 0x00
  if f.ext.getLsbD 4 then s3.decrement o.ctx (bits f.imm.toNat 11 0) [s3.token (some c)] else s3

/-- MMA_RETIRE: R310, once its scales are read or one of them has found a cause, the lowest found (R30, log 81). Words with an
uncorrectable error read as 0 and count, or with STRICT = 1 are cause 0x1B. -/
def State.mmaRetire (s : State) (c : Nat) (o : MmaOp) (mismatch : Bool) : State :=
  match (s.core c).eops.find? fun e => e.kind = .scales o.id with
  | none => s
  | some e =>
    let s0 := s.modCore c fun k => { k with eops := k.eops.filter fun x => x.id ≠ e.id }
    match lowest e.faults with
    | some x => s0.mmaOver c o true x
    | none =>
      if !e.units.all (·.done) then s
      else
        let x := (s.wg o.wg).slot o.ins.fs.toNat
        let y := (s.wg o.wg).slot (bits o.ins.ext.toNat 2 0)
        let shA := TShape.ofBits o.shA
        let shB := TShape.ofBits o.shB
        let nb := (shA.cols + sumBlock x y - 1) / sumBlock x y
        let na := if x.skind = 2 then min 64 shA.rows * nb else 0
        let l := State.mmaSoft o shA shB
        let bad := !((s.wg o.wg).badWords l).isEmpty
        let s1 := if (s.wg o.wg).ue.isEmpty && (s.wg o.wg).ce.isEmpty then s0 else s0.meetSoft o.wg l []
        if bad && s.strict o.ctx then s1.mmaOver c o true 0x1B
        else s1.mmaCompute c o x y shA shB nb (scalesRead (e.units.take na)) (scalesRead (e.units.drop na)) mismatch

def execMmaRetire (core op : Nat) (mismatch : Bool) (s : State) : Host.Outcome State Fault Refusal :=
  match s.mmaOp core op with
  | none => .next s
  | some o => .next (if !o.issued ∨ !s.mmaTurn core o then s else s.mmaRetire core o mismatch)

end Sys2Proof.Machine
end

