-- ==== Sys2Proof/Machine/Matrix.lean ====
section
/-! DEFINITION. The matrix instructions (R299 to R318), the roll call (R35 to R37), and the cancelling of operations
(R257). -/

namespace Sys2Proof.Machine

/-! Shapes and the instructions without a handle (R302, R305 to R307, R313). -/

/-- R302: a shape from three values; one that is not valid raises 0x14. -/
def tshapeBody (c : Cx) (s : State) : Res :=
  let d := c.f.dst.toNat
  let new : TShape := { width := c.sA.toNat, rows := c.sB.toNat, cols := c.sC.toNat, soff := ((s.wg c.g).tshape d).soff }
  if !new.valid then c.raise 0x14 else .done (s.putShape c.g d new)
def execTshape (f : Fields) (s : State) := run (.tshape f) s tshapeBody

/-- R302: the scale offset. -/
def execTshapeSoff (f : Fields) (s : State) := run (.tshapeSoff f) s fun c s =>
  let d := c.f.dst.toNat
  .done (s.putShape c.g d { (s.wg c.g).tshape d with soff := bits c.sA.toNat 31 0 })

/-- An instruction without a handle acts at once, or is held until the earlier operations that it must follow have acted;
its warp goes on (R299). -/
def actIssue (i : Instr) (sh : W64) (c : Cx) (s : State) : State :=
  match s.holder c.g (actReads i) (actWrites i) with
  | some _ => s.enqueue c.g c.w none (.act i sh) [] []
  | none => s.matAct c.g s.nextId i sh

def execTzero (f : Fields) (s : State) := run (.tzero f) s fun c s => .done (actIssue (.tzero f) 0 c s)
def execAzero (f : Fields) (s : State) := run (.azero f) s fun c s => .done (actIssue (.azero f) 0 c s)
def execCyzero (f : Fields) (s : State) := run (.cyzero f) s fun c s => .done (actIssue (.cyzero f) 0 c s)

/-- R305: tile and shape; with D = A nothing changes. -/
def execTmov (f : Fields) (s : State) := run (.tmov f) s fun c s =>
  if f.dst = f.sa then .done s
  else .done (actIssue (.tmov f) 0 c (s.putShape c.g f.dst.toNat ((s.wg c.g).tshape f.sa.toNat)))

/-- The result shape of `ttrans`. -/
def TShape.flip (t : TShape) : TShape := { t with rows := t.cols, cols := t.rows, soff := 0 }

/-- R306. -/
def ttransPre (c : Cx) (s : State) : Option Res :=
  let t := (s.wg c.g).tshape c.f.sa.toNat
  if !t.valid ∨ !t.flip.valid then some (c.raise 0x14) else none
def ttransBody (c : Cx) (s : State) : Res :=
  let t := (s.wg c.g).tshape c.f.sa.toNat
  .done ((actIssue (.ttrans c.f) t.toBits c s).putShape c.g c.f.dst.toNat t.flip)
def execTtrans (f : Fields) (s : State) := issue (.ttrans f) s open_ ttransPre ttransBody

/-- The second slot of an instruction with two (R307, R308). -/
def Cx.slotB (c : Cx) (x : Wg) : Slot := x.slot (bits c.f.ext.toNat 2 0)
/-- Its first. -/
def Cx.slotA (c : Cx) (x : Wg) : Slot := x.slot c.f.fs.toNat

/-- R307: the checks of `tcvt`. -/
def tcvtPre (c : Cx) (s : State) : Option Res :=
  let x := s.wg c.g
  let fx := c.slotA x
  let fy := c.slotB x
  let t := x.tshape c.f.sa.toNat
  if !fx.ok ∨ !fy.ok ∨ fx.skind = 2 ∨ fy.skind = 2 then some (c.raise 0x15)
  else if !t.valid ∨ t.width ≠ elemBits fx.elem then some (c.raise 0x14)
  else if !({ t with width := elemBits fy.elem } : TShape).valid then some (c.raise 0x14)
  else none
def tcvtBody (c : Cx) (s : State) : Res :=
  let x := s.wg c.g
  let t := x.tshape c.f.sa.toNat
  .done ((actIssue (.tcvt c.f) t.toBits c s).putShape c.g c.f.dst.toNat { t with width := elemBits (c.slotB x).elem })
def execTcvt (f : Fields) (s : State) := issue (.tcvt f) s open_ tcvtPre tcvtBody

/-- R313: what has been written is visible to the array; a tile write that the matrix unit still holds is waited for by
the operand-ready fence, not by the warp. -/
def oprdyBody (c : Cx) (s : State) : Res :=
  let held := (s.core (s.coreOf c.g)).eops.any fun e => decide (e.wg = c.g) && e.isAct
  let s1 := s.othersSeen c.g
  .done (if held then s1.enqueue c.g c.w none (.act (.oprdy c.f) 0) [] [] else s1.tilesSeen c.g)
def execOprdy (f : Fields) (s : State) := run (.oprdy f) s oprdyBody

/-! Transfers (R303, R304). -/

/-- LOC. -/
def Cx.loc (c : Cx) : Bool := c.f.sub.getLsbD 0
/-- The base of a transfer. -/
def Cx.base (c : Cx) : Nat := (c.sA + c.imm64).toNat

/-- The units of a transfer: each row cut at every 8-byte boundary of the address. -/
def xferUnits (load loc : Bool) (file : Nat → Place) (rows rb pitch base : Nat) : List EUnit :=
  (List.range rows).flatMap fun r =>
    (unitsOf (rb + 1) (base + r * pitch) 0 rb).map fun p =>
      let m := placeAtOff loc (base + r * pitch + p.1)
      let t := file (256 * r + p.1)
      if load then { src := m, dst := t, size := p.2 } else { src := t, dst := m, size := p.2 }

/-- Rows of a range lie in local memory. -/
def rowsInLocal (x : Wg) (rows rb pitch base : Nat) : Bool := (List.range rows).all fun r => x.inLocal (base + r * pitch) rb

/-- A transfer: its checks on values, the handle slot, and its place in the queue; `pitched` where the form names a pitch. -/
def xferBody (load pitched : Bool) (file : Cx → Nat → Place) (kind : Cx → EKind) (dims : Cx → State → Nat × Nat) (c : Cx)
    (s : State) : Res :=
  let d := dims c s
  let pitch := pitchOf (if pitched then c.sC.toNat else 0) d.2
  if c.base % 4 ≠ 0 ∨ pitch % 4 ≠ 0 then c.raise 0x09
  else if c.loc ∧ !rowsInLocal (s.wg c.g) d.1 d.2 pitch c.base then c.raise 0x1E
  else
    withSlot c s fun s1 n =>
      .done (s1.enqueue c.g c.w (some n) (kind c) (xferUnits load c.loc (file c) d.1 d.2 pitch c.base)
        (if load then [] else [file c 0]))

/-- A place of the tile that SB names, of its accumulator, of its residue register. -/
def Cx.tilePlace (c : Cx) (off : Nat) : Place := .tile c.f.sb.toNat off
def Cx.accPlace (c : Cx) (off : Nat) : Place := .acc c.f.sb.toNat (off / 4)
def Cx.cyPlace (c : Cx) (off : Nat) : Place := .cy c.f.sb.toNat (off / 4)

/-- The rows and row bytes of the tile that SB names; an invalid shape raises 0x14. -/
def tileDims (c : Cx) (s : State) : Nat × Nat :=
  let t := (s.wg c.g).tshape c.f.sb.toNat
  (t.rows, t.rb)
def tilePre (c : Cx) (s : State) : Option Res :=
  if !((s.wg c.g).tshape c.f.sb.toNat).valid then some (c.raise 0x14) else none

def execTld (f : Fields) (s : State) :=
  issue (.tld f) s open_ tilePre (xferBody true true Cx.tilePlace (fun c => .tile c.f.sb.toNat) tileDims)
def execTst (f : Fields) (s : State) :=
  issue (.tst f) s open_ tilePre (xferBody false true Cx.tilePlace (fun _ => .store) tileDims)
def execAld (f : Fields) (s : State) :=
  run (.ald f) s (xferBody true true Cx.accPlace (fun c => .acc c.f.sb.toNat) fun _ _ => (64, 256))
def execAst (f : Fields) (s : State) :=
  run (.ast f) s (xferBody false true Cx.accPlace (fun _ => .store) fun _ _ => (64, 256))
def execCyld (f : Fields) (s : State) :=
  run (.cyld f) s (xferBody true false Cx.cyPlace (fun c => .cy c.f.sb.toNat) fun _ _ => (1, 256))
def execCyst (f : Fields) (s : State) :=
  run (.cyst f) s (xferBody false false Cx.cyPlace (fun _ => .store) fun _ _ => (1, 256))

/-! The quantising store (R315, R316). -/

/-- R316 check 1, with the demands of R107. -/
def qstPre (c : Cx) (s : State) : Option Res :=
  let f := c.slotA (s.wg c.g)
  if !f.ok ∨ (f.elem < 3 ∧ f.skind ≠ 0) then some (c.raise 0x15) else none

def qstBody (c : Cx) (s : State) : Res :=
  let x := s.wg c.g
  let g := c.sC
  let r := regionOf g
  let w := elemBits (c.slotA x).elem
  let rb := r.2.2.2 * w / 8
  let pitch := pitchOf c.sD.toNat rb
  if g &&& ~~~(0x3F3F3F3F : W64) ≠ 0 then c.raise 0x06
  else if 64 < r.1 + r.2.2.1 ∨ 64 < r.2.1 + r.2.2.2 ∨ r.2.2.2 * w % 8 ≠ 0 then c.raise 0x14
  else if c.sA.toNat % 4 ≠ 0 ∨ pitch % 4 ≠ 0 then c.raise 0x09
  else if c.loc ∧ !rowsInLocal x r.2.2.1 rb pitch c.sA.toNat then c.raise 0x1E
  else withSlot c s fun s1 n => .done (s1.enqueue c.g c.w (some n) (.qst c.f c.ins.sop) [] [])
def execQst (f : Fields) (s : State) := issue (.qst f) s open_ qstPre qstBody

/-! The matrix operation (R308, R309). -/

/-- R103: the pair of formats is accepted. -/
def pairOk (x y : Slot) : Bool :=
  (decide (1 ≤ x.elem) && decide (x.elem ≤ 3) && decide (x.elem = y.elem))
    || (decide (4 ≤ x.elem) && decide (4 ≤ y.elem))

/-- R101, R103, R104. -/
def mmaSlots (x y : Slot) : Bool :=
  x.ok && y.ok && pairOk x y
    && !(decide (x.skind = 2) && x.axis) && !(decide (y.skind = 2) && y.axis)
    && !(decide (x.skind = 2) && decide (y.skind = 2) && decide (x.bsize ≠ y.bsize))

/-- The check of `.dep` (R308), and R309 checks 1 and 2. -/
def mmaPre (c : Cx) (s : State) : Option Res :=
  let x := s.wg c.g
  let a := c.slotA x
  let b := c.slotB x
  let ta := x.tshape c.f.sa.toNat
  let tb := x.tshape c.f.sb.toNat
  if c.f.ext.getLsbD 4 ∧ 4096 ≤ c.f.imm.toNat then some (c.raise 0x06)
  else if !mmaSlots a b then some (c.raise 0x15)
  else if !ta.valid ∨ !tb.valid ∨ ta.width ≠ elemBits a.elem ∨ tb.width ≠ elemBits b.elem ∨ ta.cols ≠ tb.cols then
    some (c.raise 0x14)
  else none

/-- The gang of a warp (R35): none when its value is not allowed; no members when it issues alone. -/
def gangMembers (x : Wg) (w : Nat) : Option (List Nat) :=
  let ms := lanesOf (x.warp w).gang
  if ms = [] ∨ ms = [w] then some []
  else if 2 ≤ ms.length ∧ ms.length ≤ 6 ∧ ms.contains w ∧ ms.all fun m => decide (m < x.warps.length) then some ms
  else none

/-- What R36 compares of two arrivals. -/
def gangKey (f : Fields) : Fields := { f with pen := false, pneg := false, pred := 0, ru := 0 }

/-- The handle slot of R309 step 5: bound to DST, which the instruction holds from now on. -/
def Cx.withHandle (c : Cx) (s : State) : Cx :=
  { c with ins := { c.ins with held := [.s c.f.dst.toNat], prior := s.priorOf c c.f.dst.toNat } }

/-- A member with its slot arrives at its latch, the first one opening it; the last arrival completes the roll call (R36, R37). The
answer gives what the member waits for then; none when it differs from the first arrival. -/
def State.joinLatch (s : State) (g w n : Nat) (ms : List Nat) (f : Fields) (sop : List W64) : Option (State × Wait) :=
  let k := s.coreOf g
  let m := (s.warp g w).gang
  match (s.core k).latches.find? fun l => decide (l.wg = g) && decide (l.members = m) with
  | none =>
    let r := s.fresh
    some (r.2.modCore k fun x =>
      { x with latches := x.latches ++ [{ id := r.1, wg := g, members := m, ins := f, sop := sop
                                          arrived := [(w, n)], since := s.now g }] }, .rollCall r.1)
  | some l =>
    if gangKey l.ins ≠ gangKey f ∨ l.sop ≠ sop then none
    else
      let arrived := l.arrived ++ [(w, n)]
      if ms.all fun w => arrived.any fun a => a.1 = w then
        let id := s.nextId
        let s1 := (s.modCore k fun x => { x with latches := x.latches.filter fun p => p.id ≠ l.id }).mmaAccept k g
          arrived f m (sop.getD 3 0)
        some (l.arrived.foldl (fun s a => s.rewait g a.1 (.rollCall l.id) (.hall id)) s1, .hall id)
      else
        some (s.modCore k fun x =>
          { x with latches := x.latches.map fun p => if p.id = l.id then { p with arrived := arrived } else p }, .rollCall l.id)

/-- A member arrives as it issues. -/
def arrive (c : Cx) (s : State) (n : Nat) (ms : List Nat) : Res :=
  match s.joinLatch c.g c.w n ms c.f c.ins.sop with
  | none => .final ((s.freeSlot (s.coreOf c.g) n [(c.g, c.w, c.f.dst.toNat)]).trapCx c (some c.ins) 0x06 c.act 0 0)
  | some (s1, wt) => blockThen c s1 wt fun t => t

/-- A member that has waited for a latch arrives. -/
def State.arriveBlocked (s : State) (g w n : Nat) (b : Blocked) : State :=
  match decode (leBytes 16 b.ins.insn.toNat) with
  | .ins (.mma f) =>
    match s.joinLatch g w n ((gangMembers (s.wg g) w).getD []) f b.ins.sop with
    | none => (s.freeSlot (s.coreOf g) n (b.ins.prior.map fun p => (g, w, p.1))).trapBlocked g w 0x06 0
    | some (s1, wt) => s1.rewait g w (.latch n) wt
  | _ => s

/-- R309 steps 3 to 8. -/
def mmaBody (c : Cx) (s : State) : Res :=
  let x := s.wg c.g
  let k := s.coreOf c.g
  let tb := x.tshape c.f.sb.toNat
  let lb := c.f.sub.getLsbD 0
  if lb ∧ c.sD.toNat % 4 ≠ 0 then c.raise 0x09
  else if lb ∧ !rowsInLocal x tb.rows tb.rb (pitchOf 0 tb.rb) c.sD.toNat then c.raise 0x1E
  else
    match gangMembers x c.w with
    | none => c.raise 0x06
    | some ms =>
      withSlot c s fun s1 n =>
        let cx := c.withHandle s
        if ms = [] then
          let id := s1.nextId
          blockThen cx (s1.mmaAccept k c.g [(c.w, n)] c.f (x.warp c.w).gang c.sD) (.hall id) fun t => t
        else if s1.waitMet c.g c.w (.latch n) then arrive { c with ins := cx.ins } s1 n ms
        else blockThen cx s1 (.latch n) fun t => t
def execMma (f : Fields) (s : State) := issue (.mma f) s open_ mmaPre mmaBody

/-- The cycle at which the count of a latch expires (R37, R38): `roll_call_tmo` cycles from the first arrival, or what was saved; none
when the timeout is disabled or the workgroup is evicted. -/
def State.latchEnds (s : State) (c : Nat) (l : Latch) : Option Nat :=
  let n := bits (s.ccore c 0x200).toNat 31 0
  if n = 0 ∨ l.left.isSome then none else some (l.limit.getD (l.since + n))

/-- R37: the count of a latch expires: its warps raise 0x12, their slots are given back, and the latch is freed. -/
def State.rollCallOver (s : State) (c : Nat) (l : Latch) : State :=
  let s1 := (s.modCore c fun k => { k with latches := k.latches.filter fun p => p.id ≠ l.id }).countCore c 0x202 15 0 1
  l.arrived.foldl (fun s a =>
    let own := match (s.warp l.wg a.1).blocked with
      | some b => b.ins.prior.map fun p => (l.wg, a.1, p.1)
      | none => []
    (s.freeSlot c a.2 own).trapBlocked l.wg a.1 0x12 (l.members.setWidth 64)) s1

/-- An arrival in the cycle in which the count expires wins: the other steps of that cycle come first. -/
def execRollCallTimeout (core latch : Nat) (s : State) : Host.Outcome State Fault Refusal :=
  match (s.core core).latches.find? fun l => l.id = latch with
  | none => .next s
  | some l =>
    match s.latchEnds core l with
    | none => .next s
    | some at_ =>
      .next (if (s.core core).cycle < at_ then s
        else if (s.core core).cycle = at_ then (s.sameCycle (Tick.onCore core) (.rollCallTimeout core latch)).getD (s.rollCallOver core l)
        else s.rollCallOver core l)

/-- R314: a handle that fills once the `mma`s on an accumulator accepted before it are done, with the lowest cause among those
that faulted, were they done before it or not (log 42); a wait on it settles them. -/
def adrainBody (c : Cx) (s : State) : Res :=
  let k := s.coreOf c.g
  let a := c.f.sb.toNat
  withSlot c s fun s1 n =>
    let ops := ((s1.core k).mma.filter fun o => decide (o.wg = c.g) && decide (o.ins.sc.toNat = a)).map (·.id)
    let h := (handleId n ((s1.core k).slot n).gen).toNat
    let s2 := s1.modWg c.g fun x => { x with taint := x.taint.map fun p => if p.1 = a then (p.1, p.2.1, p.2.2 ++ [h]) else p }
    let past := SMap.find a (s1.wg c.g).mmaFaults
    .done (if ops.isEmpty then s2.pendSlot k n past.isSome (past.getD 0x00) 0
      else s2.modCore k fun x => { x with hwait := x.hwait ++ [(n, .drain c.g a ops past.toList)] })
def execAdrain (f : Fields) (s : State) := run (.adrain f) s adrainBody

/-- R318. -/
def mleaseBody (c : Cx) (s : State) : Res :=
  let k := s.coreOf c.g
  let q := ((s.wg c.g).ctx, (s.wg c.g).queue)
  withSlot c s fun s1 n =>
    if (s1.core k).hall.holder = some q then .done (s1.pendSlot k n false 0x00 0)
    else .done ((s1.modCore k fun x => { x with hwait := x.hwait ++ [(n, .lease q.1 q.2)] }).hallAsk k q)
def execMlease (f : Fields) (s : State) := run (.mlease f) s mleaseBody

/-- R317: a warp that an open latch of its workgroup waits for raises 0x24. -/
def gangPre (c : Cx) (s : State) : Option Res :=
  match (s.core (s.coreOf c.g)).latches.find? fun l =>
    decide (l.wg = c.g) && l.members.getLsbD c.w && l.arrived.all fun a => decide (a.1 ≠ c.w) with
  | some l => some (.trap 0x24 c.act 0 (l.members.setWidth 64))
  | none => none
def execGang (f : Fields) (s : State) := issue (.gang f) s open_ gangPre fun c s =>
  .done (s.modWarp c.g c.w fun x => { x with gang := c.b64.setWidth 32 })

/-! Cancelling (R257). -/

/-- A member withdraws from a latch and goes on. -/
def State.cancelArrival (s : State) (c : Nat) (l : Latch) (w n : Nat) : State :=
  ((s.modCore c fun k => { k with latches := (k.latches.map fun p =>
      if p.id = l.id then { p with arrived := p.arrived.filter fun a => a.1 ≠ w } else p).filter fun p => !p.arrived.isEmpty
    }).pendSlot c n false 0x01 0).unblock l.wg w

/-- An array operation that has not issued is cancelled for every member. -/
def State.cancelMma (s : State) (c : Nat) (o : MmaOp) : State :=
  let s1 := (s.mmaOver c o false 0x01).modWg o.wg fun x => { x with taint := x.taint.filter fun p => p.2.1 ≠ o.id }
  (o.members.foldl (fun s m =>
    match (s.warp o.wg m.1).blocked with
    | some b => if b.wait = .hall o.id then s.unblock o.wg m.1 else s
    | none => s) s1).hallUsed c (o.ctx, o.queue)

/-- An atomic to host or peer memory that has not been sent is cancelled: its registers fill with values that nothing
determines (log 18). -/
def State.cancelAtom (s : State) (g w : Nat) (o : Op) (n : Nat) : State :=
  if o.units.isEmpty ∨ !o.units.all (fun u => u.tgt.far && !u.sent && !u.done) then s
  else
    let fill := fun (x : Warp) (r : Reg) =>
      (match r with
        | .s i => x.setS i (Config.freeWord s.free ++ Config.freeWord (s.free + 1))
        | .v i => x.setVm o.ins.lmask i (mkLanes fun l => Config.freeWord (s.free + 2 + 32 * i + l))).markFull r
    (((s.modWarp g w fun x => { o.fills.foldl fill x with ops := x.ops.filter fun p => p.id ≠ o.id }).drew (2 ^ 14)).pendSlot
      (s.coreOf g) n false 0x01 0)

/-- A lease that waits is cancelled; its queue leaves the request list when nothing else keeps it there (R318). -/
def State.cancelLease (s : State) (c n : Nat) (q : Nat × Nat) : State :=
  let s1 := (s.modCore c fun k => { k with hwait := k.hwait.filter fun h => h.1 ≠ n }).pendSlot c n false 0x01 0
  if ((s1.core c).hwait.any fun h => decide (h.2 = .lease q.1 q.2)) ∨ !(s1.hallWaiters c q).isEmpty then s1
  else s1.modHall c fun h => { h with queue := h.queue.filter (· ≠ q) }

/-- The atomic of a core's warps that a slot belongs to. -/
def State.slotAtom (s : State) (c n : Nat) : Option (Nat × Nat × Op) :=
  s.allWarps.findSome? fun p =>
    if s.coreOf p.1 = c then ((s.warp p.1 p.2).ops.find? fun o => o.slot = some n).map fun o => (p.1, p.2, o) else none

/-- The warp of a core that waits for a latch with this slot. -/
def State.latchWaiter (s : State) (c n : Nat) : Option (Nat × Nat) :=
  s.allWarps.find? fun p => decide (s.coreOf p.1 = c) && decide ((s.warp p.1 p.2).blocked.map (·.wait) = some (.latch n))

/-- Cancels the operation of a live slot, where that is still possible. -/
def State.cancel (s : State) (c n : Nat) : State :=
  let k := s.core c
  match k.eops.find? fun e => e.slot = some n with
  | some e => s.eopOver c e false 0x01
  | none =>
    match k.latches.findSome? fun l => (l.arrived.find? fun a => a.2 = n).map fun a => (l, a.1) with
    | some (l, w) => s.cancelArrival c l w n
    | none =>
    match s.latchWaiter c n with
    | some (g, w) => (s.pendSlot c n false 0x01 0).unblock g w
    | none =>
      match k.mma.find? fun o => o.members.any fun m => m.2 = n with
      | some o => if o.issued then s else s.cancelMma c o
      | none =>
        match k.hwait.find? fun h => h.1 = n with
        | some (_, .lease t q) => s.cancelLease c n (t, q)
        | some _ => s
        | none =>
          if k.launches.any fun l => l.slot = n then
            (s.modCore c fun k => { k with launches := k.launches.filter fun l => l.slot ≠ n }).pendSlot c n false 0x01 0
          else
            match s.slotAtom c n with
            | some (g, w, o) => s.cancelAtom g w o n
            | none => s

/-- R257: a slot of the issuing core at the generation named. -/
def hcancelBody (c : Cx) (s : State) : Res :=
  let k := s.coreOf c.g
  let v := if c.re then c.sA else (s.warp c.g c.w).getS c.f.sa.toNat
  let h := (s.core k).slot (idSlot v)
  if h.gen ≠ idGen v ∨ !h.live ∨ h.pend.isSome then .done s else .done (s.cancel k (idSlot v))
def execHcancel (f : Fields) (s : State) := run (.hcancel f) s hcancelBody

end Sys2Proof.Machine
end

