-- ==== Sys2Proof/Machine/Power.lean ====
section
/-! DEFINITION. Power and health (R349 to R355). -/

namespace Sys2Proof.Machine

/-- The rail voltage of an operating point in millivolts (R350): 16 is the boost point. -/
def pointMv (p : Nat) : Nat := if p = 16 then 950 else 550 + 25 * p

/-- The performance level of an operating point. -/
def pointLevel (p : Nat) : Nat := min 15 p

/-- A new target for a cluster (R352): a lower frequency applies at once, a higher one once the rail has its voltage. -/
def Cluster.moveTo (k : Cluster) (p : Nat) : Cluster :=
  { k with
    want := p, level := if p ≤ k.level ∨ pointMv p ≤ k.mv then p else k.level
    ramp := if k.mv = pointMv p then none else some (pointMv p) }

/-- The rail moves by up to 10 mV towards its goal (R349), and a frequency that waits for it applies. -/
def Cluster.rampStep (k : Cluster) : Cluster :=
  match k.ramp with
  | none => k
  | some g =>
    let mv := if k.mv < g then min g (k.mv + 10) else max g (k.mv - 10)
    { k with mv := mv, ramp := if mv = g then none else some g, level := if pointMv k.want ≤ mv then k.want else k.level }

/-- R352: the rail reaches its new voltage, when no more than one interval's ramp was left. -/
def execRailRampReached (cluster : Nat) (s : State) : Host.Outcome State Fault Refusal :=
  let k := s.cluster cluster
  match k.ramp with
  | none => .next s
  | some g => if 10 < k.mv - g ∨ 10 < g - k.mv then .next s else .next (s.modCluster cluster Cluster.rampStep)

/-- The requested level of a cluster (R351): the largest of the contexts with a started workgroup on it. -/
def State.request (s : State) (c : Nat) : Nat :=
  (s.wgs.map fun p => if clusterOf p.2.core = c && !p.2.saved && !p.2.ended then bits (s.cctx p.2.ctx 0x118).toNat 3 0 else 0).foldl max 0

/-- A throttle level after an interval (R353): `on` when its cause holds, `off` when it lifts; `l` is the level in force, `t` the
target. -/
def throttle (cur : Option Nat) (on off : Bool) (l t : Nat) : Option Nat :=
  if on then some (l - 2)
  else
    match cur with
    | none => none
    | some x => if !off then some x else if t ≤ x + 1 then none else some (x + 1)

/-- The lower of a level and a throttle's. -/
def capped (t : Nat) (x : Option Nat) : Nat := match x with | some y => min t y | none => t

/-- The target level of a cluster (R351): what is requested, lowered to the level permitted. -/
def State.target (s : State) (c : Nat) : Nat := min (s.request c) (bits (s.cmod 0x600).toNat 3 0)

/-- The operating point for a target t (R351, R353): the boost point, when it is allowed, no throttle is active and the module drew less than
3,800 W over the last interval; else the target, or the lowest throttle level below it. -/
def Cluster.point (k : Cluster) (t : Nat) (allowed : Bool) (watts : Nat) : Nat :=
  let busy := k.therm.isSome || k.ilim.isSome || k.cap.isSome
  if decide (t = 15) && allowed && !busy && decide (watts < 3800) then 16 else capped (capped (capped t k.therm) k.ilim) k.cap

/-- A cluster's target is set, at a control interval and at a time-slice switch (R351). -/
def State.retarget (s : State) (c : Nat) : State :=
  let t := s.target c
  s.modCluster c fun k => { k with target := t }.moveTo (k.point t ((s.cmod 0x600).getLsbD 4) s.watts)

/-- The targets of all clusters are set. -/
def State.retargetAll (s : State) : State := (List.range 32).foldl (fun s c => s.retarget c) s

/-- The warp slots of a cluster that a context's workgroups occupy. -/
def State.slotsHeld (s : State) (t c : Nat) : Nat :=
  s.wgs.foldl (fun n p => n + if p.2.ctx = t ∧ clusterOf p.2.core = c ∧ !p.2.saved ∧ !p.2.ended then p.2.slots.length else 0) 0

/-- The context that holds the most occupied warp slots of a cluster, ties to the lower tag; none where none is occupied (R353). DEDUCED
(log 91): as they stand at the end of the interval. -/
def State.mostOn (s : State) (c : Nat) : Option Nat :=
  let most := (s.ctxs.map fun p => s.slotsHeld p.1 c).foldl max 0
  if most = 0 then none else ((s.ctxs.map (·.1)).filter fun t => decide (s.slotsHeld t c = most)).min?

/-- What a context has drawn over an interval, in milliwatts: the clusters of which it holds the most occupied warp slots. -/
def State.drewPower (s : State) (m : Measure) (t : Nat) : Nat :=
  m.power.foldl (fun n p => n + if s.mostOn p.1 = some t then p.2 else 0) 0

/-- The power cap of the context that holds the most of a cluster is exceeded (R353). -/
def State.overCap (s : State) (m : Measure) (c : Nat) : Bool :=
  match s.mostOn c with
  | none => false
  | some t =>
    let watts := bits (s.cctx t 0x119).toNat 15 0
    decide (watts ≠ 0) && decide (1000 * watts < s.drewPower m t)

/-- A cluster's throttles after a control interval (R353), from the level in force, and what `thr_cnt` and `tj` then read. -/
def State.throttles (s : State) (m : Measure) (c : Nat) (k : Cluster) : Cluster :=
  let t := s.target c
  let l := pointLevel k.level
  let tj := ((m.tj.find? fun p => p.1 = c).map (·.2)).getD (bits (s.ccluster c 0x604).toNat 7 0)
  let max_ := bits (s.cmod 0x605).toNat 7 0
  let lim := bits (s.ccluster c 0x603).toNat 11 0
  let therm := throttle k.therm (decide (max_ ≤ tj)) (decide (tj + 5 ≤ max_)) l t
  let ilim := throttle k.ilim (decide (lim < k.peak)) (decide (8 * k.peak ≤ 7 * lim)) l t
  let cap := if s.overCap m c then some (l - 1) else none
  let cnt := SMap.get 0x606 0 k.csr
  let cnt1 := if therm.isSome then satAdd cnt 15 0 1 else cnt
  let cnt2 := if ilim.isSome || cap.isSome then satAdd cnt1 31 16 1 else cnt1
  { k with
    therm := therm, ilim := ilim, cap := cap, peak := 0
    csr := SMap.put 0x606 cnt2 (SMap.put 0x604 (BitVec.ofNat 64 (tj % 256)) (SMap.put 0x602 (SMap.get 0x602 0 k.csr) k.csr)) }

/-- A cluster's part of a control interval. -/
def State.interval (s : State) (m : Measure) (c : Nat) : State :=
  (s.modCluster c fun k => s.throttles m c k.rampStep).retarget c

/-- R351 to R353: a control interval of 1 µs. -/
def execControlInterval (m : Measure) (s : State) : Host.Outcome State Fault Refusal :=
  .next ((List.range 32).foldl (fun s c => s.interval m c) { s with watts := m.watts })

/-- R354: the rail current is sampled. -/
def execCurrentSample (cluster : Nat) (code : BitVec 12) (s : State) : Host.Outcome State Fault Refusal :=
  .next (s.modCluster cluster fun k =>
    { k with csr := SMap.put 0x602 (code.setWidth 64) k.csr, peak := max k.peak code.toNat })

/-- R355: the wear monitors update MONTHS. -/
def execWearUpdate (cluster : Nat) (months : BitVec 12) (s : State) : Host.Outcome State Fault Refusal :=
  .next (s.putCluster cluster 0x610 (BitVec.ofNat 64 (months.toNat + 4096)))

end Sys2Proof.Machine
end

