-- ==== Sys2Proof/Machine/Stats.lean ====
section
/-! DEFINITION. What the device writes into a graph record: the STATS of an edge (R83, R335) and the STATUS of a stage
(R49, R89). -/

namespace Sys2Proof.Machine

/-- A saturating count of n more in a field of `w` bits. -/
def satCount (w n x : Nat) : Nat := min (2 ^ w - 1) (x + n)

/-- The 16 bytes of STATS (R83). A raster edge keeps ORDVIOL in the place of LATE (R335). -/
def Stats.bytes (x : Stats) : List W8 :=
  leList 4 (x.late + 65536 * x.dup) ++ leList 4 x.standin ++ leList 4 (x.bad + 65536 * x.overrun)
    ++ leList 4 (x.tmoClose + 65536 * x.heldDrop)

/-- An act of the device for a context waits on MIG (R154): it is made again 256 cycles of die 0 later (log 50). -/
def State.putOff (s : State) (t : Nat) (p : Pend) : State :=
  s.modCtx t fun c => { c with pend := c.pend ++ [(p, (s.die 0).counter + 256)] }

/-- A write of some address waits on MIG. -/
def Pend.writes (p : Pend) (va : Nat) : Bool := match p with | .write a _ => decide (a = va) | _ => false

/-- A device write that makes no difference when it fails (log 20). One whose walk waits on MIG is made later; until then a newer
one of the same place takes its place. -/
def State.tryWrite (s : State) (t va : Nat) (bs : List W8) : State :=
  if (s.ctx t).pend.any fun p => p.1.writes va then
    s.modCtx t fun c => { c with pend := c.pend.map fun p => if p.1.writes va then (.write va bs, p.2) else p }
  else
    match s.devWrite t va bs with
    | .ok _ s1 => s1
    | .fault _ s1 => s1
    | .later s1 => s1.putOff t (.write va bs)

/-- Counts in the STATS of an edge, in the state and in the graph record. -/
def State.countEdge (s : State) (t n e : Nat) (f : Stats → Stats) : State :=
  let new := f (s.edge t n e).stats
  (s.modEdge t n e fun x => { x with stats := new }).tryWrite t ((s.graph t n).at_.toNat + 0x440 + 64 * e + 0x18) new.bytes

/-- STATUS of a stage (R49). -/
def Stage.status (x : Stage) : Nat :=
  (if x.cold then 1 else 0) + (if x.moving then 2 else 0) + (if x.satFault then 4 else 0) + 65536 * x.coldCnt

/-- Updates a stage of a graph. -/
def State.modStage (s : State) (t n k : Nat) (f : Stage → Stage) : State :=
  s.modGraph t n fun g => { g with stages := modAt f k g.stages }

/-- Sets the fields that STATUS shows, in the state and in the graph record. -/
def State.setStatus (s : State) (t n k : Nat) (f : Stage → Stage) : State :=
  let new := f ((s.graph t n).stage k)
  (s.modStage t n k fun _ => new).tryWrite t ((s.graph t n).at_.toNat + 0x40 + 64 * k + 0x20) (leList 4 new.status)

end Sys2Proof.Machine
end

