-- ==== Sys2Proof/Machine/Frames.lean ====
section
/-! DEFINITION. Records entering rings, and the closing of frames on edges and of stages (R52 to R58, R62, R66, R335,
R339). -/

namespace Sys2Proof.Machine

/-! Rings. -/

/-- Bytes of a record of an edge (R50). -/
def Edge.bytes (e : Edge) : Nat := 16 * (e.size + 1)

/-- A record's key: word 0 (R53). -/
def Rec.key (r : Rec) : Nat := leVal (r.data.take 4)

/-- A record enters the cache of its key: last becomes prev (R78, R79). -/
def cacheAdd (key : Nat) (frame : W32) (data : List W8) (m : SMap (List (W32 × List W8))) : SMap (List (W32 × List W8)) :=
  SMap.put key ((frame, data) :: (SMap.get key [] m).take 1) m

/-- A record enters the ring of a decoder's edge: one of a frame before the edge became REMOTE also enters the cache (R339). -/
def Decoder.enters (d : Decoder) (r : Rec) : Decoder :=
  if d.base.any fun f => !laterEq r.frame f then { d with cache := cacheAdd r.key r.frame r.data d.cache } else d

/-- A record takes the next slot of an edge's ring (R53), and may enter the caches of its decoders (R339). -/
def Edge.push (e : Edge) (r : Rec) : Edge :=
  { e with ring := e.ring ++ [({ r with slot := e.serial }, false)], serial := e.serial + 1
           decoder := if e.sparse then e.decoder else e.decoder.map fun d => d.enters r
           older := if e.sparse then e.older else e.older.map fun d => d.enters r }

/-! PEER edges (R55). -/

/-- The room for records in a datagram (R71). -/
def State.recordRoom (s : State) (t : Nat) : Nat := if (s.cctx t 0x10C).getLsbD 24 then 8904 else 1404
/-- The records of an edge that fit into a datagram. -/
def State.recordsFit (s : State) (t : Nat) (e : Edge) : Nat := max 1 (s.recordRoom t / e.bytes)

/-- A datagram with records of one frame of an edge (R70). -/
def recordsGram (t gid e : Nat) (x : Edge) (f : W32) (l : List Rec) : Datagram :=
  { Datagram.blank t 0 with
    graph := BitVec.ofNat 32 gid, edge := e, size := x.size, count := l.length, frame := f
    first := BitVec.ofNat 32 ((l.head?.map Rec.key).getD 0), body := l.flatMap (·.data) }
/-- A close marker. -/
def closeGram (t gid e : Nat) (x : Edge) (f : W32) (copy : Nat) : Datagram :=
  { Datagram.blank t 1 with graph := BitVec.ofNat 32 gid, edge := e, size := x.size, frame := f, copy := copy }

/-- Warps of a context with peer writes that are not answered, among some (R181). -/
def State.unanswered (s : State) (t : Nat) (own : List (Nat × Nat)) : Bool :=
  (s.ctx t).streams.any fun p => p.2.reqs.any fun r => r.write && own.any fun o => decide (o = (r.wg, r.w))

/-- A datagram of a PEER edge is to leave for the peer: behind those that still wait. -/
def State.mustWait (s : State) (t p : Nat) (own : List (Nat × Nat)) : Bool :=
  s.unanswered t own || (s.ctx t).pend.any fun q => match q.1 with | .send p' _ _ => decide (p' = p) | _ => false

/-- Datagrams of a PEER edge leave after the release at SYS that their tokens owe (R65, R84): the entries placed before the acts drain,
and the datagrams wait for the WRITEACKs of the producing warps, which themselves go on (R181, R320). -/
def State.peerSend (s : State) (t p : Nat) (toks : List Token) (l : List Datagram) : State :=
  let s1 := toks.foldl (fun s k => s.payToken 5 k) s
  let own := toks.filterMap (·.own)
  l.foldl (fun s d => if s.mustWait t p own then s.putOff t (.send p d own) else s.relSend t p d) s1

/-- Datagrams of PEER edges that waited for WRITEACKs leave, in order, as far as the answers have come. -/
def State.sendsGo (t p : Nat) : List (Pend × Nat) → State → State
  | [], s => s
  | e :: rest, s =>
    match e.1 with
    | .send q d own =>
      if q ≠ p then State.sendsGo t p rest s
      else if s.unanswered t own then s
      else State.sendsGo t p rest ((s.modCtx t fun c => { c with pend := c.pend.erase e }).relSend t p d)
    | _ => State.sendsGo t p rest s

/-- The same for every peer. -/
def State.sendWaiting (s : State) (t : Nat) : State :=
  (s.ctx t).streams.foldl (fun s q => State.sendsGo t q.1 (s.ctx t).pend s) s

/-- Sends records of a PEER edge on the reliable class, in emit order. -/
def State.peerRecords (s : State) (t n e : Nat) (f : W32) (l : List Rec) : State :=
  let g := s.graph t n
  let x := g.edge e
  let m := s.recordsFit t x
  s.peerSend t x.peer (l.map (·.tok)) (((List.range ((l.length + m - 1) / m)).map fun i => (l.drop (m * i)).take m).map
    fun r => recordsGram t g.gid.toNat e x f r)

/-- A stage is held on its new side for a frame (R87 step 4). -/
def Graph.holding (g : Graph) (k : Nat) (f : W32) : Bool :=
  match g.move with
  | .some m => m.accepted && laterEq f m.frame && m.stages.any fun x => decide (x.stage = k) && x.toHere && !x.ready
  | .none => false

/-- The deadline D of a stage, the largest of the edges that touch it (R87 step 7), and the die it is counted on (R5). DESIGN CHOICE
(log 25): where edges with different ring dies tie for the largest, the lowest-numbered of them gives the die. -/
def Graph.deadline (g : Graph) (k : Nat) : Nat × Nat :=
  (g.edges.filter fun e => decide (e.prod = k) || decide (e.cons = k)).foldl (fun d e =>
    if d.1 < e.deadline then (e.deadline, e.ringDie) else d) (0, 0)

/-- The new side of a moving stage receives work for it (R87 step 7). -/
def State.noteWork (s : State) (t n k : Nat) (f : W32) : State :=
  s.modGraph t n fun g =>
    if g.holding k f then
      { g with move := g.move.map fun m => { m with stages := m.stages.map fun x =>
          if x.stage = k ∧ x.since.isNone then { x with since := some (s.die (g.deadline k).2).counter } else x } }
    else g

/-! Closing (R54, R56). -/

/-- Something of a frame that is to be looked at: an edge its producers have closed, a close that reaches the distributor with its
tokens, a stage. -/
inductive Due where
  | edge (e : Nat) (f : W32)
  | arrived (e : Nat) (f : W32) (toks : List Token)
  | stage (k : Nat) (f : W32)
  deriving DecidableEq, Repr

/-- No workgroup of a frame of a stage waits for placement, and none will come: a stage launched by records has had the
close of its TRIGGER edge and has been given every record (log 22); another has started a workgroup (R54). -/
def State.frameReady (s : State) (t n k : Nat) (f : W32) : Bool :=
  let g := s.graph t n
  let st := g.stage k
  let tr := g.edge st.trigger
  (s.dies.all fun d => d.2.grids.all fun x =>
    !(decide (x.ctx = t) && decide (x.graph = some n) && decide (x.lrec.stage = k) && decide (x.lrec.frame = f)
      && decide (x.next < x.lrec.count)))
    && (if st.trigen then tr.closedAt.contains f && !tr.hasRecord f else decide (0 < (g.frameOf k f).started))

/-- The tokens of the close of a frame on an edge (R65): those of every workgroup that has closed it, or for a raster edge of every
workgroup's end; of a frame that started no workgroup, those of the close of the TRIGGER edge (R54). -/
def Graph.closeToks (g : Graph) (e : Nat) (f : W32) : List Token :=
  let k := (g.edge e).prod
  let fr := g.frameOf k f
  if fr.started = 0 then ((g.edge (g.stage k).trigger).tokens.filter fun p => p.1 = f).map (·.2)
  else SMap.get (if g.raster e then 32 else e) [] fr.toks

/-- The tokens of the close of a frame of a stage. -/
def Graph.endToks (g : Graph) (k : Nat) (f : W32) : List Token :=
  let fr := g.frameOf k f
  if fr.started = 0 then ((g.edge (g.stage k).trigger).tokens.filter fun p => p.1 = f).map (·.2) else SMap.get 32 [] fr.toks

/-- An `rtwr` of a frame of a stage has not placed all its entries (R66). -/
def State.rtPending (s : State) (t n k : Nat) (f : W32) : Bool :=
  s.wgs.any fun p => decide (p.2.ctx = t) && decide (p.2.graph = some n) && decide (p.2.stage = some k) && decide (p.2.frame = f)
    && p.2.warps.any fun x => x.ops.any fun o => decide (o.kind = .rtw) && !o.performed

/-- The close of a frame of a PIXEL stage (R66): its render-target entries drain into V, then each writing core releases at
DEV. -/
def State.pixelClose (s : State) (t n k : Nat) (f : W32) : State :=
  let s1 := s.dies.foldl (fun s d => s.rtMove d.1 fun e =>
    decide (e.ctx = t) && decide (e.graph = some n) && decide (e.stage = some k) && decide (e.frame = f)) s
  ((s.graph t n).frameOf k f).cores.foldl (fun s c => s.release c 4) s1

/-- A frame of a stage closes: the close is an act of its own, and with CLOSEDEC = 1 it decrements a counter (R62), with the tokens of
the ends of its workgroups (R65); that of a PIXEL stage orders at DEV beside (R66). -/
def State.stageClosed (s : State) (t n k : Nat) (f : W32) : State :=
  let st := (s.graph t n).stage k
  let toks := (s.graph t n).endToks k f
  let s1 := s.modFrame t n k f fun x => { x with done := true }
  let s2 := if st.kind = 3 then s1.pixelClose t n k f else s1
  match st.closeDec with
  | some c => s2.decrement t c (toks ++ if st.kind = 3 then [{ dev := true }] else [])
  | none => s2

/-- The close of a frame may reach the distributor of an edge: on a raster edge once the MESH stage's frame has closed and
every batch of it is written (R335). -/
def Graph.mayArrive (g : Graph) (e : Nat) (f : W32) : Bool :=
  let x := g.edge e
  !x.closedAt.contains f && (!g.raster e || ((g.frameOf x.prod f).done && x.batches.all fun r => decide (r.frame ≠ f)))

/-- Works through what is due (R54); a frame's closes run along the edges, which form no cycle. DESIGN CHOICE (log 80): a frame that has
closed on an edge, or as a stage, stays closed and closes no second time, whatever STAGE records are launched into it later. -/
def State.runDue (t n : Nat) : Nat → List Due → State → State
  | 0, _, s => s
  | _, [], s => s
  | fuel + 1, .edge e f :: rest, s =>
    let g := s.graph t n
    let x := g.edge e
    match g.kindAt f e with
    | 0 => State.runDue t n fuel (if g.raster e then rest else .arrived e f (g.closeToks e f) :: rest) s
    | 1 => State.runDue t n fuel rest (s.peerSend t x.peer (g.closeToks e f) [closeGram t g.gid.toNat e x f 0])
    | _ => State.runDue t n fuel rest (s.modEdge t n e fun x => { x with sendClosed := x.sendClosed ++ [f] })
  | fuel + 1, .arrived e f toks :: rest, s =>
    let g := s.graph t n
    let x := g.edge e
    if !g.mayArrive e f then State.runDue t n fuel rest s
    else
      let s1 := s.modEdge t n e fun x => { x with closedAt := x.closedAt ++ [f], tokens := x.tokens ++ toks.map fun k => (f, k) }
      let st := g.stage x.cons
      State.runDue t n fuel (if st.trigen && decide (st.trigger = e) then .stage x.cons f :: rest else rest) s1
  | fuel + 1, .stage k f :: rest, s =>
    let g := s.graph t n
    if !g.here f k || !s.frameReady t n k f then State.runDue t n fuel rest s
    else
      let fr := g.frameOf k f
      let es := (g.outEdges k).filter fun e => !fr.closed.contains e && decide (SMap.get e 0 fr.edges = fr.started)
      let s1 := s.modFrame t n k f fun x => { x with closed := x.closed ++ es }
      let allClosed := (g.outEdges k).all fun e => fr.closed.contains e || es.contains e
      if allClosed && decide (fr.ended = fr.started) && !fr.done && !s.rtPending t n k f then
        State.runDue t n fuel
          (es.map (Due.edge · f) ++ ((g.outEdges k).filter g.raster).map (fun e => Due.arrived e f (g.closeToks e f)) ++ rest)
          (s1.stageClosed t n k f)
      else State.runDue t n fuel (es.map (Due.edge · f) ++ rest) s1

/-- Looks at what is due. -/
def State.settleDue (s : State) (t n : Nat) (l : List Due) : State := State.runDue t n 512 l s

/-! Slots (R58). -/

/-- The rasteriser writes batches that wait into the ring's free slots (R335); they are work for a stage that is held (R87 step 7). -/
def State.flushRaster (s : State) (t n e : Nat) : State :=
  let x := s.edge t n e
  let k := min x.batches.length (x.slots - x.ring.length)
  if k = 0 then s
  else
    let l := x.batches.take k
    (l.foldl (fun s r => s.noteWork t n x.cons r.frame)
      (s.modEdge t n e fun x => { l.foldl Edge.push x with batches := x.batches.drop k })).settleDue t n
      (l.map fun r => .arrived e r.frame ((s.graph t n).closeToks e r.frame))

/-- Frees slots of an edge's ring. -/
def State.freeSlots (s : State) (t n e : Nat) (slots : List Nat) : State :=
  if slots.isEmpty then s
  else (s.modEdge t n e fun x => { x with ring := x.ring.filter fun p => !slots.contains p.1.slot }).flushRaster t n e

/-- R58: frees every slot of an edge that a workgroup holds. -/
def State.freeRing (s : State) (g e : Nat) : State :=
  let x := s.wg g
  (s.modWg g fun x => { x with ringHeld := x.ringHeld.filter fun p => p.1 ≠ e }).freeSlots x.ctx x.graphNo e
    ((x.ringHeld.filter fun p => p.1 = e).map (·.2))

/-- A workgroup closes an edge for its frame (R54), by an act with a token. -/
def State.closeEdge (s : State) (g e : Nat) (tok : Token) : State :=
  let x := s.wg g
  match x.graph, x.stage with
  | some n, some k =>
    ((s.modWg g fun x => { x with closed := x.closed ||| BitVec.ofNat 32 (2 ^ e) }).modFrame x.ctx n k x.frame fun f =>
      { f with edges := SMap.put e (SMap.get e 0 f.edges + 1) f.edges, toks := SMap.put e (SMap.get e [] f.toks ++ [tok]) f.toks }).settleDue
        x.ctx n [.stage k x.frame]
  | _, _ => s

/-- The outgoing edges that a workgroup has not closed. -/
def State.openEdges (s : State) (g : Nat) : List Nat :=
  match (s.wg g).stage with
  | some k => ((s.graphOf g).outEdges k).filter fun e => !(s.wg g).closed.getLsbD e
  | none => []

end Sys2Proof.Machine
end

