-- ==== Sys2Proof/Machine/Raster.lean ====
section
/-! DEFINITION. The rasteriser's geometry (R335, R336): snapping, coverage, coarse pixels, batches, and exact
interpolation. -/

namespace Sys2Proof.Machine

/-- Width and height of a coarse pixel by rate code (R334). -/
def rateDims (r : Nat) : Nat × Nat :=
  match r with
  | 0 => (1, 1) | 1 => (1, 2) | 2 => (2, 1) | 3 => (2, 2) | 4 => (2, 4) | 5 => (4, 2) | _ => (4, 4)

/-- Width and height of the viewport (R335). -/
def viewDims (v : W32) : Nat × Nat := (bits v.toNat 15 0 + 1, bits v.toNat 31 16 + 1)

/-- A point in 1/256 of a pixel, y downward. -/
abbrev Pt := Int × Int

/-- Word k of slot s of vertex v of a primitive's 96 words. -/
def vword (vs : List W32) (v s k : Nat) : W32 := vs.getD (32 * v + 4 * s + k) 0
/-- The same as a value. -/
def vval (vs : List W32) (v s k : Nat) : FVal := decodeF fp32 (vword vs v s k).toNat

/-- A vertex with w ≤ 0 or NaN discards its primitive (R335 step 2). -/
def badW (w : FVal) : Bool := w.isNan || w.le (FVal.ofInt 0)

/-- The snapped place of vertex v (R335 step 3), if it is finite. -/
def snap (view : W32) (vs : List W32) (v : Nat) : Option Pt :=
  let d := viewDims view
  let w := vval vs v 0 3
  let x := (FVal.add 0 ((vval vs v 0 0).div w) (FVal.ofInt 1)).mul (FVal.ofInt (128 * d.1 : Nat))
  let y := (FVal.add 0 (FVal.ofInt 1) ((vval vs v 0 1).div w).neg).mul (FVal.ofInt (128 * d.2 : Nat))
  match x.toInt 0, y.toInt 0 with
  | some a, some b => some (a, b)
  | _, _ => none

/-- Twice the area of a triangle, signed. -/
def area2 (a b p : Pt) : Int := (b.1 - a.1) * (p.2 - a.2) - (b.2 - a.2) * (p.1 - a.1)

/-- A point is inside an edge, or on it when it is a top or left edge of a triangle of positive area. -/
def inEdge (a b p : Pt) : Bool :=
  let e := area2 a b p
  decide (0 < e) || (decide (e = 0) && ((decide (b.2 = a.2) && decide (a.1 < b.1)) || decide (b.2 < a.2)))

/-- A point is covered by a triangle of either winding (R335 step 4); one without area covers nothing. -/
def inTri (a b c p : Pt) : Bool :=
  let r := area2 a b c
  if r = 0 then false
  else
    let q := if 0 < r then (b, c) else (c, b)
    inEdge a q.1 p && inEdge q.1 q.2 p && inEdge q.2 a p

/-- The centre of a fine pixel. -/
def centre (x y : Nat) : Pt := (256 * (x : Int) + 128, 256 * (y : Int) + 128)

/-- A fine pixel of the viewport is covered. -/
def covered (view : W32) (t : Pt × Pt × Pt) (x y : Nat) : Bool :=
  decide (x < (viewDims view).1) && decide (y < (viewDims view).2) && inTri t.1 t.2.1 t.2.2 (centre x y)

/-- The covered fine pixels of the coarse pixel at an origin, in raster order. -/
def fineOf (view : W32) (t : Pt × Pt × Pt) (d : Nat × Nat) (o : Nat × Nat) : List (Nat × Nat) :=
  (List.range (d.1 * d.2)).filterMap fun k =>
    let x := o.1 + k % d.1
    let y := o.2 + k / d.1
    if covered view t x y then some (x, y) else none

/-- The origins of the four coarse pixels of a quad of a tile, the quads in raster order (R335 steps 6 and 7). -/
def quadOrigins (d : Nat × Nat) (tx ty q : Nat) : List (Nat × Nat) :=
  let across := 8 / d.1
  (List.range 4).map fun i => (16 * tx + (q % across * 2 + i % 2) * d.1, 16 * ty + (q / across * 2 + i / 2) * d.2)

/-- The quads of a tile that a triangle touches: their origins, each with its covered fine pixels. -/
def tileQuads (view : W32) (t : Pt × Pt × Pt) (d : Nat × Nat) (tx ty : Nat) : List (List ((Nat × Nat) × List (Nat × Nat))) :=
  ((List.range (8 / d.1 * (8 / d.2))).map fun q =>
    (quadOrigins d tx ty q).map fun o => (o, fineOf view t d o)).filter fun q => q.any fun l => !l.2.isEmpty

/-- A list cut into pieces of n. -/
def pieces {α : Type} (n : Nat) : Nat → List α → List (List α)
  | 0, _ => []
  | _, [] => []
  | k + 1, l => l.take n :: pieces n k (l.drop n)

/-- The tiles from lo to hi (in 1/256 pixel) of an axis of n pixels. -/
def tileRange (lo hi : Int) (n : Nat) : List Nat :=
  let a := (lo / 4096).toNat
  let b := min ((hi / 4096) + 1).toNat ((n + 15) / 16)
  (List.range (b - a)).map (· + a)

/-- The batches of a primitive (R335 step 6): tile and lanes of each. -/
def batchesOf (view : W32) (rate : Nat) (t : Pt × Pt × Pt) : List (Nat × Nat × List ((Nat × Nat) × List (Nat × Nat))) :=
  let d := rateDims rate
  let lo := fun (f : Pt → Int) => min (f t.1) (min (f t.2.1) (f t.2.2))
  let hi := fun (f : Pt → Int) => max (f t.1) (max (f t.2.1) (f t.2.2))
  let v := viewDims view
  (tileRange (lo (·.2)) (hi (·.2)) v.2).flatMap fun ty =>
    (tileRange (lo (·.1)) (hi (·.1)) v.1).flatMap fun tx =>
      (pieces 8 64 (tileQuads view t d tx ty)).map fun c => (tx, ty, c.flatten)

/-- The record of a batch: its pixels, and its words followed by zeros (R335 step 6). -/
def batchRec (edge : Nat) (view : W32) (size rate : Nat) (vs : List W32) (frame : W32) (seq : Nat)
    (b : Nat × Nat × List ((Nat × Nat) × List (Nat × Nat))) : Rec :=
  let cov := maskOf fun l => !((b.2.2.getD l ((0, 0), [])).2).isEmpty
  { frame := frame
    data := leList 4 seq ++ leList 2 b.1 ++ leList 2 b.2.1 ++ leList 4 cov.toNat ++ leList 4 rate
      ++ List.replicate (size - 16) 0
    px := some { edge := edge, frame := frame, seq := seq, rate := rate, view := view, verts := vs, org := b.2.2.map (·.1)
                 fine := b.2.2.map (·.2), left := cov } }

/-- What the rasteriser makes of a primitive: its tickets and the records of its batches (R335 steps 2 to 7, R337). -/
def rasterPrim (edge : Nat) (view : W32) (size rate : Nat) (cull : Bool) (vs : List W32) (frame : W32) (seq : Nat) :
    Option (Prim × List Rec) :=
  if cull || badW (vval vs 0 0 3) || badW (vval vs 1 0 3) || badW (vval vs 2 0 3) then none
  else
    match snap view vs 0, snap view vs 1, snap view vs 2 with
    | some a, some b, some c =>
      let l := batchesOf view rate (a, b, c)
      if l.isEmpty then none
      else some ({ frame := frame, seq := seq, tickets := l.flatMap fun b => b.2.2.flatMap (·.2) },
        l.map (batchRec edge view size rate vs frame seq))
    | _, _, _ => none

/-! Interpolation (R336). -/

/-- The exact barycentrics of a point, from the snapped vertices. -/
def barys (view : W32) (vs : List W32) (p : Pt) : List FVal :=
  let v := fun k => (snap view vs k).getD (0, 0)
  let r := FVal.ofInt (area2 (v 0) (v 1) (v 2))
  [(FVal.ofInt (area2 (v 1) (v 2) p)).div r, (FVal.ofInt (area2 (v 2) (v 0) p)).div r, (FVal.ofInt (area2 (v 0) (v 1) p)).div r]

/-- Σ λ_i f_i, exactly. -/
def barySum (l : List FVal) (f : Nat → FVal) : FVal :=
  FVal.add 0 (FVal.add 0 ((l.getD 0 .nan).mul (f 0)) ((l.getD 1 .nan).mul (f 1))) ((l.getD 2 .nan).mul (f 2))

/-- An attribute at a point. -/
def attrAt (view : W32) (vs : List W32) (p : Pt) (slot comp : Nat) : Nat :=
  let l := barys view vs p
  let w := fun i => vval vs i 0 3
  let ratio := fun k i => (vval vs i slot k).div (w i)
  let den := barySum l fun i => (FVal.ofInt 1).div (w i)
  if slot ≠ 0 then roundF fp32 0 ((barySum l (ratio comp)).div den)
  else if comp = 0 then roundF fp32 0 ((FVal.ofInt p.1).div (FVal.ofInt 256))
  else if comp = 1 then roundF fp32 0 ((FVal.ofInt p.2).div (FVal.ofInt 256))
  else if comp = 2 then roundF fp32 0 (barySum l (ratio 2))
  else roundF fp32 0 den

/-- The centre of a coarse pixel. -/
def coarseCentre (d : Nat × Nat) (o : Nat × Nat) : Pt := (256 * (o.1 : Int) + 128 * d.1, 256 * (o.2 : Int) + 128 * d.2)

/-- The point of `.cen`: the centre when its fine pixel is covered, else that of the first covered fine pixel. -/
def cenPoint (d : Nat × Nat) (o : Nat × Nat) (fine : List (Nat × Nat)) : Option Pt :=
  if fine.contains (o.1 + d.1 / 2, o.2 + d.2 / 2) then some (coarseCentre d o)
  else fine.head?.map fun p => centre p.1 p.2

end Sys2Proof.Machine
end

