-- ==== Sys2Proof/Machine/Sampler.lean ====
section
/-! DEFINITION. Residency maps, feedback and the texture lookups (R163 to R167, R297, R298, R325 to R328). -/

namespace Sys2Proof.Machine

/-! Texels (R327). -/

/-- Width and height of level 0 (R227). -/
def PoolRec.width (r : PoolRec) : Nat := bits r.stride 15 0 + 1
def PoolRec.height (r : PoolRec) : Nat := bits r.stride 31 16 + 1

/-- An extent at a level. -/
def levelExtent (e l : Nat) : Nat := max 1 (e / 2 ^ l)

/-- Width and height of a region in texels of a size (R163). -/
def regionDims (bpt : Nat) : Nat × Nat :=
  match bpt with
  | 1 => (256, 256) | 2 => (256, 128) | 4 => (128, 128) | 8 => (128, 64) | _ => (64, 64)

/-- Tiles across and down a level. -/
def PoolRec.tiles (r : PoolRec) (l : Nat) : Nat × Nat :=
  let d := regionDims (texelBytes r.fmt)
  ((levelExtent r.width l + d.1 - 1) / d.1, (levelExtent r.height l + d.2 - 1) / d.2)

/-- O_l. -/
def PoolRec.levelAt (r : PoolRec) (l : Nat) : Nat :=
  (List.range l).foldl (fun n i => n + (r.layers + 1) * (r.tiles i).1 * (r.tiles i).2 * 65536) 0

/-- The byte offset of a texel from BASE. -/
def PoolRec.texelOff (r : PoolRec) (x y k l : Nat) : Nat :=
  let b := texelBytes r.fmt
  let d := regionDims b
  let t := r.tiles l
  r.levelAt l + ((k * t.2 + y / d.2) * t.1 + x / d.1) * 65536 + (y % d.2 * d.1 + x % d.1) * b

/-- An integer coordinate resolved along an axis of extent e by its mode (R327); none is the border. -/
def resolveCoord (mode e : Nat) (i : Int) : Option Nat :=
  match mode with
  | 0 => some (i % (e : Int)).toNat
  | 1 => some (max 0 (min i ((e : Int) - 1))).toNat
  | 2 =>
    let m := (i % (2 * e : Int)).toNat
    some (if m < e then m else 2 * e - 1 - m)
  | _ => if 0 ≤ i ∧ i < e then some i.toNat else none

/-- The sampler word and the record of an instruction. -/
structure Tex where
  pool   : Nat
  res    : PoolRec
  filter : Nat
  au     : Nat
  av     : Nat
  border : Nat
  bias   : Int
  deriving DecidableEq, Repr

/-- Reads the sampler word (R325). -/
def Tex.of (pool : Nat) (r : PoolRec) (w : W32) : Tex :=
  let x := w.toNat
  { pool := pool, res := r, filter := bits x 1 0, au := bits x 3 2, av := bits x 5 4, border := bits x 7 6
    bias := sInt 8 (bits x 15 8) }

/-- FP32 1.0. -/
def one32 : Nat := 0x3F800000

/-- The border colour as FP32 bits. -/
def Tex.borderColour (t : Tex) : List Nat :=
  match t.border with
  | 0 => [0, 0, 0, 0]
  | 1 => [0, 0, 0, one32]
  | _ => [one32, one32, one32, one32]

/-- A tap: integer coordinates and the weight of its texel. -/
abbrev Tap := Int × Int × FVal

/-- The index of an infinite coordinate (R328). -/
def infIndex (neg : Bool) : Int := if neg then -(2 ^ 31) else 2 ^ 31

/-- The index of a point lookup. -/
def pointIndex (u : FVal) (e : Nat) : Int :=
  match u.mul (FVal.ofInt e) with
  | .inf neg => infIndex neg
  | v => (v.toInt 2).getD 0

/-- The index and fraction of a bilinear lookup. -/
def linearIndex (u : FVal) (e : Nat) : Int × FVal :=
  match decodeF fp32 (roundF fp32 0 (FVal.add 0 (u.mul (FVal.ofInt e)) (.fin true 1 2 0))) with
  | .inf neg => (infIndex neg, FVal.ofInt 0)
  | v =>
    let i := (v.toInt 2).getD 0
    (i, FVal.add 0 v (FVal.ofInt (-i)))

/-- The taps of a lookup at a level (R328). -/
def Tex.taps (t : Tex) (linear : Bool) (u v : FVal) (l : Nat) : List Tap :=
  let w := levelExtent t.res.width l
  let h := levelExtent t.res.height l
  if linear then
    let x := linearIndex u w
    let y := linearIndex v h
    let gx := FVal.add 0 (FVal.ofInt 1) x.2.neg
    let gy := FVal.add 0 (FVal.ofInt 1) y.2.neg
    [(x.1, y.1, gx.mul gy), (x.1 + 1, y.1, x.2.mul gy), (x.1, y.1 + 1, gx.mul y.2), (x.1 + 1, y.1 + 1, x.2.mul y.2)]
  else [(pointIndex u w, pointIndex v h, FVal.ofInt 1)]

/-- What a tap reads: the border; zeros, at or beyond the record's end; or a texel, with its address. -/
inductive TapAt where
  | border
  | zero (x y : Nat)
  | texel (x y va : Nat)
  deriving DecidableEq, Repr

/-- Resolves a tap at a level and layer. -/
def Tex.tapAt (t : Tex) (k l : Nat) (p : Tap) : TapAt :=
  match resolveCoord t.au (levelExtent t.res.width l) p.1, resolveCoord t.av (levelExtent t.res.height l) p.2.1 with
  | some x, some y =>
    let off := t.res.texelOff x y k l
    if t.res.size < off + texelBytes t.res.fmt then .zero x y else .texel x y ((t.res.base + off) % 2 ^ 64)
  | _, _ => .border

/-! Residency maps (R163). -/

/-- A map's header. -/
structure MapHdr where
  rx     : Nat
  ry     : Nat
  layers : Nat
  tail   : Nat
  deriving DecidableEq, Repr

/-- Reads bytes of a map with acquire at DEV (R164): bytes; none when they cannot be read; or a walk that waits. -/
inductive MapRead where
  | bytes (b : List W8) (s : State)
  | absent (s : State)
  | mig (s : State)

/-- A map read for a warp (R127, R164): its own entries drain to DEV, and the copies of its path are discarded. -/
def State.mapRead (s : State) (g w va n : Nat) : MapRead :=
  let t := (s.wg g).ctx
  let c := s.coreOf g
  match s.translate t 0 va n .read (some (g, w)) with
  | .mig e => .mig ((s.missed t (some (g, w)) e).keepReads t)
  | .fault _ e => .absent (s.missed t (some (g, w)) e)
  | .ok tgt e =>
    let s1 := s.translated t (some (g, w)) e
    let s2 := match tgt.cell t with
      | some (dev, a, _) => (s1.drainTo c 4 (ownRange g w dev a n)).acquire c 4
      | none => s1
    let hit := s2.ueAt tgt n
    if !hit.isEmpty then .absent (s2.meetLines t (some (g, w)) hit)
    else
      match s2.loadAt t c 4 va tgt n with
      | .ok b s3 => .bytes b s3
      | .fault _ s3 => .absent s3
      | .later s3 => .mig s3

/-- What reading a header gives: it, none when it breaks R163 or cannot be read, or a wait. -/
inductive HdrRead where
  | hdr (h : MapHdr) (s : State)
  | none (s : State)
  | mig (s : State)

def State.mapHdr (s : State) (g w rmap : Nat) : HdrRead :=
  match s.mapRead g w rmap 16 with
  | .mig s1 => .mig s1
  | .absent s1 => .none s1
  | .bytes b s1 =>
    let x := leVal (b.take 8)
    if bits x 47 32 = 0 ∨ bits x 63 52 ≠ 0 ∨ leVal (b.drop 8) ≠ 0 then .none s1
    else .hdr { rx := bits x 15 0, ry := bits x 31 16, layers := bits x 47 32, tail := bits x 51 48 } s1

/-- A region: across, down, layer. -/
abbrev Region := Nat × Nat × Nat

/-- The byte of a region; 0xFF outside the map and where it cannot be read. -/
def State.mapByte (s : State) (g w rmap : Nat) (h : MapHdr) (r : Region) : MapRead :=
  if h.rx ≤ r.1 ∨ h.ry ≤ r.2.1 ∨ h.layers ≤ r.2.2 then .bytes [0xFF] s
  else
    match s.mapRead g w (rmap + 16 + (r.2.2 * h.ry + r.2.1) * h.rx + r.1) 1 with
    | .absent s1 => .bytes [0xFF] s1
    | x => x

/-- The map bytes of regions. -/
def State.mapBytes (s : State) (g w rmap : Nat) (h : MapHdr) : List Region → List Nat → Except State (List Nat × State)
  | [], acc => .ok (acc, s)
  | r :: rest, acc =>
    match s.mapByte g w rmap h r with
    | .bytes b s1 => State.mapBytes s1 g w rmap h rest (acc ++ [leVal b])
    | .absent s1 => .error s1
    | .mig s1 => .error s1

/-! The lookup's level (R164). -/

/-- A footprint translated: places for the texels that have addresses, in order; or why not. -/
inductive Foot where
  | ok (l : List Target) (s : State)
  | fault (c : Cause) (va : Nat) (s : State)
  | mig (s : State)

/-- Translates the texels of a footprint for a warp. -/
def State.footTargets (s : State) (g w n : Nat) : List Nat → List Target → Foot
  | [], acc => .ok acc s
  | va :: rest, acc =>
    let t := (s.wg g).ctx
    match s.translate t 0 va n .read (some (g, w)) with
    | .mig e => .mig ((s.missed t (some (g, w)) e).keepReads t)
    | .fault x e => .fault x va (s.missed t (some (g, w)) e)
    | .ok tgt e => State.footTargets (s.translated t (some (g, w)) e) g w n rest (acc ++ [tgt])

/-- The addresses of a footprint. -/
def tapVas (l : List TapAt) : List Nat := l.filterMap fun p => match p with | .texel _ _ va => some va | _ => none

/-- What finding the level whose footprint is present gives. -/
inductive LevelRes where
  | ok (l : LookLevel) (foot : List Target) (s : State)
  | mig (s : State)

/-- What R164's loop makes of a level of which a page is absent: the next one, or kind 3 from TAIL on. -/
def LookLevel.coarser (l : LookLevel) (tail : Nat) (first : Region) : LookLevel :=
  if tail ≤ l.lev then { l with kind := 3, inc := true, region := first }
  else { l with lev := l.lev + 1, kind := if tail ≤ l.lev + 1 then 2 else 1, inc := true, region := first }

/-- The loop of R164 from a level on: the first level whose footprint is present and readable. `vas` gives the addresses of
the footprint at a level, `first` the first region that the footprint touches. -/
def State.findLevel (s : State) (g w n tail : Nat) (vas : Nat → List Nat) (first : Region) : Nat → LookLevel → LevelRes
  | 0, l => .ok { l with kind := 3, inc := true, region := first } [] s
  | k + 1, l =>
    match s.footTargets g w n (vas l.lev) [] with
    | .mig s1 => .mig s1
    | .ok f s1 => .ok l f s1
    | .fault _ _ s1 =>
      if tail ≤ l.lev then .ok (l.coarser tail first) [] s1
      else State.findLevel s1 g w n tail vas first k (l.coarser tail first)

/-- The map-byte order of regions. -/
def regionLt (a b : Region) : Bool :=
  if a.2.2 ≠ b.2.2 then decide (a.2.2 < b.2.2)
  else if a.2.1 ≠ b.2.1 then decide (a.2.1 < b.2.1) else decide (a.1 < b.1)

/-- The first of some regions in map-byte order. -/
def firstRegion : List Region → Region
  | [] => (0, 0, 0)
  | r :: rs => rs.foldl (fun a b => if regionLt b a then b else a) r

/-- What a wanted level becomes by the map bytes (R164): a decided level, or a wait. -/
inductive Decided where
  | ok (l : LookLevel) (s : State)
  | mig (s : State)

/-- R164 for one wanted level, as far as the map bytes decide it: `regs` are the regions that the footprint at level L touches. -/
def State.decideLevel (s : State) (g w rmap : Nat) (h : MapHdr) (L : Nat) (regs : List Region) : Decided :=
  if h.tail ≤ L then .ok { want := L, lev := L, kind := 0, inc := false, region := firstRegion regs } s
  else
    match s.mapBytes g w rmap h regs [] with
    | .error s1 => .mig s1
    | .ok (bs, s1) =>
      let m := bs.foldl max 0
      let l : LookLevel := { want := L, lev := L, kind := 0, inc := false
                             region := firstRegion (((regs.zip bs).filter fun p => p.2 = m).map (·.1)) }
      .ok (if m ≤ L then l
        else if m < h.tail then { l with lev := m, kind := 1 } else { l with lev := h.tail, kind := 2 }) s1

/-- Status bits [5:0] (R164). -/
def LookLevel.status (l : LookLevel) : Nat := l.kind + 4 * if l.kind = 3 then 0 else min (l.lev - l.want) 15

/-! Feedback (R165, R166). -/

/-- A request: pool index, wanted level, region, INCONSISTENT. -/
structure Feed where
  pool : Nat
  lvl  : Nat
  reg  : Region
  inc  : Bool
  deriving DecidableEq, Repr

/-- The key of a request. -/
def Feed.key (f : Feed) : Nat × Nat × Nat × Nat × Nat := (f.pool, f.lvl, f.reg.1, f.reg.2.1, f.reg.2.2)

/-- What a request gives: bits of the status byte, or a wait on MIG. -/
inductive FeedRes where
  | bits (x : Nat) (s : State)
  | later (s : State)

/-- A record dropped: `fb_ovf` counts it and bit 7 is set. -/
def State.feedDrop (s : State) (t : Nat) : FeedRes := .bits 128 (s.countCtx t 0x109 31 0 1)

/-- One request (R166): the status bits it gives. -/
def State.feed (s : State) (g : Nat) (f : Feed) : FeedRes :=
  let t := (s.wg g).ctx
  let c := s.coreOf g
  let ctl := (s.cctx t 0x108).toNat
  let log2n := bits ctl 4 0
  let base := bits ctl 55 6 * 64
  if !bit ctl 5 ∨ log2n < 2 ∨ 16 < log2n then .bits 0 s
  else
    let s0 := if (s.core c).filter.ctx = t then s else s.modCore c fun k => { k with filter := { ctx := t } }
    if (s0.core c).filter.keys.contains f.key then .bits 64 s0
    else
      match s0.devRead t base 8 with
      | .ok b s1 =>
        let put := leVal (b.take 4)
        let get := leVal (b.drop 4)
        if 2 ^ log2n ≤ (put + 2 ^ 32 - get) % 2 ^ 32 then s1.feedDrop t
        else
          let bytes := leList 4 (f.pool + 2 ^ 16 * f.lvl + if f.inc then 2 ^ 20 else 0)
            ++ leList 4 (f.reg.1 + 2 ^ 16 * f.reg.2.1) ++ leList 4 f.reg.2.2 ++ leList 4 (s.wg g).frame.toNat
          match s1.devWrite t (base + 64 + 16 * (put % 2 ^ log2n)) bytes with
          | .ok _ s2 =>
            (match s2.devWrite t base (leList 4 (put + 1)) with
              | .ok _ s3 =>
                .bits 64 (s3.modCore c fun k =>
                  let ks := k.filter.keys ++ [f.key]
                  { k with filter := { k.filter with keys := if 256 < ks.length then ks.drop 1 else ks } })
              | .fault _ s3 => s3.feedDrop t
              | .later s3 => .later s3)
          | .fault _ s2 => s2.feedDrop t
          | .later s2 => .later s2
      | .fault _ s1 => s1.feedDrop t
      | .later s1 => .later s1

/-! Texels (R328). -/

/-- sRGB to linear (IEC 61966-2-1) of a byte, one rounding to FP32. -/
def srgbDecode (b : Nat) : Nat :=
  if b * 100000 ≤ 4045 * 255 then roundF fp32 0 (.fin false (b * 100) (255 * 1292) 0)
  else roundF fp32 0 (rootNth 5 ((b * 1000 + 55 * 255) ^ 12) ((1055 * 255) ^ 12))

/-- A channel of a float format; NaN becomes the canonical NaN. -/
def floatChannel (f : Fmt) (x : Nat) : Nat := roundF fp32 0 (decodeF f x)

/-- The channels of a format: bytes in each, how many, and how one is decoded (R227, R328). -/
def decodeTexel (fmt : Nat) (srgb : Bool) (b : List W8) : List Nat :=
  let un := fun (i : Nat) => let x := leVal ((b.drop i).take 1)
    if srgb && decide (i < 3) then srgbDecode x else roundF fp32 0 (.fin false x 255 0)
  let h := fun (i : Nat) => floatChannel fp16 (leVal ((b.drop (2 * i)).take 2))
  let w := fun (i : Nat) => floatChannel fp32 (leVal ((b.drop (4 * i)).take 4))
  match fmt with
  | 0 => [un 0, 0, 0, one32]
  | 1 => [un 0, un 1, 0, one32]
  | 2 => [un 0, un 1, un 2, un 3]
  | 3 => [h 0, 0, 0, one32]
  | 4 => [h 0, h 1, 0, one32]
  | 5 => [h 0, h 1, h 2, h 3]
  | 6 => [w 0, 0, 0, one32]
  | 7 => [w 0, w 1, 0, one32]
  | 8 => [w 0, w 1, w 2, w 3]
  | _ => [leVal (b.take 4), 0, 0, one32]

/-- The channels of the taps of a footprint, given the bytes of those of its texels that have addresses. -/
def Tex.tapColours (t : Tex) : List TapAt → List (List W8) → List (List Nat)
  | [], _ => []
  | .border :: ps, bs => t.borderColour :: Tex.tapColours t ps bs
  | .zero _ _ :: ps, bs => decodeTexel t.res.fmt t.res.srgb (List.replicate 16 0) :: Tex.tapColours t ps bs
  | .texel _ _ _ :: ps, b :: bs => decodeTexel t.res.fmt t.res.srgb b :: Tex.tapColours t ps bs
  | .texel _ _ _ :: _, [] => []

/-- The weighted sum of a channel, one rounding of the exact value. -/
def weigh (l : List (FVal × Nat)) : Nat :=
  match l with
  | [] => 0
  | p :: ps =>
    roundF fp32 0 (ps.foldl (fun a q => FVal.add 0 a (q.1.mul (decodeF fp32 q.2))) (p.1.mul (decodeF fp32 p.2)))

/-- The colour of one level's lookup. -/
def blendTaps (linear : Bool) (taps : List Tap) (cols : List (List Nat)) : List Nat :=
  if linear then (List.range 4).map fun ch => weigh ((taps.zip cols).map fun p => (p.1.2.2, p.2.getD ch 0))
  else cols.headD [0, 0, 0, 0]

/-! One lane. -/

/-- The regions that a footprint at level l touches (R163). -/
def Tex.regions (t : Tex) (k l : Nat) (p : List TapAt) : List Region :=
  let d := regionDims (texelBytes t.res.fmt)
  (p.filterMap fun q => match q with
    | .border => none
    | .zero x y => some (x * 2 ^ l / d.1, y * 2 ^ l / d.2, k)
    | .texel x y _ => some (x * 2 ^ l / d.1, y * 2 ^ l / d.2, k)).eraseDups

/-- A NaN input counts as 0 (R326). -/
def noNan (x : W32) : FVal := let v := decodeF fp32 x.toNat; if v.isNan then FVal.ofInt 0 else v

/-- The inputs of a lane. -/
structure LaneIn where
  u : FVal
  v : FVal
  k : Nat
  lam : FVal
  deriving DecidableEq, Repr

/-- λ clamped to [0, N − 1]. -/
def clampLevel (v : FVal) (n : Nat) : FVal :=
  if v.lt (FVal.ofInt 0) then FVal.ofInt 0 else if (FVal.ofInt ((n : Int) - 1)).lt v then FVal.ofInt ((n : Int) - 1) else v

/-- The levels that a lane wants, and the weight of the second (R326): one, or a trilinear pair. `gather` is the channel of `gath4`. -/
def Tex.wants (t : Tex) (gather : Option Nat) (i : LaneIn) : List Nat × FVal :=
  let n := t.res.levels + 1
  let lam := FVal.add 0 i.lam (.fin (decide (t.bias < 0)) t.bias.natAbs 16 0)
  let tri := decide (t.filter = 2) && gather.isNone
  let lc := clampLevel lam n
  let l0 := if tri then (lc.toInt 2).getD 0
    else (FVal.add 0 lam (.fin false 1 2 0)).toRange 2 0 ((n : Int) - 1)
  let L := l0.toNat
  let f := if tri && decide (L + 1 < n) then FVal.add 0 lc (FVal.ofInt (-l0)) else FVal.ofInt 0
  (if f.isZero then [L] else [L, L + 1], f)

/-- A lookup weighs four texels, or reads one. -/
def Tex.linear (t : Tex) (gather : Option Nat) : Bool := decide (t.filter ≠ 0) || gather.isSome

/-- What the taps of a lane read at a level. -/
def Tex.tapsAt (t : Tex) (gather : Option Nat) (i : LaneIn) (l : Nat) : List TapAt :=
  (t.taps (t.linear gather) i.u i.v l).map (t.tapAt i.k l)

/-- What the first part of a lane gives: the levels it looks up, with TAIL, or a wait. -/
inductive LanePlan where
  | ok (l : List LookLevel) (tail : Nat) (s : State)
  | mig (s : State)

/-- Decides wanted levels one after another. -/
def State.decideLevels (s : State) (g w rmap : Nat) (h : MapHdr) (regs : Nat → List Region) : List Nat → List LookLevel → LanePlan
  | [], acc => .ok acc h.tail s
  | L :: rest, acc =>
    match s.decideLevel g w rmap h L (regs L) with
    | .ok l s1 => State.decideLevels s1 g w rmap h regs rest (acc ++ [l])
    | .mig s1 => .mig s1

/-- The first part of a lookup: the map is read, and each wanted level decided by it (R164). Without a map every level is looked up
as it is; a header that breaks R163 gives kind 3. -/
def State.planLane (s : State) (g w rmap : Nat) (wants : List Nat) (regs : Nat → List Region) : LanePlan :=
  let all := fun kind => wants.map fun L => ({ want := L, lev := L, kind := kind, inc := false, region := (0, 0, 0) } : LookLevel)
  if rmap = 0 then .ok (all 0) 0 s
  else
    match s.mapHdr g w rmap with
    | .mig s1 => .mig s1
    | .none s1 => .ok (all 3) 0 s1
    | .hdr h s1 => s1.decideLevels g w rmap h regs wants []

/-- The first region that the footprint of a lane touches at a level it wants (R166). -/
def Tex.firstAt (t : Tex) (gather : Option Nat) (i : LaneIn) (L : Nat) : Region := firstRegion (t.regions i.k L (t.tapsAt gather i L))

/-- The second part of a lookup: each level that the map has decided becomes the first one whose pages are present (R164). Without a map
nothing is asked of the pages: a fault traps when the texel is read (R158). -/
def State.findLevels (s : State) (g w : Nat) (t : Tex) (gather : Option Nat) (i : LaneIn) (tail : Nat) : List LookLevel → List LookLevel → LanePlan
  | [], acc => .ok acc tail s
  | lv :: rest, acc =>
    if lv.kind = 3 ∨ t.res.rmap = 0 then State.findLevels s g w t gather i tail rest (acc ++ [lv])
    else
      match s.findLevel g w (texelBytes t.res.fmt) tail (fun l => tapVas (t.tapsAt gather i l)) (t.firstAt gather i lv.want) 17 lv with
      | .ok lv' _ s1 => State.findLevels s1 g w t gather i tail rest (acc ++ [lv'])
      | .mig s1 => .mig s1

/-- The texels that a level of a lane reads. -/
def Tex.levelVas (t : Tex) (gather : Option Nat) (i : LaneIn) (lv : LookLevel) : List Nat :=
  if lv.kind = 3 then [] else tapVas (t.tapsAt gather i lv.lev)

/-- The units of a texel: at most 8 bytes each (R117, R133). -/
def Tex.unitsOf (t : Tex) (va : Nat) : List (Nat × Nat) :=
  let n := texelBytes t.res.fmt
  if n ≤ 8 then [(va, n)] else (List.range (n / 8)).map fun k => ((va + 8 * k) % 2 ^ 64, 8)

/-- The units that a lane reads: the number of the level, the address, the size. -/
def Tex.laneUnits (t : Tex) (gather : Option Nat) (i : LaneIn) (lvs : List LookLevel) : List (Nat × Nat × Nat) :=
  ((List.range lvs.length).zip lvs).flatMap fun p => ((t.levelVas gather i p.2).flatMap t.unitsOf).map fun u => (p.1, u.1, u.2)

/-- The texels that units have read. -/
def Tex.texels (t : Tex) (got : List (Option (List W8))) : List (List W8) :=
  let m := if texelBytes t.res.fmt ≤ 8 then 1 else texelBytes t.res.fmt / 8
  (List.range (got.length / m)).map fun k => ((got.drop (m * k)).take m).flatMap (·.getD [])

/-- The channels of the taps of a level of a lane; kind 3 gives the border colour. -/
def Tex.levelCols (t : Tex) (gather : Option Nat) (i : LaneIn) (lv : LookLevel) (bs : List (List W8)) : List (List Nat) :=
  if lv.kind = 3 then List.replicate 4 t.borderColour else t.tapColours (t.tapsAt gather i lv.lev) bs

/-- The colour of a level of a lane. -/
def Tex.levelColour (t : Tex) (i : LaneIn) (lv : LookLevel) (bs : List (List W8)) : List Nat :=
  if lv.kind = 3 then t.borderColour
  else blendTaps (t.linear none) (t.taps (t.linear none) i.u i.v lv.lev) (t.levelCols none i lv bs)

/-- The words of a lane, of the texels of its levels (R328): a channel of four texels, one colour, or a trilinear mixture. -/
def Tex.laneWords (t : Tex) (gather : Option Nat) (i : LaneIn) (lvs : List LookLevel) (bs : List (List W8)) : List Nat :=
  match gather, lvs with
  | some ch, lv :: _ => (t.levelCols gather i lv bs).map fun c => c.getD ch 0
  | none, [lv] => t.levelColour i lv bs
  | none, l0 :: l1 :: _ =>
    let f := (t.wants gather i).2
    let n := (t.levelVas none i l0).length
    ((t.levelColour i l0 (bs.take n)).zip (t.levelColour i l1 (bs.drop n))).map fun p =>
      weigh [(FVal.add 0 (FVal.ofInt 1) f.neg, p.1), (f, p.2)]
  | _, [] => []

/-- One of the units that a lane has not read yet, each as likely (R133). -/
def nextUnit (free : Nat) (got : List (Option (List W8))) : Option Nat :=
  match (List.range got.length).filter fun j => ((got[j]?).getD none).isNone with
  | [] => none
  | [j] => some j
  | l => l[(Config.freeWord free).toNat % l.length]?

/-! The coordinates (R326). -/

/-- The coordinates of a lane, with a level λ. -/
def laneIn (t : Tex) (s : State) (c : Cx) (lam : Nat → FVal) (l : Nat) : LaneIn :=
  let reg := fun i => lane (s.groupReg c 0 c.f.sa.toNat i) l
  { u := noNan (reg 0), v := noNan (reg 1), k := ((noNan (reg 2)).toRange 0 0 t.res.layers).toNat, lam := lam l }

/-- λ from vB. -/
def levelIn (t : Tex) (s : State) (c : Cx) (l : Nat) : LaneIn := laneIn t s c (fun l => noNan (lane c.vB l)) l

/-- λ from gradients (R326). -/
def gradIn (t : Tex) (s : State) (c : Cx) (l : Nat) : LaneIn :=
  laneIn t s c (fun l =>
    let g := fun i => noNan (lane (s.groupReg c 2 c.f.sb.toNat i) l)
    let w := FVal.ofInt t.res.width
    let h := FVal.ofInt t.res.height
    let sq := fun (x : FVal) => x.mul x
    let a := FVal.add 0 (sq ((g 0).mul w)) (sq ((g 1).mul h))
    let b := FVal.add 0 (sq ((g 2).mul w)) (sq ((g 3).mul h))
    let m := if a.lt b then b else a
    decodeF fp32 (roundF fp32 0 ((m.log2).mul (.fin false 1 2 0)))) l

/-- The inputs of a lane of a texture lookup. -/
def texIn (k : LookKind) (t : Tex) (s : State) (c : Cx) (l : Nat) : LaneIn := if k = .sgrad then gradIn t s c l else levelIn t s c l
/-- The channel that `gath4` gathers. -/
def LookKind.gather (k : LookKind) (f : Fields) : Option Nat := if k = .gath4 then some f.sub.toNat else none

/-! Queries (R297). -/

/-- What a lane of `resq` asks: the region, if the map has it, and the level. -/
structure Query where
  idx : Nat
  lvl : Nat

/-- The operands of a lane. -/
def Cx.query (c : Cx) (l : Nat) : Query := { idx := (lane c.vB l + c.f.imm).toNat, lvl := bits (lane c.vC l).toNat 3 0 }

/-- The region of an index. -/
def MapHdr.region (h : MapHdr) (idx : Nat) : Option Region :=
  if h.rx * h.ry * h.layers ≤ idx then none else some (idx % h.rx, idx / h.rx % h.ry, idx / h.rx / h.ry)

/-- The address of the texel that a query checks at a level, when the resource holds it. -/
def Tex.queryVas (t : Tex) (r : Region) (l : Nat) : List Nat :=
  let d := regionDims (texelBytes t.res.fmt)
  let off := t.res.texelOff (r.1 * d.1 / 2 ^ l) (r.2.1 * d.2 / 2 ^ l) r.2.2 l
  if t.res.size < off + texelBytes t.res.fmt then [] else [(t.res.base + off) % 2 ^ 64]

/-- The first part of a query: the map byte decides the level. -/
def State.planQuery (s : State) (g w rmap : Nat) (q : Query) : LanePlan :=
  let one := fun kind => [({ want := q.lvl, lev := q.lvl, kind := kind, inc := false, region := (0, 0, 0) } : LookLevel)]
  if rmap = 0 then .ok (one 0) 0 s
  else
    match s.mapHdr g w rmap with
    | .mig s1 => .mig s1
    | .none s1 => .ok (one 3) 0 s1
    | .hdr h s1 =>
      match h.region q.idx with
      | none => .ok (one 3) h.tail s1
      | some r => s1.decideLevels g w rmap h (fun _ => [r]) [q.lvl] []

/-- The second part: the first level whose page is present. -/
def State.answerQuery (s : State) (g w : Nat) (t : Tex) (tail : Nat) (lvs : List LookLevel) : LevelRes :=
  match lvs with
  | [] => .ok { want := 0, lev := 0, kind := 0, inc := false, region := (0, 0, 0) } [] s
  | lv :: _ =>
    if t.res.rmap = 0 ∨ lv.kind = 3 then .ok lv [] s
    else s.findLevel g w (texelBytes t.res.fmt) tail (t.queryVas lv.region) lv.region 17 lv

/-! Lanes of a queued lookup (R133, R166). -/

/-- Updates what a lookup keeps. -/
def State.modLook (s : State) (g w id : Nat) (h : Look → Look) : State := s.modOp g w id fun o => { o with look := o.look.map h }

/-- A lane of a lookup is over, with its words. -/
def State.lookDone (s : State) (g w : Nat) (o : Op) (k : Nat) (words : List Nat) : State :=
  s.unitDone g w o.id k (words.flatMap fun x => leList 4 x) none

/-- A lane of a lookup finds a cause (R158). -/
def State.lookFails (s : State) (g w : Nat) (o : Op) (k : Nat) (c : Cause) (va : Nat) : State :=
  (s.modUnit g w o.id k fun u => { u with va := va }).loadFails g w o.id k c

/-- The feedback that the level of a lane asks for (R166). -/
def LookLevel.feed (lv : LookLevel) (pool : Nat) : Feed := { pool := pool, lvl := lv.want, reg := lv.region, inc := lv.inc }

/-- The texels of a level come from another one, which a feedback request tells (R166); a map whose header breaks R163 gives kind 3 and no
request. -/
def LookLevel.fellBack (lv : LookLevel) : Bool := decide (lv.kind ≠ 0) && (lv.inc || decide (lv.kind ≠ 3))

/-- The level asks for feedback that no lane of its instruction has asked for yet. -/
def LookLevel.asks (lv : LookLevel) (pool : Nat) (fed : List ((Nat × Nat × Nat × Nat × Nat) × Nat)) : Bool :=
  lv.fellBack && fed.all fun p => decide (p.1 ≠ (lv.feed pool).key)

/-- The status of a lane: that of its finer level, with the bits that the level's request gave (R164, R166). -/
def laneStatus (lvs : List LookLevel) (pool : Nat) (fed : List ((Nat × Nat × Nat × Nat × Nat) × Nat)) : Nat :=
  match lvs with
  | [] => 0
  | lv :: _ => lv.status + if !lv.fellBack then 0 else ((fed.find? fun p => p.1 = (lv.feed pool).key).map (·.2)).getD 0

/-- The lower lanes of a lookup are over, or have found their levels, none of which `clash`. -/
def Op.lowerLanes (o : Op) (l : Look) (k : Nat) (clash : List LookLevel → Bool) : Bool :=
  (List.range k).all fun j => ((o.units[j]?).map (·.done)).getD true
    || (match SMap.find j l.lanes with | some x => x.words.isSome && !clash x.levels | none => false)

/-- The last part of a lane: the request of its first level that asks for feedback, once for all lanes of one key, which the
lowest of them makes (R166); the lane is over when none of its levels asks any more. Each wanted level of a trilinear pair asks for itself (DEDUCED, log 45). -/
def State.lookFeed (s : State) (g w : Nat) (o : Op) (l : Look) (k : Nat) (lvs : List LookLevel) (words : List Nat) : State :=
  let pool := l.f.ext.toNat
  let close := fun (s : State) fed =>
    if lvs.any (·.asks pool fed) then s else s.lookDone g w o k (words ++ [laneStatus lvs pool fed])
  match lvs.find? (·.asks pool l.fed) with
  | none => close s l.fed
  | some lv =>
    if !o.lowerLanes l k fun q => q.any fun v => v.asks pool l.fed && decide ((v.feed pool).key = (lv.feed pool).key) then s else
    match s.feed g (lv.feed pool) with
    | .bits b s1 =>
      let fed := l.fed ++ [((lv.feed pool).key, b)]
      close (s1.modLook g w o.id fun l => { l with fed := fed }) fed
    | .later s1 => s1

/-- A lane of a lookup is under way as x. -/
def State.lookPut (s : State) (g w id k : Nat) (x : LookLane) : State := s.modLook g w id fun l => { l with lanes := SMap.put k x l.lanes }

/-- What one unit of a lane gives: its bytes; a cause; or a wait. The lines with uncorrectable errors count once for the instruction. -/
inductive UnitRead where
  | got (b : List W8) (s : State)
  | fault (c : Cause) (va : Nat) (s : State)
  | wait (s : State)

/-- An engine of a warp reads the pieces of a range, each translated as it is read (R133): plain loads, in which uncorrectable data is 0
and is counted (R145). -/
def State.readPart (g w t : Nat) (paged : Bool) : List (Nat × Nat) → List W8 → State → UnitRead
  | [], acc, s => .got acc s
  | (a, n) :: rest, acc, s =>
    match s.translateCut paged t a n .read (some (g, w)) with
    | .mig e => .wait ((s.missed t (some (g, w)) e).keepReads t)
    | .fault c e => .fault c a (s.missed t (some (g, w)) e)
    | .ok tgt e =>
      let s1 := s.translated t (some (g, w)) e
      match (s1.meetLines t (some (g, w)) (s1.ueAt tgt n)).unitLoad t (s.coreOf g) a tgt n with
      | .ok b s2 => State.readPart g w t paged rest (acc ++ b) s2
      | .fault c s2 => .fault c a s2
      | .later s2 => .wait s2

/-- A unit of a lookup is read (R149). -/
def State.readUnits (s : State) (g w t va n : Nat) : UnitRead :=
  let cut := s.cutUnit t va n
  State.readPart g w t cut.1 cut.2 [] s

/-- A texture lane reads one of its units. With a map, a page that fails counts as absent (R164): the level falls back. -/
def State.readTexel (s : State) (g w : Nat) (o : Op) (t : Tex) (gather : Option Nat) (i : LaneIn) (k j : Nat) (x : LookLane) : State :=
  let p := (t.laneUnits gather i x.levels).getD j (0, 0, 0)
  match s.readUnits g w o.ctx p.2.1 p.2.2 with
  | .got b s1 => s1.lookPut g w o.id k { x with got := modAt (fun _ => some b) j x.got }
  | .wait s1 => s1
  | .fault c va s1 =>
    if t.res.rmap ≠ 0 ∧ 0x0A ≤ c.toNat ∧ c.toNat ≤ 0x0E then
      s1.lookPut g w o.id k
        { x with levels := modAt (fun lv => lv.coarser x.tail (t.firstAt gather i lv.want)) p.1 x.levels, found := false, got := [] }
    else s1.lookFails g w o k c va

/-- A texture lane has read its texels: it is over, unless a level asks for feedback. -/
def State.laneRead (s : State) (g w : Nat) (o : Op) (t : Tex) (gather : Option Nat) (i : LaneIn) (k : Nat) (x : LookLane) : State :=
  let words := t.laneWords gather i x.levels (t.texels x.got)
  if t.res.rmap = 0 then s.lookDone g w o k (words ++ [0])
  else if x.levels.all fun v => !v.fellBack then s.lookDone g w o k (words ++ [((x.levels.head?.map LookLevel.status).getD 0)])
  else s.lookPut g w o.id k { x with words := some words }

/-- One part of a lane of a texture lookup or a query: the map, then the pages, then the texels one by one, then the feedback. A wait
leaves it as it is. -/
def State.texStep (s : State) (g w : Nat) (o : Op) (l : Look) (k : Nat) (u : MUnit) : State :=
  let c : Cx := { g := g, w := w, f := l.f, ins := o.ins, re := false }
  let t := Tex.of l.f.ext.toNat (PoolRec.parse l.rcd) (if l.kind = .resq then 0 else l.f.imm)
  let i := texIn l.kind t s c u.lane
  let ga := l.kind.gather l.f
  match SMap.find k l.lanes with
  | none =>
    let r := if l.kind = .resq then s.planQuery g w t.res.rmap (c.query u.lane)
      else s.planLane g w t.res.rmap (t.wants ga i).1 fun L => t.regions i.k L (t.tapsAt ga i L)
    match r with
    | .ok lvs tail s1 => s1.lookPut g w o.id k { levels := lvs, tail := tail }
    | .mig s1 => s1
  | some x =>
    match x.words with
    | some words => s.lookFeed g w o l k x.levels words
    | none =>
      if l.kind = .resq then
        match s.answerQuery g w t x.tail x.levels with
        | .ok lv _ s1 => s1.lookDone g w o k [lv.status + 256 * lv.lev]
        | .mig s1 => s1
      else if !x.found then
        match s.findLevels g w t ga i x.tail x.levels [] with
        | .ok lvs _ s1 =>
          s1.lookPut g w o.id k { x with levels := lvs, found := true, got := List.replicate (t.laneUnits ga i lvs).length none }
        | .mig s1 => s1
      else
        match nextUnit s.free x.got with
        | some j => (s.drew 1).readTexel g w o t ga i k j x
        | none => s.laneRead g w o t ga i k x

/-! The instructions. -/

/-- A lookup enters the queue of its engine (R133): one unit for each active lane; word i of a lane goes to register i of `regs`. -/
def lookIssue (kind : LookKind) (regs : List Nat) (c : Cx) (b : List W8) (s : State) : Res :=
  let dst := regs.map Reg.v
  if c.act = 0 then
    .done (s.launchOp c dst fun id => { id := id, ins := c.held dst, kind := .fill, ctx := (s.wg c.g).ctx })
  else
    .done (s.launchOp c dst fun id =>
      { id := id, ins := c.held dst, kind := .look, ctx := (s.wg c.g).ctx, regs := regs
        look := some { kind := kind, f := c.f, rcd := b }
        units := (lanesOf c.act).map fun l => { lane := l, off := 0, size := 0, va := 0, tgt := .loc 0 } })

/-- The accesses of a lookup that a data breakpoint sees: lane, address and size; or a walk that waits. -/
inductive LookAccesses where
  | ok (l : List (Nat × Nat × Nat)) (s : State)
  | mig (s : State)

/-- The accesses that a lane makes to a map, as it stands (R163): the header, and the bytes of the regions that it asks about. -/
def State.mapAccesses (s : State) (g w rmap l : Nat) (wants : List Nat) (regs : Nat → List Region) : LookAccesses :=
  if rmap = 0 then .ok [] s
  else
    match s.mapHdr g w rmap with
    | .mig s1 => .mig s1
    | .none s1 => .ok [(l, rmap, 16)] s1
    | .hdr h s1 =>
      .ok ((l, rmap, 16) :: (wants.filter fun L => decide (L < h.tail)).flatMap fun L =>
        ((regs L).filter fun r => decide (r.1 < h.rx) && decide (r.2.1 < h.ry) && decide (r.2.2 < h.layers)).map fun r =>
          (l, rmap + 16 + (r.2.2 * h.ry + r.2.1) * h.rx + r.1, 1)) s1

/-- Goes on unless a data breakpoint matches an access of a lane (R200); `at_` gives the accesses of each. It looks at no access where no
breakpoint is set for the context. DEDUCED (log 45): the accesses are those that the map and the pages, as they stand at issue, lead to. -/
def watched (c : Cx) (s : State) (at_ : State → Nat → LookAccesses) (k : State → Res) : Res :=
  if !s.watches c then k s
  else
    let r := (lanesOf c.act).foldl (fun (a : LookAccesses) l =>
      match a with
      | .mig s1 => .mig s1
      | .ok acc s1 => match at_ s1 l with | .ok more s2 => .ok (acc ++ more) s2 | .mig s2 => .mig s2) (.ok [] s)
    match r with
    | .mig s1 => .waitIn s1 [.mig (s.now c.g + 256)]
    | .ok l s1 =>
      match s1.watchAll c l with
      | some (r, mask, va) => .trapIn s 0x2C mask va (BitVec.ofNat 64 r)
      | none => k s

/-- R325: the checks of the sampler word, then those of the record. -/
def texWord (c : Cx) (r : PoolRec) : Option Cause :=
  let x := c.f.imm.toNat
  if bits x 1 0 = 3 ∨ bits x 7 6 = 3 ∨ bits x 31 16 ≠ 0 then some 0x06
  else if r.base % 65536 ≠ 0 then some 0x29
  else if r.fmt = 9 ∧ bits x 1 0 ≠ 0 then some 0x06
  else none
def texPre (c : Cx) (s : State) : Option Res := poolPre [1] false true (texWord c) c s

/-- The accesses of a lane of a lookup as the map and the pages stand (R164). -/
def State.texAccesses (kind : LookKind) (c : Cx) (t : Tex) (s : State) (l : Nat) : LookAccesses :=
  let ga := kind.gather c.f
  let i := texIn kind t s c l
  let regs := fun L => t.regions i.k L (t.tapsAt ga i L)
  match s.mapAccesses c.g c.w t.res.rmap l (t.wants ga i).1 regs with
  | .mig s1 => .mig s1
  | .ok acc s1 =>
    match s1.planLane c.g c.w t.res.rmap (t.wants ga i).1 regs with
    | .mig s2 => .mig s2
    | .ok lvs tail s2 =>
      match s2.findLevels c.g c.w t ga i tail lvs [] with
      | .mig s3 => .mig s3
      | .ok found _ s3 => .ok (acc ++ (t.laneUnits ga i found).map fun u => (l, u.2.1, u.2.2)) s3

/-- A texture instruction (R326). -/
def texBody (kind : LookKind) (c : Cx) (s : State) : Res :=
  s.poolRec c [1] false true fun r b s1 =>
    let d := c.f.dst.toNat
    watched c s1 (State.texAccesses kind c (Tex.of c.f.ext.toNat r c.f.imm)) (lookIssue kind [d, d + 1, d + 2, d + 3, c.f.dst2.toNat] c b)
def execSample (f : Fields) (s : State) := issue (.sample f) s open_ texPre (texBody .sample)
def execSgrad (f : Fields) (s : State) := issue (.sgrad f) s open_ texPre (texBody .sgrad)
def execGath4 (f : Fields) (s : State) := issue (.gath4 f) s open_ texPre (texBody .gath4)

/-- R297: a record that a translation keeps from being read gives kind 3 in every lane (DESIGN CHOICE, log 79): `resq` takes no cause
0x09 to 0x0E. -/
def resqBody (c : Cx) (s : State) : Res :=
  match s.readRec c false with
  | .fault x va s1 =>
    if 0x09 ≤ x.toNat ∧ x.toNat ≤ 0x0E then
      let d := c.f.dst.toNat
      .done (s1.launchOp c [.v d] fun id =>
        { id := id, ins := c.held [.v d], kind := .fill, ctx := (s.wg c.g).ctx
          vals := [.v d (mkLanes fun l => BitVec.ofNat 32 (3 + 256 * (c.query l).lvl))] })
    else .trapIn s1 x c.act (BitVec.ofNat 64 va) 0
  | _ => s.poolRec c [1] false false fun r b s1 =>
    watched c s1 (fun s l =>
      let q := c.query l
      s.mapAccesses c.g c.w r.rmap l [q.lvl] fun _ =>
        match s.mapHdr c.g c.w r.rmap with | .hdr h _ => (h.region q.idx).toList | _ => [])
      (lookIssue .resq [c.f.dst.toNat] c b)
/-- The pool checks of `resq` (R228). -/
def resqPre (c : Cx) (s : State) : Option Res :=
  match poolPre [1] false false (fun _ => none) c s with
  | some (.trapIn s1 x m va aux) => if 0x09 ≤ x.toNat ∧ x.toNat ≤ 0x0E then none else some (.trapIn s1 x m va aux)
  | r => r
def execResq (f : Fields) (s : State) := issue (.resq f) s open_ resqPre resqBody

/-- The lookups that may have a residency map. -/
def LookKind.hasMap (k : LookKind) : Bool := [LookKind.sample, .sgrad, .gath4, .resq].contains k

/-- The lookups of a context that have read a map byte and have not finished (R167). -/
def State.lookups (s : State) (t : Nat) : List Nat :=
  s.wgs.flatMap fun p => if p.2.ctx ≠ t then [] else p.2.warps.flatMap fun x =>
    (x.ops.filter fun o => !o.units.all (·.done) && match o.look with | some l => l.kind.hasMap && !l.lanes.isEmpty | none => false).map (·.id)

/-- R167, R298: a release at DEV, then, at a blocking point, the wait for the lookups of the context that read a map byte before it. -/
def resfenceBody (c : Cx) (s : State) : Res :=
  if !(s.warp c.g c.w).allPerformed then .wait [.performed]
  else
    let s1 := s.warpRelease c.g c.w 4
    match s1.lookups (s.wg c.g).ctx with
    | [] => .done s1
    | l => .block s1 (.looks l)
def execResfence (f : Fields) (s : State) := run (.resfence f) s resfenceBody

end Sys2Proof.Machine
end

