-- ==== Sys2Proof/Machine/Graphics.lean ====
section
/-! DEFINITION. Mesh output (R333, R334), pixel state (R336), ordered sections and `kill` (R337), and render targets
(R338). -/

namespace Sys2Proof.Machine

/-! Mesh output (R333, R334). -/

/-- OUT: the start of a MESH workgroup's output area. -/
def Wg.meshOut (x : Wg) : Nat := 1024 * x.shape.localK - 36864

/-- A mesh instruction outside a MESH workgroup, or without room for the output area (R333). -/
def meshPre (c : Cx) (s : State) : Option Res :=
  if s.stageKind c.g ≠ 2 then some (c.raise 0x06)
  else if (s.wg c.g).shape.localK < 36 then some (c.raise 0x1E)
  else none

/-- The index of a lane: vB, or IMM32. -/
def Cx.idx (c : Cx) (l : Nat) : Nat := if c.f.len = .f96 then c.f.imm.toNat else (lane c.vB l).toNat

/-- R333: a count, from the lowest active lane. -/
def meshnBody (set : Nat → Wg → Wg) (c : Cx) (s : State) : Res :=
  match lanesOf c.act with
  | [] => .done s
  | l :: _ => if 256 < c.idx l then c.raise 0x27 else .done (s.modWg c.g (set (c.idx l)))
def execMeshnV (f : Fields) (s : State) := issue (.meshnV f) s open_ meshPre (meshnBody fun n x => { x with meshV := n })
def execMeshnP (f : Fields) (s : State) := issue (.meshnP f) s open_ meshPre (meshnBody fun n x => { x with meshP := n })

/-- Writes a mesh element per active lane, in ascending lane order, when no lane's index is out of range (R158). -/
def meshWrite (bad : Nat → Bool) (at_ : Nat → Nat) (data : Nat → List W8) (c : Cx) (s : State) : Res :=
  let hit := (lanesOf c.act).filter bad
  if !hit.isEmpty then .trap 0x27 (maskOf fun l => hit.contains l) 0 0
  else if !(s.warp c.g c.w).allPerformed then .wait [.performed]
  else .done ((lanesOf c.act).foldl (fun s l => s.putLocal c.g ((s.wg c.g).meshOut + at_ l) (data l)) s)

/-- A mesh write whose index is IMM32, and lies at or above the count: a check that needs no register (R215 step 7). -/
def meshIdxPre (count : Wg → Nat) (c : Cx) (s : State) : Option Res :=
  (meshPre c s).or (if c.f.len = .f96 ∧ c.act ≠ 0 ∧ count (s.wg c.g) ≤ c.f.imm.toNat then some (c.raise 0x27) else none)

/-- R333: a vertex slot. -/
def meshvBody (c : Cx) (s : State) : Res :=
  meshWrite (fun l => decide ((s.wg c.g).meshV ≤ c.idx l)) (fun l => 128 * c.idx l + 16 * c.f.sub.toNat)
    (fun l => (List.range 4).flatMap fun i => bytes32 (lane (s.groupReg c 0 c.f.sa.toNat i) l)) c s
def execMeshv (f : Fields) (s : State) := issue (.meshv f) s open_ (meshIdxPre (·.meshV)) meshvBody

/-- A vertex that an index word names lies at or above the vertex count. -/
def badVertex (n : Nat) (x : W32) : Bool :=
  decide (n ≤ bits x.toNat 7 0) || decide (n ≤ bits x.toNat 15 8) || decide (n ≤ bits x.toNat 23 16)

/-- R333: word 0 of a primitive, with the warp's rate. -/
def meshpBody (c : Cx) (s : State) : Res :=
  let rate := (s.warp c.g c.w).rate.toNat
  meshWrite (fun l => decide ((s.wg c.g).meshP ≤ c.idx l) || badVertex (s.wg c.g).meshV (lane c.vA l))
    (fun l => 32768 + 16 * c.idx l)
    (fun l => leList 4 (bits (lane c.vA l).toNat 23 0 + rate * 2 ^ 24 + bits (lane c.vA l).toNat 31 31 * 2 ^ 31)) c s
def execMeshp (f : Fields) (s : State) := issue (.meshp f) s open_ (meshIdxPre (·.meshP)) meshpBody

/-- R334: the checks that need no register, in the order of its words: of the 96-bit form the code, then the stage. -/
def ratePre (c : Cx) (s : State) : Option Res :=
  if c.f.len = .f96 ∧ 6 < c.f.imm.toNat then some (c.raise 0x26) else if s.stageKind c.g ≠ 2 then some (c.raise 0x06) else none
def rateBody (c : Cx) (s : State) : Res :=
  let r := if c.f.len = .f96 then c.f.imm.toNat else c.sB.toNat
  if 6 < r then c.raise 0x26 else .done (s.modWarp c.g c.w fun x => { x with rate := BitVec.ofNat 3 r })
def execRate (f : Fields) (s : State) := issue (.rate f) s open_ ratePre rateBody

/-! Pixel state (R336). -/

/-- Outside a PIXEL workgroup: 0x06. -/
def pixelPre (c : Cx) (s : State) : Option Res := if s.stageKind c.g ≠ 3 then some (c.raise 0x06) else none

/-- What `interp` gives a lane of a warp; `free` stands for the value of `.cen` where no fine pixel is covered. -/
def interpLane (x : Warp) (mode idx free l : Nat) : Nat :=
  match x.pixel with
  | none => if mode = 3 then 0xFFFFFFFF else 0
  | some p =>
    match p.org[l]? with
    | none => if mode = 3 then 0xFFFFFFFF else 0
    | some o =>
      let d := rateDims p.rate
      let slot := bits idx 2 0
      let comp := bits idx 4 3
      let fine := p.fine.getD l []
      match mode with
      | 0 => attrAt p.view p.verts (coarseCentre d o) slot comp
      | 1 => (match cenPoint d o fine with | some q => attrAt p.view p.verts q slot comp | none => free)
      | 2 => (vword p.verts 0 slot comp).toNat
      | 3 => o.1 % 65536 + 65536 * (o.2 % 65536)
      | 4 => if fine.isEmpty || x.killed.getLsbD l then 0 else 1
      | _ => p.seq % 2 ^ 32

/-- R336. -/
def interpBody (c : Cx) (s : State) : Res :=
  let x := s.warp c.g c.w
  let v := mkLanes fun l => BitVec.ofNat 32 (interpLane x c.f.sub.toNat (c.idx l) (Config.freeWord (s.free + l)).toNat l)
  .done ((if c.f.sub = 1 then s.drew 32 else s).setV c v)
def execInterp (f : Fields) (s : State) := issue (.interp f) s open_ pixelPre interpBody

/-! Ordered sections and `kill` (R337). -/

/-- Removes the tickets of some fine pixels of a primitive. -/
def dropTickets (frame : W32) (seq : Nat) (px : List (Nat × Nat)) (l : List Prim) : List Prim :=
  (l.map fun p =>
    if p.frame = frame ∧ p.seq = seq then { p with tickets := p.tickets.filter fun q => !px.contains q } else p).filter
      fun p => !p.tickets.isEmpty

/-- Releases the tickets of the lanes of a mask. -/
def State.releaseTickets (s : State) (g w : Nat) (mask : W32) : State :=
  match (s.warp g w).pixel with
  | none => s
  | some p =>
    let px := ({ p with left := p.left &&& mask } : Pixel).leftPixels
    ((s.modEdge (s.wg g).ctx (s.wg g).graphNo p.edge fun e => { e with prims := dropTickets p.frame p.seq px e.prims }).modWarp g w
      fun x => { x with pixel := some { p with left := p.left &&& ~~~mask } })

/-- R337: the tickets of inactive lanes are released, then the warp waits for the lower-ranked ones on every fine pixel of its active
lanes, whether it holds a ticket there still or not, and holds the section. -/
def ordbBody (c : Cx) (s : State) : Res :=
  if (s.warp c.g c.w).held then c.raise 0x25
  else
    let s1 := s.releaseTickets c.g c.w (~~~c.act)
    if s1.waitMet c.g c.w (.ticket c.act) then .done (s1.modWarp c.g c.w fun x => { x with held := true }) else .waitIn s1 [.ticket c.act]
def execOrdb (f : Fields) (s : State) := issue (.ordb f) s open_ pixelPre ordbBody

/-- R337: the warp's render-target entries drain, once the warp has placed them all, then its tickets are released. -/
def ordeBody (c : Cx) (s : State) : Res :=
  if !(s.warp c.g c.w).held then c.raise 0x25
  else if !(s.warp c.g c.w).allPerformed then .wait [.performed]
  else .done (((s.rtMoveOwn c.g c.w).releaseTickets c.g c.w 0xFFFFFFFF).modWarp c.g c.w fun x => { x with held := false })
def execOrde (f : Fields) (s : State) := issue (.orde f) s open_ pixelPre ordeBody

/-- R337. -/
def execKill (f : Fields) (s : State) := issue (.kill f) s open_ pixelPre fun c s =>
  .done ((s.releaseTickets c.g c.w c.act).modWarp c.g c.w fun x => { x with killed := x.killed ||| c.act })

/-- The raster edge into the stage of a PIXEL workgroup (R335). -/
def State.rasterEdge (s : State) (g : Nat) : Nat :=
  let gr := s.graphOf g
  ((List.range gr.edges.length).find? fun e => gr.raster e && decide (some (gr.edge e).cons = (s.wg g).stage)).getD 0

/-- The end of a warp releases every ticket; a section still held counts in ORDVIOL of its raster edge (R337), also for a warp without a
record. -/
def State.endPixel (s : State) (g w : Nat) : State :=
  let s1 := s.releaseTickets g w 0xFFFFFFFF
  if (s.warp g w).held then
    let e := match (s.warp g w).pixel with | some p => p.edge | none => s.rasterEdge g
    (s1.countEdge (s.wg g).ctx (s.wg g).graphNo e fun x => { x with late := satCount 16 1 x.late }).modWarp g w
      fun x => { x with held := false }
  else s1

/-! Render targets (R338). -/

/-- The rules of a render-target record beyond R227. -/
def rtRule (p : PoolRec) : Option Cause :=
  let n := texelBytes p.fmt
  if p.levels ≠ 0 ∨ p.layers ≠ 0 ∨ p.base % n ≠ 0 ∨ p.size < p.width * p.height * n then some 0x2B else none

/-- The address of a pixel. -/
def PoolRec.pixelAt (p : PoolRec) (x y : Nat) : Nat := (p.base + (y * p.width + x) * texelBytes p.fmt) % 2 ^ 64

/-- A value clamped to [0, 1]; NaN gives 0. -/
def unit01 (v : FVal) : FVal :=
  if v.isNan || v.le (FVal.ofInt 0) then FVal.ofInt 0 else if (FVal.ofInt 1).le v then FVal.ofInt 1 else v

/-- The sRGB encoding of a value of [0, 1], one rounding (IEC 61966-2-1). -/
def srgbEncode (v : FVal) : FVal :=
  match v with
  | .fin _ n d e =>
    let a := n * 2 ^ e.toNat
    let b := d * 2 ^ (-e).toNat
    if a * 10000000 ≤ 31308 * b then decodeF fp32 (roundF fp32 0 (.fin false (a * 1292) (b * 100) 0))
    else
      decodeF fp32 (roundF fp32 0 (FVal.add 0 ((rootNth 12 (a ^ 5) (b ^ 5)).mul (.fin false 1055 1000 0)) (.fin true 55 1000 0)))
  | v => v

/-- One channel as UNORM8 (R338). -/
def unorm8 (v : FVal) : Nat := (((unit01 v).mul (FVal.ofInt 255)).toInt 0).getD 0 |>.toNat

/-- The bytes of a pixel in a format (R338): the format's channels only. -/
def encodeTexel (fmt : Nat) (srgb : Bool) (ch : Nat → W32) : List W8 :=
  let v := fun i => decodeF fp32 (ch i).toNat
  let un := fun i => [BitVec.ofNat 8 (unorm8 (if srgb && decide (i < 3) then srgbEncode (unit01 (v i)) else v i))]
  let h := fun i => leList 2 (roundF fp16 0 (v i))
  let w := fun i => bytes32 (ch i)
  match fmt with
  | 0 => un 0
  | 1 => un 0 ++ un 1
  | 2 => un 0 ++ un 1 ++ un 2 ++ un 3
  | 3 => h 0
  | 4 => h 0 ++ h 1
  | 5 => h 0 ++ h 1 ++ h 2 ++ h 3
  | 6 => w 0
  | 7 => w 0 ++ w 1
  | 8 => w 0 ++ w 1 ++ w 2 ++ w 3
  | _ => w 0

/-- A render target lies in device memory (R115); another page is 0x0D (log 21), and one of an invalid or unreachable peer 0x11
(R179, R74). -/
def State.rtKind (s : State) (t : Nat) (tgt : Target) : Option Cause :=
  match tgt with
  | .dev _ _ => none
  | _ => (s.kindCause t false true tgt).or (some 0x0D)

/-- The pixels that a lane writes: the one of vA, or with `.coarse` the covered ones of its coarse pixel. -/
def Cx.targets (c : Cx) (x : Warp) (l : Nat) : List (Nat × Nat) :=
  if c.f.sub = 1 then (match x.pixel with | some p => p.fine.getD l [] | none => [])
  else [(bits (lane c.vA l).toNat 15 0, bits (lane c.vA l).toNat 31 16)]

/-- Places one render-target entry of a warp (R135). -/
def State.rtPlace (s : State) (g w pa key : Nat) (bs : List W8) : State :=
  let x := s.wg g
  let s1 := s.clearUe true key pa bs.length
  let s2 := match x.graph, x.stage with
    | some n, some k => s1.modFrame x.ctx n k x.frame fun f => { f with cores := x.core :: f.cores.filter (· ≠ x.core) }
    | _, _ => s1
  { s2.modDie (dieOf x.core) fun d =>
      { d with rt := d.rt ++ [{ age := s1.age, pa := pa, key := key, bytes := bs, own := (g, w), ctx := x.ctx
                                graph := x.graph, stage := x.stage, frame := x.frame }] } with age := s1.age + 1 }

/-- A pixel of a queued `rtwr` is placed, with those of lower lanes for its bytes (R117, R135); a marked line is cleared (R145). -/
def State.rtwUnit (s : State) (g w : Nat) (o : Op) (k : Nat) (u : MUnit) (pa key : Nat) : State :=
  ((((s.opUe g w o ((s.ueLines true pa u.size).filter fun l => !wholeLine o l)).rtPlace g w pa key u.wr).withLower g w o.id u).unitDone
    g w o.id k [] none)

/-- R338: one unit per pixel in bounds; a killed lane writes nothing. -/
def rtwrBody (c : Cx) (s : State) : Res :=
  s.poolRec c [3] true false fun p _ s1 =>
    let x := s.warp c.g c.w
    let n := texelBytes p.fmt
    let l := ((lanesOf c.act).filter fun l => !x.killed.getLsbD l).flatMap fun l =>
      ((c.targets x l).filter fun q => decide (q.1 < p.width) && decide (q.2 < p.height)).map fun q => (l, p.pixelAt q.1 q.2)
    let data := fun l => encodeTexel p.fmt p.srgb fun i => lane (s.groupReg c 4 c.f.sc.toNat i) l
    memIssue c s1 l n 1 .write (fun s => s.rtKind (s.wg c.g).ctx) fun s2 px =>
      if px.isEmpty then .done s2
      else .done (s2.launchOp c [] fun id =>
        { id := id, ins := c.ins, kind := .rtw, ctx := (s.wg c.g).ctx, width := n
          units := px.map fun q => { lane := q.1, off := 0, size := n, va := q.2.1, tgt := q.2.2, wr := data q.1 } })

/-- The record's checks (R319, R338); then `.coarse` outside a PIXEL workgroup raises 0x06. -/
def rtwrPre (c : Cx) (s : State) : Option Res :=
  (poolPre [3] true false rtRule c s).or (if c.f.sub = 1 ∧ s.stageKind c.g ≠ 3 then some (c.raise 0x06) else none)
def execRtwr (f : Fields) (s : State) := issue (.rtwr f) s open_ rtwrPre rtwrBody

/-- The newest entry of a die's render-target buffer for a byte (R135). -/
def State.rtNewest (s : State) (d pa : Nat) : Option RtEntry :=
  (s.die d).rt.foldl (fun (a : Option RtEntry) e => if decide (e.pa ≤ pa) && decide (pa < e.pa + e.bytes.length) then some e else a) none

/-- A byte of a render target as a die sees it: the newest entry of its buffer, else V (R135). -/
def State.rtByte (s : State) (d pa key : Nat) : Option W8 :=
  match s.rtNewest d pa with
  | some e => if e.key = key then e.bytes[pa - e.pa]? else none
  | none => (s.maskUe true pa [s.homeByte true pa key]).headD none

/-- The marked lines that a read of a render target meets at V. -/
def State.rtLines (s : State) (d pa n : Nat) : List Nat :=
  (((List.range n).filter fun i => (s.rtNewest d (pa + i)).isNone).flatMap fun i => s.ueLines true (pa + i) 1).eraseDups

/-- A pixel of a queued `rtrd` is read and decoded (R135, R338); one out of bounds reads 0, 0, 0, 1. Uncorrectable data traps while
STRICT = 1 (R145). -/
def State.rtrUnit (s : State) (g w : Nat) (o : Op) (l : Look) (k : Nat) (u : MUnit) : State :=
  let d := dieOf (s.coreOf g)
  let p := PoolRec.parse l.rcd
  let fin := fun (s : State) (words : List Nat) => s.unitDone g w o.id k (words.flatMap fun x => leList 4 x) none
  match u.tgt with
  | .dev pa key =>
    let hit := s.rtLines d pa u.size
    let s1 := s.opUe g w o hit
    if !hit.isEmpty && (s.cctx o.ctx 0x10A).getLsbD 0 then
      s1.trapOp g w o.id 0x1B (maskOf fun l => o.units.any fun v => decide (v.lane = l) && !v.done && match v.tgt with
        | .dev a _ => !(s.rtLines d a v.size).isEmpty
        | _ => false) u.va
    else
      let r := (s1.countCe o.ctx true pa u.size).resolve ((List.range u.size).map fun i => s1.rtByte d (pa + i) key)
      fin r.2 (decodeTexel p.fmt p.srgb r.1)
  | _ => fin s [0, 0, 0, one32]

/-- R338: one unit per lane. -/
def rtrdBody (c : Cx) (s : State) : Res :=
  s.poolRec c [3] true false fun p b s1 =>
    let n := texelBytes p.fmt
    let d := c.f.dst.toNat
    let dst : List Reg := (List.range 4).map fun i => .v (d + i)
    let xy := fun l => (bits (lane c.vA l).toNat 15 0, bits (lane c.vA l).toNat 31 16)
    let inside := fun l => decide ((xy l).1 < p.width) && decide ((xy l).2 < p.height)
    memIssue c s1 (((lanesOf c.act).filter inside).map fun l => (l, p.pixelAt (xy l).1 (xy l).2)) n 1 .read
      (fun s => s.rtKind (s.wg c.g).ctx) fun s2 px =>
        .done (s2.launchOp c dst fun id =>
          { id := id, ins := c.held dst, kind := .rtr, ctx := (s.wg c.g).ctx, width := n, regs := (List.range 4).map (d + ·)
            look := some { kind := .rtrd, f := c.f, rcd := b }
            units := (px.map fun q => { lane := q.1, off := 0, size := n, va := q.2.1, tgt := q.2.2 })
              ++ ((lanesOf c.act).filter fun l => !inside l).map fun l => { lane := l, off := 0, size := 0, va := 0, tgt := .loc 0 } })
def execRtrd (f : Fields) (s : State) := issue (.rtrd f) s open_ (poolPre [3] true false rtRule) rtrdBody

end Sys2Proof.Machine
end

