-- ==== Sys2Proof/Machine/Edges.lean ====
section
/-! DEFINITION. The edge instructions (R53 to R58, R320) and the end of a warp (R54, R248). -/

namespace Sys2Proof.Machine

/-- The edge an instruction names. -/
def Cx.edge (c : Cx) : Nat := c.f.ext.toNat

/-- A cause of an edge, whose number the frame names (R187). -/
def Cx.raiseEdge (c : Cx) (cause : Cause) : Res := .trap cause c.act 0 (BitVec.ofNat 64 c.edge)

/-- Edge misuse: 0x1F (R67). -/
def edgePre (out : Bool) (c : Cx) (s : State) : Option Res :=
  if s.edgeFits c.g c.edge out then none else some (c.raiseEdge 0x1F)

/-- What reading an edge's key gives (R72, R266). -/
inductive KeyRead where
  | key (k : BitVec 256) (s : State)
  | none (s : State)
  | mig (s : State)

/-- Entry e of a context's edge key table; one that cannot be read counts as holding none (R363). -/
def State.edgeKey (s : State) (t e : Nat) : KeyRead :=
  match s.devRead t (bits (s.cctx t 0x113).toNat 55 6 * 64 + 32 * e) 32 with
  | .ok b s1 => if b.all (· = 0) then .none s1 else .key (BitVec.ofNat 256 (leVal b)) s1
  | .fault _ s1 => .none s1
  | .later s1 => .mig s1

/-- Goes on unless the edge is REMOTE for the frame and has no key: 0x2F. -/
def withKey (c : Cx) (s : State) (k : State → Res) : Res :=
  if (s.graphOf c.g).kindAt (s.wg c.g).frame c.edge = 2 then
    match s.edgeKey (s.wg c.g).ctx c.edge with
    | .key _ s1 => k s1
    | .none s1 => .trapIn s1 0x2F c.act 0 (BitVec.ofNat 64 c.edge)
    | .mig s1 => .waitIn s1 [.mig (s.now c.g + 256)]
  else k s

/-- The peer of a PEER edge is unreachable (R55). -/
def State.peerLost (s : State) (c : Cx) : Bool :=
  let gr := s.graphOf c.g
  decide (gr.kindAt (s.wg c.g).frame c.edge = 1) && s.streamDead (s.wg c.g).ctx (gr.edge c.edge).peer

/-! `emit` (R53, R319, R320). -/

/-- The registers of the group. -/
def emitGroup (c : Cx) (s : State) : List Nat :=
  (List.range (4 * (((s.graphOf c.g).edge c.edge).size + 1))).map (c.f.sa.toNat + ·)

/-- The checks that need no register, when there is something to send (R207, R320): edge misuse, with a raster edge and an edge that the
workgroup has closed among it. An edge that it may not name gives no size: its group is one register there. -/
def emitPre (c : Cx) (s : State) : Option Res :=
  let bad := edgePre true c s
  if (s.wg c.g).shape.vregs8 ≤ c.f.sa.toNat then some (c.raise 0x1E)
  else if c.act = 0 then none
  else if bad.isSome then bad
  else if (s.graphOf c.g).raster c.edge ∨ (s.wg c.g).closed.getLsbD c.edge then some (c.raiseEdge 0x1F)
  else none

/-- The records of the active lanes, in ascending order. -/
def emitRecs (c : Cx) (s : State) : List Rec :=
  let tok := s.warpToken c.g c.w
  (lanesOf c.act).map fun l =>
    { frame := (s.wg c.g).frame
      data := (List.range (emitGroup c s).length).flatMap fun n => bytes32 (lane (s.groupReg c 0 c.f.sa.toNat n) l)
      tok := tok }

/-- Records leave their producer (R53, R55). -/
def State.putRecs (s : State) (g e : Nat) (l : List Rec) : State :=
  let t := (s.wg g).ctx
  let n := (s.wg g).graphNo
  let gr := s.graph t n
  let f := (s.wg g).frame
  match gr.kindAt f e with
  | 0 => (s.modEdge t n e fun x => l.foldl Edge.push x).noteWork t n (gr.edge e).cons f
  | 1 => (s.modEdge t n e fun x => { x with credits := x.credits - l.length }).peerRecords t n e f l
  | _ => s.modEdge t n e fun x =>
      { x with send := x.send ++ l, sendAt := if x.send.isEmpty then (s.die x.ringDie).counter else x.sendAt }

/-- R53. -/
def emitBody (c : Cx) (s : State) : Res :=
  let x := s.warp c.g c.w
  let e := (s.graphOf c.g).edge c.edge
  let l := emitRecs c s
  if l.isEmpty then .done s
  else if !e.sparse ∧ l.any fun r => decide (e.keys ≤ r.key) then c.raiseEdge 0x1F
  else
    withKey c s fun s1 =>
      if e.slots < l.length then .trapIn s1 0x18 c.act 0 (BitVec.ofNat 64 c.edge)
      else if s1.peerLost c then .trapIn s1 0x11 c.act 0 0
      else if !x.allPerformed then .waitIn s1 [.performed]
      else if !s1.waitMet c.g c.w (.ring c.edge l.length) then .waitIn s1 [.ring c.edge l.length]
      else .done (s1.putRecs c.g c.edge l)
def execEmit (f : Fields) (s : State) := issue (.emit f) s open_ emitPre emitBody

/-! `eclose` and `end` (R54, R248). -/

/-- R54: a second close has no effect. -/
def ecloseBody (c : Cx) (s : State) : Res :=
  if (s.wg c.g).closed.getLsbD c.edge then .done s
  else
    withKey c s fun s1 =>
      if s1.peerLost c then .trapIn s1 0x11 c.act 0 0
      else if !(s.warp c.g c.w).allPerformed then .waitIn s1 [.performed]
      else if !s1.waitMet c.g c.w (.ring c.edge 0) then .waitIn s1 [.ring c.edge 0]
      else .done (s1.closeEdge c.g c.edge (s1.warpToken c.g c.w))
def execEclose (f : Fields) (s : State) := issue (.eclose f) s open_ (edgePre true) ecloseBody

/-- The warp has ended: it issues nothing more, its return stack and replay entries are discarded (R248). -/
def Warp.finish (x : Warp) : Warp :=
  { x with ended := true, stack := [], replay := [], reissue := [], parked := [], waits := [], poll := false, async := [] }

/-- R248: the last warp of a workgroup closes the edges that are open, as acts of its own, for which its earlier operations
are waited for (R65). -/
def endBody (c : Cx) (s : State) : Res :=
  let last := decide ((s.wg c.g).endedCount + 1 = (s.wg c.g).warps.length)
  let open_ := if last then s.openEdges c.g else []
  if !open_.isEmpty ∧ !(s.warp c.g c.w).allPerformed then .wait [.performed]
  else
    let s1 := (s.endPixel c.g c.w).modWarp c.g c.w Warp.finish
    .final ((open_.foldl (fun t e => t.closeEdge c.g e (s.warpToken c.g c.w)) s1).checkBars c.g)
def execEndW (f : Fields) (s : State) := run (.endW f) s endBody

/-! `recv` and `rrel` (R57, R58). -/

/-- The records that a `recv` delivers, and the tokens that come with them. -/
structure Delivery where
  recs : List Rec
  toks : List Token
  deriving DecidableEq, Repr

/-- On the TRIGGER edge, the batch once; on another, up to k records of the frame; none yet when one must wait. -/
def State.delivery (s : State) (g e : Nat) : Option Delivery :=
  let x := s.wg g
  let gr := s.graphOf g
  let st := gr.stage x.stageNo
  let ed := gr.edge e
  if st.trigen ∧ st.trigger = e then some { recs := if x.batchGiven then [] else x.batchRecs, toks := [] }
  else
    let l := ((ed.ring.filter fun p => !p.2 && decide (p.1.frame = x.frame)).map (·.1)).take ed.perWg
    if l.isEmpty ∧ !ed.closedAt.contains x.frame then none
    else
      some { recs := l, toks := l.map (·.tok) ++ if l.isEmpty then (ed.tokens.filter fun p => p.1 = x.frame).map (·.2) else [] }

/-- The workgroup takes a delivery: its slots are held from now on (R58). -/
def State.takeDelivery (s : State) (g e : Nat) (d : Delivery) : State :=
  let gr := s.graphOf g
  let st := gr.stage (s.wg g).stageNo
  if st.trigen ∧ st.trigger = e then s.modWg g fun x => { x with batchGiven := true }
  else
    let slots := d.recs.map (·.slot)
    ((s.modEdge (s.wg g).ctx (s.wg g).graphNo e fun x =>
      { x with ring := x.ring.map fun p => if slots.contains p.1.slot then (p.1, true) else p }).modWg g fun x =>
        { x with ringHeld := x.ringHeld ++ slots.map fun n => (e, n) }).meetTokens (s.coreOf g) d.toks

/-- The errors of the ring words of records that are read: those that hold 0 for an uncorrectable one are counted (R144, R145). -/
def State.meetRecs (s : State) (t : Nat) (l : List Rec) : State :=
  let n := (l.map fun r => r.ce.length).foldl (· + ·) 0
  (if n = 0 then s else s.countCtx t 0x10B 15 0 n).countUe t ((l.map fun r => r.ue.length).foldl (· + ·) 0)

/-- R57: records at the offset, their status words behind room for k records. -/
def State.storeRecs (s : State) (g off k size : Nat) (l : List Rec) : State :=
  ((List.range l.length).zip l).foldl (fun s p =>
    (s.putLocal g (off + p.1 * size) p.2.data).putLocal g (off + k * size + 4 * p.1) (bytes32 p.2.status)) s

/-- R57. -/
def recvBody (c : Cx) (s : State) : Res :=
  let ed := (s.graphOf c.g).edge c.edge
  let off := bits c.sA.toNat 31 0
  let dst : List Reg := [.s c.f.dst.toNat]
  if !(s.wg c.g).inLocal off (ed.perWg * (ed.bytes + 4)) then c.raise 0x1E
  else if !(s.warp c.g c.w).allPerformed then .wait [.performed]
  else
    match s.delivery c.g c.edge with
    | none => .wait [.records c.edge]
    | some d =>
      .done ((((s.takeDelivery c.g c.edge d).meetRecs (s.wg c.g).ctx d.recs).storeRecs c.g off ed.perWg ed.bytes d.recs).launchOp c dst fun id =>
        { id := id, ins := c.held dst, kind := .fill, ctx := (s.wg c.g).ctx
          vals := [.s c.f.dst.toNat (BitVec.ofNat 64 d.recs.length)] })
def execRecv (f : Fields) (s : State) := issue (.recv f) s open_ (edgePre false) recvBody

/-- R58. -/
def execRrel (f : Fields) (s : State) := issue (.rrel f) s open_ (edgePre false) fun c s => .done (s.freeRing c.g c.edge)

end Sys2Proof.Machine
end

