-- ==== Sys2Proof/Machine/Decoder.lean ====
section
/-! DEFINITION. The lossy class of the causeway (R68 to R73, R76 to R84): encoders, and decoders with their stand-ins. -/

namespace Sys2Proof.Machine

/-- The die counter that the timers of an edge run on: that of its ring's die (R5). -/
def State.edgeNow (s : State) (t n e : Nat) : Nat := (s.die (s.edge t n e).ringDie).counter

/-- Updates a decoder. -/
def State.modDecoder (s : State) (t n e : Nat) (f : Decoder → Decoder) : State :=
  s.modEdge t n e fun x => { x with decoder := x.decoder.map f }

/-- The nonce word N of RECORDS and CLOSE datagrams (R72); `fromFar` is the direction. -/
def edgeNonce (g : Graph) (fromFar : Bool) : W32 :=
  BitVec.ofNat 32 (bits g.gid.toNat 30 0 + if fromFar then 2 ^ 31 else 0)

/-- The peer-table index of the other unit (R69). -/
def State.otherUnit (s : State) (t : Nat) : Nat := bits (s.cctx t 0x10C).toNat 23 16

/-! The encoder (R76). -/

/-- Seals a datagram of an edge with its key and hands it to the network: every datagram of an edge leaves by the port its hash names, for
the peer of `cw_cfg` (R68, R69); without a key it is not sent and counts as BAD (R72). -/
def State.edgeSeal (s : State) (t n e : Nat) (key : Option (BitVec 256)) (d : Datagram) : State :=
  let g := s.graph t n
  match key with
  | none => s.countEdge t n e fun x => { x with bad := satCount 16 1 x.bad }
  | some k =>
    let d' := { d with seq := (g.edge e).seq, key := k, nonce := edgeNonce g g.far }
    (s.modEdge t n e fun x => { x with seq := x.seq + 1 }).transmit (s.otherUnit t) (Config.edgePort t g.gid.toNat e).toNat d'

/-- The frames whose close is due to be sent: closed by the producers, with no record left to send. -/
def Edge.closesDue (x : Edge) : List W32 := x.sendClosed.filter fun f => x.send.all fun r => decide (r.frame ≠ f)

/-- Sends the three CLOSE datagrams of each frame that is due. -/
def State.sendCloses (s : State) (t n e : Nat) (key : Option (BitVec 256)) : State :=
  let x := s.edge t n e
  let due := x.closesDue
  due.foldl (fun s f => [0, 1, 2].foldl (fun s k =>
      s.edgeSeal t n e key (closeGram t (s.graph t n).gid.toNat e x f k)) s)
    (s.modEdge t n e fun x => { x with sendClosed := x.sendClosed.filter fun f => !due.contains f })

/-- The records of the datagram that would be sent next: of one frame, as many as fit. -/
def State.nextGram (s : State) (t n e : Nat) : List Rec :=
  let x := s.edge t n e
  match x.send with
  | [] => []
  | r :: _ => (x.send.takeWhile fun q => q.frame = r.frame).take (s.recordsFit t x)

/-- A condition of R76 to send holds; `flushed` when FLUSH cycles have passed. -/
def State.mayEncode (s : State) (t n e : Nat) (flushed : Bool) : Bool :=
  let x := s.edge t n e
  let l := s.nextGram t n e
  match l with
  | [] => false
  | r :: _ => flushed || decide (s.recordsFit t x ≤ l.length) || decide (l.length < x.send.length) || x.sendClosed.contains r.frame

/-- Sends the next datagram of an edge when it may, and the CLOSEs that are due. -/
def State.encode (s : State) (t n e : Nat) (flushed : Bool) : State :=
  let x := s.edge t n e
  let l := s.nextGram t n e
  let go := fun (s : State) (key : Option (BitVec 256)) =>
    let s1 := if s.mayEncode t n e flushed then
        (s.edgeSeal t n e key (recordsGram t (s.graph t n).gid.toNat e x ((l.head?.map (·.frame)).getD 0) l)).modEdge t n e
          fun x => { x with send := x.send.drop l.length, sendAt := (s.die x.ringDie).counter }
      else s
    s1.sendCloses t n e key
  if !s.live t ∨ (!s.mayEncode t n e flushed ∧ x.closesDue.isEmpty) then s
  else
    match s.edgeKey t e with
    | .key k s1 => go s1 (some k)
    | .none s1 => go s1 none
    | .mig s1 => s1

def execEncoderSend (ctx graph edge : Nat) (s : State) : Host.Outcome State Fault Refusal :=
  .next (s.encode ctx graph edge false)

/-- R76: FLUSH cycles have passed since the datagram's first record; 0 acts as 1 (R69). -/
def execEncoderFlushTimeout (ctx graph edge : Nat) (s : State) : Host.Outcome State Fault Refusal :=
  let n := max 1 (bits (s.cctx ctx 0x10C).toNat 52 37)
  let x := s.edge ctx graph edge
  if x.send.isEmpty ∨ s.edgeNow ctx graph edge < x.sendAt + n then .next s else .next (s.encode ctx graph edge true)

/-! Stand-ins (R78, R80). -/

/-- A word predicted from the last two (R80). -/
def predictWord (last prev : W32) (dn dd : W32) : W32 :=
  let v := fun (x : W32) => decodeF fp32 x.toNat
  let r := fun (x : FVal) => decodeF fp32 (roundF fp32 0 x)
  let d := r (FVal.add 0 (v last) (v prev).neg)
  let q := r ((r (FVal.ofInt dn.toNat)).div (r (FVal.ofInt dd.toNat)))
  BitVec.ofNat 32 (roundF fp32 0 (FVal.add 0 (v last) (r (d.mul q))))

/-- Word i of record bytes. -/
def dataWord (b : List W8) (i : Nat) : W32 := BitVec.ofNat 32 (leVal ((b.drop (4 * i)).take 4))

/-- The status word of a record (R82). -/
def statusWord (kind age : Nat) : W32 := BitVec.ofNat 32 (kind + 256 * min 255 age)

/-- The stand-in of a key for frame F, if it gets one: its bytes and status (R80). -/
def standIn (x : Edge) (d : Decoder) (f : W32) (key : Nat) : Option (List W8 × W32) :=
  let h := SMap.get key [] d.cache
  let zero := leList 4 key ++ List.replicate (x.bytes - 4) (0 : W8)
  match h with
  | [] => if x.subst = 3 then none else some (zero, statusWord 3 255)
  | (fl, last) :: more =>
    if !later f fl then none
    else
      let age := (f - fl).toNat
      match x.subst, more with
      | 0, _ => some (last, statusWord 1 age)
      | 1, [] => some (last, statusWord 1 age)
      | 1, (fp, prev) :: _ =>
        some ((List.range (x.bytes / 4)).flatMap fun w =>
          if 1 ≤ w ∧ w ≤ 15 ∧ x.pmask.getLsbD w then
            bytes32 (predictWord (dataWord last w) (dataWord prev w) (f - fl) (fl - fp))
          else bytes32 (dataWord last w), statusWord 2 age)
      | 2, _ => some (zero, statusWord 3 age)
      | _, _ => none

/-! Deliveries (R81). -/

/-- Records that wait in the overflow queue. -/
def Decoder.waiting (d : Decoder) : Nat :=
  (d.spill.filter fun q => match q with | .rcd _ => true | .close _ => false).length + d.later.length

/-- One more record finds room: a place in the overflow queue of 256, or a free slot with nothing before it (R81). -/
def Edge.roomFor (x : Edge) (d : Decoder) : Bool :=
  decide (d.waiting < 256) || (d.spill.isEmpty && decide (x.ring.length < x.slots))

/-- What waits enters the ring while slots are free; a close behind the last of its records reaches the distributor. -/
def State.overToRing (t n e : Nat) : Nat → State → State
  | 0, s => s
  | k + 1, s =>
    let x := s.edge t n e
    match x.decoder with
    | none => s
    | some d =>
      match d.spill with
      | [] => s
      | .rcd r :: rest =>
        if x.slots ≤ x.ring.length then s
        else State.overToRing t n e k ((s.modEdge t n e fun x => x.push r).modDecoder t n e fun d => { d with spill := rest })
      | .close f :: rest =>
        State.overToRing t n e k ((s.modDecoder t n e fun d => { d with spill := rest }).settleDue t n [.arrived e f [Token.remote]])

/-- Moves what may move now. -/
def State.drainOver (s : State) (t n e : Nat) : State :=
  match (s.edge t n e).decoder with
  | some d => State.overToRing t n e d.spill.length s
  | none => s

/-- A record or close of a decoder is to be delivered, behind those that wait. -/
def State.queueUp (s : State) (t n e : Nat) (l : List Queued) : State :=
  (s.modDecoder t n e fun d => { d with spill := d.spill ++ l }).drainOver t n e

/-- A record that came over the causeway, or stands in for one: it orders nothing (R65, R84). -/
def remoteRec (f : W32) (data : List W8) (status : W32 := 0) : Rec := { frame := f, data := data, status := status, tok := Token.remote }

/-- The fresh record of a datagram is accepted, or found late or too much (R79, R81). -/
def State.fresh79 (s : State) (t n e : Nat) (f : W32) (data : List W8) : State :=
  let x := s.edge t n e
  match x.decoder with
  | none => s
  | some d =>
    let r := remoteRec f data
    let overrun := s.countEdge t n e fun x => { x with overrun := satCount 16 1 x.overrun }
    let s1 := s.capture t 3 (e + f.toNat * 2 ^ 32) data
    if x.sparse then
      if f = d.c + 1 then (if x.roomFor d then s1.queueUp t n e [.rcd r] else overrun)
      else if 256 ≤ d.waiting then overrun
      else s1.modDecoder t n e fun d => { d with later := d.later ++ [r] }
    else if ((SMap.get r.key [] d.cache).head?.map fun h => laterEq h.1 f).getD false then
      s.countEdge t n e fun x => { x with late := satCount 16 1 x.late }
    else if x.roomFor d then
      (s1.modDecoder t n e fun d => { d with cache := cacheAdd r.key f data d.cache }).queueUp t n e [.rcd r]
    else overrun

/-! Closing (R79, R80). -/

/-- The window of the oldest open frame starts again (R79); that of one whose close has begun does not run. -/
def State.window79 (s : State) (t n e : Nat) : State :=
  let now := s.edgeNow t n e
  s.modDecoder t n e fun d =>
    { d with since := if later d.top d.c && d.closing.isNone then (if d.since.isSome then d.since else some now) else none }

/-- The close of frame C + 1 begins. -/
def State.beginClose (s : State) (t n e : Nat) : State :=
  s.modDecoder t n e fun d => { d with closing := some 0, since := none }

/-- Frame C + 1 closes: its last stand-in is delivered, C becomes the frame, and the close follows; then the records of the next frame of a
sparse edge (R80). The close is captured with the status word of every key and its stand-ins (R357). -/
def State.finishClose (s : State) (t n e : Nat) : State :=
  let x := s.edge t n e
  match x.decoder with
  | none => s
  | some d =>
    let f := d.c + 1
    let l := if x.sparse then [] else (List.range x.keys).map fun k => standIn x d f k
    let s1 := (s.capture t 4 (e + f.toNat * 2 ^ 32) (l.flatMap (fun r => bytes32 ((r.map (·.2)).getD 0)) ++ l.flatMap fun r => (r.map (·.1)).getD [])).modDecoder
      t n e fun d =>
        { d with c := f, top := if later d.top f then d.top else f, later := [], noted := d.noted.filter (· ≠ f), closing := none }
    (s1.queueUp t n e (.close f :: d.later.map .rcd)).window79 t n e

/-- Stand-ins are generated in ascending key order, each once there is room for it (R80, R81), from the next key on; `left` keys are to
come. -/
def State.generate (t n e : Nat) : Nat → State → State
  | 0, s => s.finishClose t n e
  | left + 1, s =>
    let x := s.edge t n e
    match x.decoder with
    | none => s
    | some d =>
      let k := x.keys - (left + 1)
      let next := fun (s : State) => s.modDecoder t n e fun d => { d with closing := some (k + 1) }
      match standIn x d (d.c + 1) k with
      | none => State.generate t n e left (next s)
      | some r =>
        if x.roomFor d then
          State.generate t n e left (next ((s.countEdge t n e fun x => { x with standin := satCount 32 1 x.standin }).queueUp t n e
            [.rcd (remoteRec (d.c + 1) r.1 r.2)]))
        else s

/-- Records in a datagram. -/
def gramRecords (d : Datagram) (size : Nat) : List (List W8) :=
  (List.range d.count).map fun i => (d.body.drop (size * i)).take size

/-- A datagram is late (R73, R79). -/
def State.lateGram (s : State) (t n e : Nat) (d : Datagram) : State :=
  if d.type = 0 then s.countEdge t n e fun x => { x with late := satCount 16 d.count x.late } else s

/-- The rows of R79, in order, for a datagram that is authenticated and no duplicate. When frames must close first, the datagram is handled
again after that. -/
def State.handleGram (s : State) (t n e : Nat) (d : Datagram) : State :=
  match (s.edge t n e).decoder with
  | none => s
  | some x =>
    if !later d.frame x.c then s.lateGram t n e d
    else if 3 ≤ (d.frame - x.c).toNat then s.modDecoder t n e fun x => { x with work := .upTo (d.frame - 2) :: .gram d :: x.work }
    else if d.type = 0 then (gramRecords d (s.edge t n e).bytes).foldl (fun s r => s.fresh79 t n e d.frame r) s
    else if d.frame = x.c + 1 then s.beginClose t n e
    else s.modDecoder t n e fun y => { y with noted := if y.noted.contains d.frame then y.noted else y.noted ++ [d.frame] }

/-- A decoder goes on (R79 to R81): with the close it is making, as far as there is room; then with a close noted for the oldest frame; then
with what came after (log 24). -/
def State.decoderRun (t n e : Nat) : Nat → State → State
  | 0, s => s
  | fuel + 1, s =>
    let x := s.edge t n e
    match x.decoder with
    | none => s
    | some d =>
      match d.closing with
      | some k =>
        let s1 := State.generate t n e ((if x.sparse then 0 else x.keys) - k) s
        if ((s1.edge t n e).decoder.bind (·.closing)).isSome then s1 else State.decoderRun t n e fuel s1
      | none =>
        if d.noted.contains (d.c + 1) then State.decoderRun t n e fuel (s.beginClose t n e)
        else
          let s1 := s.modDecoder t n e fun d => { d with work := d.work.drop 1 }
          match d.work with
          | [] => s
          | .upTo f :: _ => State.decoderRun t n e fuel (if later f d.c then s.beginClose t n e else s1)
          | .gram g :: _ => State.decoderRun t n e fuel (s1.handleGram t n e g)

/-- The decoder goes on until nothing more can be done: every frame it can close has been named, and each datagram is handled at most
twice. -/
def State.decoderGo (s : State) (t n e : Nat) : State :=
  match (s.edge t n e).decoder with
  | none => s
  | some d => (State.decoderRun t n e (4 * ((d.top - d.c).toNat + d.work.length + 2)) s).window79 t n e

/-- A decoder of an edge's earlier REMOTE periods changes places with the present one. -/
def Edge.swap (x : Edge) (i : Nat) : Edge :=
  match x.decoder, x.older[i]? with
  | some d, some o => { x with decoder := some o, older := modAt (fun _ => d) i x.older }
  | _, _ => x

/-- That decoder works in place of the present one. -/
def State.withOlder (s : State) (t n e i : Nat) (k : State → State) : State :=
  let swap := fun (s : State) => s.modEdge t n e fun x => x.swap i
  swap (k (swap s))

/-- Every decoder of an edge works, the oldest first. -/
def State.eachDecoder (s : State) (t n e : Nat) (k : State → State) : State :=
  k ((List.range (s.edge t n e).older.length).foldl (fun s i => s.withOlder t n e i k) s)

/-- R81: a record of the overflow queue enters the ring; stand-ins whose generation paused for it are generated. -/
def State.overflow (s : State) (t n e : Nat) : State := (s.drainOver t n e).decoderGo t n e

/-- R81. -/
def execOverflowToRing (ctx graph edge : Nat) (s : State) : Host.Outcome State Fault Refusal :=
  .next (if s.live ctx then s.eachDecoder ctx graph edge fun s => s.overflow ctx graph edge else s)

/-- The SEQ window of R73: none for a duplicate. -/
def Decoder.seq73 (d : Decoder) (q : Nat) : Option Decoder :=
  match d.hi with
  | none => some { d with hi := some q, seen := 0 }
  | some h =>
    if h < q then some { d with hi := some q, seen := (d.seen <<< (q - h)) ||| BitVec.ofNat 64 (2 ^ (q - h - 1)) }
    else if q = h ∨ h - q ≥ 64 ∨ d.seen.getLsbD (h - q - 1) then none
    else some { d with seen := d.seen ||| BitVec.ofNat 64 (2 ^ (h - q - 1)) }

/-- An authenticated datagram reaches its decoder (R73, R79). While the generation of stand-ins pauses, the overflow queue is full: the
records of a datagram that comes then find no room (R81). -/
def State.decode73 (s : State) (t n e : Nat) (d : Datagram) : State :=
  match (s.edge t n e).decoder with
  | none => s
  | some x =>
    if !later d.frame x.c then s.lateGram t n e d
    else
      match x.seq73 d.seq with
      | none => s.countEdge t n e fun x => { x with dup := satCount 16 1 x.dup }
      | some y =>
        let s1 := s.modDecoder t n e fun _ =>
          { y with top := if later d.frame y.top then d.frame else y.top
                   work := y.work ++ if x.closing.isNone || d.type = 1 then [.gram d]
                     else if 3 ≤ (d.frame - x.c).toNat then [.upTo (d.frame - 2)] else [] }
        if x.closing.isNone || d.type = 1 then s1.decoderGo t n e
        else (gramRecords d (s.edge t n e).bytes).foldl (fun s r => s.fresh79 t n e d.frame r) s1

/-! Reception. -/

/-- A RECORDS or CLOSE datagram passes the checks of R68 and R72 for an edge, beside that of its tag: no extension headers; VERSION and TYPE;
no bit marked 0 is set (R70: FIRST of a CLOSE, AUX); the length agrees with COUNT and SIZE; SIZE is the edge's; and on a dense edge every
key is below K. -/
def gramOk (x : Edge) (d : Datagram) : Bool :=
  d.plain && decide (d.version = 1) && decide (d.type < 2) && d.zero && decide (d.aux = 0) && (decide (d.type = 0) || decide (d.first = 0))
    && decide (d.size = x.size) && decide (d.body.length = d.count * x.bytes)
    && (x.sparse || (gramRecords d x.bytes).all fun r => decide (leVal (r.take 4) < x.keys))

/-- The graph of a context whose edge a datagram names. -/
def State.gramGraph (s : State) (t : Nat) (d : Datagram) (ok : Edge → Bool) : Option Nat :=
  ((s.ctx t).graphs.find? fun p => decide (p.2.gid = d.graph) && decide (d.edge < p.2.edges.length) && ok (p.2.edge d.edge)).map (·.1)

/-- A datagram for a stage that is held enters the hold buffer, in so far as HOLD has room (R87 step 4). -/
def State.holdGram (s : State) (t n e : Nat) (d : Datagram) : State :=
  let x := s.edge t n e
  let k := min d.count (x.holdMax - x.heldRecs)
  let d' := { d with count := k, body := d.body.take (k * x.bytes) }
  let s1 := (s.modEdge t n e fun x =>
    { x with held := if d.type = 0 ∧ k = 0 then x.held else x.held ++ [d'], heldRecs := x.heldRecs + k }).noteWork t n x.cons d.frame
  if k < d.count then s1.countEdge t n e fun x => { x with heldDrop := satCount 16 (d.count - k) x.heldDrop } else s1

/-- A datagram is for a frame of the decoder's REMOTE period. -/
def Decoder.serves (d : Decoder) (f : W32) : Bool := match d.until_ with | some g => !laterEq f g | none => true

/-- The checks of R72 on a datagram for an edge, then the hold or the decoder. -/
def State.edgeGram (s : State) (t n e : Nat) (d : Datagram) : State :=
  let g := s.graph t n
  let x := g.edge e
  let bad := fun (s : State) => s.countEdge t n e fun x => { x with bad := satCount 16 1 x.bad }
  match s.edgeKey t e with
  | .mig s1 => s1.putOff t (.gram d)
  | .none s1 => bad s1
  | .key k s1 =>
    let old := x.older.findIdx? fun y => y.serves d.frame
    let now := match x.decoder with | some y => y.serves d.frame | none => false
    if !gramOk x d ∨ d.key ≠ k ∨ d.nonce ≠ edgeNonce g (!g.far) ∨ (old.isNone && !now) = true then bad s1
    else if let some i := old then s1.withOlder t n e i fun s => s.decode73 t n e d
    else if g.holding x.cons d.frame then s1.holdGram t n e d
    else s1.decode73 t n e d

/-- In replay, the next record or frame close of a context comes from the copybook (R358). -/
def State.replayGram (s : State) (t : Nat) : State :=
  match s.cpbNext with
  | none => s
  | some r =>
    let e := r.key % 32
    let f := BitVec.ofNat 32 (r.key / 2 ^ 32)
    match ((s.ctx t).graphs.find? fun p => decide (e < p.2.edges.length) && (p.2.edge e).decoder.isSome).map (·.1) with
    | none => s
    | some n =>
      let x := s.edge t n e
      if r.type = 3 then
        ((s.cpbTake r).modDecoder t n e fun d => { d with cache := cacheAdd (leVal (r.payload.take 4)) f r.payload d.cache }).queueUp
          t n e [.rcd (remoteRec f r.payload)]
      else if r.type = 4 then
        let m := if x.sparse then 0 else x.keys
        let st := ((List.range m).map fun k => dataWord r.payload k).filter (· ≠ 0)
        let b := r.payload.drop (4 * m)
        let l := (List.range st.length).map fun i =>
          Queued.rcd (remoteRec f ((b.drop (x.bytes * i)).take x.bytes) (st.getD i 0))
        ((s.cpbTake r).modDecoder t n e fun d => { d with c := f }).queueUp t n e (l ++ [.close f])
      else s

/-- A datagram of the lossy class reaches its edge (R72, R79). -/
def State.lossyGram (s : State) (d : Datagram) : State :=
  match s.gramGraph d.ctx d fun x => x.decoder.isSome with
  | some n => s.edgeGram d.ctx n d.edge d
  | none => s

/-- R68, R72, R79: a datagram of the lossy class arrives, whose REL is 0 (R70); in replay it is discarded, and the next input comes from the
copybook (R358). -/
def execCausewayDatagramReceive (d : Datagram) (s : State) : Host.Outcome State Fault Refusal :=
  if !s.live d.ctx ∨ d.rel then .next s
  else if s.replaying d.ctx then .next (s.replayGram d.ctx)
  else .next (s.lossyGram d)

/-- WINDOW has expired on the oldest open frame of an edge's decoder. -/
def State.windowOver (s : State) (t n e : Nat) : State :=
  let x := s.edge t n e
  match x.decoder.bind (·.since) with
  | none => s
  | some at_ =>
    if s.edgeNow t n e < at_ + x.window.toNat then s
    else ((s.countEdge t n e fun x => { x with tmoClose := satCount 16 1 x.tmoClose }).beginClose t n e).decoderGo t n e

/-- R79: WINDOW expires on the oldest open frame. -/
def execWindowTimeout (ctx graph edge : Nat) (s : State) : Host.Outcome State Fault Refusal :=
  if (s.edge ctx graph edge).window = 0 ∨ !s.live ctx ∨ s.replaying ctx then .next s
  else .next (s.eachDecoder ctx graph edge fun s => s.windowOver ctx graph edge)

end Sys2Proof.Machine
end

