-- ==== Sys2Proof/Machine/Device.lean ====
section
/-! DEFINITION. Device accesses to longer structures of a context (R362): cut at every 64 KiB of address. -/

namespace Sys2Proof.Machine

/-- Reads the pieces of a range. -/
def State.devPieces (s : State) (t : Nat) : List (Nat × Nat) → List W8 → DevRes (List W8)
  | [], acc => .ok acc s
  | (a, n) :: rest, acc =>
    match s.devRead t a n with
    | .ok b s1 => State.devPieces s1 t rest (acc ++ b)
    | .fault c s1 => .fault c s1
    | .later s1 => .later s1

/-- Reads n bytes of a context's structure. -/
def State.devBytes (s : State) (t va n : Nat) : DevRes (List W8) := s.devPieces t (pagePieces (n / 65536 + 2) va n) []

/-- What writing a range gives: the state, with the first cause found. -/
structure Wrote where
  s   : State
  bad : Option Cause := none
  mig : Bool := false

/-- Writes the pieces of a range that it can. -/
def State.devStore (s : State) (t : Nat) : List (Nat × Nat) → List W8 → Wrote
  | [], _ => { s := s }
  | (a, n) :: rest, bs =>
    match s.devWrite t a (bs.take n) with
    | .ok _ s1 => State.devStore s1 t rest (bs.drop n)
    | .fault c s1 =>
      let r := State.devStore s1 t rest (bs.drop n)
      { r with bad := some (match r.bad with | some d => if d.toNat < c.toNat then d else c | none => c) }
    | .later s1 =>
      let r := State.devStore s1 t rest (bs.drop n)
      { r with mig := true }

/-- Writes bytes of a context's structure. -/
def State.devPut (s : State) (t va : Nat) (bs : List W8) : Wrote :=
  s.devStore t (cutLastKib (pagePieces (bs.length / 65536 + 2) va bs.length)) bs

/-- A little-endian field of n bytes. -/
def field (b : List W8) (off n : Nat) : Nat := leVal ((b.drop off).take n)

end Sys2Proof.Machine
end

