-- ==== Sys2Proof/Machine/Launch.lean ====
section
/-! DEFINITION. Launch queues, launch records and graph records (R47 to R52, R59 to R64, R173, R321, R322), the admission
of launches, and what the host sees of it. -/

namespace Sys2Proof.Machine

/-! Queues (R59). -/

/-- An entry of a context's queue table. -/
structure QEntry where
  base  : Nat
  log2n : Nat
  prio  : Nat
  die   : Nat
  en    : Bool
  widx  : W32
  ridx  : W32
  deriving DecidableEq, Repr

/-- The address of an entry. -/
def State.qAddr (s : State) (t q : Nat) : Nat := bits (s.cctx t 0x11A).toNat 55 6 * 64 + 32 * q

/-- Reads an entry. DESIGN CHOICE (log 82): R59 gives no consequence for a LOG2N outside 1 to 16 or for bits that must be 0 and are not; the
device uses the entry as its other bits stand, with 2^LOG2N ring entries. -/
def State.qRead (s : State) (t q : Nat) : DevRes QEntry :=
  match s.devRead t (s.qAddr t q) 32 with
  | .ok b s1 =>
    let w := field b 8 4
    .ok { base := field b 0 8, log2n := bits w 4 0, prio := bits w 8 5, die := bits w 10 9, en := bit w 11
          widx := BitVec.ofNat 32 (field b 12 4), ridx := BitVec.ofNat 32 (field b 16 4) } s1
  | .fault c s1 => .fault c s1
  | .later s1 => .later s1

/-- The address of entry i of a queue's ring. DESIGN CHOICE (log 82): a BASE that is not 64-byte aligned is used as it stands. -/
def QEntry.at_ (e : QEntry) (i : W32) : Nat := e.base + 64 * (i.toNat % 2 ^ e.log2n)

/-- The priority of a queue (R23); that of one whose entry cannot be read is 0 (log 23). It waits while a walk waits on MIG (R154). -/
def State.qPrio (s : State) (t q : Nat) : DevRes Nat :=
  match s.qRead t q with
  | .ok e s1 => .ok e.prio s1
  | .fault _ s1 => .ok 0 s1
  | .later s1 => .later s1

/-- What the device keeps for a queue. -/
def State.queue (s : State) (t q : Nat) : Queue := SMap.get q {} (s.ctx t).queues
/-- Updates it. -/
def State.modQueue (s : State) (t q : Nat) (f : Queue → Queue) : State :=
  s.modCtx t fun c => { c with queues := SMap.put q (f (SMap.get q {} c.queues)) c.queues }

/-- A rejection or a refusal is counted and reported (R13, R173, R174). -/
def State.rejectNote (s : State) (t q : Nat) (cause : BitVec 8) (index : W32) : State :=
  (s.modQueue t q fun x =>
    { x with rejects := if x.rejects = 0xFFFFFFFF then x.rejects else x.rejects + 1, cause := cause
             index := index.setWidth 24 }).postEvent t 3

/-- A record is rejected with 0x1D; the handle of a `launch` completes with it (R13). -/
def State.rejectRec (s : State) (t q : Nat) (index : W32) (slot : Option (Nat × Nat)) : State :=
  let s1 := s.rejectNote t q 0x1D index
  match slot with
  | some (c, n) => s1.pendSlot c n true 0x1D 0
  | none => s1

/-! Records (R60). -/

/-- A workgroup shape from its 38 bits. -/
def Shape.parse (x : Nat) : Shape :=
  { warps := bits x 5 0, vregs := bits x 14 6, localK := bits x 24 15, tiles := bits x 29 25, accs := bits x 33 30
    sbars := bits x 37 34 }

/-- The fields lie in the ranges of R60. -/
def Shape.inRange (x : Shape) : Bool :=
  decide (1 ≤ x.warps) && decide (x.warps ≤ 32) && decide (1 ≤ x.vregs) && decide (x.vregs ≤ 256) && decide (x.localK ≤ 512)
    && decide (x.tiles ≤ 16) && decide (x.accs ≤ 8) && decide (x.sbars ≤ 8)

/-- A launch record from its bytes; none when it breaks R60's table. Of a GRAPH record only ADDR is used. -/
def Launch.parse (b : List W8) : Option Launch :=
  let w := field b 0 4
  let kind := bits w 1 0
  let sh := field b 0x14 8
  if kind = 3 ∨ field b 0x1C 4 ≠ 0 ∨ !((b.drop 0x30).all (· = 0))
      ∨ (kind = 0 ∧ (bits sh 63 38 ≠ 0 ∨ !(Shape.parse sh).inRange)) ∨ (kind ≠ 2 ∧ field b 0x10 4 = 0) then none
  else
    some { kind := kind, stage := bits w 5 2, wait := if bit w 6 ∧ kind ≠ 2 then some (bits w 19 8) else none
           doneDec := if bit w 7 ∧ kind ≠ 2 then some (bits w 31 20) else none, frame := BitVec.ofNat 32 (field b 4 4)
           addr := BitVec.ofNat 64 (field b 8 8), count := field b 0x10 4, shape := Shape.parse sh
           slots := BitVec.ofNat 64 (field b 0x20 8), arg := BitVec.ofNat 64 (field b 0x28 8) }

/-- The warps of a workgroup on sub-core j when its first warp goes to sub-core b (R12). -/
def Shape.onSub (x : Shape) (b j : Nat) : Nat := ((List.range x.warps).filter fun w => (b + w) % 4 = j).length

/-- An empty core could supply the workgroup (R13). -/
def Shape.startable (x : Shape) : Bool :=
  decide (x.localK ≤ 512) && decide (x.tiles ≤ 16) && decide (x.accs ≤ 8) && decide (x.sbars ≤ 32)
    && (List.range 4).any fun b => (List.range 4).all fun j =>
      decide (x.onSub b j ≤ 24) && decide (x.onSub b j * x.vregs8 ≤ 1024)

/-! Graph records (R47 to R51). -/

/-- A stage entry with its PLACE; none when a field is not allowed. -/
def parseStage (b : List W8) : Option (Stage × Bool) :=
  let w := field b 8 8
  let z := field b 0x18 8
  let sh := Shape.parse w
  if !sh.inRange ∨ 4 < bits w 40 38 ∨ bits w 63 53 ≠ 0 ∨ 2 ^ 26 < bits z 26 0 ∨ bits z 63 39 ≠ 0 ∨ field b 0x24 4 ≠ 0
      ∨ field b 0x38 8 ≠ 0 then none
  else
    some ({ entry := BitVec.ofNat 64 (field b 0 8), shape := sh, kind := bits w 40 38, trigger := bits w 46 42, trigen := bit w 47
            queue := bits w 51 48, closeDec := if bit w 52 then some (bits z 38 27) else none
            state := BitVec.ofNat 64 (field b 0x10 8), stateSz := bits z 26 0, slots := BitVec.ofNat 64 (field b 0x28 8)
            arg := BitVec.ofNat 64 (field b 0x30 8) }, bit w 41)

/-- An edge entry; none when a field is not allowed (R50, R51). -/
def parseEdge (b : List W8) : Option Edge :=
  let w := field b 0 8
  let sub := bits w 33 31
  if bits w 19 12 = 0 ∨ bits w 29 28 = 3 ∨ 3 < sub ∨ bits w 63 60 ≠ 0 ∨ field b 0x0A 2 ≠ 0 ∨ !((b.drop 0x28).all (· = 0))
      ∨ bits w 19 12 < bits w 27 20 ∨ (bit w 30 ∧ sub ≠ 3) then none
  else
    some { prod := bits w 3 0, cons := bits w 7 4, size := bits w 11 8, slots := bits w 19 12 + 1, perWg := bits w 27 20 + 1
           kind := bits w 29 28, sparse := bit w 30, subst := sub, pmask := BitVec.ofNat 16 (bits w 49 34)
           ringDie := bits w 51 50, peer := bits w 59 52, keys := field b 8 2 + 1, window := BitVec.ofNat 32 (field b 0x0C 4)
           holdMax := field b 0x10 4, deadline := field b 0x14 4
           credits := if bits w 29 28 = 1 then bits w 19 12 + 1 else 0 }

/-- Every element is there. -/
def allSome {α : Type} : List (Option α) → Option (List α)
  | [] => some []
  | none :: _ => none
  | some x :: xs => (allSome xs).map (x :: ·)

/-- Stages left when those that no edge from a stage left enters are taken away. -/
def peel (edges : List Edge) (l : List Nat) : List Nat :=
  l.filter fun k => edges.any fun e => decide (e.cons = k) && l.contains e.prod

/-- The edges form no cycle. -/
def acyclic (edges : List Edge) (n : Nat) : Bool :=
  ((List.range n).foldl (fun l _ => peel edges l) (List.range n)).isEmpty

/-- R51's cut checks, for a cut vector and a placement. -/
def cutOk (edges : List Edge) (cut : W32) (place : BitVec 16) : Bool :=
  (List.range edges.length).all fun i =>
    let e := edges.getD i Edge.none
    let apart := place.getLsbD e.prod != place.getLsbD e.cons
    if e.kind = 1 then !cut.getLsbD i else cut.getLsbD i == apart

/-- The conditions of R51 and R335 on a graph. -/
def Graph.sound (g : Graph) : Bool :=
  let n := g.stages.length
  (g.edges.all fun e => decide (e.prod < n) && decide (e.cons < n) && decide (e.prod ≠ e.cons))
    && acyclic g.edges n
    && ((List.range n).all fun k => decide ((g.edges.filter fun e => decide (e.cons = k)).length ≤ 4))
    && ((List.range n).all fun k =>
      let st := g.stage k
      !st.trigen || (decide (st.trigger < g.edges.length) && decide ((g.edge st.trigger).cons = k)))
    && cutOk g.edges g.cut g.place
    && ((List.range g.edges.length).all fun i => decide ((g.edge i).kind = 1) || decide ((g.edge i).kind = 2) == g.cut.getLsbD i)
    && (List.range g.edges.length).all fun i =>
      let st := g.stage (g.edge i).cons
      !g.raster i || (st.trigen && decide (st.trigger = i) && decide ((g.edge i).perWg ≤ st.shape.warps))

/-- A graph from the bytes of its record, as a queue of a die admits it; none when R51 rejects it. -/
def Graph.parse (at_ : W64) (q d : Nat) (b : List W8) : Option Graph :=
  let w := field b 0 4
  let ns := bits w 11 8 + 1
  let ne := bits w 17 12
  if bits w 7 0 ≠ 1 ∨ 32 < ne ∨ bits w 31 19 ≠ 0 ∨ !((b.drop 0x10).take 0x30).all (· = 0) ∨ at_.toNat % 64 ≠ 0 then .none
  else
    match allSome ((List.range ns).map fun k => parseStage ((b.drop (0x40 + 64 * k)).take 64)),
        allSome ((List.range ne).map fun e => parseEdge ((b.drop (0x440 + 64 * e)).take 64)) with
    | some st, some es =>
      let place := BitVec.ofNat 16 ((List.range ns).foldr (fun k acc => acc + if (st.map (·.2)).getD k false then 2 ^ k else 0) 0)
      let cut := BitVec.ofNat 32 (field b 4 4)
      let f0 := BitVec.ofNat 32 (field b 0x0C 4)
      let g : Graph :=
        { at_ := at_, queue := q, die := d, far := bit w 18, gid := BitVec.ofNat 32 (field b 8 4), frame0 := f0
          stages := st.map (·.1), edges := es, cut := cut, place := place, since := f0, oldCut := cut, oldPlace := place
          cur := f0 - 1 }
      if g.sound then
        some { g with edges := es.map fun e =>
          if place.getLsbD e.cons = g.far then
            { e with pinned := true, decoder := if e.kind = 2 then some { c := f0 - 1, top := f0 - 1 } else .none }
          else e }
      else .none
    | _, _ => .none

/-- The ring space a graph takes on a die (R52, R78). -/
def Graph.ringNeed (g : Graph) (d : Nat) : Nat :=
  ((g.edges.filter fun e => decide (e.ringDie = d) && decide (g.place.getLsbD e.cons = g.far)).map fun e =>
    e.demand e.decoder.isSome).foldl (· + ·) 0

/-- The number of the admitted graph at an address. -/
def State.graphAt (s : State) (t : Nat) (a : W64) : Option Nat :=
  ((s.ctx t).graphs.find? fun p => p.2.at_ = a).map (·.1)

/-- Whether something is admitted; it waits while a walk of the device waits on MIG, or for a peer's answer (R154). -/
abbrev Admitted := DevRes Bool

/-- Admits a graph (R51). -/
def State.admitGraph (s : State) (t q d : Nat) (a : W64) : Admitted :=
  match s.devBytes t a.toNat 3136 with
  | .later s1 => .later s1
  | .fault _ s1 => .ok false s1
  | .ok b s1 =>
    match Graph.parse a q d b with
    | none => .ok false s1
    | some g =>
      if (s1.graphAt t a).isSome
          ∨ !((List.range 4).all fun d => decide (s1.ringUse d + g.ringNeed d ≤ ringMib (s1.cdie d 0x400) * 2 ^ 20)) then
        .ok false s1
      else
        let n := s1.nextId
        let s2 := { s1 with nextId := n + 1 }.modCtx t fun c => { c with graphs := SMap.put n g c.graphs }
        let s3 := (List.range g.stages.length).foldl (fun s k => s.tryWrite t (a.toNat + 0x40 + 64 * k + 0x20) (leList 4 0)) s2
        .ok true ((List.range g.edges.length).foldl (fun s e =>
          s.tryWrite t (a.toNat + 0x440 + 64 * e + 0x18) (List.replicate 16 0)) s3)

/-! Admission (R59, R63). -/

/-- A launch joins a die's launches. -/
def State.addGrid (s : State) (d : Nat) (g : Grid) : State :=
  { s.modDie d fun x => { x with grids := x.grids ++ [{ g with id := s.nextId }] } with nextId := s.nextId + 1 }

/-- The launch of a stage's workgroups: entry, shape, slots and argument are the stage's (R60). -/
def Launch.ofStage (r : Launch) (k : Nat) (st : Stage) : Launch :=
  { r with kind := 1, stage := k, addr := st.entry, shape := st.shape, slots := st.slots, arg := st.arg }

/-- A launch of a queue joins a die's launches, with the queue's priority. -/
def State.admitGrid (s : State) (d : Nat) (g : Grid) : Admitted :=
  match s.qPrio g.ctx g.q with
  | .ok p s1 => .ok true (s1.addGrid d { g with prio := p })
  | .fault c s1 => .fault c s1
  | .later s1 => .later s1

/-- Admits a record or rejects it (R60). -/
def State.admitLaunch (s : State) (t q d : Nat) (index : W32) (r : Launch) (tokens : List Token) : Admitted :=
  match r.kind with
  | 0 =>
    if !r.shape.startable then .ok false s
    else s.admitGrid d { id := 0, ctx := t, q := q, lrec := r, tokens := tokens }
  | 1 =>
    match s.graphAt t r.addr with
    | none => .ok false s
    | some n =>
      let g := s.graph t n
      let st := g.stage r.stage
      if g.stages.length ≤ r.stage ∨ st.trigen ∨ !g.here r.frame r.stage ∨ !st.shape.startable then .ok false s
      else
        (match s.admitGrid d { id := 0, ctx := t, q := st.queue, lrec := r.ofStage r.stage st, graph := some n, src := some (q, index)
                               tokens := tokens } with
          | .ok b s1 => .ok b (s1.noteWork t n r.stage r.frame)
          | x => x)
  | _ => s.admitGraph t q d r.addr

/-- Admits the record of some bytes; false when it is rejected. -/
def State.admitBytes (s : State) (t q d : Nat) (index : W32) (b : List W8) (tokens : List Token) : Admitted :=
  match Launch.parse b with
  | none => .ok false s
  | some r => s.admitLaunch t q d index r tokens

/-- A record whose turn has come is admitted or rejected, and its handle completes (R61). An admitted record is captured, or
in replay taken from the copybook (R356 to R358). -/
def State.admitRec (s : State) (t q d : Nat) (index : W32) (b : List W8) (slot : Option (Nat × Nat)) (tokens : List Token) : DevRes Unit :=
  let fin := fun (s : State) => match slot with | some (c, n) => s.pendSlot c n false 0x00 0 | none => s
  match s.admitBytes t q d index b tokens with
  | .ok true s1 =>
    if s.replaying t then
      match s.cpbAsk t 2 with
      | (none, s2) => .ok () s2
      | (some b', s2) =>
        (match s2.admitBytes t q d index b' tokens with
          | .ok true s3 => .ok () (fin s3)
          | .ok false s3 => .ok () (s3.rejectRec t q index slot)
          | .fault c s3 => .fault c s3
          | .later s3 => .later s3)
    else .ok () (fin (s1.capture t 2 (q + index.toNat * 2 ^ 32) b))
  | .ok false s1 => .ok () (s1.rejectRec t q index slot)
  | .fault c s1 => .fault c s1
  | .later s1 => .later s1

/-- The records of a queue that are set aside (R59). -/
def State.asides (s : State) (t q : Nat) : List (Nat × Aside) :=
  s.dies.flatMap fun d => (d.2.aside.filter fun a => decide (a.ctx = t) && decide (a.q = q)).map fun a => (d.1, a)

/-- The record with the lowest index among some of one queue. -/
def firstAside : List (Nat × Aside) → Option (Nat × Aside)
  | [] => none
  | a :: l =>
    match firstAside l with
    | some b => if later a.2.index b.2.index then some b else some a
    | none => some a

/-- Where a record's counter stands for its WAIT test (R63, R363). -/
inductive WaitTest where
  | go (toks : List Token) (s : State)
  | hold (s : State)
  | unread (s : State)
  | later (s : State)

/-- Tests a counter. -/
def State.waitTest (s : State) (t : Nat) : Option Nat → WaitTest
  | none => .go [] s
  | some n =>
    match s.devRead t (s.depAddr t n) 4 with
    | .ok b s1 => if leVal b = 0 then .go (s1.depTokens t n) s1 else .hold s1
    | .fault _ s1 => .unread (s1.postEvent t 6)
    | .later s1 => .later s1

/-- Where a record came from: its handle slot, and its token (that of the host when none is kept, R65). -/
def Queue.origin (x : Queue) (i : W32) : Option (Nat × Nat) × Token :=
  (((x.slots.find? fun p => p.1 = i).map (·.2)), ((x.tokens.find? fun p => p.1 = i).map (·.2)).getD {})

/-- The queue passes a record. -/
def State.passRec (s : State) (t q : Nat) (i : W32) : State :=
  s.modQueue t q fun x => { x with slots := x.slots.filter fun p => p.1 ≠ i, tokens := x.tokens.filter fun p => p.1 ≠ i }

/-- An act that a record's turn asks for; one that must wait leaves the record where it is, with what its reads have asked for. -/
def State.orLater (s : State) (t : Nat) : DevRes Unit → State
  | .ok _ s1 => s1
  | .fault _ _ => s
  | .later s1 => { s.modCtx t fun x => { x with streams := (s1.ctx t).streams } with sent := s1.sent }.drawn

/-- RIDX passes a record (R363), and what then becomes of it. -/
def State.consume (s : State) (t q : Nat) (e : QEntry) (k : State → DevRes Unit) : DevRes Unit :=
  match s.devWrite t (s.qAddr t q + 16) (leList 4 (e.ridx + 1).toNat) with
  | .ok _ s1 => k (s1.passRec t q e.ridx)
  | r => r

/-- The record at RIDX of a queue, whose turn has come, is admitted, rejected or set aside. -/
def State.nextRec (s : State) (t q : Nat) (e : QEntry) : DevRes Unit :=
  let o := (s.queue t q).origin e.ridx
  let reject := fun (s : State) => s.consume t q e fun s => .ok () (s.rejectRec t q e.ridx o.1)
  match s.devRead t (e.at_ e.ridx) 64 with
  | .later s1 => .later s1
  | .fault _ s1 => reject s1
  | .ok b s1 =>
    match Launch.parse b with
    | none => reject s1
    | some lr =>
      let aside := fun (s : State) (tested : Option Nat) =>
        if 64 ≤ (s.asides t q).length then .ok () s
        else s.consume t q e fun s => .ok () (s.modDie e.die fun x =>
          { x with aside := x.aside ++ [{ ctx := t, q := q, index := e.ridx, lrec := lr, bytes := b, slot := o.1
                                          tested := tested, tokens := [o.2] }] })
      match s1.waitTest t lr.wait with
      | .later s2 => .later s2
      | .hold s2 => aside s2 none
      | .unread s2 => aside s2 (some (s2.die e.die).counter)
      | .go toks s2 => s2.consume t q e fun s => s.admitRec t q e.die e.ridx b o.1 (o.2 :: toks)

/-- R59: the next record of a queue is admitted, rejected or set aside; those that a counter has released come first. -/
def State.launchAdmit (s : State) (t q : Nat) : State :=
  if !s.live t then s
  else
    match firstAside ((s.asides t q).filter (·.2.ready)) with
    | some (d, a) =>
      s.orLater t ((s.modDie d fun x => { x with aside := x.aside.filter fun b => b ≠ a }).admitRec t q d a.index a.bytes a.slot a.tokens)
    | none =>
      match s.qRead t q with
      | .ok e s1 => if !e.en ∨ e.widx = e.ridx then s else s.orLater t (s1.nextRec t q e)
      | .later s1 => s.orLater t (.later s1)
      | .fault _ _ => s

def execLaunchAdmit (ctx q : Nat) (s : State) : Host.Outcome State Fault Refusal := .next (s.launchAdmit ctx q)

/-- R363: a record whose counter could not be read is tested again. -/
def execWaitRecordRetest (die pos : Nat) (s : State) : Host.Outcome State Fault Refusal :=
  match (s.die die).aside[pos]? with
  | none => .next s
  | some a =>
    match a.tested with
    | none => .next s
    | some at_ =>
      let put := fun (s : State) (b : Aside) => s.modDie die fun x => { x with aside := modAt (fun _ => b) pos x.aside }
      if !s.live a.ctx ∨ (s.die die).counter < at_ + 2 ^ 20 then .next s
      else
        match s.waitTest a.ctx a.lrec.wait with
        | .later s1 => .next s1
        | .unread s1 => .next (put s1 { a with tested := some (s1.die die).counter })
        | .hold s1 => .next (put s1 { a with tested := none })
        | .go toks s1 => .next (put s1 { a with tested := none, ready := true, tokens := a.tokens ++ toks })

/-! `launch` and `depdec` (R61, R321, R322). -/

/-- What becomes of the first record that a launch buffer holds for a queue: it is over, or its turn has not come. -/
inductive Append where
  | over (s : State)
  | stays (s : State)

/-- A record's handle completes with a cause, and nothing is appended (R321, R363). -/
def State.launchFails (s : State) (core : Nat) (l : LaunchWait) (c : Cause) : State := (s.postEvent l.ctx 6).pendSlot core l.slot true c 0

/-- Appends a record to its queue (R61), reading it from memory as a plain load of its warp (R321); it stays while the queue is full or a
walk waits on MIG. -/
def State.appendLaunch (s : State) (core : Nat) (l : LaunchWait) : Append :=
  match s.qRead l.ctx l.q with
  | .later s1 => .stays s1
  | .fault c s1 => .over (s1.launchFails core l c)
  | .ok e s1 =>
    if !e.en then .over (s1.pendSlot core l.slot true 0x06 0)
    else if 2 ^ e.log2n ≤ (e.widx - e.ridx).toNat then .stays s1
    else
      match s1.recLoad l.wg l.w l.va 64 false with
      | .later s2 => .stays s2
      | .fault c s2 => .over (s2.launchFails core l c)
      | .ok b s2 =>
        match s2.devWrite l.ctx (e.at_ e.widx) b with
        | .later s3 => .stays s3
        | .fault c s3 => .over (s3.launchFails core l c)
        | .ok _ s3 =>
          match s3.devWrite l.ctx (s3.qAddr l.ctx l.q + 12) (leList 4 (e.widx + 1).toNat) with
          | .later s4 => .stays s4
          | .fault c s4 => .over (s4.launchFails core l c)
          | .ok _ s4 =>
            .over (s4.modQueue l.ctx l.q fun x =>
              { x with slots := x.slots ++ [(e.widx, core, l.slot)], tokens := x.tokens ++ [(e.widx, l.token)] })

/-- R61: the first record of a core's launch buffer whose queue has room is appended, in order within each queue. -/
def State.launchAppend (s : State) (core : Nat) : List LaunchWait → List LaunchWait → State
  | _, [] => s
  | held, l :: rest =>
    if held.any fun h => decide (h.ctx = l.ctx) && decide (h.q = l.q) then State.launchAppend s core (held ++ [l]) rest
    else
      match s.appendLaunch core l with
      | .over s1 => s1.modCore core fun x => { x with launches := x.launches.filter fun m => m.slot ≠ l.slot }
      | .stays s1 => State.launchAppend (s.orLater l.ctx (.later s1)) core (held ++ [l]) rest

def execLaunchBufferAppend (core : Nat) (s : State) : Host.Outcome State Fault Refusal :=
  .next (s.launchAppend core [] (s.core core).launches)

/-- The queue a `launch` names: IMM32, or sB. -/
def launchPre (c : Cx) (_ : State) : Option Res := if c.f.len = .f96 ∧ 16 ≤ c.f.imm.toNat then some (c.raise 0x06) else none

/-- R321: after the warp's earlier operations (R65) the record joins the launch buffer; it is read when it is appended. -/
def launchBody (c : Cx) (s : State) : Res :=
  let q := if c.f.len = .f96 then c.f.imm.toNat else c.sB.toNat
  let k := s.coreOf c.g
  let t := (s.wg c.g).ctx
  if 16 ≤ q then c.raise 0x06
  else if c.sA.toNat % 64 ≠ 0 then c.raise 0x09
  else if ((s.core k).nextSlot).isNone then .wait [.slot]
  else if 16 ≤ (s.core k).launches.length then .wait [.launchBuf]
  else if !(s.warp c.g c.w).allPerformed then .wait [.performed]
  else
    withSlot c s fun s1 n =>
      .done (s1.modCore k fun x => { x with launches := x.launches ++
        [{ ctx := t, q := q, slot := n, va := c.sA.toNat, wg := c.g, w := c.w, token := s.warpToken c.g c.w }] })
def execLaunch (f : Fields) (s : State) := issue (.launch f) s open_ launchPre launchBody

/-- R322. -/
def depdecPre (c : Cx) (_ : State) : Option Res := if c.f.len = .f96 ∧ 4096 ≤ c.f.imm.toNat then some (c.raise 0x06) else none
def depdecBody (c : Cx) (s : State) : Res :=
  let n := if c.f.len = .f96 then c.f.imm.toNat else c.sB.toNat
  if 4096 ≤ n then c.raise 0x06
  else if !(s.warp c.g c.w).allPerformed then .wait [.performed]
  else .done (s.decrement (s.wg c.g).ctx n [s.warpToken c.g c.w])
def execDepdec (f : Fields) (s : State) := issue (.depdec f) s open_ depdecPre depdecBody

/-! Notify pages (R64, R173). -/

/-- R64: a host write of DOOR, once its queue-table entry is read. -/
def State.doorAt (s : State) (t q : Nat) (w : W32) : DevRes Unit :=
  match s.qRead t q with
  | .later s1 => .later s1
  | .fault _ s1 => .ok () (s1.rejectNote t q 0x06 w)
  | .ok e s1 =>
    let n := (w - e.ridx).toNat
    if !e.en ∨ 2 ^ e.log2n < n ∨ n < (e.widx - e.ridx).toNat then .ok () (s1.rejectNote t q 0x06 w)
    else
      match s1.devWrite t (s1.qAddr t q + 12) (leList 4 w.toNat) with
      | .fault _ s2 => .ok () (s2.rejectNote t q 0x06 w)
      | r => r

/-- R64: a host write of DOOR; behind one of the queue that waits on MIG it waits too (R154). -/
def State.doorTry (s : State) (t q : Nat) (w : W32) : State :=
  if (s.ctx t).pend.any fun p => match p.1 with | .door q' _ => decide (q' = q) | _ => false then s.putOff t (.door q w)
  else
    match s.doorAt t q w with
    | .ok _ s1 => s1
    | .fault _ s1 => s1
    | .later s1 => s1.putOff t (.door q w)

/-- R64: a host write of DOOR as it arrives, or as the copybook replays it; it is captured (R357). -/
def State.door (s : State) (t q : Nat) (w : W32) : State := (s.capture t 1 (q + w.toNat * 2 ^ 32) []).doorTry t q w

/-- R64, R358: a write for a replayed context is discarded, and the next notify write comes from the copybook. -/
def execNotifyDoorbellWrite (ctx q : Nat) (w : BitVec 32) (s : State) : Host.Outcome State Fault Refusal :=
  if !s.live ctx ∨ 16 ≤ q then .next s
  else if s.replaying ctx then
    match s.cpbNext with
    | some r =>
      if r.type = 1 then .next ((s.cpbTake r).door ctx (r.key % 16) (BitVec.ofNat 32 (r.key / 2 ^ 32))) else .next s
    | none => .next s
  else .next (s.door ctx q w)

/-- R64: a host read of DOOR; while its walk waits on MIG it is not answered yet (R154). -/
def State.doorRead (s : State) (t q : Nat) : State :=
  if !s.live t ∨ 16 ≤ q then { s with hostRead := some (.word 0) }
  else
    match s.qRead t q with
    | .ok e s1 => { s1 with hostRead := some (.word (e.ridx.setWidth 64)) }
    | .fault _ s1 => { s1.postEvent t 6 with hostRead := some (.word 0) }
    | .later s1 => s1

/-- R64; a refused image answers no memory request (R359). -/
def execNotifyDoorbellRead (ctx q : Nat) (s : State) : Host.Outcome State Fault Refusal :=
  .next (if s.refused then { s with hostRead := some .unsupported } else s.doorRead ctx q)

/-- R173: a host write of REJECTS. -/
def execRejectsWrite (ctx q : Nat) (v : BitVec 32) (s : State) : Host.Outcome State Fault Refusal :=
  if !s.live ctx ∨ 16 ≤ q ∨ v ≠ 0 then .next s else .next (s.modQueue ctx q fun x => { x with rejects := 0 })

end Sys2Proof.Machine
end

