-- ==== Sys2Proof/Machine/Moves.lean ====
section
/-! DEFINITION. Moving the cut (R85 to R90, R323, R324, R339): the request, the exchange with the other unit, acceptance,
satchels, cold starts and the end of a move. -/

namespace Sys2Proof.Machine

/-! The move of a graph. -/

/-- The stages that change sides under a placement (R85). -/
def Graph.moved (g : Graph) (place : BitVec 16) : List Nat :=
  (List.range g.stages.length).filter fun k => place.getLsbD k != g.place.getLsbD k

/-- A move asked for by the operand and the frame of R85. -/
def Graph.askMove (g : Graph) (a : W64) (f : W32) (handle : Option (Nat × Nat)) : Move :=
  let place := a.extractLsb' 32 16
  { frame := f, cut := a.setWidth 32, place := place, handle := handle
    stages := (g.moved place).map fun k => { stage := k, toHere := decide (place.getLsbD k = g.far) } }

/-- A stage leaves this unit for a frame, by a move that is asked for or in progress: it starts no workgroup of it here. -/
def Graph.leaving (g : Graph) (k : Nat) (f : W32) : Bool :=
  match g.move with
  | .some m => laterEq f m.frame && m.stages.any fun x => decide (x.stage = k) && !x.toHere
  | .none => false

/-- Rings, caches and hold buffers fit on every die (R52, R85). -/
def State.ringsFit (s : State) : Bool :=
  (List.range 4).all fun d => decide (s.ringUse d ≤ ringMib (s.cdie d 0x400) * 2 ^ 20)

/-- Updates a stage's part of a move. -/
def State.modMove (s : State) (t n : Nat) (f : Move → Move) : State :=
  s.modGraph t n fun g => { g with move := g.move.map f }
/-- Updates one stage of a move. -/
def State.modMoving (s : State) (t n k : Nat) (f : StageMove → StageMove) : State :=
  s.modMove t n fun m => { m with stages := m.stages.map fun x => if x.stage = k then f x else x }

/-- One stage of the move in progress. -/
def Graph.moving (g : Graph) (k : Nat) : Option StageMove :=
  match g.move with
  | .some m => if m.accepted then m.stages.find? fun x => x.stage = k else .none
  | .none => .none

/-- A datagram of the cut-move protocol (R70, R86). -/
def moveGram (t type : Nat) (g : Graph) (f : W32) (aux : Nat) : Datagram :=
  { Datagram.blank t type with graph := g.gid, frame := f, aux := BitVec.ofNat 32 aux }

/-- CUTREQ (R86). -/
def cutReq (t : Nat) (g : Graph) (a : W64) (f : W32) : Datagram :=
  { moveGram t 5 g f 0 with count := 16, body := bytes64 a ++ bytes32 f ++ bytes32 0 }

/-! Acceptance (R86, R87 steps 1 to 4, R339). -/

/-- An edge when a move of frame f is accepted: it was REMOTE into this unit, and will be; `stays` when its consumer does not change
sides (R339). A decoder of an earlier period goes on while it has frames to close or records to deliver. -/
def Edge.cutOver (x : Edge) (was will stays : Bool) (f : W32) : Edge :=
  match was, will with
  | false, true =>
    { x with decoder := some { c := f - 1, top := f - 1, base := if stays then some f else .none }
             older := (x.older ++ x.decoder.toList).filter fun d => d.needed || !d.spill.isEmpty }
  | true, false => { x with decoder := x.decoder.map fun d => { d with until_ := some f } }
  | _, _ => x

/-- Records of frame f and later that wait for a consumer that leaves are dropped. -/
def Edge.leave (x : Edge) (f : W32) : Edge :=
  { x with ring := x.ring.filter fun p => !laterEq p.1.frame f, batches := x.batches.filter fun r => !laterEq r.frame f }

/-- The new cut and placement govern frame F and later. -/
def Graph.accept (g : Graph) (m : Move) : Graph :=
  { g with
    oldCut := g.cut, oldPlace := g.place, cut := m.cut, place := m.place, since := m.frame
    move := some { m with accepted := true }
    edges := (List.range g.edges.length).map fun e =>
      let x := g.edge e
      let y := x.cutOver (decide (x.kind ≠ 1) && g.cut.getLsbD e && decide (g.place.getLsbD x.cons = g.far))
        (decide (x.kind ≠ 1) && m.cut.getLsbD e && decide (m.place.getLsbD x.cons = g.far))
        (g.place.getLsbD x.cons == m.place.getLsbD x.cons) m.frame
      let y1 := { y with pinned := y.pinned || decide (m.place.getLsbD x.cons = g.far) }
      if m.stages.any fun z => decide (z.stage = x.cons) && !z.toHere then y1.leave m.frame else y1 }

/-- A waiting launch that the move discards (R87 step 3). -/
def Grid.discards (x : Grid) (t n : Nat) (m : Move) : Bool :=
  decide (x.ctx = t) && decide (x.graph = some n) && decide (x.next < x.lrec.count) && laterEq x.lrec.frame m.frame
    && m.stages.any fun z => decide (z.stage = x.lrec.stage) && !z.toHere

/-- A die's launches without what the move discards; one that has started workgroups of its own goes on with those. -/
def dropWaiting (t n : Nat) (m : Move) (l : List Grid) : List Grid :=
  (l.filter fun x => !(x.discards t n m && decide (x.running = 0))).map fun x =>
    if x.discards t n m then { x with lrec := { x.lrec with count := x.next } } else x

/-- Both units have accepted the move of a graph. -/
def State.acceptMove (s : State) (t n : Nat) (m : Move) : State :=
  let gone := s.dies.flatMap fun d => d.2.grids.filter fun x => x.discards t n m
  let s1 := { s with dies := s.dies.map fun (d : Nat × Die) => (d.1, { d.2 with grids := dropWaiting t n m d.2.grids }) }
  let s2 := gone.foldl (fun s x => match x.src with
    | some (q, i) => s.rejectNote t q 0x1D i
    | none => s) s1
  let s3 := (s2.modGraph t n fun g => g.accept m).modStream t (s.otherUnit t) fun x => { x with lastRx := s.relNow t (s.otherUnit t) }
  m.stages.foldl (fun s x => s.setStatus t n x.stage fun y => { y with moving := true }) s3

/-! The end of a move (R85, R86, R87 step 8). -/

/-- DATA of the handle (R85): a bit for each stage that cold-started, those that moved to the near side alone when `near`. -/
def Move.coldBits (m : Move) (near : Bool) : Nat :=
  (m.stages.filter fun x => x.cold && (x.toHere || !near)).foldl (fun n x => n + 2 ^ x.stage) 0

/-- Completes the handle of a move. -/
def State.fillMove (s : State) (t n : Nat) (m : Move) (fault : Bool) (code : Cause) (data : Nat) : State :=
  match m.handle with
  | some (c, k) => (s.modMove t n fun m => { m with handle := none }).pendSlot c k fault code (BitVec.ofNat 40 data)
  | none => s

/-- The handle completes once what it waits for has happened, and the move ends once every stage's part is over. -/
def State.checkMove (s : State) (t n : Nat) : State :=
  match (s.graph t n).move with
  | .none => s
  | .some m =>
    if !m.accepted then s
    else
      let s1 :=
        if m.stages.all (·.started) then
          (if m.stages.any (·.fault) then s.fillMove t n m true 0x2E (m.coldBits false) else s.fillMove t n m false 0x00 (m.coldBits false))
        else if m.lost && m.stages.all fun x => x.started || !x.toHere then s.fillMove t n m true 0x11 (m.coldBits true)
        else s
      match (s1.graph t n).move with
      | .some m1 => if m1.handle.isNone && m1.stages.all (·.isOver) then s1.modGraph t n fun g => { g with move := .none } else s1
      | .none => s1

/-- A request is rejected: nothing has changed but the handle. -/
def State.dropMove (s : State) (t n : Nat) (code : Cause) : State :=
  match (s.graph t n).move with
  | .some m => (s.fillMove t n m true code 0).modGraph t n fun g => { g with move := .none }
  | .none => s

/-- A stage starts a workgroup of frame F or later on its new side: MOVING clears, and the far unit reports (R86). -/
def State.stageStarts (s : State) (t n k : Nat) (f : W32) : State :=
  let g := s.graph t n
  match g.moving k, g.move with
  | some x, .some m =>
    if !x.toHere ∨ x.started ∨ !laterEq f m.frame then s
    else
      let s1 := (s.setStatus t n k fun y => { y with moving := false }).modMoving t n k fun x => { x with started := true, isOver := true }
      let s2 := if g.far then
          s1.relSend t (s1.otherUnit t)
            { moveGram t 6 g m.frame 3 with
              edge := k, first := BitVec.ofNat 32 ((if x.cold then 1 else 0) + if x.fault then 2 else 0) }
        else s1
      s2.checkMove t n
  | _, _ => s

/-- The old side's part of a stage is over: MOVING clears. -/
def State.awayOver (s : State) (t n k : Nat) : State :=
  ((s.setStatus t n k fun y => { y with moving := false }).modMoving t n k fun x => { x with isOver := true }).checkMove t n

/-! Satchels (R87 steps 3 and 6, R89, R90). -/

/-- The size of a stage's state region; an address of 0 means none (R49). -/
def Stage.region (x : Stage) : Nat := if x.state = 0 then 0 else x.stateSz

/-- A satchel as datagrams: in ascending offset, the last marked (R87 step 3). -/
def satchelGrams (t k room : Nat) (g : Graph) (f : W32) (b : List W8) : List Datagram :=
  let n := max 1 ((b.length + room - 1) / room)
  (List.range n).map fun i =>
    let c := (b.drop (room * i)).take room
    { moveGram t 2 g f 0 with
      edge := k, first := BitVec.ofNat 32 (room * i), count := c.length, body := c, last := decide (i + 1 = n) }

/-- SATFAULT of a stage (R89); the unit that met the fault posts host event 5. -/
def State.satFault (s : State) (t n k : Nat) (event : Bool) : State :=
  let s1 := (s.setStatus t n k fun y => { y with satFault := true }).modMoving t n k fun x => { x with fault := true }
  if event then s1.postEvent t 5 else s1

/-- The old side has handed a satchel's datagrams to the stream. -/
def State.sendSatchel (s : State) (t n k : Nat) (l : List Datagram) : State :=
  let p := s.otherUnit t
  let s1 := l.foldl (fun s d => s.relSend t p d) s
  s1.modMoving t n k fun x => { x with sent := true, lastSeq := some ((s1.stream t p).next - 1) }

/-- R87 step 3: the frame before the move's is closed and the stage's workgroups have ended. -/
def State.snapshotDue (s : State) (t n k : Nat) : Bool :=
  let g := s.graph t n
  match g.moving k, g.move with
  | some x, .some m =>
    !x.toHere && !x.sent && !x.isOver && (g.frameOf k (m.frame - 1)).done
      && s.wgs.all fun p => !(decide (p.2.ctx = t) && decide (p.2.graph = some n) && decide (p.2.stage = some k))
  | _, _ => false

/-- R87 step 3, R89, R90: the cores that ran the frame release at DEV, the region is read, and the satchel is sent. -/
def execSatchelSnapshot (ctx graph stage : Nat) (s : State) : Host.Outcome State Fault Refusal :=
  if !s.live ctx ∨ !s.snapshotDue ctx graph stage then .next s
  else
    let g := s.graph ctx graph
    let st := g.stage stage
    let f := (g.move.map (·.frame)).getD 0
    let s1 := (g.frameOf stage (f - 1)).ran.foldl (fun s c => s.release c 4) s
    match s1.devBytes ctx st.state.toNat st.region with
    | .later s2 => .next (s.orLater ctx (.later s2))
    | .fault _ s2 =>
      .next ((s2.sendSatchel ctx graph stage [{ moveGram ctx 2 g f 0 with edge := stage, last := true, abort := true }]).satFault
        ctx graph stage true)
    | .ok b s2 => .next (s2.sendSatchel ctx graph stage (satchelGrams ctx stage (s.recordRoom ctx) g f b))

/-- The held datagrams of a stage reach their decoders in arrival order, and its work may start (R87 step 6). -/
def State.unhold (s : State) (t n k : Nat) : State :=
  let s1 := s.modMoving t n k fun x => { x with ready := true }
  ((List.range (s.graph t n).edges.length).filter fun e => (s.edge t n e).cons = k).foldl (fun s e =>
    (s.edge t n e).held.foldl (fun s d => s.decode73 t n e d) (s.modEdge t n e fun x => { x with held := [], heldRecs := 0 })) s1

/-- R87 step 7: the region is zeroed, COLD is set and counted, and the stage goes on; it waits while a walk waits on MIG. DESIGN CHOICE
(log 93): a fault met while the region is zeroed, of which R89 says nothing, sets no SATFAULT and posts no event; what can be written is. -/
def State.coldStart (s : State) (t n k : Nat) (fault event : Bool) : DevRes Unit :=
  let st := (s.graph t n).stage k
  let w := s.devPut t st.state.toNat (List.replicate st.region 0)
  if w.mig then .later w.s
  else
    let s1 := w.s.setStatus t n k fun y => { y with cold := true, coldCnt := satCount 16 1 y.coldCnt }
    let s2 := if fault then s1.satFault t n k event else s1
    .ok () ((s2.modMoving t n k fun x => { x with cold := true }).unhold t n k)

/-- Every byte of a satchel from offset 0 to its end has arrived: the satchel. -/
def StageMove.whole (x : StageMove) : Option (List W8) :=
  match x.last with
  | .none => .none
  | .some n =>
    let l := (List.range n).map fun i => SMap.find i x.got
    if l.all (·.isSome) then some (l.map fun b => b.getD 0) else .none

/-- R87 step 6: the new side writes its region: the satchel's bytes, then zeros. -/
def State.install (s : State) (t n k : Nat) (b : List W8) : DevRes Unit :=
  let st := (s.graph t n).stage k
  let w := s.devPut t st.state.toNat (b.take st.region ++ List.replicate (st.region - b.length) 0)
  if w.mig then .later w.s
  else if w.bad.isSome then w.s.coldStart t n k true true
  else .ok () (w.s.unhold t n k)

/-- Bytes of a satchel arrive. -/
def addBytes : Nat → List W8 → SMap W8 → SMap W8
  | _, [], m => m
  | i, b :: bs, m => addBytes (i + 1) bs (SMap.put i b m)

/-- An act that a datagram asks for is over, or must wait; what its reads have asked for is kept, with the state from which it is made
again. -/
def State.actOr (s : State) (t : Nat) (r : DevRes Unit) : DevRes Unit :=
  match r with
  | .later s1 => .later (s.orLater t (.later s1))
  | x => x

/-- A SATCHEL datagram reaches the new side; one whose stage has cold-started counts in LATESAT (R75, R87, R89). While the region's write
waits on MIG the datagram stays with the stream, to be delivered again. -/
def State.satchelGram (s : State) (t n : Nat) (d : Datagram) : DevRes Unit :=
  match (s.graph t n).moving d.edge with
  | some x =>
    if !x.toHere ∨ x.ready then .ok () (s.countCtx t 0x11D 31 16 1)
    else if d.abort then s.actOr t (s.coldStart t n d.edge true false)
    else
      let y := { x with got := addBytes d.first.toNat d.body x.got, last := if d.last then some (d.first.toNat + d.count) else x.last }
      let s1 := s.modMoving t n d.edge fun _ => y
      match y.whole with
      | some b => s1.actOr t (s1.install t n d.edge b)
      | none => .ok () s1
  | none => .ok () (s.countCtx t 0x11D 31 16 1)

/-- R87 step 7: D cycles have passed since the first work for the stage, or the stream is unreachable, and the satchel is not
complete. One that completes in the cycle in which D expires wins (R88); one that is complete but not written yet is written. -/
def execSatchelDeadlineExpiry (ctx graph stage : Nat) (s : State) : Host.Outcome State Fault Refusal :=
  let g := s.graph ctx graph
  match g.moving stage with
  | none => .next s
  | some x =>
    let d := g.deadline stage
    let dead := s.streamDead ctx (s.otherUnit ctx)
    let due := match x.since with | some a => decide (0 < d.1) && decide (a + d.1 ≤ (s.die d.2).counter) | .none => false
    if !s.live ctx ∨ !x.toHere ∨ x.ready ∨ !(due || dead) then .next s
    else
      match x.whole with
      | some b => .next (if dead then s.orLater ctx (s.install ctx graph stage b) else s)
      | none =>
        let cold := s.orLater ctx (s.coldStart ctx graph stage false false)
        if !dead ∧ x.since.map (· + d.1) = some (s.die d.2).counter then
          .next ((s.sameCycle (Tick.onDie d.2) (.satchelDeadlineExpiry ctx graph stage)).getD cold)
        else .next cold

/-! CUTREQ and CUTREPLY (R86). -/

/-- The far unit answers a request. -/
def State.cutReqGram (s : State) (t n : Nat) (d : Datagram) : State :=
  let g := s.graph t n
  let f := BitVec.ofNat 32 (field d.body 8 4)
  let m := g.askMove (BitVec.ofNat 64 (field d.body 0 8)) f none
  let reply := fun (s : State) (aux : Nat) => s.relSend t (s.otherUnit t) (moveGram t 6 g f aux)
  if g.move.isSome ∨ m.stages.any fun x => g.frames.any fun r =>
      decide (r.stage = x.stage) && decide (0 < r.started) && laterEq r.frame f then reply s 1
  else
    let s1 := s.modGraph t n fun g => { g with move := some m }
    if !s1.ringsFit then reply s 2
    else reply ((s1.acceptMove t n m).checkMove t n) 0

/-- The near unit hears from the far unit. -/
def State.cutReplyGram (s : State) (t n : Nat) (d : Datagram) : State :=
  match (s.graph t n).move with
  | .none => s
  | .some m =>
    match d.aux.toNat, m.accepted with
    | 0, false => (s.acceptMove t n m).checkMove t n
    | 1, false => s.dropMove t n 0x19
    | 2, false => s.dropMove t n 0x1D
    | 3, true =>
      (s.modMoving t n d.edge fun x =>
        { x with started := x.started || !x.toHere, cold := x.cold || (!x.toHere && d.first.getLsbD 0)
                 fault := x.fault || (!x.toHere && d.first.getLsbD 1) }).checkMove t n
    | _, _ => s

/-- The stream to the other unit has been declared unreachable, as a graph sees it (R85, R87 steps 7 and 8). -/
def State.moveLost (s : State) (t n : Nat) : State :=
  match (s.graph t n).move with
  | .none => s
  | .some m =>
    if !m.accepted then s.dropMove t n 0x11
    else
      let s1 := s.modMove t n fun m => { m with lost := true }
      ((m.stages.filter fun x => !x.toHere && !x.isOver).foldl (fun s x => s.awayOver t n x.stage) s1).checkMove t n

/-- The stream has acknowledged all datagrams before a sequence number: satchels end on their old side (R87 step 8). -/
def State.satchelsAcked (s : State) (t upTo : Nat) : State :=
  (s.ctx t).graphs.foldl (fun s q =>
    match (s.graph t q.1).move with
    | .none => s
    | .some m =>
      (m.stages.filter fun x => !x.toHere && !x.isOver && match x.lastSeq with | some n => decide (n < upTo) | .none => false).foldl
        (fun s x => s.awayOver t q.1 x.stage) s) s

/-! `gcut` and `gstat` (R323, R324). -/

/-- R85, R323. -/
def gcutBody (c : Cx) (s : State) : Res :=
  let t := (s.wg c.g).ctx
  let k := s.coreOf c.g
  let f : W32 := c.sB.setWidth 32
  withSlot c s fun s1 h =>
    let fail := fun (x : Cause) => Res.done (s1.pendSlot k h true x 0)
    match s1.graphAt t c.sC with
    | none => fail 0x06
    | some n =>
      let g := s1.graph t n
      if c.sA.toNat / 2 ^ 48 ≠ 0 ∨ g.far ∨ !cutOk g.edges (c.sA.setWidth 32) (c.sA.extractLsb' 32 16) then fail 0x06
      else if !laterEq f (g.cur + 2) ∨ g.move.isSome then fail 0x19
      else if s1.streamDead t (s1.otherUnit t) then fail 0x11
      else
        let s2 := s1.modGraph t n fun g => { g with move := some (g.askMove c.sA f (some (k, h))) }
        if !s2.ringsFit then fail 0x1D else .done (s2.relSend t (s2.otherUnit t) (cutReq t g c.sA f))
def execGcut (f : Fields) (s : State) := run (.gcut f) s gcutBody

/-- The value of a graph that a `gstat` reads. -/
def gstatBody (val : Graph → Nat) (c : Cx) (s : State) : Res :=
  let t := (s.wg c.g).ctx
  match s.graphAt t c.sA with
  | none => c.raise 0x06
  | some n =>
    .done (s.launchOp c [.s c.f.dst.toNat] fun id =>
      { id := id, ins := c.held [.s c.f.dst.toNat], kind := .fill, ctx := t
        vals := [.s c.f.dst.toNat (BitVec.ofNat 64 (val (s.graph t n)))] })

/-- R324: the live cut vector and placement. -/
def execGstatCut (f : Fields) (s : State) := run (.gstatCut f) s (gstatBody fun g => g.cut.toNat + 2 ^ 32 * g.place.toNat)
/-- R324: the frame from which they apply. -/
def execGstatFrom (f : Fields) (s : State) := run (.gstatFrom f) s (gstatBody fun g => g.since.toNat)
/-- R324: the current frame. -/
def execGstatCur (f : Fields) (s : State) := run (.gstatCur f) s (gstatBody fun g => g.cur.toNat)
/-- R324: the MOVING bits. -/
def execGstatMoving (f : Fields) (s : State) := run (.gstatMoving f) s (gstatBody fun g =>
  ((List.range g.stages.length).filter fun k => (g.stage k).moving).foldl (fun n k => n + 2 ^ k) 0)

end Sys2Proof.Machine
end

