-- ==== Sys2Proof/Machine/Streams.lean ====
section
/-! DEFINITION. The reliable class, receiving side and timers (R72, R74, R75), and peers (R180, R181). -/

namespace Sys2Proof.Machine

/-! Acknowledgement (R74 steps 2, 4 to 6). -/

/-- Hands a stored datagram to the network again, byte-identical (R72); one that could not be sealed before is sealed now. -/
def State.relAgain (s : State) (t p : Nat) (e : Nat × Datagram × Bool) : State :=
  if e.2.2 then s.transmit p (Config.streamPort t p).toNat e.2.1
  else
    match s.relSeal t p e.2.1 with
    | .ok (some d) s1 => s1.modStream t p fun x => { x with unacked := x.unacked.map fun u => if u.1 = e.1 then (u.1, d, true) else u }
    | .ok none s1 => s1
    | .later s1 => s1
    | .fault _ s1 => s1

/-- An ACK arrives: the window moves. -/
def State.relAcked (s : State) (t p : Nat) (d : Datagram) : State :=
  let st := s.stream t p
  let upTo := (d.seq + 1) % 2 ^ 64
  let keep := st.unacked.filter fun u => !(decide (u.1 < upTo) || (decide (u.1 - upTo < 32) && d.aux.getLsbD (u.1 - upTo)))
  let moved := st.unacked.any fun u => decide (u.1 < upTo)
  let s1 := s.modStream t p fun x =>
    { x with unacked := keep
             timer := if keep.isEmpty then none else if moved then some (s.relNow t p + s.rtoOf t) else x.timer
             rto := if moved then s.rtoOf t else x.rto, expiries := if moved then 0 else x.expiries }
  let s2 := s1.relFlush t p
  if p = s.otherUnit t then s2.satchelsAcked t upTo else s2

/-- A NACK arrives: the datagram is sent again at once. -/
def State.relNacked (s : State) (t p : Nat) (d : Datagram) : State :=
  match (s.stream t p).unacked.find? fun u => u.1 = d.seq with
  | some u => s.relAgain t p u
  | none => s

/-- Sends an ACK: the highest SEQ in order, and a bitmap of those stored beyond it; it stays due while the key cannot be read yet. DESIGN
CHOICE (log 84): before any datagram has come in order, SEQ is 2^64 - 1, so that the bitmap starts at SEQ 0. -/
def State.relAck (s : State) (t p : Nat) : State :=
  let st := s.stream t p
  let aux := maskOf fun i => st.store.any fun q => decide (q.1 = st.expect + i)
  match s.relSeal t p { Datagram.blank t 3 with rel := true, seq := (st.expect + 2 ^ 64 - 1) % 2 ^ 64, aux := aux } with
  | .ok _ s1 => s1.modStream t p fun x => { x with since := 0, ackDue := none }
  | .later s1 => s1
  | .fault _ s1 => s1

/-- R74 step 4: a datagram has gone unacknowledged for 10,000 cycles of the stream's die: its ACK is sent. -/
def execAckDelayTimeout (ctx peer : Nat) (s : State) : Host.Outcome State Fault Refusal :=
  match (s.stream ctx peer).ackDue with
  | some at_ => if !s.hasCtx ctx ∨ (s.stream ctx peer).dead ∨ s.relNow ctx peer < at_ then .next s else .next (s.relAck ctx peer)
  | none => .next s

/-- Sends one NACK for each missing SEQ below one received, once (R74 step 5). -/
def State.relGaps (s : State) (t p : Nat) : State :=
  let st := s.stream t p
  let top := (st.store.map (·.1)).foldl max 0
  let miss := (List.range (top - st.expect)).map (· + st.expect) |>.filter fun q =>
    !(st.store.any fun e => e.1 = q) && !st.nacked.contains q
  miss.foldl (fun s q =>
    match s.relSeal t p { Datagram.blank t 4 with rel := true, seq := q } with
    | .ok _ s1 => s1.modStream t p fun x => { x with nacked := x.nacked ++ [q] }
    | .later s1 => s1
    | .fault _ s1 => s1) s

/-! Peer requests and responses (R180, R181). -/

/-- One request or response of a PEER body, which takes `bytes` of it. -/
structure PeerItem where
  op     : Nat
  atop   : Nat
  status : Nat
  len    : Nat
  tag    : Nat
  pctx   : Nat
  addr   : Nat
  cmp    : Nat
  data   : List W8
  bytes  : Nat
  deriving DecidableEq, Repr

/-- Bytes of data that follow a header. -/
def peerData (op len : Nat) : Nat := match op with | 1 => len + 1 | 3 => len + 1 | 2 => 8 | 5 => 8 | _ => 0

/-- Parses a body; none when it breaks R180. DESIGN CHOICE (log 95): ATOP, STATUS and CMP of an item to which R180 gives 0 there are not
looked at. -/
def parsePeer : Nat → List W8 → Option (List PeerItem)
  | 0, _ => none
  | _, [] => some []
  | k + 1, b =>
    let op := field b 0 1
    let len := field b 3 1
    let n := peerData op len
    let m := 24 + (n + 7) / 8 * 8
    if b.length < m ∨ 5 < op ∨ 2 < field b 1 1 ∨ 4096 ≤ field b 6 2 ∨ ((op = 2 ∨ op = 5) ∧ len ≠ 3 ∧ len ≠ 7) then none
    else
      (parsePeer k (b.drop m)).map fun l =>
        { op := op, atop := field b 1 1, status := field b 2 1, len := len + 1, tag := field b 4 2, pctx := field b 6 2
          addr := field b 8 8, cmp := field b 16 8, data := (b.drop 24).take n, bytes := m } :: l

/-- Answers a request on the same stream. -/
def State.peerAnswer (s : State) (t p : Nat) (i : PeerItem) (op status : Nat) (data : List W8) : State :=
  s.relSend t p (Datagram.ofBody t 7 (peerBody op 0 status i.len i.tag i.pctx i.addr 0 data))

/-- The value an atomic request leaves. -/
def PeerItem.newVal (i : PeerItem) (old : Nat) : Nat :=
  let x := field i.data 0 i.len
  match i.atop with
  | 0 => (old + x) % 2 ^ (8 * i.len)
  | 1 => x
  | _ => if old = i.cmp % 2 ^ (8 * i.len) then x else old

/-- A peer's request is performed at V (R181): reads and atomics acquire, writes are stores, at DEV; it waits while a walk waits on
MIG. -/
def State.peerServe (s : State) (t p : Nat) (i : PeerItem) : DevRes Unit :=
  match i.op with
  | 0 =>
    match s.devBytes i.pctx i.addr i.len with
    | .ok b s1 => .ok () (s1.peerAnswer t p i 3 0 b)
    | .fault c s1 => .ok () (s1.peerAnswer t p i 3 c.toNat (List.replicate i.len 0))
    | .later s1 => .later s1
  | 1 =>
    let w := s.devPut i.pctx i.addr i.data
    if w.mig then .later w.s else .ok () (w.s.peerAnswer t p i 4 ((w.bad.map (·.toNat)).getD 0) [])
  | _ =>
    match s.devBytes i.pctx i.addr i.len with
    | .later s1 => .later s1
    | .fault c s1 => .ok () (s1.peerAnswer t p i 5 c.toNat (List.replicate 8 0))
    | .ok b s1 =>
      let w := s1.devPut i.pctx i.addr (leList i.len (i.newVal (leVal b)))
      if w.mig then .later w.s
      else
        match w.bad with
        | some c => .ok () (s1.drawn.peerAnswer t p i 5 c.toNat (List.replicate 8 0))
        | none => .ok () (w.s.peerAnswer t p i 5 0 (leList 8 (leVal b)))

/-- A warp's unit gets its response. -/
def State.peerWarp (s : State) (r : PeerReq) (i : PeerItem) : State :=
  match s.opOf r.wg r.w r.op with
  | none => s
  | some o =>
    match o.units[r.unit_]? with
    | none => s
    | some u =>
      let c : Cause := BitVec.ofNat 6 i.status
      match o.kind with
      | .atomic _ =>
        let old := if i.status = 0 then i.data.take u.size else List.replicate u.size 0
        s.farOld r.wg r.w o r.unit_ u old i.status (if i.status = 0 then none else some c)
      | _ => if i.status = 0 then s.farReturns r.wg r.w o r.unit_ u i.data else s.farFails r.wg r.w o r.unit_ u c

/-- The answer to a WRITE, or its loss (R181): an engine's unit is performed or has its cause; host event 4 tells a failure. -/
def State.peerWrote (s : State) (t : Nat) (r : PeerReq) (cause : Option Cause) : State :=
  let s1 := match r.eng with
    | some (c, id) => s.engineWrote c id r.unit_ cause
    | none => s
  if cause.isSome && s.live t then s1.postEvent t 4 else s1

/-- A response reaches what waits for it: a warp, an engine, or an act of the device itself (R362). -/
def State.peerHear (s : State) (t p : Nat) (i : PeerItem) : State :=
  let cause : Option Cause := if i.status = 0 then none else some (BitVec.ofNat 6 i.status)
  match (s.stream t p).reqs.find? fun r => r.tag = i.tag with
  | none => s.modStream t p fun x =>
      { x with reads := x.reads.map fun r => if r.tag = i.tag ∧ r.answer.isNone then { r with answer := some (i.status, i.data) } else r }
  | some r =>
    let s1 := s.modStream t p fun x => { x with reqs := x.reqs.filter fun q => q.tag ≠ i.tag }
    match r.write, r.eng with
    | true, _ => (s1.peerWrote t r cause).sendWaiting t
    | false, some (c, id) => s1.engineReturns c id r.unit_ (match cause with | none => .ok i.data | some x => .error x)
    | false, none => s1.peerWarp r i

/-- The items of the datagram with SEQ q, in order; those that are over leave its body, so that one that must wait is made again alone. -/
def State.peerItems (t p q : Nat) : List PeerItem → State → DevRes Unit
  | [], s => .ok () s
  | i :: l, s =>
    match (if i.op < 3 then s.actOr i.pctx (s.peerServe t p i) else .ok () (s.peerHear t p i)) with
    | .ok _ s1 =>
      State.peerItems t p q l (s1.modStream t p fun x =>
        { x with store := x.store.map fun e => if e.1 = q then (q, { e.2 with body := e.2.body.drop i.bytes }) else e })
    | r => r

/-! Unreachability (R74 step 7). -/

/-- What waits for a response on an unreachable stream completes or traps with 0x11; a release at SYS that waits for a write's answer
meets its loss, or the warp's next one (R181, log 59). -/
def State.peerGone (s : State) (t : Nat) (r : PeerReq) : State :=
  match r.write, r.eng with
  | true, none => (s.peerWrote t r (some 0x11)).modWarp r.wg r.w fun x => { x with unacked := true }
  | true, some _ => s.peerWrote t r (some 0x11)
  | false, some (c, id) => s.engineReturns c id r.unit_ (.error 0x11)
  | false, none =>
    match s.opOf r.wg r.w r.op with
    | none => s
    | some o =>
      match o.kind, o.units[r.unit_]? with
      | .atomic _, some u => s.farOld r.wg r.w o r.unit_ u (List.replicate u.size 0) 0x11 (some 0x11)
      | _, some u => s.farFails r.wg r.w o r.unit_ u 0x11
      | _, none => s

/-- A stream is declared unreachable, in both directions, until the context is removed. -/
def State.unreachable (s : State) (t p : Nat) : State :=
  let rs := (s.stream t p).reqs
  let s1 := s.modStream t p fun x => { x with dead := true, timer := none, ackDue := none, reqs := [] }
  let s2 := (rs.foldl (fun s r => s.peerGone t r) s1).sendWaiting t
  if p = s.otherUnit t then (s2.ctx t).graphs.foldl (fun s q => s.moveLost t q.1) s2 else s2

/-- R74 step 6: the timer expires. -/
def execRetransmitTimeout (ctx peer : Nat) (s : State) : Host.Outcome State Fault Refusal :=
  let st := s.stream ctx peer
  match st.timer, st.unacked with
  | some at_, u :: _ =>
    if !s.hasCtx ctx ∨ st.dead ∨ s.relNow ctx peer < at_ then .next s
    else if s.retryOf ctx ≤ st.expiries + 1 then .next (s.unreachable ctx peer)
    else
      let rto := min (2 * st.rto) (s.rtoMaxOf ctx)
      .next ((s.relAgain ctx peer u).modStream ctx peer fun x =>
        { x with expiries := x.expiries + 1, rto := rto, timer := some (s.relNow ctx peer + rto) })
  | _, _ => .next s

/-- The receiver awaits a datagram: a gap it has NACKed, or a satchel. -/
def State.awaits (s : State) (t p : Nat) : Bool :=
  !(s.stream t p).nacked.isEmpty || (decide (p = s.otherUnit t) && (s.ctx t).graphs.any fun q =>
    match q.2.move with
    | .some m => m.accepted && m.stages.any fun x => x.toHere && !x.ready
    | .none => false)

/-- R74 step 7: nothing of a stream has arrived for `rel_retry` × `rto_max` cycles. -/
def execReceiverUnreachableTimeout (ctx peer : Nat) (s : State) : Host.Outcome State Fault Refusal :=
  let st := s.stream ctx peer
  if !s.hasCtx ctx ∨ st.dead ∨ !s.awaits ctx peer ∨ s.relNow ctx peer < st.lastRx + s.retryOf ctx * s.rtoMaxOf ctx then .next s
  else .next (s.unreachable ctx peer)

/-! Delivery (R74 step 3). -/

/-- The graph of a context that a datagram names. -/
def State.namedGraph (s : State) (t : Nat) (d : Datagram) : Option Nat :=
  ((s.ctx t).graphs.find? fun p => decide (p.2.gid = d.graph)).map (·.1)

/-- A close of a PEER edge reaches it, an input that the copybook captures (R55, R356). -/
def State.peerClose (s : State) (t n e : Nat) (f : W32) : State :=
  (s.capture t 4 (e + f.toNat * 2 ^ 32) []).settleDue t n [.arrived e f [{}]]

/-- Records of a PEER edge reach its ring (R55), inputs that the copybook captures (R356). -/
def State.peerTakes (s : State) (t n e : Nat) (f : W32) (l : List (List W8)) : State :=
  let s1 := l.foldl (fun s b => (s.capture t 3 (e + f.toNat * 2 ^ 32) b).modEdge t n e fun x => x.push { frame := f, data := b }) s
  s1.noteWork t n (s.edge t n e).cons f

/-- Records or a close of a PEER edge reach it (R55); records wait while the ring has no room. -/
def State.peerEdge (s : State) (t n : Nat) (d : Datagram) : DevRes Unit :=
  let x := s.edge t n d.edge
  if d.type = 1 then .ok () (s.peerClose t n d.edge d.frame)
  else if x.slots < x.ring.length + d.count then .later s
  else .ok () (s.peerTakes t n d.edge d.frame (gramRecords d x.bytes))

/-- In replay, the next record or close of a PEER edge comes from the copybook (R358); a record waits while the ring has no room. -/
def State.replayPeer (s : State) (t : Nat) : State :=
  match s.cpbNext with
  | none => s
  | some r =>
    let e := r.key % 32
    let f := BitVec.ofNat 32 (r.key / 2 ^ 32)
    match ((s.ctx t).graphs.find? fun p => decide (e < p.2.edges.length) && decide ((p.2.edge e).kind = 1)).map (·.1) with
    | none => s
    | some n =>
      let x := s.edge t n e
      if r.type = 4 then (s.cpbTake r).peerClose t n e f
      else if r.type = 3 ∧ x.ring.length < x.slots then (s.cpbTake r).peerTakes t n e f [r.payload]
      else s

/-- A datagram is delivered, or must wait. -/
def State.relDeliver (s : State) (t p : Nat) (q : Nat) (d : Datagram) : DevRes Unit :=
  match d.type with
  | 7 =>
    match parsePeer (d.body.length + 1) d.body with
    | some l => State.peerItems t p q l s
    | none => .ok () s
  | _ =>
    if !s.live t then .ok () s else
    match (if d.type < 2 then s.gramGraph t d fun x => decide (x.kind = 1) else s.namedGraph t d) with
    | none => .ok () s
    | some n =>
      match d.type with
      | 2 => s.satchelGram t n d
      | 5 => .ok () (if (s.graph t n).far then s.cutReqGram t n d else s)
      | 6 => .ok () (if (s.graph t n).far then s else s.cutReplyGram t n d)
      | _ => s.peerEdge t n d

/-- Delivers what is next in order, as far as it goes; a datagram that must wait stays at the head, to be delivered again (R154). -/
def State.relRun (t p : Nat) : Nat → State → State
  | 0, s => s
  | k + 1, s =>
    let st := s.stream t p
    match st.store.find? fun q => q.1 = st.expect with
    | none => s
    | some q =>
      match s.relDeliver t p q.1 q.2 with
      | .later s1 => s1
      | .fault _ s1 => s1
      | .ok _ s1 =>
        State.relRun t p k (s1.modStream t p fun x =>
          { x with expect := x.expect + 1, store := x.store.filter fun y => y.1 ≠ q.1, nacked := x.nacked.filter (· ≠ q.1) })

/-- A datagram of the sequence arrives. -/
def State.relData (s : State) (t p : Nat) (d : Datagram) : State :=
  let s0 := s.modStream t p fun x => { x with lastRx := s.relNow t p }
  let st := s0.stream t p
  if st.expect + 256 ≤ d.seq then s0
  else
    let known := decide (d.seq < st.expect) || st.store.any fun q => decide (q.1 = d.seq)
    let s1 := s0.modStream t p fun x =>
      { x with store := if known then x.store else x.store ++ [(d.seq, d)], since := x.since + 1
               nacked := x.nacked.filter (· ≠ d.seq)
               ackDue := if x.ackDue.isSome then x.ackDue else some (s.relNow t p + 10000) }
    let s2 := State.relRun t p 256 s1
    let s3 := if (s2.stream t p).dead then s2 else s2.relGaps t p
    if 8 ≤ (s3.stream t p).since then s3.relAck t p else s3

/-- FIRST, EDGE and AUX of a reliable datagram by its type: bits that R70 marks 0 are 0, and a stage number is 0 to 15. DESIGN CHOICE
(log 83): R70 leaves AUX of a CUTREQ to the cut-move protocol, which gives it no use; it is sent as 0, and another value is BAD. -/
def relHeadOk (d : Datagram) : Bool :=
  match d.type with
  | 0 => decide (d.aux = 0)
  | 2 => decide (d.edge < 16) && decide (d.aux = 0)
  | 3 => decide (d.first = 0)
  | 6 => decide (d.aux.toNat < 4)
      && if d.aux = 3 then decide (d.edge < 16) && decide (d.first.toNat < 4) else decide (d.first = 0)
  | _ => decide (d.first = 0) && decide (d.aux = 0)

/-- The length of a reliable datagram agrees with its COUNT (log 16), and a body has its form (R86, R180). -/
def relBodyOk (d : Datagram) : Bool :=
  match d.type with
  | 0 => true
  | 1 => true
  | 5 => decide (d.count = 16) && decide (d.body.length = 16) && decide (field d.body 12 4 = 0)
  | 7 => decide (d.count = d.body.length) && (parsePeer (d.body.length + 1) d.body).isSome
  | 2 => decide (d.count = d.body.length)
  | _ => decide (d.count = 0) && d.body.isEmpty

/-- A reliable datagram passes the checks of R68, R70 and R72 that need neither its key nor an edge. -/
def relOk (d : Datagram) : Bool :=
  d.plain && decide (d.version = 1) && decide (d.type < 8) && d.zero && relHeadOk d && relBodyOk d

/-- The records and closes of a PEER edge are checked against the edge (R55, R72). -/
def State.relEdgeOk (s : State) (t : Nat) (d : Datagram) : Bool :=
  if 2 ≤ d.type then true
  else
    match s.gramGraph t d fun x => decide (x.kind = 1) with
    | some n => gramOk (s.edge t n d.edge) d
    | none => false

/-- R72, R74: a datagram of the reliable class meets its stream; one whose key cannot be read yet waits (R154, R362). -/
def State.relGram (s : State) (d : Datagram) : State :=
  let t := d.ctx
  let p := d.frm
  match s.relKey t p with
  | .later s1 => s1.putOff t (.rel d)
  | .fault _ s1 => s1.putOff t (.rel d)
  | .ok key s2 =>
    let s1 := s2.peerMet t p
    if key ≠ some d.key ∨ d.nonce ≠ s1.relNonceOf p false d ∨ (s1.peerAddr p).isNone ∨ !relOk d ∨ !s1.relEdgeOk t d ∨ s1.streamDead t p then
      s1.countCtx t 0x11D 15 0 1
    else
      match d.type with
      | 3 => s1.relAcked t p d
      | 4 => s1.relNacked t p d
      | _ => s1.relData t p d

/-- R72, R74: a datagram of the reliable class arrives, whose REL is 1 (R70); in replay it is discarded, and the next input of a PEER edge
comes from the copybook (R358). The streams of a context that is being removed go on until its requests have ended (R199). -/
def execReliableDatagramReceive (d : Datagram) (s : State) : Host.Outcome State Fault Refusal :=
  .next (if !s.hasCtx d.ctx ∨ !d.rel then s else if s.replaying d.ctx then s.replayPeer d.ctx else s.relGram d)

end Sys2Proof.Machine
end

