-- ==== Sys2Proof/Machine/Start.lean ====
section
/-! DEFINITION. The workgroup distributor (R7 to R17, R56, R65, R100, R234): consumer launches, the start of a workgroup and
its end, with the rasteriser (R335). -/

namespace Sys2Proof.Machine

/-! Resources (R11, R12, R17). -/

/-- The workgroups that hold resources of a core. -/
def State.coreWgs (s : State) (c : Nat) : List Wg := (s.wgs.filter fun p => decide (p.2.core = c) && !p.2.saved && !p.2.ended).map (·.2)
/-- A sum over them. -/
def State.coreSum (s : State) (c : Nat) (f : Wg → Nat) : Nat := ((s.coreWgs c).map f).foldl (· + ·) 0

/-- Every sub-core of a core can supply the warps of a shape for a value of b (R12). -/
def State.subFits (s : State) (c b : Nat) (x : Shape) : Bool :=
  (List.range 4).all fun j =>
    decide (s.coreSum c (fun g => g.shape.onSub g.b j) + x.onSub b j ≤ 24)
      && decide (s.coreSum c (fun g => g.shape.onSub g.b j * g.shape.vregs8) + x.onSub b j * x.vregs8 ≤ 1024)

/-- A core has what a shape asks for beside its sub-cores' parts (R11). -/
def State.coreFits (s : State) (c : Nat) (x : Shape) : Bool :=
  decide (s.coreSum c (·.shape.localK) + x.localK ≤ 512) && decide (s.coreSum c (·.shape.tiles) + x.tiles ≤ 16)
    && decide (s.coreSum c (·.shape.accs) + x.accs ≤ 8) && decide ((s.coreWgs c).length < 96)
    && decide (s.coreSum c (·.shape.sbars) + x.sbars ≤ 32)

/-- The element of a list with the largest value, the first among equals. -/
def maxBy {α : Type} (f : α → Nat) : List α → Option α
  | [] => none
  | x :: xs =>
    match maxBy f xs with
    | some y => if f x < f y then some y else some x
    | none => some x

/-- The value of b that R17 chooses on a core. -/
def State.chooseB (s : State) (c : Nat) (x : Shape) : Option Nat :=
  maxBy (fun b => 24 - s.coreSum c fun g => g.shape.onSub g.b b) ((List.range 4).filter fun b => s.subFits c b x)

/-- The core that R17 chooses on a die, with b; `kept` is a core that is kept free for an older launch (R25). -/
def State.choosePlace (s : State) (d : Nat) (x : Shape) (kept : Option Nat := none) : Option (Nat × Nat) :=
  let l := ((List.range 96).map (· + 96 * d)).filter fun c => decide (kept ≠ some c) && s.coreFits c x && (s.chooseB c x).isSome
  (maxBy (fun c => 96 - s.coreSum c (·.shape.warps)) l).bind fun c => (s.chooseB c x).map fun b => (c, b)

/-- The warp slots of a core in use. -/
def State.usedSlots (s : State) (c : Nat) : List Nat := (s.coreWgs c).flatMap (·.slots)

/-- The lowest free warp slots for n warps from warp w on (R259: 24 of each sub-core). DESIGN CHOICE (log 97): the spec does not say which free
slot of its sub-core a warp takes at its start or at its restore. -/
def freeWarpSlots (b : Nat) : Nat → Nat → List Nat → List Nat
  | _, 0, _ => []
  | w, n + 1, used =>
    let j := (b + w) % 4
    let k := (((List.range 24).map (· + 24 * j)).find? fun k => !used.contains k).getD (24 * j)
    k :: freeWarpSlots b (w + 1) n (k :: used)

/-! Consumer launches (R56). -/

/-- R56: k records of a frame, or what is left of it once the frame has closed, launch one workgroup; not yet while the walk for its
queue's priority waits on MIG (R154). -/
def execConsumerLaunch (ctx graph edge : Nat) (frame : BitVec 32) (s : State) : Host.Outcome State Fault Refusal :=
  let g := s.graph ctx graph
  let x := g.edge edge
  let st := g.stage x.cons
  let avail := (x.ring.filter fun p => !p.2 && decide (p.1.frame = frame)).map (·.1)
  let closed := x.closedAt.contains frame
  if !s.live ctx ∨ !st.trigen ∨ st.trigger ≠ edge ∨ !g.here frame x.cons ∨ g.holding x.cons frame ∨ g.leaving x.cons frame
      ∨ avail.isEmpty ∨ (avail.length < x.perWg ∧ !closed) then .next s
  else
    let l := avail.take x.perWg
    let slots := l.map (·.slot)
    let s1 := s.modEdge ctx graph edge fun x =>
      { x with ring := x.ring.map fun p => if slots.contains p.1.slot then (p.1, true) else p }
    let r : Launch := { kind := 1, stage := x.cons, wait := none, doneDec := none, frame := frame, addr := 0, count := 1
                        shape := Shape.none, slots := 0, arg := 0 }
    .next (s.orLater ctx (match s1.qPrio ctx st.queue with
      | .ok p s2 => .ok () (s2.addGrid x.ringDie
          { id := 0, ctx := ctx, q := st.queue, lrec := r.ofStage x.cons st, prio := p, graph := some graph, edge := some edge, recs := l
            tokens := l.map (·.tok) ++ if l.length < x.perWg then (x.tokens.filter fun p => p.1 = frame).map (·.2) else [] })
      | .fault c s2 => .fault c s2
      | .later s2 => .later s2))

/-! The start of a workgroup. -/

/-- Effective priority of a launch (R24). -/
def Grid.eprio (x : Grid) : Nat := min 15 (x.prio + x.aged / 2 ^ 20)

/-- A launch has a workgroup that may start now. -/
def State.mayStart (s : State) (x : Grid) : Bool :=
  s.live x.ctx && decide (x.next < x.lrec.count) && match x.graph with
    | some n => !(s.graph x.ctx n).holding x.lrec.stage x.lrec.frame && !(s.graph x.ctx n).leaving x.lrec.stage x.lrec.frame
    | none => true

/-- The format slots of a template (R100); a template that cannot be read leaves every slot invalid, and one whose walk waits
on MIG is read later. -/
def State.template (s : State) (t : Nat) (a : W64) : DevRes (List W128) :=
  match s.devRead t a.toNat 128 with
  | .ok b s1 => .ok ((List.range 8).map fun i => BitVec.ofNat 128 (leVal ((b.drop (16 * i)).take 16))) s1
  | .fault _ s1 => .ok (List.replicate 8 (BitVec.allOnes 128)) s1
  | .later s1 => .later s1

/-- The warps of a workgroup as they start (R18, R234). -/
def State.newWarps (s : State) (x : Grid) (c b : Nat) : List Warp :=
  (List.range x.lrec.shape.warps).map fun w =>
    let j := (b + w) % 4
    let before := ((List.range w).filter fun v => (b + v) % 4 = j).length
    { pc := x.lrec.addr, prio := x.prio, lastAt := (s.core c).cycle
      active := decide (s.activeCount (4 * c + j) + before < 8)
      pixel := (x.recs[w]?).bind (·.px) }

/-- A context runs on a core: its time slice begins unless it runs there already (R194), and when the core changes context the
feedback filter is cleared (R166). -/
def State.runsOn (s : State) (c t : Nat) : State :=
  s.modCore c fun k =>
    { k with
      ran := if (SMap.find t k.ran).isSome then k.ran else SMap.put t k.cycle k.ran
      filter := if k.filter.ctx = t then k.filter else { ctx := t } }

/-- A context with no workgroup left on a core runs there no more. -/
def State.ranOff (s : State) (c t : Nat) : State :=
  if (s.coreWgs c).any fun x => x.ctx = t then s else s.modCore c fun k => { k with ran := SMap.del t k.ran }

/-- The workgroup that a launch starts next, on a core. -/
def State.newWg (s : State) (x : Grid) (c b : Nat) (fs : List W128) : Wg :=
  let sh := x.lrec.shape
  { ctx := x.ctx, queue := x.q, basePrio := x.prio, stage := if x.lrec.kind = 1 then some x.lrec.stage else none
    graph := x.graph, frame := x.lrec.frame, num := BitVec.ofNat 32 x.next, arg := x.lrec.arg
    count := if x.edge.isSome then 0 else BitVec.ofNat 32 x.lrec.count
    role := match x.graph with | some n => (s.graph x.ctx n).far | none => false
    launch := some x.id, core := c, b := b, slots := freeWarpSlots b 0 sh.warps (s.usedSlots c), shape := sh
    warps := s.newWarps x c b, sbars := List.replicate sh.sbars {}, fs := fs
    ringHeld := match x.edge with | some e => x.recs.map fun r => (e, r.slot) | none => []
    batchRecs := x.recs, code := s.vmem, codeKey := s.vkey, codeAt := s.vcount }

/-- No workgroup of a graph has started on this unit (R85). -/
def Graph.noneStarted (g : Graph) : Bool := g.frames.all fun r => decide (r.started = 0)

/-- A frame is the one from which a stage runs on this unit by the last cut move (R90). -/
def Graph.arrived (g : Graph) (k : Nat) (f : W32) : Bool :=
  decide (f = g.since) && (g.oldPlace.getLsbD k != g.place.getLsbD k) && decide (g.place.getLsbD k = g.far)

/-- The stage's frame and the graph take note of a start (R54); the current frame is the latest of any started workgroup (R85); the first
workgroup of the frame from which a stage that has moved runs here acquires at DEV (R90). -/
def State.noteStart (s : State) (x : Grid) (c : Nat) : State :=
  match x.graph with
  | none => s
  | some n =>
    let f := x.lrec.frame
    let k := x.lrec.stage
    let g := s.graph x.ctx n
    let s1 := (s.modGraph x.ctx n fun g => { g with cur := if g.noneStarted || later f g.cur then f else g.cur }).modFrame x.ctx n k f fun y =>
      { y with started := y.started + 1, ran := if y.ran.contains c then y.ran else y.ran ++ [c] }
    (if g.arrived k f && decide ((g.frameOf k f).started = 0) then s1.acquire c 4 else s1).stageStarts x.ctx n k f

/-- A workgroup of a launch starts on a core (R11, R65, R234). -/
def State.startWg (s : State) (d : Nat) (x : Grid) (c b : Nat) (fs : List W128) : State :=
  let id := s.nextId
  let s1 := (s.runsOn c x.ctx).meetTokens c x.tokens
  let s2 := { s1 with wgs := SMap.put id (s1.newWg x c b fs) s1.wgs, nextId := id + 1 }
  let s3 := s2.modDie d fun y => { y with grids := y.grids.map fun z =>
    if z.id = x.id then { z with next := z.next + 1, running := z.running + 1, aged := if z.next + 1 = z.lrec.count then 0 else z.aged }
    else z }
  s3.noteStart x c

/-- R25: the core that x leaves to the oldest launch before it that has waited 2^24 counts for a place: each core of the die in turn, for
twice as long as the one before, so that the work of one that can end does end (log 75). -/
def State.keepsFor (s : State) (die : Nat) (x : Grid) : Option Nat :=
  (((s.die die).grids.takeWhile fun y => y.id ≠ x.id).find? fun y => s.mayStart y && decide (2 ^ 24 ≤ y.aged)).map fun y =>
    96 * die + Nat.log2 (y.aged / 2 ^ 24) % 96

/-- Where the next workgroup of a launch goes: none while no core can supply it. -/
def State.placeOf (s : State) (die : Nat) (x : Grid) : Option (Nat × Nat) := s.choosePlace die x.lrec.shape (s.keepsFor die x)

/-- A workgroup of the best among some launches starts: that with the highest effective priority, the oldest among equals. A template whose
walk waits on MIG, or for a peer's answer, delays only its own launch (R154). -/
def State.startBest (die : Nat) : Nat → List Grid → State → State
  | 0, _, s => s
  | n + 1, l, s =>
    match maxBy Grid.eprio l with
    | none => s
    | some x =>
      match s.placeOf die x, s.template x.ctx x.lrec.slots with
      | some (c, b), .ok fs s1 => s1.startWg die x c b fs
      | _, .later s1 => State.startBest die n (l.filter fun y => y.id ≠ x.id) (s.orLater x.ctx (.later s1))
      | _, _ => s

/-- R16, R17: the distributor of a die starts one workgroup, of a launch that can be placed. -/
def execWorkgroupStart (die : Nat) (s : State) : Host.Outcome State Fault Refusal :=
  let l := (s.die die).grids.filter fun x => s.mayStart x && (s.placeOf die x).isSome
  .next (State.startBest die l.length l s)

/-! The rasteriser (R335). -/

/-- Primitive p of a MESH workgroup's output area (R333): CULL, rate and vertices. -/
def State.meshPrim (s : State) (g p : Nat) : (Bool × Nat × List W32) × State :=
  let x := s.wg g
  let r0 := s.resolve (x.localBytes (x.meshOut + 32768 + 16 * p) 4)
  let w := leVal r0.1
  let free := (Config.freeWord r0.2.free).toNat % 7
  let s1 := if bits w 26 24 = 7 then r0.2.drew 1 else r0.2
  let rd := fun (s : State) (v : Nat) => s.resolve (x.localBytes (x.meshOut + 128 * v) 128)
  let a := rd s1 (bits w 7 0)
  let b := rd a.2 (bits w 15 8)
  let c := rd b.2 (bits w 23 16)
  ((bit w 31, if bits w 26 24 = 7 then free else bits w 26 24,
    (a.1 ++ b.1 ++ c.1) |> fun l => (List.range 96).map fun i => BitVec.ofNat 32 (leVal ((l.drop (4 * i)).take 4))), c.2)

/-- The words of local memory that the rasteriser reads of a MESH workgroup's output area: of each primitive, and of its vertices. -/
def Wg.meshWords (x : Wg) : List Nat :=
  ((List.range x.meshP).flatMap fun p =>
    let a := x.meshOut + 32768 + 16 * p
    let w := leVal ((x.localBytes a 4).map fun b => b.getD 0)
    localSoft a 4 ++ [bits w 7 0, bits w 15 8, bits w 23 16].flatMap fun v => localSoft (x.meshOut + 128 * v) 128).eraseDups

/-- The rasteriser takes one primitive for an edge. -/
def State.rasterOne (s : State) (g e p : Nat) : State :=
  let x := s.wg g
  let t := x.ctx
  let n := x.graphNo
  let ed := s.edge t n e
  let m := s.meshPrim g p
  let seq := ((ed.primSeq.find? fun q => q.1 = x.frame).map (·.2)).getD 0
  let s1 := m.2.modEdge t n e fun y => { y with primSeq := (x.frame, seq + 1) :: y.primSeq.filter fun q => q.1 ≠ x.frame }
  match rasterPrim e ed.window ed.bytes m.1.2.1 m.1.1 m.1.2.2 x.frame seq with
  | some (q, l) => s1.modEdge t n e fun y =>
    { y with prims := y.prims ++ [q], batches := y.batches ++ l.map fun r => { r with tok := s.token (some x.core) } }
  | none => s1

/-- A MESH workgroup ends: its primitives are taken in ascending index, and batches enter the ring. -/
def State.rasterise (s : State) (g : Nat) : State :=
  let x := s.wg g
  let gr := s.graphOf g
  if s.stageKind g ≠ 2 then s
  else
    ((gr.outEdges x.stageNo).filter gr.raster).foldl (fun s e =>
      ((List.range x.meshP).foldl (fun s p => s.rasterOne g e p) s).flushRaster x.ctx x.graphNo e) (s.meetSoft g x.meshWords [])

/-! The end of a workgroup (R15). -/

/-- An operation of an issue queue writes memory only: it fills no register and has no handle. -/
def Op.memOnly (o : Op) : Bool := o.ins.held.isEmpty && o.slot.isNone && o.units.all fun u => match u.tgt with | .loc _ => false | _ => true

/-- All warps have ended, and every operation that the workgroup issued and that writes its registers, tiles, accumulators, residue
registers or local memory is over (R15): of those with a handle, each that fills a register. -/
def State.wgOver (s : State) (g : Nat) : Bool :=
  let x := s.wg g
  let k := s.core x.core
  s.hasWg g && !x.saved && !x.ended && x.warps.all (fun w => w.ended && w.ops.all Op.memOnly)
    && k.eops.all (fun e => decide (e.wg ≠ g) || e.memOnly)
    && k.mma.all (fun o => decide (o.wg ≠ g)) && k.latches.all (fun l => decide (l.wg ≠ g))
    && k.slots.all fun p => !p.2.live || decide (p.2.own ≠ some g) || p.2.bound.all fun b => decide (b.1 ≠ g)

/-- The registers of a workgroup are bound to no slot any more (R31). -/
def State.unbind (s : State) (g : Nat) : State :=
  s.modCore (s.coreOf g) fun k =>
    { k with slots := k.slots.map fun p => (p.1, { p.2 with bound := p.2.bound.filter fun b => decide (b.1 ≠ g) }) }

/-- Operations of a workgroup that has ended are still under way. -/
def State.leftOver (s : State) (g : Nat) : Bool :=
  (s.wg g).warps.any (fun w => !w.ops.isEmpty) || (s.core (s.coreOf g)).eops.any (fun e => decide (e.wg = g))
    || (s.core (s.coreOf g)).launches.any fun l => decide (l.wg = g)

/-- No workgroup of a launch runs beside one, and none is to start: the grid ends with it. -/
def Grid.lastOne (x : Grid) : Bool := decide (x.running ≤ 1) && decide (x.lrec.count ≤ x.next)

/-- The launches of a die when a workgroup of one ends. -/
def gridsLess (id : Nat) (l : List Grid) : List Grid :=
  (l.filter fun q => !(decide (q.id = id) && q.lastOne)).map fun q =>
    if q.id = id then { q with running := q.running - 1 } else q

/-- The workgroup's launch loses one; with DONEDEC the last one's end decrements a counter (R60, R62). -/
def State.gridDone (s : State) (x : Wg) : State :=
  match (s.die (dieOf x.core)).grids.find? fun q => some q.id = x.launch with
  | none => s
  | some y =>
    let s1 := s.modDie (dieOf x.core) fun z => { z with grids := gridsLess y.id z.grids }
    match y.lastOne, y.lrec.doneDec with
    | true, some n => s1.decrement x.ctx n [s1.token (some x.core)]
    | _, _ => s1

/-- The `end`s of a workgroup make its tokens (R65, R132): the rasteriser takes its primitives, its frame and its launch count it. -/
def State.signOff (s : State) (g : Nat) : State :=
  let x := s.wg g
  let s1 := (s.rasterise g).modWg g fun y => { y with signed := true }
  let s2 := match x.graph, x.stage with
    | some n, some k =>
      (s1.modFrame x.ctx n k x.frame fun f =>
        { f with ended := f.ended + 1, toks := SMap.put 32 (SMap.get 32 [] f.toks ++ [s1.token (some x.core)]) f.toks }).settleDue x.ctx n
          [.stage k x.frame]
    | _, _ => s1
  s2.gridDone x

/-- The tokens of a workgroup that has ended wait for the memory operations of its warps (R126 part 1, R132; log 88). -/
def State.signs (s : State) (g : Nat) : Bool :=
  (s.wg g).ended && !(s.wg g).signed && (s.wg g).warps.all fun w => w.ops.isEmpty

/-- What comes after the end of a workgroup: its tokens, and once nothing of it is under way it is gone. -/
def State.dropWg (s : State) (g : Nat) : State :=
  let s1 := if s.signs g then s.signOff g else s
  if s1.leftOver g then s1 else { s1 with wgs := SMap.del g s1.wgs }.pruneLog

/-- R15: a workgroup ends, and what it reserved is free; its stores that are not performed yet go on. -/
def State.endWg (s : State) (g : Nat) : State :=
  let x := s.wg g
  let s1 := (List.range (s.graphOf g).edges.length).foldl (fun s e => s.freeRing g e) (s.unbind g)
  ((s1.modWg g fun y => { y with ended := true }).ranOff x.core x.ctx).dropWg g

def execWorkgroupEnd (wg : Nat) (s : State) : Host.Outcome State Fault Refusal :=
  .next (if !s.live (s.wg wg).ctx then s
    else if s.wgOver wg then s.endWg wg
    else if (s.wg wg).ended then s.dropWg wg
    else s)

end Sys2Proof.Machine
end

