-- ==== Sys2Proof/Machine/Schedule.lean ====
section
/-! DEFINITION. What the group scheduler does on its own (R18 to R21, R33), and pre-emption (R38, R143, R194 to R198). -/

namespace Sys2Proof.Machine

/-- The counter of a sub-core: that of its core. -/
def State.subNow (s : State) (j : Nat) : Nat := (s.core (j / 4)).cycle

/-! Issue and exchanges (R20, R21). -/

/-- A sub-core may issue in this cycle: it has not, and no higher-numbered sub-core of its core has, since the instructions of one
cycle are accepted in ascending sub-core number (R111, R263). -/
def State.mayIssue (s : State) (j : Nat) : Bool :=
  (List.range 4).all fun i => decide (i < j % 4) || decide ((s.sub (4 * (j / 4) + i)).issued ≠ some (s.subNow j))

/-- A warp that holds its slot and waits for a latch arrives once there is one for it (R36, R309 steps 5 and 6); one that waits for
lookups goes on once they are over (R167). -/
def State.tryBlocked (s : State) (g w : Nat) : State :=
  match (s.warp g w).blocked with
  | some b =>
    match b.wait with
    | .latch n => if !(s.warp g w).poll && s.waitMet g w (.latch n) then s.arriveBlocked g w n b else s
    | .looks l => if s.waitMet g w (.looks l) then s.unblock g w else s
    | _ => s
  | none => s

/-- The warps of a sub-core are examined (R32): those that must wait park, and those whose wait inside an instruction is over go on. -/
def State.examineAll (s : State) (j : Nat) : State :=
  (s.subWarps j).foldl (fun s p => (s.examine j p.1 p.2).tryBlocked p.1 p.2) s

/-- R20: the warps are examined, and the best ready active warp issues; one instruction in a cycle. -/
def execWarpIssue (sub : Nat) (s : State) : Host.Outcome State Fault Refusal :=
  let s1 := s.examineAll sub
  if !s1.mayIssue sub then .next s1
  else
    match s1.bestActive sub with
    | some p => .next { s1.modSub sub fun x => { x with issued := some (s1.subNow sub) } with cur := some p }
    | none => .next s1

/-- A warp ranks above another of its sub-core for an exchange (R21): by readiness, effective priority, then age. -/
def State.above (s : State) (p q : Nat × Nat) : Bool :=
  let x := s.warp p.1 p.2
  let y := s.warp q.1 q.2
  if s.ready p.1 p.2 != s.ready q.1 q.2 then s.ready p.1 p.2
  else if x.eprio ≠ y.eprio then decide (y.eprio < x.eprio)
  else decide (x.lastAt < y.lastAt)

/-- The worst active warp, by R21. DESIGN CHOICE (log 74): among warps equal in readiness, effective priority and age, the first in the order of
workgroup identity and warp number; a warp in poll state that stayed active (R33) has no place of its own in that order. -/
def State.worstActive (s : State) (j : Nat) : Option (Nat × Nat) :=
  bestOf (fun p q => s.above q p) ((s.subWarps j).filter fun p => (s.warp p.1 p.2).active)

/-- R21: at every 64th cycle, the best ready pending warp replaces the worst active warp that it ranks above. -/
def execExchangePeriodic (sub : Nat) (s : State) : Host.Outcome State Fault Refusal :=
  match (s.sub sub).xchg, s.worstActive sub, s.bestPending sub with
  | none, some a, some p => if s.subNow sub % 64 = 0 && s.above p a then .next (s.exchange sub a) else .next s
  | _, _, _ => .next s

/-- R21: the best ready pending warp moves into an active set with room. -/
def execActiveSetFill (sub : Nat) (s : State) : Host.Outcome State Fault Refusal :=
  match (s.sub sub).xchg, s.bestPending sub with
  | none, some p =>
    if s.activeCount sub < 8 then
      .next (s.modSub sub fun x => { x with xchg := some { out := none, inn := some p, ends := s.subNow sub + 4 } })
    else .next s
  | _, _ => .next s

/-- A warp changes sets. -/
def State.setActive (s : State) (p : Option (Nat × Nat)) (b : Bool) : State :=
  match p with
  | some (g, w) => s.modWarp g w fun x => { x with active := b }
  | none => s

/-- R21: an exchange or a move has taken its 4 cycles. -/
def execExchangeComplete (sub : Nat) (s : State) : Host.Outcome State Fault Refusal :=
  match (s.sub sub).xchg with
  | some x =>
    if s.subNow sub < x.ends then .next s
    else .next (((s.setActive x.out false).setActive x.inn true).modSub sub fun y => { y with xchg := none })
  | none => .next s

/-- R33: a warp in poll state is examined again. -/
def State.pollOne (s : State) (g w : Nat) : State :=
  let l := (s.warp g w).waits.filter fun c => !s.waitMet g w c
  if l.isEmpty then s.modWarp g w fun x => { x with poll := false, parked := [] }
  else if s.cloakUsed (s.subOf g w) + min 4 l.length ≤ 32 then s.modWarp g w fun x => { x with poll := false, parked := l.take 4 }
  else s

/-- R33: at every 64th cycle, the warps in poll state are examined again. -/
def execPollReexamine (sub : Nat) (s : State) : Host.Outcome State Fault Refusal :=
  if s.subNow sub % 64 ≠ 0 then .next s
  else .next (((s.subWarps sub).filter fun p => (s.warp p.1 p.2).poll).foldl (fun s p => s.pollOne p.1 p.2) s)

/-! Requests (R194). -/

/-- A workgroup of another context waits for placement on a core at a priority or above: in a launch of its die, or evicted from
the core. -/
def State.rivals (s : State) (c t prio : Nat) : Bool :=
  ((s.die (dieOf c)).grids.any fun x => decide (x.ctx ≠ t) && s.mayStart x && decide (prio ≤ x.eprio))
    || s.wgs.any fun p => p.2.saved && decide (p.2.core = c) && decide (p.2.ctx ≠ t) && decide (prio ≤ p.2.basePrio)

/-- The effective priority of a workgroup: the highest of its warps that have not ended. -/
def Wg.eprio (x : Wg) : Nat := (x.warps.map fun w => if w.ended then 0 else w.eprio).foldl max 0

/-- Pre-emption of a workgroup is requested. -/
def State.askPreempt (s : State) (g : Nat) : State :=
  s.modWg g fun x => if x.preempt.isSome ∨ x.saved ∨ x.ended then x else { x with preempt := some (s.die (dieOf x.core)).counter }

/-- R194: a context has run on the core for `tslice` cycles while another waits. -/
def execPreemptRequestTimeslice (wg : Nat) (s : State) : Host.Outcome State Fault Refusal :=
  let x := s.wg wg
  let n := bits (s.cctx x.ctx 0x116).toNat 31 0
  let k := s.core x.core
  match SMap.find x.ctx k.ran with
  | none => .next s
  | some at_ =>
    if n = 0 ∨ k.cycle < at_ + n ∨ !s.rivals x.core x.ctx x.eprio then .next s
    else .next (s.askPreempt wg)

/-- R194: the host requests it. -/
def execPreemptRequestHost (wg : Nat) (s : State) : Host.Outcome State Fault Refusal := .next (s.askPreempt wg)

/-- R194: a request is still pending after `preempt_grace`. -/
def execPreemptGraceExpiry (wg : Nat) (s : State) : Host.Outcome State Fault Refusal :=
  let x := s.wg wg
  let d := dieOf x.core
  let n := bits (s.cdie d 0x406).toNat 31 0
  match x.preempt with
  | some at_ =>
    if n = 0 ∨ x.graced ∨ x.saved ∨ x.ended ∨ (s.die d).counter < at_ + n then .next s
    else .next ((s.modWg wg fun x => { x with graced := true }).postEvent x.ctx 2)
  | none => .next s

/-! Eviction (R45, R195 to R197). -/

/-- A warp is at a blocking point (R45, R195, R202). -/
def State.atBlock (s : State) (g w : Nat) : Bool :=
  let x := s.warp g w
  x.ended || ((!x.ih || x.hnd) && (x.poll || x.blocked.isSome
    || x.parked.any (fun c => c.parks && !s.waitMet g w c)
    || (match (s.wg g).halt with | some h => decide (h ≠ w) | none => false)))

/-- Every warp of a workgroup is at a blocking point or has ended (R45). -/
def State.preemptible (s : State) (g : Nat) : Bool := (List.range (s.wg g).warps.length).all fun w => s.atBlock g w

/-- A handle slot that a warp of a workgroup holds while it waits at a latch or for the pass (R38, R39). -/
def State.waitSlot (s : State) (g n : Nat) : Bool :=
  let k := s.core (s.coreOf g)
  (k.latches.any fun l => decide (l.wg = g) && l.arrived.any fun a => decide (a.2 = n))
    || (k.mma.any fun o => decide (o.wg = g) && !o.issued && o.members.any fun m => decide (m.2 = n))
    || (s.wg g).warps.any fun x => decide (x.blocked.map (·.wait) = some (.latch n))

/-- Every asynchronous operation that writes the workgroup's registers or storage, or names its accumulators, has completed, and its
warps' memory operations are performed (R196 steps 1 and 2); engine operations that write only memory go on. -/
def State.quiet (s : State) (g : Nat) : Bool :=
  let x := s.wg g
  let k := s.core x.core
  x.warps.all (fun w => w.ops.isEmpty) && k.eops.all (fun e => decide (e.wg ≠ g) || (e.memOnly && !e.namesAcc))
    && k.mma.all (fun o => decide (o.wg ≠ g) || !o.issued)
    && k.slots.all fun p => !p.2.live || s.waitSlot g p.1 || p.2.bound.all fun b => decide (b.1 ≠ g)

/-- Bytes of a save record (R197). -/
def Shape.saveBytes (x : Shape) : Nat :=
  4096 + x.warps * (20480 + 128 * x.vregs) + 1024 * x.localK + 16384 * x.tiles + 16640 * x.accs

/-- Where the save record lies. -/
def State.saveAt (s : State) (t : Nat) : Nat := bits (s.cctx t 0x115).toNat 55 12 * 4096

/-- An `mma` of a workgroup waits for the pass. -/
def State.hallWaits (s : State) (g : Nat) : Bool := (s.core (s.coreOf g)).mma.any fun o => decide (o.wg = g) && !o.issued

/-- The counts of barriers and latches of a workgroup stop (R38, R143); where the workgroup had an `mma` waiting for the pass that its
queue holds, this is the last cycle it waits (R41). -/
def State.stopCounts (s : State) (g : Nat) : State :=
  let now := s.now g
  let c := s.coreOf g
  let n := bits (s.ccore c 0x200).toNat 31 0
  (s.modWg g fun x => { x with sbars := x.sbars.map fun z => { z with since := z.since.map (now - ·) } }).modCore c fun k =>
    { k with latches := k.latches.map fun l =>
        if l.wg = g then { l with left := some (now - l.since, if n = 0 then none else some (l.limit.getD (l.since + n) - now)) } else l
             hall := if s.hallWaits g && decide (k.hall.holder = some ((s.wg g).ctx, (s.wg g).queue)) then { k.hall with lastUse := now } else k.hall }

/-- They go on from where they stopped. -/
def State.goCounts (s : State) (g : Nat) : State :=
  let now := s.now g
  let c := s.coreOf g
  (s.modWg g fun x => { x with sbars := x.sbars.map fun z => { z with since := z.since.map (now - ·) } }).modCore c fun k =>
    { k with latches := k.latches.map fun l =>
      match l.left with
      | some (ran, m) => if l.wg = g then { l with since := now - ran, limit := m.map (now + ·), left := none } else l
      | none => l }

/-- The queue of a restored workgroup with an `mma` that waits for the pass asks for it (R41). -/
def State.askAgain (s : State) (g : Nat) : State :=
  if s.hallWaits g then s.hallAsk (s.coreOf g) ((s.wg g).ctx, (s.wg g).queue) else s

/-- An exchange that takes a warp of a workgroup is given up. -/
def State.dropExchanges (s : State) (p : Nat → Bool) : State :=
  { s with subs := s.subs.map fun (q : Nat × Sub) =>
    (q.1, match q.2.xchg with
      | some x => if (match x.out with | some o => p o.1 | none => false) || (match x.inn with | some o => p o.1 | none => false)
          then { q.2 with xchg := none } else q.2
      | none => q.2) }

/-- R196: every warp performs `fence.rel.dev`, and the device writes the save record, whose layout programs cannot read; the switch sets the
clusters' targets anew (R351). A
record that cannot be written removes the context with 0x34; it waits while a walk waits on MIG. -/
def State.evict (s : State) (g : Nat) : DevRes Unit :=
  let x := s.wg g
  let s1 := (List.range x.warps.length).foldl (fun s w => s.warpRelease g w 4) s
  let r := s1.resolve (List.replicate x.shape.saveBytes none)
  let w := r.2.devPut x.ctx (s1.saveAt x.ctx) r.1
  if w.mig then .later w.s
  else if w.bad.isSome then .ok () (w.s.kill x.ctx 0x34 0 none 0)
  else
    .ok () ((((w.s.stopCounts g).dropExchanges fun h => decide (h = g)).modWg g fun x =>
      { x with saved := true, evicting := false, preempt := none, graced := false }).ranOff x.core x.ctx).retargetAll

/-- R196: a request is carried out once the workgroup is pre-emptible; from then on its warps issue nothing, and it is saved once
its asynchronous operations have completed. -/
def execEviction (wg : Nat) (s : State) : Host.Outcome State Fault Refusal :=
  let x := s.wg wg
  if x.preempt.isNone ∨ x.saved ∨ x.ended ∨ !s.live x.ctx ∨ (!x.evicting ∧ !s.preemptible wg) then .next s
  else
    let s1 := s.modWg wg fun x => { x with evicting := true }
    if s.quiet wg then .next (s1.orLater x.ctx (s1.evict wg)) else .next s1

/-- The pieces of a save record are read (R362): the cause for which the context is removed, 0x34 where the read fails (R363), 0x32 where it
finds uncorrectable data (R196); it waits while a walk waits on MIG. -/
def State.readSave (s : State) (t : Nat) : List (Nat × Nat) → DevRes Unit
  | [] => .ok () s
  | (a, n) :: rest =>
    match s.translate t 0 a n .read with
    | .fault _ e => .fault 0x34 (s.missed t none e)
    | .mig e => .later (s.missed t none e)
    | .ok tgt e =>
      let s1 := s.translated t none e
      match tgt with
      | .dev pa _ => if (s.ueLines true pa n).isEmpty then State.readSave s1 t rest else .fault 0x32 s1
      | .host h _ => if s.down h n then .fault 0x34 s1 else State.readSave s1 t rest
      | _ =>
        match s1.devRead t a n with
        | .ok _ s2 => State.readSave s2 t rest
        | .fault _ s2 => .fault 0x34 s2
        | .later s2 => .later s2

/-- The warps of a restored workgroup: what each waits for before an instruction is examined at its next issue. -/
def State.resumeWarps (s : State) (x : Wg) (b : Nat) : List Warp :=
  (List.range x.warps.length).map fun w =>
    let j := (b + w) % 4
    let before := ((List.range w).filter fun v => (b + v) % 4 = j).length
    let y := x.warp w
    { y with parked := [], poll := false, active := decide (s.activeCount (4 * x.core + j) + before < 8) }

/-- The warps of a restored workgroup that wait inside an instruction park again, or enter poll state where the cloakroom lacks room (R32,
R33, R196). -/
def State.parkAgain (s : State) (g : Nat) : State :=
  (List.range (s.wg g).warps.length).foldl (fun s w =>
    match (s.warp g w).blocked with
    | some b => if (s.warp g w).ended then s else s.park g w [b.wait]
    | none => s) s

/-- The core has latches for those that were saved with a workgroup (R36, R38). -/
def State.latchesFit (s : State) (g : Nat) : Bool :=
  let l := (s.core (s.coreOf g)).latches
  decide ((l.filter fun x => x.left.isNone || decide (x.wg = g)).length ≤ 8) || l.all fun x => decide (x.wg ≠ g)

/-- R196: a saved workgroup is restored on its own core, where every warp acquires at DEV, and the switch sets the clusters' targets anew
(R351); a damaged record removes the context
with 0x32, one that cannot be read with 0x34. -/
def execRestore (wg : Nat) (damaged : Bool) (s : State) : Host.Outcome State Fault Refusal :=
  let x := s.wg wg
  if !x.saved ∨ !s.live x.ctx ∨ !s.coreFits x.core x.shape ∨ !s.latchesFit wg then .next s
  else
    match s.chooseB x.core x.shape with
    | none => .next s
    | some b =>
      match s.readSave x.ctx (pagePieces (x.shape.saveBytes / 65536 + 2) (s.saveAt x.ctx) x.shape.saveBytes) with
      | .later s1 => .next (s.orLater x.ctx (.later s1))
      | .fault c s1 => .next (s1.kill x.ctx c 0 none 0)
      | .ok _ s1 =>
        if damaged then .next (s1.kill x.ctx 0x32 0 none 0)
        else
          let s2 := (s1.runsOn x.core x.ctx).modWg wg fun x =>
            { x with saved := false, b := b, slots := freeWarpSlots b 0 x.warps.length (s.usedSlots x.core), warps := s.resumeWarps x b }
          .next ((((s2.goCounts wg).askAgain wg).acquire x.core 4).parkAgain wg).retargetAll

end Sys2Proof.Machine
end

