-- ==== Sys2Proof/Machine/Contexts.lean ====
section
/-! DEFINITION. Contexts and the module (R5, R169, R193, R199, R359): creation, removal, reset. -/

namespace Sys2Proof.Machine

/-- The key identity of an owner group: the one it has, or a new one. -/
def State.groupKey (s : State) (g : Nat) : Nat × State :=
  match SMap.find g s.groups with
  | some k => (k, s)
  | none => (s.nextKey, { s with groups := SMap.put g s.nextKey s.groups, nextKey := s.nextKey + 1 })

/-- R169: a context with a tag that is free is created, with 15 keys of its own and its group's; its CSRs are at their reset
values, and the fatal record of the tag is cleared (R193). -/
def execContextCreate (tag group : Nat) (s : State) : Host.Outcome State Fault Refusal :=
  if s.refused ∨ 4096 ≤ tag ∨ (SMap.find tag s.ctxs).isSome then .next s
  else
    let s1 := (s.groupKey group).2
    .next { s1 with
      ctxs := SMap.put tag { tag := tag, group := group, keys := (List.range 15).map (· + s1.nextKey) } s1.ctxs
      nextKey := s1.nextKey + 15, fatal := SMap.del tag s1.fatal }

/-- R199, R194: the host asks for the removal of a context: 0x31, or 0x30 after a grace report. -/
def execHostRemoveContext (ctx : Nat) (grace : Bool) (s : State) : Host.Outcome State Fault Refusal :=
  if grace ∧ !(s.wgs.any fun p => decide (p.2.ctx = ctx) && p.2.graced) then .next s
  else .next (s.kill ctx (if grace then 0x30 else 0x31) 0 none 0)

/-! Removal (R199). -/

/-- Requests of a context to the host or a peer that are in flight: the engines are not reset before they have ended. -/
def State.inFlight (s : State) (t : Nat) : Bool :=
  (s.wgs.any fun p => decide (p.2.ctx = t) && p.2.warps.any fun x => x.ops.any fun o => o.units.any fun u => u.sent && !u.done)
    || (s.cores.any fun p => p.2.eops.any fun e => decide (e.ctx = t) && e.units.any fun u => u.sent && !u.done)
    || (s.ctx t).streams.any fun p => !p.2.dead && (!p.2.reqs.isEmpty || p.2.reads.any fun r => r.answer.isNone)

/-- The fatal record of a context that is removed (R193). -/
def State.fatalOf (s : State) (c : Context) : Fatal :=
  { cause := c.dying.getD 0, inner := c.inner
    warp := match c.dyingWarp with
      | some (g, w) => BitVec.ofNat 16 (s.coreOf g * 96 + s.slotOf g w)
      | none => 0xFFFF
    pc := if c.dyingWarp.isSome then c.dyingPc else 0 }

/-- A core without what belongs to a context; its handle slots are free again. -/
def Core.purge (k : Core) (t : Nat) (gone : Nat → Bool) : Core :=
  let mine := k.slots.filter fun p => p.2.live && decide (p.2.ctx = t)
  { k with
    slots := k.slots.map fun (p : Nat × HSlot) => if p.2.live && decide (p.2.ctx = t) then (p.1, { p.2 with live := false, bound := [], pend := none }) else p
    recent := k.recent ++ mine.map (·.1)
    hwait := k.hwait.filter fun h => !mine.any fun p => decide (p.1 = h.1)
    eops := k.eops.filter fun e => decide (e.ctx ≠ t), mma := k.mma.filter fun o => decide (o.ctx ≠ t)
    latches := k.latches.filter fun l => !gone l.wg, launches := k.launches.filter fun l => decide (l.ctx ≠ t)
    hall := { k.hall with queue := k.hall.queue.filter fun q => decide (q.1 ≠ t) }
    filter := if k.filter.ctx = t then {} else k.filter, ran := SMap.del t k.ran }

/-- The hall passes of a context become free (R41). -/
def State.freeHalls (s : State) (t : Nat) : State :=
  (s.cores.filter fun p => match p.2.hall.holder with | some q => decide (q.1 = t) | none => false).foldl (fun s p => s.hallFree p.1) s

/-- The owner groups that have contexts left keep their keys (R169). -/
def State.dropGroup (s : State) (g : Nat) : State :=
  if s.ctxs.any fun p => decide (p.2.group = g) then s else { s with groups := SMap.del g s.groups }

/-- A context's workgroups, engine work, queues, rings and, last, keys go (R199); `mwin_key` that names it is disabled (R172). -/
def State.removeCtx (s : State) (t : Nat) : State :=
  let gone := fun g => decide ((s.wg g).ctx = t)
  let s1 := { s.dropExchanges gone with
    wgs := s.wgs.filter fun p => decide (p.2.ctx ≠ t)
    cores := s.cores.map fun (p : Nat × Core) => (p.1, p.2.purge t gone)
    dies := s.dies.map fun (p : Nat × Die) => (p.1, { p.2 with
      grids := p.2.grids.filter fun x => decide (x.ctx ≠ t), aside := p.2.aside.filter fun x => decide (x.ctx ≠ t)
      rt := p.2.rt.filter fun x => decide (x.ctx ≠ t) }) }
  let s2 := s1.freeHalls t
  let g := (s.ctx t).group
  let s3 := { s2 with ctxs := SMap.del t s2.ctxs, lost := s2.lost.filter fun x => decide (x ≠ t) }.pruneLog
  let s4 := s3.dropGroup g
  if bits s.mwin.toNat 11 0 = t then { s4 with mwin := s.mwin &&& 0xFFFEFFFF } else s4

/-- R193, R199: the fatal record is written, host event 1 is posted, and the context is removed. -/
def execContextRemoval (ctx : Nat) (s : State) : Host.Outcome State Fault Refusal :=
  match SMap.find ctx s.ctxs with
  | none => .next s
  | some c =>
    if c.dying.isNone ∨ s.inFlight ctx then .next s
    else .next (({ s with fatal := SMap.put ctx (s.fatalOf c) s.fatal }.postEvent ctx 1).removeCtx ctx)

/-! Module reset (R5, R359). -/

/-- Whether the boot ROM accepts an image. -/
def State.accepts (s : State) (f : Firmware) : Bool := f.sigOk && decide (s.fused ≤ f.version)

/-- R5, R359: every counter is 0 and every CSR at its reset value; what lies outside the module or in its non-volatile storage
stays, and no identity is used again. A refused image leaves the endpoint answering configuration requests only. -/
def execModuleReset (fw : Firmware) (s : State) : Host.Outcome State Fault Refusal :=
  let ok := s.accepts fw
  .next { State.reset with
    ymem := s.ymem, hostFail := s.hostFail, hostDown := s.hostDown, hostPrev := s.hostPrev, sent := s.sent, msixSent := s.msixSent, agenda := s.agenda, free := s.free, nextId := s.nextId
    nextKey := s.nextKey, age := s.age, attest := { index := s.attest.index }
    fused := if ok && fw.raises then fw.version else s.fused, refused := !ok, fwVersion := if ok then fw.version else s.fwVersion
    fwImage := if ok then fw.image else s.fwImage }

end Sys2Proof.Machine
end

