-- ==== Sys2Proof/Machine/HostLink.lean ====
section
/-! DEFINITION. The host's side of the link (R170 to R175, R193, R264, R360, R361): the memory window, the management region,
MSI-X, attestation. -/

namespace Sys2Proof.Machine

/-! The memory window (R171, R172). -/

/-- The context of `mwin_key` when memory-window accesses are enabled and it is live. -/
def State.mwinCtx (s : State) : Option Nat :=
  let t := bits s.mwin.toNat 11 0
  if s.mwin.getLsbD 16 && s.live t && !s.refused then some t else none

/-- R171: an access of the host through BAR 2, at V under the key of `mwin_key`; the errors that it meets count for that context (R144, R145). -/
def execBar2MemoryAccess (off len : Nat) (write : Option (List W8)) (s : State) : Host.Outcome State Fault Refusal :=
  let n := match write with | some b => b.length | none => len
  match s.mwinCtx, installed off n with
  | some t, true =>
    let key := s.keyOf t (bits s.mwin.toNat 15 12)
    (match write with
      | some b => .next (((s.countUe t (s.partUe off b.length).length).clearUe true key off b.length).putBytes true key off b)
      | none =>
        let s1 := (s.countUe t (s.ueLines true off len).length).countCe t true off len
        let r := s1.resolve (s1.maskUe true off ((List.range len).map fun i => s1.homeByte true (off + i) key))
        .next { r.2 with hostRead := some (.bytes r.1) })
  | _, _ =>
    match write with
    | some _ => .next s
    | none => .next { s with hostRead := some .unsupported }

/-- R172: bits [16:0] are kept. -/
def execMwinKeyWrite (v : W64) (s : State) : Host.Outcome State Fault Refusal :=
  if s.refused then .next s else .next { s with mwin := v &&& 0x1FFFF }

/-! Host events and messages (R174, R175, R178). -/

/-- R174: a read pops the oldest event; bit 63 tells that there is none. -/
def State.popEvent (s : State) : State :=
  match s.evts with
  | [] => { s with hostRead := some (.word 0x8000000000000000) }
  | e :: rest => { s with evts := rest, hostRead := some (.word e) }

/-- R174. -/
def execHostEvt (s : State) : Host.Outcome State Fault Refusal :=
  .next (if s.refused then { s with hostRead := some .unsupported } else s.popEvent)

/-- R178: a posted write of a context to a host page has failed: host event 4. -/
def execHostLinkError (ctx : Nat) (s : State) : Host.Outcome State Fault Refusal :=
  .next (if s.live ctx ∧ s.lost.contains ctx then { s with lost := s.lost.erase ctx }.postEvent ctx 4 else s)

/-- R175: the vector masks and the function mask are set; a message that was held back and is masked no more is sent. -/
def State.setMasks (s : State) (vectors : W64) (function : Bool) : State :=
  let s1 := { s with msixMask := vectors, msixOff := function }
  if function then s1
  else
    { s1 with
      msixPend := s.msixPend &&& vectors
      msixSent := s.msixSent ++ (List.range 64).filter fun v => s.msixPend.getLsbD v && !vectors.getLsbD v }

/-- R175: the mask bit of a vector is cleared; a pending message is sent. -/
def execMsixVectorUnmask (vec : Nat) (s : State) : Host.Outcome State Fault Refusal :=
  if 64 ≤ vec ∨ s.refused then .next s
  else
    let bit_ := BitVec.ofNat 64 (2 ^ vec)
    let s1 := { s with msixMask := s.msixMask &&& ~~~bit_ }
    if s.msixPend.getLsbD vec ∧ !s.msixOff then
      .next { s1 with msixPend := s.msixPend &&& ~~~bit_, msixSent := s.msixSent ++ [vec] }
    else .next s1

/-- R170: Device Control 2, which a configuration write reaches even while the image is refused. -/
def execDeviceControl2Write (v : BitVec 16) (s : State) : Host.Outcome State Fault Refusal := .next { s with devCtl2 := v }

/-! CSRs in the management region (R264). -/

/-- The CSR at an offset of BAR 0: its scope, its number and its units. -/
def csrOffset (off : Nat) : Option (Unit_ × Nat) :=
  let u : Unit_ := { ctx := 0, core := 0, sub := 0, cluster := 0, die := 0 }
  if off % 8 ≠ 0 then none
  else if 0x1A000000 ≤ off ∧ off < 0x1B000000 then
    let n := (off - 0x1A000000) % 0x1000 / 8
    if n < 0x100 then some ({ u with ctx := (off - 0x1A000000) / 0x1000 }, 0x100 + n) else none
  else if 0x1B000000 ≤ off ∧ off < 0x1B040000 then
    let n := (off - 0x1B000000) % 0x10000 / 8
    if n < 0x100 then some ({ u with die := (off - 0x1B000000) / 0x10000 }, 0x400 + n) else none
  else if 0x1B040000 ≤ off ∧ off < 0x1B041000 then some (u, 0x500 + (off - 0x1B040000) / 8)
  else if 0x1B100000 ≤ off ∧ off < 0x1B140000 then
    let n := 0x300 + (off - 0x1B100000) % 0x2000 / 8
    if n < 0x400 ∨ 0x600 ≤ n then some ({ u with cluster := (off - 0x1B100000) / 0x2000 }, n) else none
  else if 0x1B200000 ≤ off ∧ off < 0x1B260000 then
    let n := (off - 0x1B200000) % 0x400 / 8
    some ({ u with core := (off - 0x1B200000) / 0x400 }, 0x200 + n)
  else if 0x1B400000 ≤ off ∧ off < 0x1B580000 then
    let n := (off - 0x1B400000) % 0x400 / 8
    some ({ u with sub := (off - 0x1B400000) / 0x400 }, 0x280 + n)
  else none

/-- The scopes that an offset's range holds. -/
def offsetHolds (off : Nat) (sc : CsrScope) : Bool :=
  if off < 0x1B000000 then decide (sc = .ctx)
  else if off < 0x1B040000 then decide (sc = .die)
  else if off < 0x1B100000 then decide (sc = .module)
  else if off < 0x1B200000 then decide (sc = .cluster)
  else if off < 0x1B400000 then decide (sc = .core)
  else decide (sc = .sub)

/-- A core's range holds the numbers below 0x280, and a sub-core's those from there on. -/
def numberFits (sc : CsrScope) (n : Nat) : Bool := if sc = .core then decide (n < 0x280) else true

/-- The host's `tlb_inv` (R156): the translations are dropped once every access that used one is performed. -/
def State.hostInv (s : State) (t : Nat) (page : Option Nat) : State :=
  if s.xlatFree t page then s.dropTlb t page.isNone (page.getD 0) else s.putOff t (.inv page)

/-- Bytes of NONCE that the host writes (R361). -/
def putNonce (i : Nat) (v : W64) (l : List W8) : List W8 := l.take i ++ bytes64 v ++ l.drop (i + 8)

/-- R264: a host write acts as a `csrw` with IH = 1, also to the fields that R262 keeps from warps; one that a warp would be
refused with a cause is ignored. NONCE lies in the same region (R361). -/
def execHostCsrWrite (off : Nat) (v : W64) (s : State) : Host.Outcome State Fault Refusal :=
  if s.refused then .next s
  else if 0x1C000000 ≤ off ∧ off < 0x1C000020 ∧ off % 8 = 0 then
    .next { s with attest := { s.attest with nonce := putNonce (off - 0x1C000000) v s.attest.nonce } }
  else
    match csrOffset off with
    | none => .next s
    | some (u, n) =>
      match csrFields n with
      | none => .next s
      | some (sc, fs) =>
        if !offsetHolds off sc ∨ !numberFits sc n ∨ (sc = .ctx ∧ !s.live u.ctx) then .next s
        else if n = 0x105 then
          .next (s.hostInv u.ctx (if bit v.toNat 0 then none else some (bits v.toNat 55 16)))
        else if n = 0x114 then (if bits v.toNat 5 0 = 0 then .next s else .next (s.msix (bits v.toNat 5 0)))
        else
          match s.writeCsr u sc fs n v with
          | .ok s1 => .next s1
          | .error _ => .next s

/-! What the host reads of the management region and the notify pages (R173, R174, R193, R264, R361). -/

/-- A fatal record as 16 bytes (R193). -/
def Fatal.bytes (f : Fatal) : List W8 :=
  leList 4 (f.cause.toNat + 128 + 256 * f.inner.toNat + 65536 * f.warp.toNat) ++ leList 4 0 ++ leList 8 f.pc.toNat

/-- A word of the notify page of a queue, beside DOOR (R173). -/
def State.notifyWord (s : State) (t q o : Nat) : W32 :=
  let x := s.queue t q
  if !s.live t then 0
  else if o = 4 then x.rejects
  else if o = 8 then BitVec.ofNat 32 (x.cause.toNat + 256 * x.index.toNat)
  else 0

/-- A CSR as the host reads it. -/
def State.hostCsr (s : State) (off : Nat) : W64 :=
  match csrOffset off with
  | none => 0
  | some (u, n) =>
    match csrFields n with
    | none => 0
    | some (sc, _) =>
      if !(offsetHolds off sc && numberFits sc n && (decide (sc ≠ .ctx) || s.live u.ctx)) then 0
      else if n = 0x405 then (s.sweepPop u.die).1
      else s.csrAt u sc n

/-- GO as the host reads it: BUSY and EXHAUSTED (R361). -/
def Attest.go (x : Attest) : W64 := (if x.busy then 1 else 0) + if 2 ^ 20 ≤ x.index then 2 else 0

/-- The 8 bytes of the management region at an aligned offset, as a read that takes nothing gives them: CSRs (R264), attestation (R361),
fatal records (R193), `host_evt_ovf` (R174) and `mwin_key` (R172); other offsets read 0 (log 65). -/
def State.barWord (s : State) (o : Nat) : W64 :=
  let at_ := fun (base : Nat) (l : List W8) => BitVec.ofNat 64 (leVal ((l.drop (o - base)).take 8))
  if o < 0x1A000000 then 0
  else if o < 0x1C000000 then s.hostCsr o
  else if o < 0x1C000020 then at_ 0x1C000000 s.attest.nonce
  else if o = 0x1C000020 then s.attest.go
  else if 0x1C001000 ≤ o ∧ o < 0x1C002000 then at_ 0x1C001000 s.attest.report
  else if 0x1C002000 ≤ o ∧ o < 0x1C002044 then at_ 0x1C002000 ((List.range 68).map Config.identity)
  else if 0x1C003000 ≤ o ∧ o < 0x1C004000 then at_ 0x1C003000 ((List.range 4096).map fun i => Config.identity (68 + i))
  else if 0x1FFE0000 ≤ o ∧ o < 0x1FFF0000 then
    (match SMap.find ((o - 0x1FFE0000) / 16) s.fatal with
      | some f => BitVec.ofNat 64 (leVal ((f.bytes.drop (o % 16)).take 8))
      | none => 0)
  else if o = 0x1FFFF008 then s.evtOvf.setWidth 64
  else if o = 0x1FFFF010 then s.mwin
  else 0

/-- A byte of BAR 0 that a read leaves as it is: of a notify page beside DOOR (R173), or of the management region. -/
def State.barByte (s : State) (o : Nat) : W8 :=
  if o < 0x10000000 then (s.notifyWord (o / 65536) (o / 4096 % 16) (o % 4096 / 4 * 4)).extractLsb' (8 * (o % 4)) 8
  else (s.barWord (o / 8 * 8)).extractLsb' (8 * (o % 8)) 8

/-- The host reads n bytes of BAR 0: DOOR (R64; DESIGN CHOICE, log 65: a read of another width that covers it finds 0 in its bytes), `host_evt`, which pops (R174), `sweep_pop`, which takes a frame (R161, R264), or bytes. -/
def State.barRead (s : State) (off n : Nat) : State :=
  if s.refused then { s with hostRead := some .unsupported }
  else if off < 0x10000000 ∧ off % 4096 = 0 ∧ n = 4 then s.doorRead (off / 65536) (off / 4096 % 16)
  else if off = 0x1FFFF000 ∧ n = 8 then s.popEvent
  else if 0x1B000000 ≤ off ∧ off < 0x1B040000 ∧ (csrOffset off).map (·.2) = some 0x405 ∧ n = 8 then
    let r := s.sweepPop ((off - 0x1B000000) / 0x10000)
    { r.2 with hostRead := some (.word r.1) }
  else
    let b := (List.range n).map fun i => s.barByte (off + i)
    { s with hostRead := some (if n = 8 then .word (BitVec.ofNat 64 (leVal b)) else .bytes b) }

/-- What the host does that has no row of its own. A refused image leaves configuration requests answered only (R359): the function mask lies
in configuration space, the vector masks in memory. -/
def State.hostActs (s : State) : HostAct → State
  | .read off n => s.barRead off n
  | .masks v f => s.setMasks (if s.refused then s.msixMask else v) f

/-! Attestation (R360, R361). -/

/-- R361: a write of 1 starts a report, unless one is being made or the key is exhausted. -/
def execAttestGo (v : W64) (s : State) : Host.Outcome State Fault Refusal :=
  if s.refused ∨ !v.getLsbD 0 ∨ s.attest.busy ∨ 2 ^ 20 ≤ s.attest.index then .next s
  else .next { s with attest := { s.attest with busy := true, taken := s.attest.nonce } }

/-- The report (R361): its version, the firmware's version, the measurement, the nonce, the index, the signatures that remain, and
the signature. The measurement is that of the image in force; a nonce written meanwhile may or may not have entered. -/
def State.report (s : State) : List W8 :=
  let a := s.attest
  (List.range 8).map Config.reportVersion ++ leList 8 s.fwVersion ++ (List.range 32).map (Config.measurement s.fwImage) ++ (if Config.freeBit s.free then a.nonce else a.taken) ++ leList 4 a.index
    ++ leList 4 (2 ^ 20 - (a.index + 1)) ++ (List.range 2820).map (Config.freeReport s.free)

/-- R360: the report is complete: the index has advanced, and BUSY clears. -/
def execAttestReportDone (s : State) : Host.Outcome State Fault Refusal :=
  if !s.attest.busy then .next s
  else .next { s with free := s.free + 1
                      attest := { s.attest with busy := false, report := s.report, index := s.attest.index + 1 } }

end Sys2Proof.Machine
end

