-- ==== Sys2Proof/Machine/Ray.lean ====
section
/-! DEFINITION. The ray unit (R329 to R332): BVH records, box and triangle tests, and ray transforms. -/

namespace Sys2Proof.Machine

/-! Values. -/

/-- A single-precision value. -/
def f32 (x : W32) : FVal := decodeF fp32 x.toNat
/-- One rounding to single precision, to nearest even. -/
def rne (v : FVal) : FVal := decodeF fp32 (roundF fp32 0 v)
/-- a − b, exactly. -/
def FVal.sub (a b : FVal) : FVal := FVal.add 0 a b.neg
/-- A value is finite. -/
def FVal.isFin : FVal → Bool
  | .fin _ _ _ _ => true | _ => false
/-- A value is below zero. -/
def FVal.below (v : FVal) : Bool := v.lt (FVal.ofInt 0)
/-- A value is above zero. -/
def FVal.above (v : FVal) : Bool := (FVal.ofInt 0).lt v

/-- A ray (R329): origin, tmin, direction, tmax. -/
structure Ray where
  o    : Nat → FVal
  tmin : FVal
  d    : Nat → FVal
  tmax : FVal

/-- A ray from its group of eight words. -/
def Ray.of (r : Nat → W32) : Ray :=
  { o := fun a => f32 (r a), tmin := f32 (r 3), d := fun a => f32 (r (4 + a)), tmax := f32 (r 7) }

/-- Some component of a ray is NaN. -/
def Ray.nan (r : Ray) : Bool :=
  [r.o 0, r.o 1, r.o 2, r.tmin, r.d 0, r.d 1, r.d 2, r.tmax].any FVal.isNan

/-! The box test (R330). -/

/-- The near and far distance of one axis. -/
def slab (lo hi o d : FVal) : FVal × FVal :=
  let inv := rne ((FVal.ofInt 1).div d)
  let p := (lo.sub o).mul inv
  let q := (hi.sub o).mul inv
  if p.isNan || q.isNan then (.inf true, .inf false)
  else
    let dn := fun v => decodeF fp32 (roundF fp32 2 v)
    let up := fun v => decodeF fp32 (roundF fp32 3 v)
    (FVal.pick true (dn p) (dn q), FVal.pick false (up p) (up q))

/-- The entry distance of a box, and whether the ray hits it. -/
def boxTest (r : Ray) (lo hi : Nat → FVal) : FVal × Bool :=
  let s := fun a => slab (lo a) (hi a) (r.o a) (r.d a)
  let enter := [0, 1, 2].foldl (fun t a => FVal.pick false t (s a).1) r.tmin
  let leave := [0, 1, 2].foldl (fun t a => FVal.pick true t (s a).2) r.tmax
  (enter, !r.nan && enter.le leave)

/-- R330: the five words of `raybox` for a node whose word i is `w i`. -/
def boxWords (r : Ray) (w : Nat → W32) : List Nat :=
  let b := fun k => boxTest r (fun a => f32 (w (6 * k + a))) (fun a => f32 (w (6 * k + 3 + a)))
  let t := fun k => if (b k).2 then roundF fp32 0 (b k).1 else fp32.infBits
  [(if (b 0).2 then 1 else 0) + (if (b 1).2 then 2 else 0)
      + (if (b 0).2 && (b 1).2 && (b 1).1.lt (b 0).1 then 4 else 0),
    t 0, t 1, (w 12).toNat, (w 13).toNat]

/-! The triangle test (R331). -/

/-- The axis of the largest direction component, the lowest on ties. -/
def mainAxis (d : Nat → FVal) : Nat :=
  let k := if (d 0).abs.lt (d 1).abs then 1 else 0
  if (d k).abs.lt (d 2).abs then 2 else k

/-- R331: the five words of `raytri` for a triangle whose word i is `w i`. -/
def triWords (r : Ray) (w : Nat → W32) : List Nat :=
  let miss := [0, fp32.infBits, 0, 0, 0xFFFFFFFF]
  if r.nan || ((List.range 9).any fun i => (f32 (w i)).isNan) || [0, 1, 2].all fun a => (r.d a).isZero then miss
  else
    let kz := mainAxis r.d
    let k1 := (kz + 1) % 3
    let k2 := (k1 + 1) % 3
    let kx := if (r.d kz).below then k2 else k1
    let ky := if (r.d kz).below then k1 else k2
    let sx := rne ((r.d kx).div (r.d kz))
    let sy := rne ((r.d ky).div (r.d kz))
    let sz := rne ((FVal.ofInt 1).div (r.d kz))
    let p := fun v a => rne ((f32 (w (3 * v + a))).sub (r.o a))
    let x := fun v => rne ((p v kx).sub (sx.mul (p v kz)))
    let y := fun v => rne ((p v ky).sub (sy.mul (p v kz)))
    let z := fun v => rne (sz.mul (p v kz))
    if !([sx, sy, sz, x 0, x 1, x 2, y 0, y 1, y 2, z 0, z 1, z 2].all FVal.isFin) then miss
    else
      let cross := fun a b => ((x a).mul (y b)).sub ((y a).mul (x b))
      let u := cross 2 1
      let v := cross 0 2
      let wt := cross 1 0
      let add := FVal.add 0
      let det := add (add u v) wt
      if ((u.below || v.below || wt.below) && (u.above || v.above || wt.above)) || det.isZero then miss
      else
        let t := rne ((add (add (u.mul (z 0)) (v.mul (z 1))) (wt.mul (z 2))).div det)
        if t.isFin && r.tmin.le t && t.le r.tmax then
          [1, roundF fp32 0 t, roundF fp32 0 (v.div det), roundF fp32 0 (wt.div det), (w 9).toNat]
        else miss

/-! Records. -/

/-- Word i of a record. -/
def recWord (b : List W8) (i : Nat) : W32 := BitVec.ofNat 32 (leVal ((b.drop (4 * i)).take 4))

/-- The record that a lane tests. -/
def Cx.rayIndex (c : Cx) (l : Nat) : Nat := bits (lane c.vA l).toNat 30 0
/-- Its address. -/
def PoolRec.rayAt (p : PoolRec) (i : Nat) : Nat := (p.base + 64 * i) % 2 ^ 64

/-- The KIND of the records that an instruction tests, and the test. -/
def LookKind.rayTest (k : LookKind) : Nat × (Ray → (Nat → W32) → List Nat) := if k = .raytri then (2, triWords) else (1, boxWords)

/-- One part of a lane of a queued ray instruction (R330): its record, one unit after another (R133), then the test. A record out of range
or of the wrong KIND is cause 0x28. A wait leaves it as it is. -/
def State.rayStep (s : State) (g w : Nat) (o : Op) (l : Look) (k : Nat) (u : MUnit) : State :=
  let c : Cx := { g := g, w := w, f := l.f, ins := o.ins, re := false }
  let p := PoolRec.parse l.rcd
  let i := c.rayIndex u.lane
  let va := p.rayAt i
  match SMap.find k l.lanes with
  | none =>
    if p.size / 64 ≤ i then s.lookFails g w o k 0x28 va
    else s.lookPut g w o.id k { found := true, got := List.replicate 8 none }
  | some x =>
    match nextUnit s.free x.got with
    | some j =>
      (match (s.drew 1).readUnits g w o.ctx ((va + 8 * j) % 2 ^ 64) 8 with
        | .got b s1 => s1.lookPut g w o.id k { x with got := modAt (fun _ => some b) j x.got }
        | .fault e a s1 => s1.lookFails g w o k e a
        | .wait s1 => s1)
    | none =>
      let b := x.got.flatMap (·.getD [])
      if (recWord b 14).toNat ≠ l.kind.rayTest.1 then s.lookFails g w o k 0x28 va
      else s.lookDone g w o k (l.kind.rayTest.2 (Ray.of fun i => lane (s.groupReg c 2 c.f.sb.toNat i) u.lane) (recWord b))

/-- A BVH whose size is not a whole number of records (R329). -/
def bvhRule (p : PoolRec) : Option Cause := if p.size % 64 ≠ 0 then some 0x29 else none
def bvhPre (c : Cx) (s : State) : Option Res := poolPre [2] false true bvhRule c s

/-- A ray instruction: a data breakpoint sees the records that its lanes test. -/
def rayBody (kind : LookKind) (c : Cx) (s : State) : Res :=
  s.poolRec c [2] false true fun p b s1 =>
    watched c s1 (fun s l => .ok (if c.rayIndex l < p.size / 64 then [(l, p.rayAt (c.rayIndex l), 64)] else []) s)
      (lookIssue kind ((List.range 5).map (c.f.dst.toNat + ·)) c b)

def execRaybox (f : Fields) (s : State) := issue (.raybox f) s open_ bvhPre (rayBody .raybox)
def execRaytri (f : Fields) (s : State) := issue (.raytri f) s open_ bvhPre (rayBody .raytri)

/-! The transform (R332). -/

/-- The ray of a lane under the matrix of the lane: its eight words. -/
def xfWords (r m : Nat → W32) : List Nat :=
  let dot := fun k base => [0, 1, 2].foldl (fun a c => FVal.add 0 a ((f32 (m (4 * k + c))).mul (f32 (r (base + c)))))
  let out := fun k => roundF fp32 0 (dot k 0 (f32 (m (4 * k + 3))))
  let dir := fun k =>
    let p := fun c => (f32 (m (4 * k + c))).mul (f32 (r (4 + c)))
    roundF fp32 0 (FVal.add 0 (FVal.add 0 (p 0) (p 1)) (p 2))
  [out 0, out 1, out 2, (r 3).toNat, dir 0, dir 1, dir 2, (r 7).toNat]

/-- R332: all sources are read before any destination is written. -/
def rayxfBody (c : Cx) (s : State) : Res :=
  let r := fun l i => lane (s.groupReg c 0 c.f.sa.toNat i) l
  let m := fun l i => lane (s.groupReg c 2 c.f.sb.toNat i) l
  let res := (List.range 32).map fun l => xfWords (r l) (m l)
  .done (s.modWarp c.g c.w fun x => (List.range 8).foldl (fun x i =>
    x.setVm c.act (c.f.dst.toNat + i) (mkLanes fun l => BitVec.ofNat 32 ((res.getD l []).getD i 0))) x)
def execRayxf (f : Fields) (s : State) := run (.rayxf f) s rayxfBody

end Sys2Proof.Machine
end

