-- ==== Sys2Proof/Machine/Queue.lean ====
section
/-! DEFINITION. A step of a warp's queues: the issue queue (R117, R121), and those of the sampler, the ray unit and the render
targets (R133, R135). -/

namespace Sys2Proof.Machine

/-- A step of an operation of the sampler or the ray unit: a line with an uncorrectable error counts once for the operation, whichever of
its steps meets it (R145). One that waits, and so is made again whole, has read nothing for the copybook (R356, R358). -/
def State.underOp (s : State) (g w : Nat) (o : Op) (f : State → State) : State :=
  let x := s.warp g w
  let s1 := f (s.modWarp g w fun y => { y with metCode := o.ueLines, metAt := y.lastAt })
  let met := (s1.warp g w).metCode
  let waits := match s1.opOf g w o.id with | some q => decide (q.look = o.look) && decide (q.units = o.units) | none => false
  ((if waits && s1.live o.ctx then s1.cpbBack s else s1).modOp g w o.id fun o => { o with ueLines := met }).modWarp g w fun y => { y with metCode := x.metCode, metAt := x.metAt }

/-- A unit that may be performed is, by what its operation is. -/
def State.queueUnit (s : State) (g w : Nat) (o : Op) (k : Nat) (u : MUnit) (copies : Nat) : State :=
  match o.kind, o.look with
  | .look, some l => s.underOp g w o fun s => if l.kind = .raybox ∨ l.kind = .raytri then s.rayStep g w o l k u else s.texStep g w o l k u
  | .rtw, _ => (match u.tgt with | .dev pa key => s.rtwUnit g w o k u pa key | _ => s)
  | .rtr, some l => s.rtrUnit g w o l k u
  | _, _ => s.performUnit g w o k u copies

/-- R121, R133: a step of an operation, when its turn has come: its release part, or a unit; a fence or a flush as a whole.
While a trap waits for values on their way, nothing more is performed (R185 step 2). -/
def State.iqPerform (s : State) (g w id k copies : Nat) : State :=
  match s.opOf g w id with
  | none => s
  | some o =>
    let before := (s.warp g w).before id
    if (s.warp g w).trapping.isSome || !o.works || o.performed || !orderOk before o then s
    else if o.kind = .fence then s.performFence g w o
    else if o.kind = .cflush then (if o.units.all (bytesOk before) then s.performFlush g w o else s)
    else if o.rel && !o.opened then
      s.releasePart g w o o.relLevel fun s => (s.modOp g w id fun o => { o with opened := true }).settle g w id
    else
      match o.units[k]? with
      | none => s.settle g w id
      | some u => if u.done || u.sent || u.fault.isSome || !bytesOk before u || shadowed o u then s else s.queueUnit g w o k u copies

def execIqPerform (wg w op unit copies : Nat) (s : State) : Host.Outcome State Fault Refusal :=
  .next (s.iqPerform wg w op unit copies)

end Sys2Proof.Machine
end

