-- ==== Sys2Proof/Machine/Retry.lean ====
section
/-! DEFINITION. What waits on MIG, or for a peer's answer, is made again (R154, R362). -/

namespace Sys2Proof.Machine

/-- An act of the device that waited is over. -/
def State.unpend (s : State) (t : Nat) (e : Pend × Nat) : State := s.modCtx t fun c => { c with pend := c.pend.erase e }

/-- It waits on, in its place. -/
def State.pendAgain (s : State) (t : Nat) (e : Pend × Nat) : State :=
  s.modCtx t fun c => { c with pend := c.pend.map fun x => if x = e then (e.1, (s.die 0).counter + 256) else x }

/-- What making it again has given. -/
def State.remade (s : State) (t : Nat) (e : Pend × Nat) : DevRes Unit → State
  | .ok _ s1 => s1.unpend t e
  | .fault _ s1 => s1.unpend t e
  | .later s1 => (s.orLater t (.later s1)).pendAgain t e

/-- An act of the device is made again; a doorbell write behind those of its queue. -/
def State.remake (s : State) (t : Nat) (e : Pend × Nat) : State :=
  match e.1 with
  | .write va bs => s.remade t e (s.devWrite t va bs)
  | .door q w =>
    if ((s.ctx t).pend.find? fun x => match x.1 with | .door q' _ => decide (q' = q) | _ => false) = some e then
      s.remade t e (s.doorAt t q w)
    else s
  | .gram d => (s.unpend t e).lossyGram d
  | .rel d => (s.unpend t e).relGram d
  | .send p _ _ => State.sendsGo t p (s.ctx t).pend s
  | .inv page => if s.xlatFree t page then (s.dropTlb t page.isNone (page.getD 0)).unpend t e else s.pendAgain t e

/-- The acts of the device for a context that are due are made again, the datagrams that wait at the head of its streams are delivered, and
the NACKs that no key has sealed yet are sent. -/
def State.remakeAll (s : State) (t : Nat) : State :=
  let s1 := if s.live t then
      (((s.retryDecs t).ctx t).pend.filter fun e => decide (e.2 ≤ (s.die 0).counter)).foldl (fun s e => s.remake t e) (s.retryDecs t)
    else s
  ((s1.ctx t).streams.filter fun q => !q.2.dead).foldl (fun s q => (State.relRun t q.1 256 s).relGaps t q.1) s1

/-- R154: a walk that waited 256 cycles on MIG is made again when the warp next issues, and the walks that the device itself waits for are
made again. -/
def execMigRetry (wg w : Nat) (s : State) : Host.Outcome State Fault Refusal :=
  let s1 := s.modWarp wg w fun x =>
    { x with parked := x.parked.filter fun c => match c with | .mig at_ => decide (s.now wg < at_) | _ => true }
  .next (s1.ctxs.foldl (fun s c => s.remakeAll c.1) s1)

end Sys2Proof.Machine
end

