-- ==== Sys2Proof/Machine/Sweep.lean ====
section
/-! DEFINITION. The sweeper (R160 to R162). -/

namespace Sys2Proof.Machine

/-- The sweeper of a die runs: from fewer than LOW ready frames until there are HIGH. -/
def State.sweeping (s : State) (d : Nat) : Bool :=
  let v := (s.cdie d 0x403).toNat
  let n := (s.die d).ready.length
  if n < bits v 8 0 then true else if min 256 (bits v 17 9) ≤ n then false else (s.die d).sweepOn

/-- The frame table has one entry for each 64 KiB frame of a die's stack. -/
def tableFrames : Nat := 1572864

/-- A leaf entry at a device-physical address, when it is valid and names a frame of a die. -/
def State.leafOf (s : State) (pte d hand : Nat) : Option Nat :=
  let e := s.entryAt false pte
  if bit e 0 && decide (bits e 14 12 < 2) && decide (bits e 55 16 = d * 2 ^ 21 + hand) then some e else none

/-- R162: the entry at HAND. -/
def State.sweepEntry (s : State) (d hand : Nat) : State :=
  let a := bits (s.cdie d 0x402).toNat 55 4 * 16 + 16 * hand
  let e := s.entryAt false a
  if !bit e 0 ∨ bit e 1 ∨ bit e 2 then s
  else
    let pte := bits e 55 3 * 8
    match s.leafOf pte d hand with
    | none => s
    | some l =>
      if bit l 4 then
        let b := s.anyByte false pte
        { s.logV pte 1 with vmem := SMap.put pte (b &&& 0xEF) s.vmem }.modCtx (bits (s.entryAt false (a + 8)) 11 0) fun c =>
          { c with tlb := c.tlb.filter fun x => !(decide (x.at_ = pte) && !x.host) }
      else if (s.die d).ready.contains hand ∨ 256 ≤ (s.die d).ready.length then s
      else s.modDie d fun x => { x with ready := x.ready ++ [hand] }

/-- R162: while it runs, the sweeper examines the entry at HAND and advances HAND. -/
def execSweeperStep (die : Nat) (s : State) : Host.Outcome State Fault Refusal :=
  if 4 ≤ die ∨ !(s.cdie die 0x403).getLsbD 18 then .next s
  else
    let on := s.sweeping die
    let s1 := s.modDie die fun x => { x with sweepOn := on }
    if !on then .next s1
    else
      let hand := bits (s.cdie die 0x404).toNat 20 0
      .next ((s1.sweepEntry die hand).putDie die 0x404 (BitVec.ofNat 64 ((hand + 1) % tableFrames)))

end Sys2Proof.Machine
end

