-- ==== Sys2Proof/Machine/Vector.lean ====
section
/-! DEFINITION. The vector instructions (R267 to R279). -/

namespace Sys2Proof.Machine

/-- The bits that source operand u (0 A, 1 B, 2 C) has in a lane: 64 of a pair, else 32 (R267). -/
def Cx.src (c : Cx) (u l : Nat) : Nat :=
  (lane (c.vop (2 * u)) l).toNat + if c.f.ty.isPair then (lane (c.vop (2 * u + 1)) l).toNat * 2 ^ 32 else 0

/-- IMM32 as the value of source B (R213): sign-extended for 64-bit integers, FP32 converted exactly for f64. -/
def Cx.immB (c : Cx) : Nat :=
  match c.f.ty with
  | .f64 => roundF fp64 0 (decodeF fp32 c.f.imm.toNat)
  | .i64 => c.imm64.toNat
  | .n64 => c.imm64.toNat
  | _ => c.f.imm.toNat

/-- Source B in a lane: vB, or the immediate of the 96-bit form. -/
def Cx.srcB (c : Cx) (l : Nat) : Nat := if c.f.len = .f96 then c.immB else c.src 1 l

/-- Writes the destination, a pair for the 64-bit types, in the active lanes. -/
def State.setLanes (s : State) (c : Cx) (f : Nat → Nat) : State :=
  if c.f.ty.isPair then
    s.setPair c (mkLanes fun l => BitVec.ofNat 32 (f l)) (mkLanes fun l => BitVec.ofNat 32 (f l / 2 ^ 32))
  else s.setV c (mkLanes fun l => BitVec.ofNat 32 (f l))

/-- Element k of a lane's bits (R94). -/
def lanePart (w k x : Nat) : Nat := x / 2 ^ (w * k) % 2 ^ w

/-- An operation on each element of a lane (R267, R269). -/
def elemMap (w : Nat) (op : Nat → Nat → Nat → Nat) (a b c : Nat) : Nat :=
  (List.range (if 32 ≤ w then 1 else 32 / w)).foldr
    (fun k acc => op (lanePart w k a) (lanePart w k b) (lanePart w k c) * 2 ^ (w * k) + acc) 0

/-- An elementwise instruction of R269, R271 and R273. -/
def lanewise (op : Fields → Nat → Nat → Nat → Nat) (c : Cx) (s : State) : Res :=
  .done (s.setLanes c fun l => elemMap c.f.ty.width (op c.f) (c.src 0 l) (c.srcB l) (c.src 2 l))

/-- An integer result: wrapped, or clamped to the type's range under `.sat` (R268). -/
def intResult (f : Fields) (r : Int) : Nat :=
  let w := f.ty.width
  lowBits w (if f.sub = 1 then
    (if f.ty.isSigned then max (-(2 ^ (w - 1) : Nat)) (min ((2 ^ (w - 1) : Nat) - 1) r) else max 0 (min ((2 ^ w : Nat) - 1) r))
    else r)

/-- A float result, rounded once in SUB's mode (R268). -/
def floatResult (f : Fields) (v : FVal) : Nat := roundF (fmtOf f.ty) f.sub.toNat v
/-- An element as a float. -/
def fval (f : Fields) (x : Nat) : FVal := decodeF (fmtOf f.ty) x
/-- An element as an integer. -/
def ival (f : Fields) (x : Nat) : Int := tyInt f.ty f.ty.width x

/-- A two-operand arithmetic operation: its float and its integer meaning. -/
def arith (fl : Nat → FVal → FVal → FVal) (int : Int → Int → Int) (f : Fields) (a b _ : Nat) : Nat :=
  if f.ty.isFloat then floatResult f (fl f.sub.toNat (fval f a) (fval f b)) else intResult f (int (ival f a) (ival f b))

def execVadd (f : Fields) (s : State) := run (.vadd f) s (lanewise (arith FVal.add (· + ·)))
def execVsub (f : Fields) (s : State) := run (.vsub f) s (lanewise (arith (fun m a b => FVal.add m a b.neg) (· - ·)))
def execVmul (f : Fields) (s : State) := run (.vmul f) s (lanewise (arith (fun _ => FVal.mul) (· * ·)))

/-- a × b + c, rounded once (R269). -/
def fmaOp (f : Fields) (a b c : Nat) : Nat :=
  if f.ty.isFloat then floatResult f (FVal.add f.sub.toNat ((fval f a).mul (fval f b)) (fval f c))
  else lowBits 32 (ival f a * ival f b + ival f c)
def execVfma (f : Fields) (s : State) := run (.vfma f) s (lanewise fmaOp)

/-- R270. -/
def minMax (less : Bool) (f : Fields) (a b _ : Nat) : Nat :=
  if f.ty.isFloat then roundF (fmtOf f.ty) 0 (FVal.pick less (fval f a) (fval f b))
  else lowBits f.ty.width (if less then min (ival f a) (ival f b) else max (ival f a) (ival f b))
def execVmin (f : Fields) (s : State) := run (.vmin f) s (lanewise (minMax true))
def execVmax (f : Fields) (s : State) := run (.vmax f) s (lanewise (minMax false))

/-- Division: correctly rounded, or as `sdiv` with W = 32 (R269). -/
def divOp (f : Fields) (a b _ : Nat) : Nat :=
  if f.ty.isFloat then floatResult f ((fval f a).div (fval f b)) else lowBits 32 (opDiv f.ty a b)
def execVdiv (f : Fields) (s : State) := run (.vdiv f) s (lanewise divOp)

/-- The high W bits of the exact product (R269). -/
def mulhiOp (f : Fields) (a b _ : Nat) : Nat :=
  lowBits f.ty.width ((ival f a * ival f b) / (2 ^ f.ty.width : Nat))
def execVmulhi (f : Fields) (s : State) := run (.vmulhi f) s (lanewise mulhiOp)

/-- The byte dot product of two lanes (R269). -/
def dot4 (ty : Ty) (a b c : Nat) : Nat :=
  lowBits 32 ((List.range 4).foldl (fun acc k => acc + tyInt ty 8 (lanePart 8 k a) * tyInt ty 8 (lanePart 8 k b)) (c : Int))
def execVdot4 (f : Fields) (s : State) := run (.vdot4 f) s fun c s =>
  .done (s.setV c (mkLanes fun l => BitVec.ofNat 32 (dot4 c.f.ty (c.src 0 l) (c.srcB l) (c.src 2 l))))

/-! One operand (R271, R272). -/

/-- A one-operand arithmetic operation. -/
def unary (fl : FVal → FVal) (int : Int → Int) (f : Fields) (a _ _ : Nat) : Nat :=
  if f.ty.isFloat then floatResult f (fl (fval f a)) else intResult f (int (ival f a))
def execVabs (f : Fields) (s : State) := run (.vabs f) s (lanewise (unary FVal.abs fun a => a.natAbs))
def execVneg (f : Fields) (s : State) := run (.vneg f) s (lanewise (unary FVal.neg fun a => -a))
def execVrcp (f : Fields) (s : State) := run (.vrcp f) s (lanewise (unary (FVal.div (FVal.ofInt 1)) id))
def execVrsq (f : Fields) (s : State) := run (.vrsq f) s (lanewise (unary FVal.rsqrt id))
def execVsqrt (f : Fields) (s : State) := run (.vsqrt f) s (lanewise (unary FVal.sqrt id))
def execVexp2 (f : Fields) (s : State) := run (.vexp2 f) s (lanewise (unary FVal.exp2 id))
def execVlog2 (f : Fields) (s : State) := run (.vlog2 f) s (lanewise (unary FVal.log2 id))
def execVsinpi (f : Fields) (s : State) := run (.vsinpi f) s (lanewise (unary (FVal.trigPi false) id))
def execVcospi (f : Fields) (s : State) := run (.vcospi f) s (lanewise (unary (FVal.trigPi true) id))

/-- An operation on the 32 bits of a lane. -/
def bitwise (op : Nat → Nat → Nat → Nat) : Fields → Nat → Nat → Nat → Nat := fun _ => op
def execVnot (f : Fields) (s : State) := run (.vnot f) s (lanewise (bitwise fun a _ _ => 2 ^ 32 - 1 - a))
def execVclz (f : Fields) (s : State) := run (.vclz f) s (lanewise (bitwise fun a _ _ => clz 32 a))
def execVpopc (f : Fields) (s : State) := run (.vpopc f) s (lanewise (bitwise fun a _ _ => popc 32 a))

/-! Bits (R273). -/

def execVand (f : Fields) (s : State) := run (.vand f) s (lanewise (bitwise fun a b _ => a &&& b))
def execVor (f : Fields) (s : State) := run (.vor f) s (lanewise (bitwise fun a b _ => a ||| b))
def execVxor (f : Fields) (s : State) := run (.vxor f) s (lanewise (bitwise fun a b _ => a ^^^ b))
def execVshl (f : Fields) (s : State) := run (.vshl f) s (lanewise fun f a b _ => lowBits 32 (opShl f.ty a b))
def execVshr (f : Fields) (s : State) := run (.vshr f) s (lanewise fun f a b _ => lowBits 32 (opShr f.ty a b))
def execVsra (f : Fields) (s : State) := run (.vsra f) s (lanewise fun f a b _ => lowBits 32 (opSra f.ty a b))
def execVbfx (f : Fields) (s : State) := run (.vbfx f) s
  (lanewise fun f a b _ => lowBits 32 (bfExtract f.ty.isSigned 32 a b))
def execVbfi (f : Fields) (s : State) := run (.vbfi f) s (lanewise (bitwise fun a b into => bfInsert 32 a b into))

/-! Comparison and selection (R274, R275). -/

/-- The order of two lanes under the instruction's type. -/
def laneOrder (f : Fields) (a b : Nat) : Option Ordering :=
  if f.ty.isFloat then (fval f a).cmp (fval f b) else some (intOrder (ival f a) (ival f b))
def execVcmp (f : Fields) (s : State) := run (.vcmp f) s fun c s =>
  .done (s.setP c (maskOf fun l => condHolds c.f.sub.toNat (laneOrder c.f (c.src 0 l) (c.srcB l))))

def execVsel (f : Fields) (s : State) := run (.vsel f) s fun c s =>
  .done (s.setLanes c fun l => if c.sC.getLsbD l then c.src 0 l else c.src 1 l)

/-- A NaN moved as f64 becomes the canonical one (R268, R275). -/
def movF64 (f : Fields) (x : Nat) : Nat :=
  if f.ty = .f64 ∧ (decodeF fp64 x).isNan then fp64.nanBits else x
def execVmov (f : Fields) (s : State) := run (.vmov f) s fun c s =>
  .done (s.setLanes c fun l => movF64 c.f (if c.f.len = .f96 then c.immB else c.src 0 l))

def execVbcast (f : Fields) (s : State) := run (.vbcast f) s fun c s => .done (s.setLanes c fun _ => c.sA.toNat)

/-! Conversion (R276, R277). -/

/-- R276: one lane, from source type st to the destination type. -/
def convert (st dt : Ty) (mode x : Nat) : Nat :=
  if st.isFloat then
    let v := decodeF (fmtOf st) (x % 2 ^ st.width)
    if dt.isFloat then roundF (fmtOf dt) mode (if st = dt then v.toIntegral mode else v)
    else
      let w := dt.width
      lowBits w (if dt.isSigned then v.toRange mode (-(2 ^ (w - 1) : Nat)) ((2 ^ (w - 1) : Nat) - 1)
        else v.toRange mode 0 ((2 ^ w : Nat) - 1))
  else
    let i := tyInt st st.width x
    if dt.isFloat then roundF (fmtOf dt) mode (FVal.ofInt i)
    else intResult { len := .f64, pen := false, pneg := false, pred := 0, dst := 0, sa := 0, sb := 0, sc := 0, feb := 0,
                     ru := 0, fs := 0, sub := 1, ty := dt, imm := 0, sd := 0, dst2 := 0, ext := 0 } i

/-- The bits of `vcvt`'s source in a lane: a pair when the source type is 64 bits wide. -/
def Cx.cvtSrc (c : Cx) (l : Nat) : Nat :=
  (lane (c.vop 0) l).toNat + if (Ty.ofCode c.f.sc.toNat).isPair then (lane (c.vop 1) l).toNat * 2 ^ 32 else 0
def execVcvt (f : Fields) (s : State) := run (.vcvt f) s fun c s =>
  .done (s.setLanes c fun l => convert (Ty.ofCode c.f.sc.toNat) c.f.ty c.f.sub.toNat (c.cvtSrc l))

/-- The checks of `vpack` and `vunpack` (R277): the slot, then the element index. -/
def packPre (c : Cx) (s : State) : Option Res :=
  let sl := (s.wg c.g).slot c.f.fs.toNat
  if !sl.ok || decide (sl.skind = 2) then some (c.raise 0x15)
  else if 32 / elemBits sl.elem ≤ c.f.sub.toNat then some (c.raise 0x06)
  else none

/-- R277: element k of vD := CONVERT(vA / s). -/
def vpackBody (c : Cx) (s : State) : Res :=
  let sl := (s.wg c.g).slot c.f.fs.toNat
  let w := elemBits sl.elem
  let k := c.f.sub.toNat
  let old := (s.warp c.g c.w).getV c.f.dst.toNat
  .done (s.setV c (mkLanes fun l =>
    let o := (lane old l).toNat
    BitVec.ofNat 32 (o - lanePart w k o * 2 ^ (w * k)
      + elemOf sl.elem sl.round ((decodeF fp32 (c.src 0 l)).div sl.scale) * 2 ^ (w * k))))
def execVpack (f : Fields) (s : State) := issue (.vpack f) s open_ packPre vpackBody

/-- R277: vD := ROUND32(DECODE(element k of vA) × s); reserved INT4 codes are counted. -/
def vunpackBody (c : Cx) (s : State) : Res :=
  let sl := (s.wg c.g).slot c.f.fs.toNat
  let el := fun l => lanePart (elemBits sl.elem) c.f.sub.toNat (c.src 0 l)
  let n := if sl.elem = 5 then ((lanesOf c.act).filter fun l => el l = 8).length else 0
  .done ((s.countCore (s.coreOf c.g) 0x203 31 0 n).setV c (mkLanes fun l =>
    BitVec.ofNat 32 (roundF fp32 sl.round ((elemValue sl.elem (el l)).mul sl.scale))))
def execVunpack (f : Fields) (s : State) := issue (.vunpack f) s open_ packPre vunpackBody

/-! Lanes talking to lanes (R278, R279). -/

/-- The source lane of `vshfl`. -/
def shflLane (mode l b : Nat) : Nat :=
  match mode with
  | 0 => b % 32
  | 1 => if b ≤ l then l - b else l
  | 2 => if l + b < 32 then l + b else l
  | _ => l ^^^ (b % 32)
def execVshfl (f : Fields) (s : State) := run (.vshfl f) s fun c s =>
  .done (s.setV c (mkLanes fun l => lane c.vA (shflLane c.f.sub.toNat l (c.srcB l))))

def execVvoteBallot (f : Fields) (s : State) := run (.vvoteBallot f) s fun c s =>
  .done (s.setS c ((c.act &&& c.sA.setWidth 32).setWidth 64))
def execVvoteAny (f : Fields) (s : State) := run (.vvoteAny f) s fun c s =>
  .done (s.setS c (if c.act &&& c.sA.setWidth 32 ≠ 0 then 1 else 0))
def execVvoteAll (f : Fields) (s : State) := run (.vvoteAll f) s fun c s =>
  .done (s.setS c (if c.act &&& ~~~(c.sA.setWidth 32) ≠ 0 then 0 else 1))

/-- One step of a reduction. -/
def redStep (f : Fields) (a b : Nat) : Nat :=
  match f.sub.toNat with
  | 0 => if f.ty = .f32 then roundF fp32 0 (FVal.add 0 (fval f a) (fval f b)) else lowBits 32 (a + b : Nat)
  | 1 => minMax true f a b 0
  | 2 => minMax false f a b 0
  | 3 => a &&& b
  | 4 => a ||| b
  | _ => a ^^^ b

/-- The result with no active lane (R279). -/
def redEmpty (f : Fields) : Nat :=
  match f.sub.toNat with
  | 1 => if f.ty = .f32 then fp32.infBits else if f.ty = .i32 then 2 ^ 31 - 1 else 2 ^ 32 - 1
  | 2 => if f.ty = .f32 then fp32.infBits + fp32.signBit else if f.ty = .i32 then 2 ^ 31 else 0
  | 3 => 2 ^ 32 - 1
  | _ => 0

/-- The reduction of the active lanes, in ascending order (R279). -/
def reduce (c : Cx) : Nat :=
  match lanesOf c.act with
  | [] => redEmpty c.f
  | l :: ls =>
    let x := c.src 0 l
    ls.foldl (fun a l => redStep c.f a (c.src 0 l)) (if c.f.ty = .f32 then roundF fp32 0 (decodeF fp32 x) else x)
def execVred (f : Fields) (s : State) := run (.vred f) s fun c s => .done (s.setS c (sExtend c.f.ty (reduce c : Nat)))

end Sys2Proof.Machine
end

