-- ==== Sys2Proof/Machine/Dispatch.lean ====
section
/-! DEFINITION. Execution: one arm per step of the part, each a direct call of its meaning. -/

namespace Sys2Proof.Machine

def exec (i : Instr) (s : State) : Host.Outcome State Fault Refusal :=
  match i with
  | .sadd f => Sys2Proof.Machine.execSadd f s
  | .ssub f => Sys2Proof.Machine.execSsub f s
  | .smul f => Sys2Proof.Machine.execSmul f s
  | .smulh f => Sys2Proof.Machine.execSmulh f s
  | .sdiv f => Sys2Proof.Machine.execSdiv f s
  | .srem f => Sys2Proof.Machine.execSrem f s
  | .sand f => Sys2Proof.Machine.execSand f s
  | .sor f => Sys2Proof.Machine.execSor f s
  | .sxor f => Sys2Proof.Machine.execSxor f s
  | .sshl f => Sys2Proof.Machine.execSshl f s
  | .sshr f => Sys2Proof.Machine.execSshr f s
  | .ssra f => Sys2Proof.Machine.execSsra f s
  | .smin f => Sys2Proof.Machine.execSmin f s
  | .smax f => Sys2Proof.Machine.execSmax f s
  | .scmp f => Sys2Proof.Machine.execScmp f s
  | .ssel f => Sys2Proof.Machine.execSsel f s
  | .smov f => Sys2Proof.Machine.execSmov f s
  | .sli f => Sys2Proof.Machine.execSli f s
  | .sliHi f => Sys2Proof.Machine.execSliHi f s
  | .sclz f => Sys2Proof.Machine.execSclz f s
  | .spopc f => Sys2Proof.Machine.execSpopc f s
  | .sbfx f => Sys2Proof.Machine.execSbfx f s
  | .sbfi f => Sys2Proof.Machine.execSbfi f s
  | .saddr f => Sys2Proof.Machine.execSaddr f s
  | .bra f => Sys2Proof.Machine.execBra f s
  | .bz f => Sys2Proof.Machine.execBz f s
  | .bnz f => Sys2Proof.Machine.execBnz f s
  | .bexz f => Sys2Proof.Machine.execBexz f s
  | .call f => Sys2Proof.Machine.execCall f s
  | .jmp f => Sys2Proof.Machine.execJmp f s
  | .jmpLink f => Sys2Proof.Machine.execJmpLink f s
  | .ret f => Sys2Proof.Machine.execRet f s
  | .mand f => Sys2Proof.Machine.execMand f s
  | .mset f => Sys2Proof.Machine.execMset f s
  | .mget f => Sys2Proof.Machine.execMget f s
  | .mandn f => Sys2Proof.Machine.execMandn f s
  | .pmovToScalar f => Sys2Proof.Machine.execPmovToScalar f s
  | .pmovToPredicate f => Sys2Proof.Machine.execPmovToPredicate f s
  | .plog f => Sys2Proof.Machine.execPlog f s
  | .nop f => Sys2Proof.Machine.execNop f s
  | .endW f => Sys2Proof.Machine.execEndW f s
  | .yield f => Sys2Proof.Machine.execYield f s
  | .pause f => Sys2Proof.Machine.execPause f s
  | .pauseEnd wg w => Sys2Proof.Machine.execPauseEnd wg w s
  | .cyc f => Sys2Proof.Machine.execCyc f s
  | .trapI f => Sys2Proof.Machine.execTrapI f s
  | .brk f => Sys2Proof.Machine.execBrk f s
  | .rte f => Sys2Proof.Machine.execRte f s
  | .rqrd f => Sys2Proof.Machine.execRqrd f s
  | .rqwr f => Sys2Proof.Machine.execRqwr f s
  | .rqdrop f => Sys2Proof.Machine.execRqdrop f s
  | .csrr f => Sys2Proof.Machine.execCsrr f s
  | .csrw f => Sys2Proof.Machine.execCsrw f s
  | .hwait f => Sys2Proof.Machine.execHwait f s
  | .htest f => Sys2Proof.Machine.execHtest f s
  | .hcancel f => Sys2Proof.Machine.execHcancel f s
  | .hbind f => Sys2Proof.Machine.execHbind f s
  | .getid f => Sys2Proof.Machine.execGetid f s
  | .sprio f => Sys2Proof.Machine.execSprio f s
  | .vadd f => Sys2Proof.Machine.execVadd f s
  | .vsub f => Sys2Proof.Machine.execVsub f s
  | .vmul f => Sys2Proof.Machine.execVmul f s
  | .vfma f => Sys2Proof.Machine.execVfma f s
  | .vmin f => Sys2Proof.Machine.execVmin f s
  | .vmax f => Sys2Proof.Machine.execVmax f s
  | .vabs f => Sys2Proof.Machine.execVabs f s
  | .vneg f => Sys2Proof.Machine.execVneg f s
  | .vand f => Sys2Proof.Machine.execVand f s
  | .vor f => Sys2Proof.Machine.execVor f s
  | .vxor f => Sys2Proof.Machine.execVxor f s
  | .vnot f => Sys2Proof.Machine.execVnot f s
  | .vshl f => Sys2Proof.Machine.execVshl f s
  | .vshr f => Sys2Proof.Machine.execVshr f s
  | .vsra f => Sys2Proof.Machine.execVsra f s
  | .vcmp f => Sys2Proof.Machine.execVcmp f s
  | .vsel f => Sys2Proof.Machine.execVsel f s
  | .vmov f => Sys2Proof.Machine.execVmov f s
  | .vbcast f => Sys2Proof.Machine.execVbcast f s
  | .vcvt f => Sys2Proof.Machine.execVcvt f s
  | .vrcp f => Sys2Proof.Machine.execVrcp f s
  | .vrsq f => Sys2Proof.Machine.execVrsq f s
  | .vsqrt f => Sys2Proof.Machine.execVsqrt f s
  | .vexp2 f => Sys2Proof.Machine.execVexp2 f s
  | .vlog2 f => Sys2Proof.Machine.execVlog2 f s
  | .vsinpi f => Sys2Proof.Machine.execVsinpi f s
  | .vcospi f => Sys2Proof.Machine.execVcospi f s
  | .vdiv f => Sys2Proof.Machine.execVdiv f s
  | .vclz f => Sys2Proof.Machine.execVclz f s
  | .vpopc f => Sys2Proof.Machine.execVpopc f s
  | .vbfx f => Sys2Proof.Machine.execVbfx f s
  | .vbfi f => Sys2Proof.Machine.execVbfi f s
  | .vshfl f => Sys2Proof.Machine.execVshfl f s
  | .vvoteBallot f => Sys2Proof.Machine.execVvoteBallot f s
  | .vvoteAny f => Sys2Proof.Machine.execVvoteAny f s
  | .vvoteAll f => Sys2Proof.Machine.execVvoteAll f s
  | .vred f => Sys2Proof.Machine.execVred f s
  | .vdot4 f => Sys2Proof.Machine.execVdot4 f s
  | .vmulhi f => Sys2Proof.Machine.execVmulhi f s
  | .vpack f => Sys2Proof.Machine.execVpack f s
  | .vunpack f => Sys2Proof.Machine.execVunpack f s
  | .ld f => Sys2Proof.Machine.execLd f s
  | .st f => Sys2Proof.Machine.execSt f s
  | .lds f => Sys2Proof.Machine.execLds f s
  | .sts f => Sys2Proof.Machine.execSts f s
  | .ldl f => Sys2Proof.Machine.execLdl f s
  | .stl f => Sys2Proof.Machine.execStl f s
  | .ldp f => Sys2Proof.Machine.execLdp f s
  | .stp f => Sys2Proof.Machine.execStp f s
  | .atom f => Sys2Proof.Machine.execAtom f s
  | .atoms f => Sys2Proof.Machine.execAtoms f s
  | .fenceAcq f => Sys2Proof.Machine.execFenceAcq f s
  | .fenceRel f => Sys2Proof.Machine.execFenceRel f s
  | .fenceAr f => Sys2Proof.Machine.execFenceAr f s
  | .copy f => Sys2Proof.Machine.execCopy f s
  | .cbatch f => Sys2Proof.Machine.execCbatch f s
  | .cwait f => Sys2Proof.Machine.execCwait f s
  | .pref f => Sys2Proof.Machine.execPref f s
  | .cflush f => Sys2Proof.Machine.execCflush f s
  | .bar f => Sys2Proof.Machine.execBar f s
  | .sbarExpect f => Sys2Proof.Machine.execSbarExpect f s
  | .sbarArr f => Sys2Proof.Machine.execSbarArr f s
  | .sbarReset f => Sys2Proof.Machine.execSbarReset f s
  | .resq f => Sys2Proof.Machine.execResq f s
  | .resfence f => Sys2Proof.Machine.execResfence f s
  | .tshape f => Sys2Proof.Machine.execTshape f s
  | .tshapeSoff f => Sys2Proof.Machine.execTshapeSoff f s
  | .tld f => Sys2Proof.Machine.execTld f s
  | .tst f => Sys2Proof.Machine.execTst f s
  | .tzero f => Sys2Proof.Machine.execTzero f s
  | .tcvt f => Sys2Proof.Machine.execTcvt f s
  | .mma f => Sys2Proof.Machine.execMma f s
  | .oprdy f => Sys2Proof.Machine.execOprdy f s
  | .azero f => Sys2Proof.Machine.execAzero f s
  | .ald f => Sys2Proof.Machine.execAld f s
  | .ast f => Sys2Proof.Machine.execAst f s
  | .adrain f => Sys2Proof.Machine.execAdrain f s
  | .qst f => Sys2Proof.Machine.execQst f s
  | .cyld f => Sys2Proof.Machine.execCyld f s
  | .cyst f => Sys2Proof.Machine.execCyst f s
  | .cyzero f => Sys2Proof.Machine.execCyzero f s
  | .mlease f => Sys2Proof.Machine.execMlease f s
  | .gang f => Sys2Proof.Machine.execGang f s
  | .tmov f => Sys2Proof.Machine.execTmov f s
  | .ttrans f => Sys2Proof.Machine.execTtrans f s
  | .emit f => Sys2Proof.Machine.execEmit f s
  | .eclose f => Sys2Proof.Machine.execEclose f s
  | .recv f => Sys2Proof.Machine.execRecv f s
  | .rrel f => Sys2Proof.Machine.execRrel f s
  | .launch f => Sys2Proof.Machine.execLaunch f s
  | .depdec f => Sys2Proof.Machine.execDepdec f s
  | .gcut f => Sys2Proof.Machine.execGcut f s
  | .gstatCut f => Sys2Proof.Machine.execGstatCut f s
  | .gstatFrom f => Sys2Proof.Machine.execGstatFrom f s
  | .gstatCur f => Sys2Proof.Machine.execGstatCur f s
  | .gstatMoving f => Sys2Proof.Machine.execGstatMoving f s
  | .sample f => Sys2Proof.Machine.execSample f s
  | .sgrad f => Sys2Proof.Machine.execSgrad f s
  | .gath4 f => Sys2Proof.Machine.execGath4 f s
  | .raybox f => Sys2Proof.Machine.execRaybox f s
  | .raytri f => Sys2Proof.Machine.execRaytri f s
  | .rayxf f => Sys2Proof.Machine.execRayxf f s
  | .interp f => Sys2Proof.Machine.execInterp f s
  | .meshv f => Sys2Proof.Machine.execMeshv f s
  | .meshp f => Sys2Proof.Machine.execMeshp f s
  | .meshnV f => Sys2Proof.Machine.execMeshnV f s
  | .meshnP f => Sys2Proof.Machine.execMeshnP f s
  | .ordb f => Sys2Proof.Machine.execOrdb f s
  | .orde f => Sys2Proof.Machine.execOrde f s
  | .rtwr f => Sys2Proof.Machine.execRtwr f s
  | .rtrd f => Sys2Proof.Machine.execRtrd f s
  | .kill f => Sys2Proof.Machine.execKill f s
  | .rate f => Sys2Proof.Machine.execRate f s
  | .moduleReset fw => Sys2Proof.Machine.execModuleReset fw s
  | .contextCreate tag group => Sys2Proof.Machine.execContextCreate tag group s
  | .longLatencyFill wg w op => Sys2Proof.Machine.execLongLatencyFill wg w op s
  | .handleComplete core slot => Sys2Proof.Machine.execHandleComplete core slot s
  | .pollReexamine sub => Sys2Proof.Machine.execPollReexamine sub s
  | .exchangePeriodic sub => Sys2Proof.Machine.execExchangePeriodic sub s
  | .activeSetFill sub => Sys2Proof.Machine.execActiveSetFill sub s
  | .exchangeComplete sub => Sys2Proof.Machine.execExchangeComplete sub s
  | .warpIssue sub => Sys2Proof.Machine.execWarpIssue sub s
  | .workgroupStart die => Sys2Proof.Machine.execWorkgroupStart die s
  | .workgroupEnd wg => Sys2Proof.Machine.execWorkgroupEnd wg s
  | .launchAdmit ctx q => Sys2Proof.Machine.execLaunchAdmit ctx q s
  | .launchBufferAppend core => Sys2Proof.Machine.execLaunchBufferAppend core s
  | .waitRecordRetest die pos => Sys2Proof.Machine.execWaitRecordRetest die pos s
  | .notifyDoorbellWrite ctx q w => Sys2Proof.Machine.execNotifyDoorbellWrite ctx q w s
  | .notifyDoorbellRead ctx q => Sys2Proof.Machine.execNotifyDoorbellRead ctx q s
  | .consumerLaunch ctx graph edge frame => Sys2Proof.Machine.execConsumerLaunch ctx graph edge frame s
  | .rollCallTimeout core latch => Sys2Proof.Machine.execRollCallTimeout core latch s
  | .hallPassIdleRelease core => Sys2Proof.Machine.execHallPassIdleRelease core s
  | .mmaArrayIssue core op => Sys2Proof.Machine.execMmaArrayIssue core op s
  | .mmaRetire core op mismatch => Sys2Proof.Machine.execMmaRetire core op mismatch s
  | .barrierReleaseWave wg bar => Sys2Proof.Machine.execBarrierReleaseWave wg bar s
  | .sbarTimeout wg bar => Sys2Proof.Machine.execSbarTimeout wg bar s
  | .engineAccess core op unit copies => Sys2Proof.Machine.execEngineAccess core op unit copies s
  | .engineOpComplete core op => Sys2Proof.Machine.execEngineOpComplete core op s
  | .iqPerform wg w op unit copies => Sys2Proof.Machine.execIqPerform wg w op unit copies s
  | .storeDrain buf pos => Sys2Proof.Machine.execStoreDrain buf pos s
  | .copyEntryDiscard buf pos => Sys2Proof.Machine.execCopyEntryDiscard buf pos s
  | .rtDrain die pos => Sys2Proof.Machine.execRtDrain die pos s
  | .migRetry wg w => Sys2Proof.Machine.execMigRetry wg w s
  | .tlbInv f => Sys2Proof.Machine.execTlbInv f s
  | .hostIrq f => Sys2Proof.Machine.execHostIrq f s
  | .fbCtlWrite f => Sys2Proof.Machine.execFbCtlWrite f s
  | .sweepPop f => Sys2Proof.Machine.execSweepPop f s
  | .sweeperStep die => Sys2Proof.Machine.execSweeperStep die s
  | .preemptRequestTimeslice wg => Sys2Proof.Machine.execPreemptRequestTimeslice wg s
  | .preemptRequestHost wg => Sys2Proof.Machine.execPreemptRequestHost wg s
  | .preemptGraceExpiry wg => Sys2Proof.Machine.execPreemptGraceExpiry wg s
  | .eviction wg => Sys2Proof.Machine.execEviction wg s
  | .restore wg damaged => Sys2Proof.Machine.execRestore wg damaged s
  | .contextRemoval ctx => Sys2Proof.Machine.execContextRemoval ctx s
  | .hostRemoveContext ctx grace => Sys2Proof.Machine.execHostRemoveContext ctx grace s
  | .encoderSend ctx graph edge => Sys2Proof.Machine.execEncoderSend ctx graph edge s
  | .encoderFlushTimeout ctx graph edge => Sys2Proof.Machine.execEncoderFlushTimeout ctx graph edge s
  | .causewayDatagramReceive d => Sys2Proof.Machine.execCausewayDatagramReceive d s
  | .windowTimeout ctx graph edge => Sys2Proof.Machine.execWindowTimeout ctx graph edge s
  | .overflowToRing ctx graph edge => Sys2Proof.Machine.execOverflowToRing ctx graph edge s
  | .reliableDatagramReceive d => Sys2Proof.Machine.execReliableDatagramReceive d s
  | .ackDelayTimeout ctx peer => Sys2Proof.Machine.execAckDelayTimeout ctx peer s
  | .retransmitTimeout ctx peer => Sys2Proof.Machine.execRetransmitTimeout ctx peer s
  | .receiverUnreachableTimeout ctx peer => Sys2Proof.Machine.execReceiverUnreachableTimeout ctx peer s
  | .satchelSnapshot ctx graph stage => Sys2Proof.Machine.execSatchelSnapshot ctx graph stage s
  | .satchelDeadlineExpiry ctx graph stage => Sys2Proof.Machine.execSatchelDeadlineExpiry ctx graph stage s
  | .bar2MemoryAccess off len write => Sys2Proof.Machine.execBar2MemoryAccess off len write s
  | .mwinKeyWrite v => Sys2Proof.Machine.execMwinKeyWrite v s
  | .hostEvt => Sys2Proof.Machine.execHostEvt s
  | .hostAtomicCompletion wg w op unit st => Sys2Proof.Machine.execHostAtomicCompletion wg w op unit st s
  | .hostReadCompletion wg w op unit st => Sys2Proof.Machine.execHostReadCompletion wg w op unit st s
  | .hostCsrWrite off v => Sys2Proof.Machine.execHostCsrWrite off v s
  | .controlInterval m => Sys2Proof.Machine.execControlInterval m s
  | .railRampReached cluster => Sys2Proof.Machine.execRailRampReached cluster s
  | .currentSample cluster code => Sys2Proof.Machine.execCurrentSample cluster code s
  | .wearUpdate cluster months => Sys2Proof.Machine.execWearUpdate cluster months s
  | .attestGo v => Sys2Proof.Machine.execAttestGo v s
  | .attestReportDone => Sys2Proof.Machine.execAttestReportDone s
  | .hostLinkError ctx => Sys2Proof.Machine.execHostLinkError ctx s
  | .rejectsWrite ctx q v => Sys2Proof.Machine.execRejectsWrite ctx q v s
  | .deviceControl2Write v => Sys2Proof.Machine.execDeviceControl2Write v s
  | .msixVectorUnmask vec => Sys2Proof.Machine.execMsixVectorUnmask vec s

end Sys2Proof.Machine
end

