-- ==== Sys2Proof/Machine/Soft.lean ====
section
/-! DEFINITION. How soft errors appear in storage words outside memory (R144, R145, log 35): in the words of a warp's registers, of a
workgroup's storage, and of records in rings. A word with an uncorrectable error reads as 0 from then on, until it is written. What
an instruction finds of them in the registers that it reads. -/

namespace Sys2Proof.Machine

/-- A register word of a warp: its errors, and the 0 it holds. `s63` is no storage. -/
def Warp.spoil (x : Warp) (bad : Bool) (r : RegWord) : Warp :=
  if r = .s 63 ∨ x.ue.contains r then x
  else if !bad then { x with ce := if x.ce.contains r then x.ce else x.ce ++ [r] }
  else
    let y := { x with ue := x.ue ++ [r], ce := x.ce.filter (· ≠ r) }
    match r with
    | .s n => { y with sregs := SMap.put n 0 x.sregs }
    | .p n => { y with pregs := SMap.put n 0 x.pregs }
    | .v n l => y.setV n (mkLanes fun i => if i = l then 0 else lane (x.getV n) i)

/-- A word of a workgroup's storage holds 0. -/
def Wg.zeroWord (x : Wg) (k : Nat) : Wg :=
  if k < 2 ^ 22 then (List.range 4).foldl (fun x i => x.setOperand (4 * k + i) 0) x
  else if k < 2 ^ 27 then { x with accs := SMap.put (k - 2 ^ 26) 0 x.accs }
  else { x with cys := SMap.put (k - 2 ^ 27) 0 x.cys }

/-- A word of a workgroup's storage: of tiles or local memory, of an accumulator, of a residue register. -/
def Wg.spoil (x : Wg) (bad : Bool) (k : Nat) : Wg :=
  if (2 ^ 22 ≤ k ∧ k < 2 ^ 26) ∨ x.ue.contains k then x
  else if !bad then { x with ce := if x.ce.contains k then x.ce else x.ce ++ [k] }
  else { x with ue := x.ue ++ [k], ce := x.ce.filter (· ≠ k) }.zeroWord k

/-- A word of a record in a ring. -/
def Rec.spoil (r : Rec) (bad : Bool) (i : Nat) : Rec :=
  if r.data.length ≤ 4 * i ∨ r.ue.contains i then r
  else if !bad then { r with ce := if r.ce.contains i then r.ce else r.ce ++ [i] }
  else
    { r with ue := r.ue ++ [i], ce := r.ce.filter (· ≠ i)
             data := (List.range r.data.length).map fun j => if j / 4 = i then 0 else r.data.getD j 0 }

/-- A record in a slot of an edge's ring, also as the launch or the workgroup that is to read it has it. -/
def State.spoilRec (s : State) (t n e slot : Nat) (bad : Bool) (i : Nat) : State :=
  let f := fun (r : Rec) => if r.slot = slot then r.spoil bad i else r
  let s1 := s.modEdge t n e fun x => { x with ring := x.ring.map fun p => (f p.1, p.2) }
  let grid := fun (x : Grid) => if x.ctx = t ∧ x.graph = some n ∧ x.edge = some e then { x with recs := x.recs.map f } else x
  let wg := fun (x : Wg) => if x.ctx = t ∧ x.graph = some n ∧ x.ringHeld.contains (e, slot) then { x with batchRecs := x.batchRecs.map f } else x
  { s1 with dies := s1.dies.map fun d => (d.1, { d.2 with grids := d.2.grids.map grid }), wgs := s1.wgs.map fun p => (p.1, wg p.2) }

/-- A soft error appears in a storage word. -/
def State.spoil (s : State) (bad : Bool) : SoftWord → State
  | .reg g w r => s.modWarp g w fun x => x.spoil bad r
  | .own g k => s.modWg g fun x => x.spoil bad k
  | .ring t n e slot i => s.spoilRec t n e slot bad i

/-! The register words that an instruction reads (R145). -/

/-- The predicates that an instruction reads as operands. -/
def Row.predReads (r : Row) (f : Fields) : List Nat :=
  ([(r.sa, f.sa), (r.sb, f.sb), (r.sc, f.sc), (r.sd, f.sd)].filter fun p => p.1 = .p).map fun p => p.2.toNat

/-- The words of the register files that an instruction reads at issue: its sources, in vector registers those of the lanes that take
part, its predicates and its guard. A re-issued entry has its captured operands (R191). -/
def readWords (i : Instr) (r : Row) (f : Fields) (c : Cx) : List RegWord :=
  let regs := (fileReads i r f c.re).flatMap fun q =>
    match q with
    | .s n => [RegWord.s n]
    | .v n => (lanesOf c.act).map (RegWord.v n)
  regs ++ if c.re then [] else ((if r.guard = .L ∧ f.pen then [f.pred.toNat] else []) ++ r.predReads f).map RegWord.p

/-- A warp reads register words: correctable errors are corrected and counted in CE (R144), and each word with an uncorrectable one counts
once in UE for the instruction that is due (R145), however often its issue is tried. -/
def State.meetRegs (s : State) (g w : Nat) (l : List RegWord) : State :=
  let x := (s.warp g w).due
  let found := x.ue.filter fun q => l.contains q && !x.met.contains q
  let s1 := s.modWarp g w fun x => { x.due with ce := x.ce.filter fun q => !l.contains q, met := x.due.met ++ found }
  ((if x.ce.any l.contains then s1.countCtx (s.wg g).ctx 0x10B 15 0 (x.ce.filter l.contains).length else s1).countUe
    (s.wg g).ctx found.length)

/-- A load or an atomic of a warp (R145). -/
def isLoad (i : Instr) : Bool :=
  match i with
  | .ld _ => true
  | .ldp _ => true
  | .lds _ => true
  | .ldl _ => true
  | .atom _ => true
  | .atoms _ => true
  | .saddr _ => true
  | .rtrd _ => true
  | _ => false

/-- What the errors in its source registers do to an instruction that reads them (R145): under STRICT = 1 a load or an atomic raises 0x1B,
not performed; otherwise the words are 0. DESIGN CHOICE (log 85): so are they under STRICT = 1 for any other instruction, of which
R145 says nothing, and the load's 0x1B comes before the instruction's checks on values. -/
def State.sources (s : State) (g w : Nat) (i : Instr) : Front :=
  let x := s.warp g w
  if x.ue.isEmpty && x.ce.isEmpty then .ins i s
  else
    match s.rowOf g i, fields i with
    | some r, some f =>
      let c := s.context g w r f
      let src := readsOf i r f c.re
      if (formCause r f).isSome || r.oddPair f || r.outside (s.wg g).shape f || decide (16 ≤ x.ops.length)
          || !(operandWaits x x.reissue.head? (r.heads f) src (r.dests f)).isEmpty || febTrap x src then .ins i s
      else
        let l := readWords i r f c
        let s1 := s.meetRegs g w l
        if isLoad i && (s.cctx (s.wg g).ctx 0x10A).getLsbD 0 && x.ue.any l.contains then
          .state (s1.trapCx c (some c.ins) 0x1B c.act 0 0)
        else .ins i s1
    | _, _ => .ins i s

end Sys2Proof.Machine
end

