-- ==== Sys2Proof/Machine/Time.lean ====
section
/-! DEFINITION. The passing of time between steps (R1, R5, R24, R251) and what the world does meanwhile (log 2). -/

namespace Sys2Proof.Machine

/-- The cycles that a warp may stay ready before nothing but its issue takes place (R25: it issues within 16 * 2^20; log 2). -/
def issueBound : Nat := 15 * 2 ^ 20

/-- n cycles pass on core c, fewer where a ready warp reaches `issueBound` before: its counter advances, and each warp that is ready ages
(R24). -/
def State.coreTime (s : State) (c m : Nat) : State :=
  let aging := s.allWarps.filter fun p => decide (s.coreOf p.1 = c) && s.ready p.1 p.2
  let n := aging.foldl (fun n p => min n (max 1 (issueBound - (s.warp p.1 p.2).aged))) m
  let s1 := s.modCore c fun x => { x with cycle := x.cycle + n }
  aging.foldl (fun s p => s.modWarp p.1 p.2 fun x => { x with aged := x.aged + n }) s1

/-- n counts pass on die d: its counter advances, and each launch with a workgroup that waits for placement ages. -/
def State.dieTime (s : State) (d n : Nat) : State :=
  s.modDie d fun x =>
    { x with counter := x.counter + n
             grids := x.grids.map fun g => if g.next < g.lrec.count then { g with aged := g.aged + n } else g }

/-- The consumer of a PEER edge frees n slots of its ring on the peer (R55). -/
def State.addCredits (s : State) (t n e k : Nat) : State :=
  s.modEdge t n e fun x => { x with credits := min x.slots (x.credits + k) }

/-- What the host and other agents write to host memory in a tick; the values that they replace are kept for the tick (R177). -/
def State.hostWrites (s : State) (l : List Host.Cell) : State :=
  { s with hostPrev := l.map fun c => (c.1, SMap.find c.1 s.ymem), ymem := l.foldl (fun m c => SMap.put c.1 c.2 m) s.ymem }

/-- Soft errors appear in lines of device memory: a line with an uncorrectable one reads as 0 until it is written (R145). -/
def State.softLines (s : State) (ue ce : List Nat) : State :=
  { s with ue := s.ue ++ ue.filter fun l => !s.ue.contains l, ce := s.ce ++ ce.filter fun l => !s.ce.contains l }

/-- A tick of the agenda before its step: cloakroom entries whose conditions the last step has met are freed (R32); time passes; answers that are used up are dropped, and streams send what waits to be sent; then the
world acts. -/
def State.tick (s : State) (k : Tick) : State :=
  let s1 := k.cores.foldl (fun s p => s.coreTime p.1 p.2) s.freeEntries
  let s2 := (k.dies.foldl (fun s p => s.dieTime p.1 p.2) s1).dropReads.flushStreams
  let s3 := k.credits.foldl (fun s c => s.addCredits c.1 c.2.1 c.2.2.1 c.2.2.2) s2
  let s4 := { s3 with hostFail := k.fails.getD s3.hostFail, hostDown := k.downs.getD s3.hostDown }.hostWrites k.host
  k.acts.foldl State.hostActs (k.soft.foldl (fun s x => s.spoil x.1 x.2) (s4.softLines k.ue k.ce))

/-- A warp has been ready for `issueBound` cycles. -/
def State.lateWarp (s : State) : Option (Nat × Nat) :=
  s.allWarps.find? fun p => decide (issueBound ≤ (s.warp p.1 p.2).aged) && s.ready p.1 p.2

/-- R25: what brings its issue on: one cycle, in which its sub-core issues, or exchanges it into the active set (R20, R21). -/
def State.lateTick (s : State) (p : Nat × Nat) : Tick :=
  let j := s.subOf p.1 p.2
  let now := s.subNow j + 1
  { cores := [(j / 4, 1)]
    ev := match (s.sub j).xchg with
      | some x => if x.ends ≤ now then .exchangeComplete j else .warpIssue j
      | none =>
        if (s.warp p.1 p.2).active then .warpIssue j
        else if s.activeCount j < 8 then .activeSetFill j
        else if now % 64 = 0 then .exchangePeriodic j
        else .warpIssue j }

/-- What happens when the agenda is empty: one cycle passes on the core whose turn it is, and one of its sub-cores
issues; sub-cores take turns (log 1). -/
def State.defaultTick (s : State) : Tick :=
  { cores := [(s.turn / 4, 1)], ev := .warpIssue s.turn }

end Sys2Proof.Machine
end

