-- ==== Sys2Proof/Machine/Place.lean ====
section
/-! DEFINITION. A program placed for the machine to fetch: what MODULE_RESET, CONTEXT_CREATE, the host's writes, a
launch record, WORKGROUP_START and WARP_ISSUE leave behind, with one instruction as the code (log 3). -/

namespace Sys2Proof.Machine

/-- A context with tag 0, keys 1 to 16, a heap window of 64 KiB over physical address 0 under selector 0, with
`tvec` enabled at address 0x8000. -/
def placedContext : Context :=
  { tag := 0, group := 0, keys := (List.range 15).map (· + 1)
    csr := [(0x100, 0x8001), (0x102, 0x10000)] }

/-- A workgroup of one warp with the whole of a core's registers, tiles, accumulators and barriers for one warp. -/
def placedWg (code : Memory) (keys : SMap Nat) : Wg :=
  { ctx := 0, queue := 0, basePrio := 15, count := 1, core := 0, slots := [0]
    shape := { warps := 1, vregs := 256, localK := 64, tiles := 16, accs := 8, sbars := 8 }
    warps := [{ prio := 15 }], sbars := List.replicate 8 {}, fs := List.replicate 8 0, code := code, codeKey := keys }

/-- The state with an instruction's bytes at the address where the warp fetches next. -/
def State.place1 (s : State) (bs : List W8) : State :=
  let s1 := s.putBytes true 1 0 bs
  { s1 with
    ctxs := SMap.put 0 placedContext s1.ctxs
    groups := SMap.put 0 16 s1.groups
    wgs := SMap.put 0 { placedWg s1.vmem s1.vkey with codeAt := s1.vcount } s1.wgs
    nextId := max s1.nextId 1, nextKey := max s1.nextKey 17, agenda := [], cur := some (0, 0) }

end Sys2Proof.Machine
end

