-- ==== Sys2Proof/Machine/Step.lean ====
section
/-! DEFINITION. One step: the instruction of the warp that issues, or the next step on the agenda. -/

namespace Sys2Proof.Machine

/-- A step of the machine. While a warp issues (`cur`), the front end gives its instruction, which executes with the errors in its
source registers met. Otherwise
the next tick of the agenda passes and its step takes place; with an empty agenda, sub-cores issue in turn. A warp that has been ready for
long goes before both (R25). -/
def step (s : State) : Host.Outcome State Fault Refusal :=
  match s.cur with
  | some p =>
    match s.front p.1 p.2 with
    | .state t => .next t
    | .ins i t =>
      match t.sources p.1 p.2 i with
      | .state u => .next u
      | .ins j u => exec j u
  | none =>
    match s.lateWarp, s.agenda with
    | some p, _ => exec (s.lateTick p).ev (s.tick (s.lateTick p))
    | none, k :: rest => exec k.ev ({ s with agenda := rest }.tick k)
    | none, [] => exec s.defaultTick.ev ({ s with turn := (s.turn + 1) % 1536 }.tick s.defaultTick)

/-- A state with an instruction stored where the next step fetches. -/
def State.withFetchWord (s : State) (nbits w : Nat) : State := s.place1 (tableBytes nbits w)

end Sys2Proof.Machine
end

