-- ==== Sys2Proof/Safety.lean ====
section
/-! DEFINITION. What a safe step is, when an instruction form issues unhindered, what it leaves as it was, and the
invariant of the machine's memories, in the terms claims use. -/

namespace Sys2Proof.Machine

/-- A step that goes on: neither a fault nor a refusal. -/
def Goes (s : State) : Prop := ∃ t, step s = .next t

/-! Issue. -/

/-- Warp w of workgroup g exists. -/
def State.hasWarp (s : State) (g w : Nat) : Bool := s.hasWg g && decide (w < (s.wg g).warps.length)

/-- The operands with which instruction form i issues now, when fewer than 16 instructions are unfinished (R184), the checks of R215
steps 2 to 4, 6 and 8 and the waits for registers (R28, R29) let it and no replay entry holds a destination (R186; `ReplayQueueInstructions` says what a handler that writes such a register does): the warp whose turn it is, its fields, and what R189 captures. None where one of these
stands in the way. -/
def State.issuing (s : State) (i : Instr) : Option Cx :=
  match s.cur with
  | none => none
  | some (g, w) =>
    match s.rowOf g i, fields i with
    | some r, some f =>
      let x := s.warp g w
      let c := s.context g w r f
      if s.hasWarp g w && decide (x.ops.length < 16) && (formCause r f).isNone && !r.oddPair f && !r.outside (s.wg g).shape f
          && !febTrap x (readsOf i r f c.re) && (operandWaits x x.reissue.head? (r.heads f) (readsOf i r f c.re) (r.dests f)).isEmpty
          && !(r.dests f).any x.replayHeld then
        some c
      else none
    | _, _ => none

/-- The warp that issues with operands c. -/
def State.warpOf (s : State) (c : Cx) : Warp := s.warp c.g c.w

/-! Frames. -/

/-- Warp y is warp x but for the scalar registers `ss`, the vector registers `vs` and the predicates `ps`, the address of
the next instruction, what the scheduler notes of an issue (R20, R24), and the soft errors that a write clears (R145): every other
register and every full/empty bit, exec, the return stack, the trap frame, the replay queue, the unfinished instructions and every mode bit are x's. -/
def Warp.Kept (x y : Warp) (ss vs ps : List Nat) : Prop :=
  (∀ n, n ∉ ss → y.getS n = x.getS n) ∧ (∀ n, n ∉ vs → y.getV n = x.getV n) ∧ (∀ n, n ∉ ps → y.getP n = x.getP n)
    ∧ { y with sregs := x.sregs, vregs := x.vregs, pregs := x.pregs, pc := x.pc, reissue := x.reissue, lastAt := x.lastAt
               aged := x.aged, stepped := x.stepped, noBp := x.noBp, parked := x.parked, waits := x.waits, ue := x.ue, ce := x.ce } = x

/-- Outside warp c.w of workgroup c.g, state t is state s, and no warp is issuing: every other warp and workgroup, every
byte of memory as any core reads it, every buffer, CSR, engine, handle, queue, ring, stream and counter. -/
structure SameBeside (s t : State) (c : Cx) : Prop where
  module : { t with wgs := s.wgs, cur := s.cur } = s
  idle   : t.cur = none
  bytes  : ∀ k lvl dev a key, t.readByte k lvl dev a key = s.readByte k lvl dev a key
  others : ∀ g, g ≠ c.g → SMap.find g t.wgs = SMap.find g s.wgs
  wg     : { t.wg c.g with warps := (s.wg c.g).warps } = s.wg c.g
  count  : (t.wg c.g).warps.length = (s.wg c.g).warps.length
  warps  : ∀ w, w ≠ c.w → t.warp c.g w = s.warp c.g w

/-- State t is state s after the issue of an instruction with operands c, of which x is the warp as its own effect leaves
it but for the registers `ss`, `vs` and `ps`, and which goes on at pc: nothing else has changed. -/
structure Retires (s t : State) (c : Cx) (x : Warp) (pc : W64) (ss vs ps : List Nat) : Prop where
  beside : SameBeside s t c
  warp   : Warp.Kept x (t.warpOf c) ss vs ps
  pc     : (t.warpOf c).pc = pc
  queue  : (t.warpOf c).reissue = if c.re then x.reissue.drop 1 else x.reissue
  age    : (t.warpOf c).lastAt = s.now c.g ∧ (t.warpOf c).aged = 0

/-- The address at which a warp goes on after an instruction that does not branch (R203, R191). -/
def State.after (s : State) (c : Cx) : W64 := s.pcAfter c

/-- Instruction i, with operands c, changes the registers `ss`, `vs`, `ps` of its warp and nothing else; P tells what they
hold. -/
def Writes (i : Instr) (s : State) (c : Cx) (ss vs ps : List Nat) (P : Warp → Prop) : Prop :=
  ∃ t, exec i s = .next t ∧ Retires s t c (s.warpOf c) (s.after c) ss vs ps ∧ P (t.warpOf c)

/-- Instruction i writes v to its scalar destination and nothing else; a write of `s63` is discarded (R26). -/
def WritesS (i : Instr) (s : State) (c : Cx) (v : W64) : Prop :=
  Writes i s c [c.f.dst.toNat] [] [] fun y => y.getS c.f.dst.toNat = if c.f.dst = 63 then 0 else v

/-- Instruction i writes its vector destination in the active lanes alone, lane l with v l, and nothing else (R10). -/
def WritesV (i : Instr) (s : State) (c : Cx) (v : Nat → W32) : Prop :=
  Writes i s c [] [c.f.dst.toNat] [] fun y => ∀ l, l < 32 →
    lane (y.getV c.f.dst.toNat) l = if c.act.getLsbD l then v l else lane ((s.warpOf c).getV c.f.dst.toNat) l

/-- The same for a destination of the instruction's type: one register, or for a 64-bit type an even/odd pair with the
low words in the even one (R267). -/
def WritesLanes (i : Instr) (s : State) (c : Cx) (v : Nat → Nat) : Prop :=
  if c.f.ty.isPair then
    Writes i s c [] [c.f.dst.toNat, c.f.dst.toNat + 1] [] fun y => ∀ l, l < 32 →
      (if c.act.getLsbD l then
        (lane (y.getV c.f.dst.toNat) l).toNat + 2 ^ 32 * (lane (y.getV (c.f.dst.toNat + 1)) l).toNat = v l
      else lane (y.getV c.f.dst.toNat) l = lane ((s.warpOf c).getV c.f.dst.toNat) l
        ∧ lane (y.getV (c.f.dst.toNat + 1)) l = lane ((s.warpOf c).getV (c.f.dst.toNat + 1)) l)
  else WritesV i s c fun l => BitVec.ofNat 32 (v l)

/-- Instruction i has no effect but on its warp, which goes on after it as warp x. -/
def Sets (i : Instr) (s : State) (c : Cx) (x : Warp) : Prop :=
  ∃ t, exec i s = .next t ∧ Retires s t c x (s.after c) [] [] []

/-- Instruction i goes on at an address, its warp being x otherwise. -/
def Jumps (i : Instr) (s : State) (c : Cx) (x : Warp) (pc : W64) : Prop :=
  ∃ t, exec i s = .next t ∧ Retires s t c x pc [] [] []

/-- Instruction i raises a cause for the lanes of a mask, with TADDR and TAUX, and is captured (R185): the trap of that
frame is taken. -/
def Traps (i : Instr) (s : State) (c : Cx) (cause : Cause) (mask : W32) (addr aux : W64) : Prop :=
  exec i s = .next (s.trapCx c (some c.ins) cause mask addr aux)

/-! The memories. -/

/-- A workgroup's own storage is in its canonical form: the addresses of its local memory (R115), and the numbers of its tiles' bytes, its shape
registers (R300) and the words of its accumulators and residue registers (R301, R110), strictly rising. -/
def Wg.memWf (x : Wg) : Prop :=
  SMap.wf x.local_ = true ∧ SMap.wf x.tiles = true ∧ SMap.wf x.tshapes = true ∧ SMap.wf x.accs = true ∧ SMap.wf x.cys = true

/-- Every memory of the machine is in its canonical form: addresses strictly rising, in V and its keys, in Y, and in every workgroup's own
storage. -/
def State.memoriesWf (s : State) : Prop :=
  Memory.wf s.vmem = true ∧ SMap.wf s.vkey = true ∧ Memory.wf s.ymem = true ∧ ∀ p ∈ s.wgs, p.2.memWf

end Sys2Proof.Machine
end

