-- ==== Sys2Proof/WellFormed.lean ====
section
/-! DEFINITION. Well-formed instructions: an instruction form the decoder can give, or any event. -/

namespace Sys2Proof

/-- A step of the part that can be: an event always; an instruction form when it has an encoding (R215 steps 1
to 4 raise nothing on it). -/
def Instr.wellFormed (i : Instr) : Bool := (Machine.row i).isNone || encodable i

end Sys2Proof
end

