-- ==== Sys2Proof/Certificates/Slice0/Obligations.lean ====
section
/-! DEFINITION. The statements put to the provers. Results are stated over the operands an instruction issues with
(`State.issuing`); `OperandsAreCaptured` says what these are. -/

namespace Sys2Proof.Claim

open Sys2Proof.Machine

/-! Values, written from the manual's words and not from the model's operations. -/

/-- Fields that are all 0, of a length. -/
def blank (len : Len) : Fields :=
  { len := len, pen := false, pneg := false, pred := 0, dst := 0, sa := 0, sb := 0, sc := 0, feb := 0, ru := 0, fs := 0
    sub := 0, ty := .f32, imm := 0, sd := 0, dst2 := 0, ext := 0 }

/-- A scalar operation at its type's width (R235): on the low W bits of both operands, the result sign-extended for i32
and zero-extended for n32 and b32. The operation is told whether the type is signed. -/
def atWidth (ty : Ty) (op : (w : Nat) → Bool → BitVec w → BitVec w → BitVec w) (a b : W64) : W64 :=
  match ty with
  | .i32 => (op 32 true (a.setWidth 32) (b.setWidth 32)).signExtend 64
  | .i64 => op 64 true a b
  | .n64 => op 64 false a b
  | _ => (op 32 false (a.setWidth 32) (b.setWidth 32)).setWidth 64

/-- The high half of the exact product (R236). -/
def mulHigh (w : Nat) (signed : Bool) (a b : BitVec w) : BitVec w :=
  if signed then (a.signExtend (2 * w) * b.signExtend (2 * w)).extractLsb' w w
  else (a.setWidth (2 * w) * b.setWidth (2 * w)).extractLsb' w w

/-- Division towards zero; all ones by 0 (R236). -/
def quotient (w : Nat) (signed : Bool) (a b : BitVec w) : BitVec w :=
  if b = 0 then BitVec.allOnes w else if signed then a.sdiv b else a.udiv b

/-- The remainder has the sign of the dividend; the dividend by 0 (R236). -/
def remainder (w : Nat) (signed : Bool) (a b : BitVec w) : BitVec w :=
  if b = 0 then a else if signed then a.srem b else a.umod b

/-- The lesser of two values. -/
def lesser (w : Nat) (signed : Bool) (a b : BitVec w) : BitVec w :=
  if (if signed then a.slt b else a.ult b) then a else b
/-- The greater of two values. -/
def greater (w : Nat) (signed : Bool) (a b : BitVec w) : BitVec w :=
  if (if signed then a.slt b else a.ult b) then b else a

/-- A condition of R210 between two values of a width. -/
def holds (w : Nat) (signed : Bool) (sub : Nat) (a b : BitVec w) : Bool :=
  let lt := if signed then a.slt b else a.ult b
  match sub with
  | 0 => decide (a = b)
  | 1 => decide (a ≠ b)
  | 2 => lt
  | 3 => lt || decide (a = b)
  | 4 => !lt && decide (a ≠ b)
  | _ => !lt

/-- The number of leading zero bits (R238). -/
def leadingZeros (w : Nat) (a : BitVec w) : Nat := ((List.range w).takeWhile fun i => !a.getLsbD (w - 1 - i)).length

/-- The number of 1 bits (R238). -/
def ones (w : Nat) (a : BitVec w) : Nat := ((List.range w).map fun i => if a.getLsbD i then 1 else 0).foldl (· + ·) 0

/-- The length of a bit field that fits (R239): len bits from pos, none when pos is at or above the width. -/
def fieldLen (w : Nat) (b : BitVec w) : Nat :=
  let pos := (b.extractLsb' 0 8).toNat
  if w ≤ pos then 0 else min (b.extractLsb' 8 8).toNat (w - pos)

/-- A bit field, sign- or zero-extended (R239). -/
def extractField (w : Nat) (signed : Bool) (a b : BitVec w) : BitVec w :=
  let x := a.extractLsb' (b.extractLsb' 0 8).toNat (fieldLen w b)
  if signed then x.signExtend w else x.setWidth w

/-- The low bits of a in place of a bit field of c (R239). -/
def insertField (w : Nat) (c : BitVec w) (a b : BitVec w) : BitVec w :=
  let pos := (b.extractLsb' 0 8).toNat
  let mask : BitVec w := (BitVec.ofNat w (2 ^ fieldLen w b - 1)) <<< pos
  (c &&& ~~~mask) ||| ((a <<< pos) &&& mask)

/-- The forms of a scalar instruction of R236: scalar DST and SA, SC 0, the 64-bit form with a scalar SB and the 96-bit form, SUB 0, one
of the types; any other TYPE raises 0x06 (R235). -/
def ScalarForms (i : Fields → Instr) (types : List Ty) : Prop :=
  (∀ f, (i f).formCause = none → f.ty ∈ types ∧ f.dst.toNat < 64 ∧ f.sa.toNat < 64 ∧ f.sc = 0 ∧ f.sub = 0
    ∧ (f.len = .f96 ∨ (f.len = .f64 ∧ f.sb.toNat < 64)))
  ∧ ∀ f ty, (i f).formCause = none → (i { f with ty := ty }).formCause = if ty ∈ types then none else some 0x06

end Sys2Proof.Claim

open Sys2Proof Sys2Proof.Machine Sys2Proof.Claim

/-! Encoding, decoding and the step. -/

/-- Words that the manual writes out, with the instructions they stand for, and words that it rejects with a cause. -/
def Obligations.SpecWordsDecodeAsWritten : Prop :=
  decodeTableWord 64 0x4400000402070039 = some (.scmp { blank .f64 with dst := 7, sa := 2, sb := 4, sub := 2, ty := .i32 })
  ∧ decodeTableWord 64 0xA800000602080201 = some (.ld { blank .f64 with dst := 8, sa := 2, sb := 6, sub := 4, ty := .b32 })
  ∧ decodeTableWord 64 0x000000000A0900D9 = some (.htest { blank .f64 with dst := 9, sa := 10 })
  ∧ decodeTableWord 64 0x000000000A0000DD = some (.hcancel { blank .f64 with sa := 10 })
  ∧ decodeTableWord 64 0x0000000B0A0C00E1 = some (.hbind { blank .f64 with dst := 12, sa := 10, sb := 11 })
  ∧ decodeTableWord 64 0xB000000001010005 = some (.ssub { blank .f64 with dst := 1, sa := 1, ty := .i64 })
  ∧ decodeTableWord 96 0x00000040A300000004080202
      = some (.ld { blank .f96 with dst := 8, sa := 4, fs := 4, sub := 1, ty := .b32, imm := 64 })
  ∧ decode (tableBytes 64 0x000000000000005D) = .bad 0x05
  ∧ decode (tableBytes 64 0xB000000041010005) = .bad 0x04
  ∧ decode (tableBytes 64 0xB000000001010405) = .bad 0x06
  ∧ decode (tableBytes 64 0xAC00000402070039) = .bad 0x06
  ∧ decode (tableBytes 64 0x4400050402070039) = .bad 0x04
  ∧ decode (tableBytes 64 0x0000000302043101) = .bad 0x06
  ∧ decode (tableBytes 64 0xAC00050402070039) = .bad 0x04

/-- Every well-formed instruction form has bytes, as many as its length, and the decoder reads it back from them, whatever
follows in the fetch block. -/
def Obligations.DecodeOfEncodeIsTheInstruction : Prop :=
  ∀ i : Instr, i.wellFormed = true → (row i).isSome →
    ∃ f bs, fields i = some f ∧ encode i = some bs ∧ bs.length = f.len.bytes ∧ ∀ rest, decode (bs ++ rest) = .ins i

/-- What the decoder reads as an instruction is a well-formed form, never an event, and its bytes are those read: each
word has one meaning. -/
def Obligations.EncodeOfDecodeIsTheBytes : Prop :=
  ∀ bs i, decode bs = .ins i →
    i.wellFormed = true ∧ ∃ f, fields i = some f ∧ encode i = some (bs.take f.len.bytes)

/-- While a warp issues, with no asynchronous cause pending, no single step due, no breakpoint at the address and no soft error in its
registers: a step is the execution of the instruction that the bytes at its address decode to, in the state that the fetch leaves,
which is that of its translation, with the errors of the line counted and the free choices drawn; past a fill word, of the one at the
start of the next block (R204); for a warp that re-issues a replay entry, of the entry's instruction (R191). With soft errors in its
registers, the step executes the same instruction after what it reads of them has been counted, or raises 0x1B (R145). With no warp
issuing, a step is the first step of the agenda after its tick, or with an empty agenda an issue of the sub-core whose turn it is; but a warp
that has been ready for as long as R25 lets it wait goes before both, with a tick that brings its issue on (log 2). -/
def Obligations.StepRunsTheDecodedInstruction : Prop :=
  (∀ (s : State) g w b tgt e i, s.cur = some (g, w) → (s.warp g w).async = [] → (s.warp g w).stepped = false →
    (s.warp g w).reissue = [] → s.fetchBlock g w 0 (s.warp g w).pc = .bytes b tgt e →
    decode (b.drop ((s.warp g w).pc.toNat % 32)) = .ins i →
    ((s.warp g w).noBp = true ∨ (s.warp g w).ih = true
      ∨ s.breakpoint (s.coreOf g) (s.wg g).ctx false (s.warp g w).pc.toNat = none) →
    (∃ n, s.fetched g w = { s.blockUsed g w tgt e with free := n })
    ∧ (((s.fetched g w).warp g w).ue = [] → ((s.fetched g w).warp g w).ce = [] →
      step s = exec i ((s.fetched g w).modWarp g w fun x => if x.reissue.isEmpty then { x with pc := (s.warp g w).pc } else x)))
  ∧ (∀ (s : State) g w b b' tgt tgt' e e' i, s.cur = some (g, w) → (s.warp g w).async = [] → (s.warp g w).stepped = false →
    (s.warp g w).reissue = [] → s.fetchBlock g w 0 (s.warp g w).pc = .bytes b tgt e →
    decode (b.drop ((s.warp g w).pc.toNat % 32)) = .fill →
    let pc' := BitVec.ofNat 64 (((s.warp g w).pc.toNat / 32 + 1) * 32)
    s.fetchBlock g w 1 pc' = .bytes b' tgt' e' → decode b' = .ins i →
    ((s.warp g w).noBp = true ∨ (s.warp g w).ih = true
      ∨ s.breakpoint (s.coreOf g) (s.wg g).ctx false pc'.toNat = none) →
    (∃ n, s.fetched g w = { (s.blockUsed g w tgt e).blockUsed g w tgt' e' with free := n })
    ∧ (((s.fetched g w).warp g w).ue = [] → ((s.fetched g w).warp g w).ce = [] →
      step s = exec i ((s.fetched g w).modWarp g w fun x => if x.reissue.isEmpty then { x with pc := pc' } else x)))
  ∧ (∀ (s : State) g w e rest i, s.cur = some (g, w) → (s.warp g w).async = [] → (s.warp g w).stepped = false →
    (s.warp g w).reissue = e :: rest → decode ((leBytes 16 e.insn.toNat).take e.tail) = .ins i →
    (s.warp g w).ue = [] → (s.warp g w).ce = [] → 
    step s = exec i (s.modWarp g w fun x => if x.reissue.isEmpty then { x with pc := e.pc } else x))
  ∧ (∀ (s t : State) g w i, s.cur = some (g, w) → s.front g w = .ins i t →
    step s = (match t.sources g w i with | .state u => .next u | .ins j u => exec j u)
    ∧ ∀ j u, t.sources g w i = .ins j u → j = i ∧ (u = t ∨ ∃ l, u = t.meetRegs g w l))
  ∧ (∀ (s : State) k rest, s.cur = none → s.lateWarp = none → s.agenda = k :: rest → step s = exec k.ev ({ s with agenda := rest }.tick k))
  ∧ (∀ s : State, s.cur = none → s.lateWarp = none → s.agenda = [] →
    step s = exec (.warpIssue s.turn) ({ s with turn := (s.turn + 1) % 1536 }.tick s.defaultTick))
  ∧ (∀ (s : State) p, s.cur = none → s.lateWarp = some p → step s = exec (s.lateTick p).ev (s.tick (s.lateTick p)))

/-- R5, R265, R354: at module reset every counter is 0 and every CSR is at its reset value; no context, workgroup, event or
buffered entry exists, and memory lists nothing. -/
def Obligations.ResetLeavesTheStatedValues : Prop :=
  let r := State.reset
  (∀ c, (r.core c).cycle = 0) ∧ (∀ d, (r.die d).counter = 0)
  ∧ (∀ c, r.ccore c 0x200 = 0x100000 ∧ r.ccore c 0x201 = 64 ∧ r.ccore c 0x202 = 0 ∧ r.ccore c 0x203 = 0
      ∧ r.ccore c 0x204 = 0x1000000 ∧ r.ccore c 0x210 = 0 ∧ ∀ k, k < 8 → r.ccore c (0x208 + k) = 0)
  ∧ (∀ j, r.csub j 0x280 = 0) ∧ (∀ k, r.ccluster k 0x300 = 160 ∧ r.ccluster k 0x601 = 0 ∧ r.ccluster k 0x602 = 0 ∧ r.ccluster k 0x603 = 0xC00
      ∧ r.ccluster k 0x604 = 0 ∧ r.ccluster k 0x606 = 0 ∧ r.ccluster k 0x610 = 0xFFF)
  ∧ (∀ d, r.cdie d 0x400 = 8 ∧ r.cdie d 0x403 = BitVec.ofNat 64 (32 + 512 * 128) ∧ r.cdie d 0x404 = 0
      ∧ r.cdie d 0x406 = 0x400000)
  ∧ r.cmod 0x500 = 0 ∧ r.cmod 0x600 = 15 ∧ r.cmod 0x605 = 105 ∧ r.cmod 0x620 = 0 ∧ r.cmod 0x621 = 0
  ∧ r.ctxs = [] ∧ r.wgs = [] ∧ r.evts = [] ∧ r.evtOvf = 0 ∧ r.mwin = 0
  ∧ (∀ b, r.buf b = []) ∧ (∀ dev a key, r.homeByte dev a key = none)

/-- No step of any kind takes a memory out of its canonical form: V with its keys, Y, and of each workgroup local memory, the tiles, their
shapes, the accumulators and the residue registers. -/
def Obligations.StepKeepsMemoriesCanonical : Prop := ∀ s t : State, s.memoriesWf → step s = .next t → t.memoriesWf

/-- The memories of the machine are in canonical form at reset, and stay so when a program is placed. -/
def Obligations.ResetMemoriesAreCanonical : Prop :=
  State.reset.memoriesWf ∧ ∀ (s : State) nbits w, s.memoriesWf → (s.withFetchWord nbits w).memoriesWf

/-- A byte written to device memory under a key, or to host memory that accepts it, is what a read under that key gives;
nothing is determined under another key (R169), and every other byte reads as before. A write to host memory that the fabric
fails changes nothing (the model's reading of R178, log 26). -/
def Obligations.ReadAfterWriteOfOneByte : Prop :=
  ∀ (s : State) dev key a v,
    (dev = true ∨ s.fails a = false →
      (s.putByte dev key a v).homeByte dev a key = some v
      ∧ (∀ key', dev = true → key' ≠ key → (s.putByte dev key a v).homeByte dev a key' = none)
      ∧ (∀ dev' a' key', (dev', a') ≠ (dev, a) → (s.putByte dev key a v).homeByte dev' a' key' = s.homeByte dev' a' key'))
    ∧ (dev = false → s.fails a = true → s.putByte dev key a v = s)

/-- The operands an instruction issues with. Fresh from the warp (R189, R206): scalar sources and predicates as the registers
hold them, the first two registers of each vector source, the address of the instruction, and the active lanes: exec, narrowed
by the guard predicate for an instruction of class L with PEN set; and the destinations that a long-latency producer keeps empty
(R27, R186). For a re-issued entry (R191): what the entry holds. -/
def Obligations.OperandsAreCaptured : Prop :=
  ∀ (s : State) i (c : Cx) r, s.issuing i = some c → s.rowOf c.g i = some r → fields i = some c.f ∧
    (match (s.warpOf c).reissue with
    | [] =>
      let x := s.warpOf c
      c.re = false ∧ c.ins.pc = x.pc
      ∧ c.act = (if r.guard = .L ∧ c.f.pen = true then
          (if c.f.pneg then x.exec &&& ~~~(x.getP c.f.pred.toNat) else x.exec &&& x.getP c.f.pred.toNat) else x.exec)
      ∧ (r.sa = .s → c.sA = x.getS c.f.sa.toNat) ∧ (r.sb = .s → c.sB = x.getS c.f.sb.toNat)
      ∧ (r.sc = .s → c.sC = x.getS c.f.sc.toNat) ∧ (r.sd = .s → c.sD = x.getS c.f.sd.toNat)
      ∧ (r.sa = .p → c.sA = (x.getP c.f.sa.toNat).setWidth 64) ∧ (r.sb = .p → c.sB = (x.getP c.f.sb.toNat).setWidth 64)
      ∧ (r.sc = .p → c.sC = (x.getP c.f.sc.toNat).setWidth 64)
      ∧ (r.sa = .v → c.vA = x.getV c.f.sa.toNat ∧ (c.f.ty.isPair → c.vop 1 = x.getV (c.f.sa.toNat + 1)))
      ∧ (r.sb = .v → c.vB = x.getV c.f.sb.toNat ∧ (c.f.ty.isPair → c.vop 3 = x.getV (c.f.sb.toNat + 1)))
      ∧ (r.sb = .off → c.vB = x.getV c.f.sb.toNat)
      ∧ (r.sc = .v → c.vC = x.getV c.f.sc.toNat ∧ (c.f.ty.isPair → c.vop 5 = x.getV (c.f.sc.toNat + 1)))
      ∧ (r.sd = .v → c.vD = x.getV c.f.sd.toNat ∧ (c.f.ty.isPair → c.vop 7 = x.getV (c.f.sd.toNat + 1)))
      ∧ (∀ q, q ∈ c.ins.held ↔ q ∈ r.dests c.f ∧ q ≠ .s 63 ∧ r.opc.toNat ∈ producers)
    | e :: _ =>
      c.re = true ∧ c.ins.pc = e.pc ∧ c.act = e.lmask ∧ c.ins.sop = e.sop ∧ c.ins.vop = e.vop)

/-! Scalar instructions (R235 to R239). -/

/-- R235, R236: the scalar arithmetic, logic and shifts write the result of the operation at the width of their type to sD, on every
value; the 96-bit form takes IMM32, sign-extended, in place of sB. `sdiv` and `srem` have the results R236 gives for a divisor of 0; the
overflow case gives the dividend's own value and 0. Their forms and types, and 0x06 for another TYPE. -/
def Obligations.ScalarArithmeticResults : Prop :=
  (
  ∀ (f : Fields) (s : State) (c : Cx),
    (s.issuing (.sadd f) = some c → WritesS (.sadd f) s c (atWidth f.ty (fun _ _ a b => a + b) c.sA c.b64))
    ∧ (s.issuing (.ssub f) = some c → WritesS (.ssub f) s c (atWidth f.ty (fun _ _ a b => a - b) c.sA c.b64))
    ∧ (s.issuing (.smul f) = some c → WritesS (.smul f) s c (atWidth f.ty (fun _ _ a b => a * b) c.sA c.b64))
    ∧ (s.issuing (.smulh f) = some c → WritesS (.smulh f) s c (atWidth f.ty mulHigh c.sA c.b64))
    ∧ (s.issuing (.sand f) = some c → WritesS (.sand f) s c (atWidth f.ty (fun _ _ a b => a &&& b) c.sA c.b64))
    ∧ (s.issuing (.sor f) = some c → WritesS (.sor f) s c (atWidth f.ty (fun _ _ a b => a ||| b) c.sA c.b64))
    ∧ (s.issuing (.sxor f) = some c → WritesS (.sxor f) s c (atWidth f.ty (fun _ _ a b => a ^^^ b) c.sA c.b64))
    ∧ (s.issuing (.sshl f) = some c → WritesS (.sshl f) s c (atWidth f.ty (fun _ _ a b => a <<< b.toNat) c.sA c.b64))
    ∧ (s.issuing (.sshr f) = some c → WritesS (.sshr f) s c (atWidth f.ty (fun _ _ a b => a >>> b.toNat) c.sA c.b64))
    ∧ (s.issuing (.ssra f) = some c → WritesS (.ssra f) s c (atWidth f.ty (fun _ _ a b => a.sshiftRight b.toNat) c.sA c.b64))
    ∧ (s.issuing (.smin f) = some c → WritesS (.smin f) s c (atWidth f.ty lesser c.sA c.b64))
    ∧ (s.issuing (.smax f) = some c → WritesS (.smax f) s c (atWidth f.ty greater c.sA c.b64)))
  ∧ (
  ∀ (f : Fields) (s : State) (c : Cx),
    (s.issuing (.sdiv f) = some c → WritesS (.sdiv f) s c (atWidth f.ty quotient c.sA c.b64))
    ∧ (s.issuing (.srem f) = some c → WritesS (.srem f) s c (atWidth f.ty remainder c.sA c.b64)))
  ∧ (∀ (i : Instr) (s : State) (c : Cx), s.issuing i = some c → c.b64 = if c.f.len = .f96 then c.f.imm.signExtend 64 else c.sB)
  ∧ (∀ i ∈ ([.sadd, .ssub, .smul, .sand, .sor, .sxor, .sshl, .sshr, .ssra] : List (Fields → Instr)),
    ScalarForms i [.i32, .n32, .b32, .i64, .n64])
  ∧ (∀ i ∈ ([.smulh, .sdiv, .srem, .smin, .smax] : List (Fields → Instr)), ScalarForms i [.i32, .n32, .i64, .n64])

/-- R237, R238, R239: compare, select, moves, counts and bit fields. -/
def Obligations.ScalarCompareMoveAndBitFieldResults : Prop :=
  ∀ (f : Fields) (s : State) (c : Cx),
    (s.issuing (.scmp f) = some c →
      WritesS (.scmp f) s c (if (if f.ty = .i64 ∨ f.ty = .n64 then holds 64 (decide (f.ty = .i64)) f.sub.toNat c.sA c.b64
        else holds 32 (decide (f.ty = .i32)) f.sub.toNat (c.sA.setWidth 32) (c.b64.setWidth 32)) then 1 else 0))
    ∧ (s.issuing (.ssel f) = some c → WritesS (.ssel f) s c (if c.sC = 0 then c.sB else c.sA))
    ∧ (s.issuing (.smov f) = some c → WritesS (.smov f) s c c.sA)
    ∧ (s.issuing (.sli f) = some c → WritesS (.sli f) s c (f.imm.signExtend 64))
    ∧ (s.issuing (.sliHi f) = some c →
      WritesS (.sliHi f) s c (f.imm ++ ((s.warpOf c).getS f.dst.toNat).extractLsb' 0 32))
    ∧ (s.issuing (.sclz f) = some c →
      WritesS (.sclz f) s c (atWidth f.ty (fun w _ a _ => BitVec.ofNat w (leadingZeros w a)) c.sA 0))
    ∧ (s.issuing (.spopc f) = some c → WritesS (.spopc f) s c (atWidth f.ty (fun w _ a _ => BitVec.ofNat w (ones w a)) c.sA 0))
    ∧ (s.issuing (.sbfx f) = some c → WritesS (.sbfx f) s c (atWidth f.ty extractField c.sA c.b64))
    ∧ (s.issuing (.sbfi f) = some c →
      WritesS (.sbfi f) s c (atWidth f.ty (fun w _ a b => insertField w (c.sC.setWidth w) a b) c.sA c.b64))

/-! Control (R241 to R254). -/

/-- R241, R242: branches, jumps, calls and returns. A target that is a multiple of 4 is where the warp goes on; a call or a
linking jump pushes the address after it, unless 16 addresses are held; a return pops the youngest. The target of a branch or a call is
its own address plus IMM32, sign-extended. -/
def Obligations.BranchesCallsAndReturnsGoOn : Prop :=
  ∀ (f : Fields) (s : State) (c : Cx),
    let target := c.ins.pc + f.imm.signExtend 64
    (target.toNat % 4 = 0 →
      (s.issuing (.bra f) = some c → Jumps (.bra f) s c (s.warpOf c) target)
      ∧ (s.issuing (.bz f) = some c → Jumps (.bz f) s c (s.warpOf c) (if c.sA = 0 then target else s.after c))
      ∧ (s.issuing (.bnz f) = some c → Jumps (.bnz f) s c (s.warpOf c) (if c.sA = 0 then s.after c else target))
      ∧ (s.issuing (.bexz f) = some c →
        Jumps (.bexz f) s c (s.warpOf c) (if (s.warpOf c).exec = 0 then target else s.after c))
      ∧ (s.issuing (.call f) = some c → (s.warpOf c).stack.length < 16 →
        Jumps (.call f) s c { s.warpOf c with stack := (c.ins.pc + 12) :: (s.warpOf c).stack } target))
    ∧ (c.sA.toNat % 4 = 0 →
      (s.issuing (.jmp f) = some c → Jumps (.jmp f) s c (s.warpOf c) c.sA)
      ∧ (s.issuing (.jmpLink f) = some c → (s.warpOf c).stack.length < 16 →
        Jumps (.jmpLink f) s c { s.warpOf c with stack := (c.ins.pc + 8) :: (s.warpOf c).stack } c.sA))
    ∧ (∀ a rest, s.issuing (.ret f) = some c → (s.warpOf c).stack = a :: rest →
      Jumps (.ret f) s c { s.warpOf c with stack := rest } a)

/-- R241 to R243: where a branch, call, jump or return raises a cause instead: 0x20 for a target that is not a multiple of 4,
taken or not; 0x21 for a full return stack; 0x22 for an empty one. R254: where the replay-queue instructions raise a cause: 0x23 outside a handler; 0x06 for an entry at or above RQN, a
non-zero IMM32[31:4], or a word at or above 136, which in a handler is a double fault (R192). -/
def Obligations.ControlInstructionsThatTrap : Prop :=
  (
  ∀ (f : Fields) (s : State) (c : Cx),
    let target := c.ins.pc + f.imm.signExtend 64
    (target.toNat % 4 ≠ 0 →
      (s.issuing (.bra f) = some c → Traps (.bra f) s c 0x20 c.act 0 0)
      ∧ (s.issuing (.bz f) = some c → Traps (.bz f) s c 0x20 c.act 0 0)
      ∧ (s.issuing (.bnz f) = some c → Traps (.bnz f) s c 0x20 c.act 0 0)
      ∧ (s.issuing (.bexz f) = some c → Traps (.bexz f) s c 0x20 c.act 0 0)
      ∧ (s.issuing (.call f) = some c → Traps (.call f) s c 0x20 c.act 0 0))
    ∧ (target.toNat % 4 = 0 → 16 ≤ (s.warpOf c).stack.length →
      s.issuing (.call f) = some c → Traps (.call f) s c 0x21 c.act 0 0)
    ∧ (s.issuing (.jmpLink f) = some c → 16 ≤ (s.warpOf c).stack.length → Traps (.jmpLink f) s c 0x21 c.act 0 0)
    ∧ (c.sA.toNat % 4 ≠ 0 →
      (s.issuing (.jmp f) = some c → Traps (.jmp f) s c 0x20 c.act 0 0)
      ∧ (s.issuing (.jmpLink f) = some c → (s.warpOf c).stack.length < 16 → Traps (.jmpLink f) s c 0x20 c.act 0 0))
    ∧ (s.issuing (.ret f) = some c → (s.warpOf c).stack = [] → Traps (.ret f) s c 0x22 c.act 0 0))
  ∧ (
  ∀ (f : Fields) (s : State) (c : Cx),
    ((s.warpOf c).ih = false →
      (s.issuing (.rqrd f) = some c → Traps (.rqrd f) s c 0x23 c.act 0 0)
      ∧ (s.issuing (.rqwr f) = some c → Traps (.rqwr f) s c 0x23 c.act 0 0)
      ∧ (s.issuing (.rqdrop f) = some c → Traps (.rqdrop f) s c 0x23 c.act 0 0))
    ∧ ((s.warpOf c).ih = true → (16 ≤ f.imm.toNat ∨ (s.warpOf c).replay.length ≤ f.imm.toNat) →
      (s.issuing (.rqrd f) = some c → Traps (.rqrd f) s c 0x06 c.act 0 0)
      ∧ (s.issuing (.rqwr f) = some c → Traps (.rqwr f) s c 0x06 c.act 0 0)
      ∧ (s.issuing (.rqdrop f) = some c → Traps (.rqdrop f) s c 0x06 c.act 0 0))
    ∧ ((s.warpOf c).ih = true → f.imm.toNat < 16 → f.imm.toNat < (s.warpOf c).replay.length → 136 ≤ c.sA.toNat →
      (s.issuing (.rqrd f) = some c → Traps (.rqrd f) s c 0x06 c.act 0 0)
      ∧ (s.issuing (.rqwr f) = some c → Traps (.rqwr f) s c 0x06 c.act 0 0)))

/-- R244 to R246: the execution mask and the predicates. `plog` writes the active lanes alone, those of `exec` whose guard passes; `pmov`
moves whole predicates. R245, R246: their forms are 64 bits long and take no type; `pmov` with a SUB of 2 to 7 and `plog` with SUB 7
raise 0x06, when the fields that these SUB values do not use are 0, and 0x04 before it when they are not (R207, R215). -/
def Obligations.MaskAndPredicateResults : Prop :=
  (∀ (f : Fields) (s : State) (c : Cx),
    (s.issuing (.mand f) = some c →
      Sets (.mand f) s c { s.warpOf c with exec := (s.warpOf c).exec &&& c.sA.extractLsb' 0 32 })
    ∧ (s.issuing (.mset f) = some c → Sets (.mset f) s c { s.warpOf c with exec := c.sA.extractLsb' 0 32 })
    ∧ (s.issuing (.mget f) = some c → WritesS (.mget f) s c ((s.warpOf c).exec.setWidth 64))
    ∧ (s.issuing (.mandn f) = some c →
      Sets (.mandn f) s c { s.warpOf c with exec := (s.warpOf c).exec &&& ~~~(c.sA.extractLsb' 0 32) })
    ∧ (s.issuing (.pmovToScalar f) = some c → WritesS (.pmovToScalar f) s c c.sA)
    ∧ (s.issuing (.pmovToPredicate f) = some c →
      Writes (.pmovToPredicate f) s c [] [] [f.dst.toNat] fun y => y.getP f.dst.toNat = c.sA.extractLsb' 0 32)
    ∧ (s.issuing (.plog f) = some c →
      Writes (.plog f) s c [] [] [f.dst.toNat] fun y => ∀ l, l < 32 → (y.getP f.dst.toNat).getLsbD l =
        if c.act.getLsbD l then
          (let a := c.sA.getLsbD l
           let b := c.sB.getLsbD l
           match f.sub.toNat with
           | 0 => a && b | 1 => a || b | 2 => a != b | 3 => a && !b | 4 => a || !b | 5 => !a | _ => a)
        else ((s.warpOf c).getP f.dst.toNat).getLsbD l))
  ∧ (∀ f, select 0x2B f = some (if f.sub = 1 then .pmovToPredicate f else .pmovToScalar f))
  ∧ (∀ f, (Instr.pmovToScalar f).formCause = none → f.len = .f64 ∧ f.ty = .f32 ∧ f.sub = 0 ∧ f.dst.toNat < 64 ∧ f.sa.toNat < 16 ∧ f.sb = 0)
  ∧ (∀ f, (Instr.pmovToPredicate f).formCause = none → f.len = .f64 ∧ f.ty = .f32 ∧ f.dst.toNat < 16 ∧ f.sa.toNat < 64 ∧ f.sb = 0)
  ∧ (∀ f n, (Instr.pmovToScalar f).formCause = none → 2 ≤ n.toNat →
    (Instr.pmovToScalar { f with sub := n }).formCause = if f.dst = 0 ∧ f.sa = 0 then some 0x06 else some 0x04)
  ∧ (∀ f, select 0x2C f = some (.plog f)) ∧ (∀ f, (row (.plog f)).map (·.guard) = some .L)
  ∧ (∀ f, (Instr.plog f).formCause = none → f.len = .f64 ∧ f.ty = .f32 ∧ f.sub ≠ 7 ∧ f.dst.toNat < 16 ∧ f.sa.toNat < 16
    ∧ (f.sub.toNat < 5 → f.sb.toNat < 16) ∧ (5 ≤ f.sub.toNat → f.sb = 0))
  ∧ (∀ f, (Instr.plog f).formCause = none →
    (Instr.plog { f with sub := 7 }).formCause = if f.sb = 0 then some 0x06 else some 0x04)
  ∧ (∀ (f : Fields) (s : State) (c : Cx), s.issuing (.plog f) = some c → c.re = false →
    c.act = if f.pen = false then (s.warpOf c).exec else if f.pneg = true then (s.warpOf c).exec &&& ~~~((s.warpOf c).getP f.pred.toNat)
      else (s.warpOf c).exec &&& (s.warpOf c).getP f.pred.toNat)

/-! Control and system instructions. -/

namespace Sys2Proof.Claim

/-- The frame of a trap (R185, R187, R191): what the warp holds once its trap i has been taken from state s, when none of
its instructions is unfinished, and that nothing else has changed but, for the causes R202 names under `dbg_halt_wg`, that
the other warps of the workgroup stop. -/
structure Entered (s t : State) (g w : Nat) (i : TrapInfo) : Prop where
  warp  : t.warp g w =
    { s.warp g w with
      tcause := i.cause, tasync := i.async, tpc := i.tpc, trpc := i.trpc, taddr := i.addr, tmask := i.mask, taux := i.aux
      texec := (s.warp g w).exec, tm := true, ih := true, pc := s.cctx (s.wg g).ctx 0x100 &&& 0x00FFFFFFFFFFFFFC
      replay := i.cap.toList ++ i.rest, reissue := [], parked := [], waits := [], poll := false, blocked := none, noBp := false
      stepped := false, rewritten := [], empty := (t.warp g w).empty }
  empty : ∀ r, (t.warp g w).isEmpty r = ((s.warp g w).isEmpty r || (decide (r ≠ .s 63) && (i.cap.toList.flatMap (·.held)).contains r))
  idle  : t.cur = none
  halt  : (t.wg g).halt =
    if (i.cause = 0x00 ∨ i.cause = 0x01 ∨ i.cause = 0x02 ∨ i.cause = 0x2C) ∧ (s.cctx (s.wg g).ctx 0x117).getLsbD 0 = true then
      some w
    else (s.wg g).halt
  wg    : { t.wg g with warps := (s.wg g).warps, halt := (s.wg g).halt } = s.wg g
  warps : ∀ v, v ≠ w → t.warp g v = s.warp g v
  others : ∀ h, h ≠ g → SMap.find h t.wgs = SMap.find h s.wgs
  bytes : ∀ k lvl dev a key, t.readByte k lvl dev a key = s.readByte k lvl dev a key
  module : { t with wgs := s.wgs, ctxs := s.ctxs, cur := s.cur } = s

/-- The lanes of an unfinished instruction that still have an access to perform (R185 step 2). -/
def owed (o : Op) : W32 := maskOf fun l => o.ins.lmask.getLsbD l && o.units.any fun u => decide (u.lane = l) && !u.done

/-- What step 2 of R185 captures of an unfinished instruction: nothing when it is performed, or has nothing to perform; when some of its
accesses are performed, the lanes that are not, with the causes that its lanes have met (R289); else the whole. -/
def captured (o : Op) : List Issued :=
  if o.performed = true ∨ o.kind = .fill then []
  else if o.units.any (·.done) = true then
    [{ o.ins with lmask := owed o, faults := o.faults ++ o.units.filterMap (·.fault), fellBack := o.fellBack }]
  else [o.ins]

/-- The bytes of a lane, in the order of its units, as a 32-bit value of the operation's type: sign-extended for the signed types (R281). -/
def loaded (o : Op) (l : Nat) : W32 :=
  let b := (o.units.filter fun u => u.lane = l).flatMap (·.rd)
  let x := leVal b
  if o.width < 4 ∧ o.ty ∈ [.i8, .i16, .i32, .i64] ∧ 2 ^ (8 * o.width - 1) ≤ x % 2 ^ (8 * o.width) then BitVec.ofNat 32 (x + 2 ^ 32 - 2 ^ (8 * o.width))
  else BitVec.ofNat 32 x

/-- Word w of a replay entry, as R189 lays it out. -/
def entryWord (e : Issued) (w : Nat) : W64 :=
  match w with
  | 0 => e.insn.extractLsb' 0 64
  | 1 => e.insn.extractLsb' 64 64
  | 2 => e.pc
  | 3 => (0 : BitVec 32) ++ e.lmask
  | 4 => e.sop.getD 0 0 | 5 => e.sop.getD 1 0 | 6 => e.sop.getD 2 0 | 7 => e.sop.getD 3 0
  | w => lane (e.vop.getD ((w - 8) / 16) zeroLanes) (2 * ((w - 8) % 16) + 1)
      ++ lane (e.vop.getD ((w - 8) / 16) zeroLanes) (2 * ((w - 8) % 16))

/-- The bits that a write of v leaves in a CSR field that held old (R261). -/
def fieldAfter (f : CsrField) (old v : W64) (b : Nat) : Bool :=
  match f.acc with
  | .r => old.getLsbD b
  | .rw => v.getLsbD b
  | .w => false
  | .w0c => decide (v.toNat / 2 ^ f.lo % 2 ^ (f.hi + 1 - f.lo) ≠ 0) && old.getLsbD b
  | .w1c => decide (v.toNat / 2 ^ f.lo % 2 ^ (f.hi + 1 - f.lo) ≠ 1) && old.getLsbD b

end Sys2Proof.Claim

/-- R247, R249 to R251, R259, R260: the instructions that only time, rank and name a warp. `nop` has no effect; `yield`
starts an exchange with the best ready pending warp when the warp is active and no exchange is in progress; `pause` makes
the warp not ready for min(b, 2^20) cycles; `cyc` reads the core's counter; `sprio` sets the base priority up to the
launch's; `getid` writes what its selector names. -/
def Obligations.TimeRankAndIdentityResults : Prop :=
  ∀ (f : Fields) (s : State) (c : Cx),
    (s.issuing (.nop f) = some c → Sets (.nop f) s c (s.warpOf c))
    ∧ (s.issuing (.yield f) = some c → ∃ t, exec (.yield f) s = .next t
      ∧ Retires { s with subs := t.subs } t c (s.warpOf c) (s.after c) [] [] []
      ∧ (let j := s.subOf c.g c.w
        (∀ k, k ≠ j → t.sub k = s.sub k) ∧ (t.sub j).csr = (s.sub j).csr ∧ (t.sub j).issued = (s.sub j).issued
        ∧ (t.sub j).xchg = match (s.warpOf c).active, (s.sub j).xchg, s.bestPending j with
          | true, none, some q => some { out := some (c.g, c.w), inn := some q, ends := s.now c.g + 4 }
          | _, x, _ => x))
    ∧ (s.issuing (.pause f) = some c → Sets (.pause f) s c
      (if c.b64 = 0 then s.warpOf c
        else { s.warpOf c with paused := some (s.now c.g + if 2 ^ 20 ≤ c.b64.toNat then 2 ^ 20 else c.b64.toNat) }))
    ∧ (s.issuing (.cyc f) = some c → WritesS (.cyc f) s c (BitVec.ofNat 64 (s.now c.g)))
    ∧ (s.issuing (.sprio f) = some c → Sets (.sprio f) s c { s.warpOf c with
        prio := if c.b64.toNat < (s.wg c.g).basePrio then c.b64.toNat else (s.wg c.g).basePrio })
    ∧ (s.issuing (.getid f) = some c → f.imm = 0 → WritesV (.getid f) s c fun l => BitVec.ofNat 32 l)
    ∧ (s.issuing (.getid f) = some c → f.imm ≠ 0 → WritesS (.getid f) s c
      (let x := s.wg c.g
       match f.imm.toNat with
       | 1 => BitVec.ofNat 64 c.w
       | 2 => BitVec.ofNat 64 x.warps.length
       | 3 => x.num.setWidth 64
       | 4 => x.count.setWidth 64
       | 5 => BitVec.ofNat 64 (x.stage.getD 0xFF)
       | 6 => x.frame.setWidth 64
       | 7 => x.arg
       | 8 => BitVec.ofNat 64 x.ctx
       | 9 => BitVec.ofNat 64 x.queue
       | 10 => BitVec.ofNat 64 x.core
       | 11 => BitVec.ofNat 64 ((x.b + c.w) % 4)
       | 12 => BitVec.ofNat 64 (x.slots.getD c.w 0)
       | 13 => BitVec.ofNat 64 (s.warpOf c).prio
       | 14 => BitVec.ofNat 64 (min 15 ((s.warpOf c).prio + (s.warpOf c).aged / 2 ^ 20))
       | _ => if x.role then 1 else 0))

/-- R252: `brk` and `trap` have completed when their cause is raised: they are not captured. `brk` raises 0x00; `trap`
raises 0x03 for an IMM32 of 0 and 0x38 to 0x3F for 1 to 8; any other IMM32 raises 0x06 and is captured. -/
def Obligations.BreakAndTrapTakeTheirCause : Prop :=
  ∀ (f : Fields) (s : State) (c : Cx),
    (s.issuing (.brk f) = some c → exec (.brk f) s = .next (s.trapCx c none 0x00 c.act 0 0))
    ∧ (s.issuing (.trapI f) = some c → f.imm = 0 → exec (.trapI f) s = .next (s.trapCx c none 0x03 c.act 0 0))
    ∧ (s.issuing (.trapI f) = some c → 1 ≤ f.imm.toNat → f.imm.toNat ≤ 8 →
      exec (.trapI f) s = .next (s.trapCx c none (0x37 + f.imm.setWidth 6) c.act 0 0))
    ∧ (s.issuing (.trapI f) = some c → 8 < f.imm.toNat → Traps (.trapI f) s c 0x06 c.act 0 0)

/-- R185, R187, R191, R202: taking a trap in a context whose `tvec` has EN set. The trap of an issuing instruction restarts the warp's age
(R20, R24) and has its address as TPC, the address after it as TRPC, and the entries not yet re-issued behind it in the new replay queue.
Of the unfinished instructions, in issue order, a performed one fills its destinations; one of which some lanes are performed writes
those, and enters the queue for the others, its destinations empty; any other enters it whole (R185 step 2). The slot of one that enters the queue is given back (log
48). A trap waits for values on their way from the host or a peer (log 11). R192, R193: a trap while TM = 1 is a double fault: the context
dies with cause 0x1A and the inner cause, and the warp does not change. A trap with `tvec`.EN = 0 takes its frame and the context dies with
cause 0x33. -/
def Obligations.TrapEntryOrRemoval : Prop :=
  (
  (∀ (s : State) g w (i : TrapInfo), s.hasWarp g w = true → (s.warp g w).tm = false → (s.warp g w).ops = [] →
    (s.warp g w).trapping = none → (s.cctx (s.wg g).ctx 0x100).getLsbD 0 = true →
    Entered s (s.trap g w i) g w i ∧ (s.trap g w i).ctxs = s.ctxs)
  ∧ (∀ (s : State) (c : Cx) cap cause mask addr aux,
    s.trapCx c cap cause mask addr aux = (s.modWarp c.g c.w fun x => { x with lastAt := s.now c.g, aged := 0 }).trap c.g c.w
      { cause := cause, mask := mask, addr := addr, aux := aux, tpc := c.ins.pc, trpc := s.after c, cap := cap
        rest := (s.warpOf c).reissue.drop (if c.re then 1 else 0) }))
  ∧ (
  (∀ (s : State) g w (i : TrapInfo), (s.warp g w).tm = true →
    s.trap g w i = { s.modCtx (s.wg g).ctx (fun x => if x.dying.isSome then x else
      { x with dying := some 0x1A, inner := i.cause, dyingWarp := some (g, w), dyingPc := (s.warp g w).tpc }) with cur := none })
  ∧ (∀ (s : State) g w (i : TrapInfo), s.hasWarp g w = true → (s.warp g w).tm = false → (s.warp g w).ops = [] →
    (s.warp g w).trapping = none → (s.cctx (s.wg g).ctx 0x100).getLsbD 0 = false →
    Entered s (s.trap g w i) g w i
    ∧ (s.trap g w i).ctxs = (s.modCtx (s.wg g).ctx fun x => if x.dying.isSome then x else
        { x with dying := some 0x33, inner := 0, dyingWarp := some (g, w), dyingPc := i.tpc }).ctxs))
  ∧ (∀ (s : State) g w (i : TrapInfo), s.hasWarp g w = true → (s.warp g w).tm = false → (s.warp g w).trapping = none →
    let x := s.warp g w
    let t := s.trap g w i
    let y := t.warp g w
    ((∃ o ∈ x.ops, ∃ u ∈ o.units, u.sent = true ∧ u.done = false) →
      y = { x with trapping := some i, parked := [], waits := [], poll := false, blocked := none } ∧ { t with wgs := s.wgs, cur := s.cur } = s)
    ∧ ((∀ o ∈ x.ops, ∀ u ∈ o.units, u.sent = true → u.done = true) →
      y.replay = x.ops.flatMap captured ++ i.cap.toList ++ i.rest ∧ y.ops = [] ∧ y.reissue = [] ∧ y.tm = true ∧ y.ih = true
      ∧ y.tcause = i.cause ∧ y.tasync = i.async ∧ y.tpc = i.tpc ∧ y.trpc = i.trpc ∧ y.taddr = i.addr ∧ y.tmask = i.mask ∧ y.taux = i.aux
      ∧ y.texec = x.exec ∧ y.exec = x.exec ∧ y.pc = s.cctx (s.wg g).ctx 0x100 &&& 0x00FFFFFFFFFFFFFC
      ∧ t.vmem = s.vmem ∧ t.ymem = s.ymem ∧ (∀ b, t.buf b = s.buf b)
      ∧ (∀ o, x.ops = [o] → o.slot = none →
        let fin := o.performed = true ∨ o.kind = .fill
        (∀ r, y.isEmpty r = ((x.isEmpty r && decide (¬ (fin ∧ r ∈ o.ins.held)))
            || (decide (r ≠ .s 63) && (i.cap.toList.flatMap (·.held)).contains r)))
        ∧ (∀ d, o.dst = some (.v d) → o.regs = [] → o.vals = [] → o.width ∈ [1, 2, 4] →
            (∀ l, l < 32 → ((o.units.filter fun u => u.lane = l).flatMap (·.rd)).length ≤ o.width) → ∀ n l, l < 32 →
            lane (y.getV n) l = if n = d ∧ o.ins.lmask.getLsbD l = true ∧ (fin ∨ ((owed o).getLsbD l = false ∧ o.units.any (·.done) = true))
              then loaded o l else lane (x.getV n) l))
      ∧ (∀ o n, x.ops = [o] → o.slot = some n → ((s.core (s.coreOf g)).slot n).live = true →
        (o.performed = true → t.cores = s.cores) ∧ (o.performed = false → o.kind ≠ .fill → ((t.core (s.coreOf g)).slot n).live = false))))

/-- R191, R253: in a handler, with every entry's OPC, LEN and TYPE as captured, `rte` restores exec, clears TM and IH, and
goes on with the entries of the replay queue and then at `trpc`, where no fetch breakpoint matches first; a halt that the
warp has asked for ends. An entry that was changed removes the context with 0x1C. Outside a handler: 0x23. -/
def Obligations.ReturnFromTrap : Prop :=
  ∀ (f : Fields) (s : State) (c : Cx), s.issuing (.rte f) = some c → (s.warpOf c).ops.length + (s.warpOf c).replay.length ≤ 16 →
    ((s.warpOf c).ih = true →
      (∀ e ∈ (s.warpOf c).replay, e.insn.extractLsb' 0 10 = e.orig.extractLsb' 0 10
        ∧ e.insn.extractLsb' 60 4 = e.orig.extractLsb' 60 4) →
      ∃ t, exec (.rte f) s = .next t
        ∧ SameBeside (s.modWg c.g fun y => if y.halt = some c.w then { y with halt := none } else y) t c
        ∧ t.warpOf c = { s.warpOf c with
            exec := (s.warpOf c).texec, tm := false, ih := false, reissue := (s.warpOf c).replay, replay := []
            pc := (s.warpOf c).trpc, noBp := true, lastAt := s.now c.g, aged := 0, stepped := false })
    ∧ ((s.warpOf c).ih = true →
      (∃ e ∈ (s.warpOf c).replay, e.insn.extractLsb' 0 10 ≠ e.orig.extractLsb' 0 10
        ∨ e.insn.extractLsb' 60 4 ≠ e.orig.extractLsb' 60 4) →
      exec (.rte f) s = .next { s.kill (s.wg c.g).ctx 0x1C 0 (some (c.g, c.w)) (s.warpOf c).tpc with cur := none })
    ∧ ((s.warpOf c).ih = false → Traps (.rte f) s c 0x23 c.act 0 0)

/-- R191, R254: in a handler, with an entry below RQN and a word below 136, `rqrd` reads a word of an entry and `rqwr`
writes one, which then reads as R254 says and leaves the entry's other words and the other entries alone; `rqdrop` removes an
entry, whose destinations are filled and keep what they held before it issued. R186: an instruction of a handler whose destinations are held
empty by replay entries does what it does when they are full, and no entry holds them from then on; its read of one raises 0x08. R256: an
`htest` whose source is its own held destination still reads it as empty. -/
def Obligations.ReplayQueueInstructions : Prop :=
  (∀ (f : Fields) (s : State) (c : Cx), (s.warpOf c).ih = true → f.imm.toNat < 16 →
    f.imm.toNat < (s.warpOf c).replay.length →
    let x := s.warpOf c
    let e := x.replay.getD f.imm.toNat {}
    (s.issuing (.rqrd f) = some c → c.sA.toNat < 136 → WritesS (.rqrd f) s c (entryWord e c.sA.toNat))
    ∧ (s.issuing (.rqwr f) = some c → c.sA.toNat < 136 → ∃ q : List Issued,
      Sets (.rqwr f) s c { x with replay := q } ∧ q.length = x.replay.length
      ∧ (∀ k, k ≠ f.imm.toNat → q.getD k {} = x.replay.getD k {})
      ∧ (∀ w, w < 136 → entryWord (q.getD f.imm.toNat {}) w =
          if w = c.sA.toNat then
            (if w = 2 then entryWord e 2 else if w = 3 then (0 : BitVec 32) ++ c.sB.extractLsb' 0 32 else c.sB)
          else entryWord e w)
      ∧ (let e' := q.getD f.imm.toNat {}
         e'.orig = e.orig ∧ e'.held = e.held ∧ e'.prior = e.prior ∧ e'.group = e.group ∧ e'.faults = e.faults))
    ∧ (s.issuing (.rqdrop f) = some c → ∃ t, exec (.rqdrop f) s = .next t
      ∧ Retires s t c { x with replay := x.replay.take f.imm.toNat ++ x.replay.drop (f.imm.toNat + 1)
                               empty := (t.warpOf c).empty } (s.after c) (e.prior.map (·.1)) [] []
      ∧ (∀ r, (t.warpOf c).isEmpty r = (x.isEmpty r && (!e.held.contains r || x.rewritten.contains r)))
      ∧ (∀ n, n ≠ 63 → (t.warpOf c).getS n =
          match e.held.contains (.s n) && x.isEmpty (.s n) && !x.rewritten.contains (.s n), e.prior.find? (fun p => decide (p.1 = n)) with
          | true, some p => p.2
          | _, _ => x.getS n)))
  ∧ (∀ (s : State) g w i r f, s.cur = some (g, w) → s.hasWarp g w = true → s.rowOf g i = some r → fields i = some f → formCause r f = none →
    r.oddPair f = false → r.outside (s.wg g).shape f = false →
    let x := s.warp g w
    let src := readsOf i r f (!x.reissue.isEmpty)
    (febTrap x src = false → x.ops.length < 16 → operandWaits x x.reissue.head? (r.heads f) src (r.dests f) = [] →
      (∃ q ∈ r.dests f, x.replayHeld q = true) → (∀ f', i = .htest f' → f'.sa ≠ f'.dst) →
      ∃ y : Warp, exec i s = exec i (s.modWarp g w fun _ => y) ∧ { y with empty := x.empty, rewritten := x.rewritten } = x
        ∧ (∀ q, y.replayHeld q = (x.replayHeld q && !(r.dests f).contains q))
        ∧ ∀ q, y.isEmpty q = (x.isEmpty q && !((r.dests f).contains q && x.replayHeld q)))
    ∧ ((∃ p ∈ src, x.isEmpty p.1 = true ∧ x.replayHeld p.1 = true) → febTrap x src = true)
    ∧ (∀ f', i = .htest f' → f'.sa = f'.dst → x.reissue = [] → x.replayHeld (.s f'.dst.toNat) = true → x.isEmpty (.s f'.dst.toNat) = true →
      x.ops.length < 16 → (∀ o ∈ x.ops, Reg.s f'.dst.toNat ∉ o.ins.group) →
      ∃ t, exec (.htest f') s = .next t ∧ (t.warp g w).getS f'.dst.toNat = ((x.getS f'.dst.toNat).extractLsb' 0 16).setWidth 64
        ∧ (t.warp g w).isEmpty (.s f'.dst.toNat) = false))

/-- R261, R262: a `csrr` that the table of R262 allows writes the CSR's value: of the warp, or of the unit of its scope that
the warp belongs to. `sweep_pop` takes the oldest frame of the die's ready queue, or reads 2^63 (R161). -/
def Obligations.CsrReads : Prop :=
  ∀ (f : Fields) (s : State) (c : Cx),
    (∀ sc fs, s.issuing (.csrr f) = some c → csrFields f.imm.toNat = some (sc, fs) → f.imm.toNat ≠ 0x405 →
      ((∀ x ∈ fs, x.priv = false) ∨ (sc.near = true ∧ ∃ x ∈ fs, x.priv = false) ∨ (s.warpOf c).ih = true) →
      WritesS (.csrr f) s c (match sc with
        | .warp => (s.warpOf c).csr f.imm.toNat
        | .ctx => s.cctx (s.wg c.g).ctx f.imm.toNat
        | .core => s.ccore (s.coreOf c.g) f.imm.toNat
        | .sub => s.csub (s.subOf c.g c.w) f.imm.toNat
        | .cluster => s.ccluster (clusterOf (s.coreOf c.g)) f.imm.toNat
        | .die => s.cdie (dieOf (s.coreOf c.g)) f.imm.toNat
        | .module => s.cmod f.imm.toNat))
    ∧ (s.issuing (.sweepPop f) = some c → f.imm = 0x405 → (s.warpOf c).ih = true →
      let d := dieOf (s.coreOf c.g)
      ∃ t, exec (.sweepPop f) s = .next t
        ∧ Retires (s.modDie d fun x => { x with ready := (s.die d).ready.drop 1 }) t c (s.warpOf c) (s.after c)
            [f.dst.toNat] [] []
        ∧ (t.warpOf c).getS f.dst.toNat = if f.dst = 63 then 0 else
            match (s.die d).ready with
            | [] => 0x8000000000000000
            | i :: _ => BitVec.ofNat 64 i)

/-- R261: the bits that a write leaves in a CSR: each field by its access, and 0 in the reserved bits. R261, R262: the accesses the tables refuse: 0x06 for a number that is not assigned, and for IMM32[31:12] set; before it (R215) 0x07, with nothing performed, where
privilege is wanting: outside a handler for the privileged CSRs, and for `csrw` of a privileged cluster, die or module CSR
in a handler too. -/
def Obligations.CsrFieldsAndRefusals : Prop :=
  (
  ∀ n sc fs, csrFields n = some (sc, fs) → ∀ (old v : W64) b, b < 64 →
    (∀ x ∈ fs, x.lo ≤ b → b ≤ x.hi → (csrMerge fs old v).getLsbD b = fieldAfter x old v b)
    ∧ ((∀ x ∈ fs, ¬ (x.lo ≤ b ∧ b ≤ x.hi)) → (csrMerge fs old v).getLsbD b = false))
  ∧ (
  ∀ (f : Fields) (s : State) (c : Cx),
    let n := f.imm.toNat % 4096
    (csrFields n = none ∨ (4096 ≤ f.imm.toNat ∧ ∀ sc fs, csrFields n = some (sc, fs) → ∀ x ∈ fs, x.priv = false) →
      (s.issuing (.csrr f) = some c → Traps (.csrr f) s c 0x06 c.act 0 0)
      ∧ (s.issuing (.csrw f) = some c → Traps (.csrw f) s c 0x06 c.act 0 0))
    ∧ (∀ sc fs, csrFields n = some (sc, fs) → (∃ x ∈ fs, x.priv = true) →
      (s.issuing (.csrr f) = some c → (s.warpOf c).ih = false → (sc.near = false ∨ ∀ x ∈ fs, x.priv = true) →
        Traps (.csrr f) s c 0x07 c.act 0 0)
      ∧ (s.issuing (.csrw f) = some c → ((s.warpOf c).ih = false ∨ sc.near = false) → Traps (.csrw f) s c 0x07 c.act 0 0))
    ∧ ((s.warpOf c).ih = false →
      (s.issuing (.sweepPop f) = some c → f.imm = 0x405 → Traps (.sweepPop f) s c 0x07 c.act 0 0)
      ∧ (s.issuing (.tlbInv f) = some c → f.imm = 0x105 → Traps (.tlbInv f) s c 0x07 c.act 0 0)
      ∧ (s.issuing (.fbCtlWrite f) = some c → f.imm = 0x108 → Traps (.fbCtlWrite f) s c 0x07 c.act 0 0)))

/-- R261, R262, R156, R175, R166, R350: writes that the table of R262 allows. A warp's own CSRs take HNDPREEMPT, STEP, `trpc`
and `texec`; any other is stored by the rules of its fields in its unit. `tlb_inv` drops the translations it names, after a
release at DEV; `host_irq` sends its vector's message after a release at SYS, which raises 0x11 when a peer's answer to one of the
warp's stores is lost (R181); a write of `rail_i`, whose fields are all R, changes nothing (R354); `fb_ctl` clears the feedback filters of the
context. -/
def Obligations.CsrWrites : Prop :=
  ∀ (f : Fields) (s : State) (c : Cx),
    (∀ fs, s.issuing (.csrw f) = some c → csrFields f.imm.toNat = some (.warp, fs) →
      ((∀ x ∈ fs, x.priv = false) ∨ (s.warpOf c).ih = true) →
      Sets (.csrw f) s c (match f.imm.toNat with
        | 0x000 => { s.warpOf c with hnd := c.sA.getLsbD 2, stepOn := c.sA.getLsbD 3 }
        | 0x003 => { s.warpOf c with trpc := c.sA }
        | 0x006 => { s.warpOf c with texec := c.sA.extractLsb' 0 32 }
        | _ => s.warpOf c))
    ∧ (∀ sc fs, s.issuing (.csrw f) = some c → csrFields f.imm.toNat = some (sc, fs) → sc ≠ .warp →
      f.imm ≠ 0x105 → f.imm ≠ 0x108 → f.imm ≠ 0x114 → f.imm ≠ 0x602 →
      ((∀ x ∈ fs, x.priv = false) ∨ (sc.near = true ∧ (s.warpOf c).ih = true)) →
      (f.imm.toNat = 0x118 → c.sA.toNat % 16 ≤ (s.cmod 0x600).toNat % 16) →
      ∃ t, exec (.csrw f) s = .next t ∧ Retires
        (s.putAt (s.unitsOf c.g c.w) sc f.imm.toNat
          (csrMerge fs (s.csrAt (s.unitsOf c.g c.w) sc f.imm.toNat) c.sA)) t c (s.warpOf c) (s.after c) [] [] [])
    ∧ (s.issuing (.csrw f) = some c → f.imm = 0x602 → Sets (.csrw f) s c (s.warpOf c))
    ∧ (s.issuing (.fbCtlWrite f) = some c → f.imm = 0x108 → (s.warpOf c).ih = true → SMap.wf s.cores = true →
      (SMap.find (s.wg c.g).ctx s.ctxs).isSome = true →
      ∃ t, exec (.fbCtlWrite f) s = .next t ∧ (t.cctx (s.wg c.g).ctx 0x108) = c.sA &&& 0x00FFFFFFFFFFFFFF
        ∧ (∀ k, (t.core k).filter.ctx = (s.core k).filter.ctx ∧ (t.core k).filter.keys =
            if (s.core k).filter.ctx = (s.wg c.g).ctx then [] else (s.core k).filter.keys)
        ∧ Retires { s with cores := t.cores, ctxs := t.ctxs } t c (s.warpOf c) (s.after c) [] [] [])
    ∧ (s.issuing (.tlbInv f) = some c → f.imm = 0x105 → (s.warpOf c).ih = true → (s.warpOf c).allPerformed = true →
      (s.warpRelease c.g c.w 4).waitMet c.g c.w (.xlat (if c.sA.getLsbD 0 then none else some (c.sA.toNat / 2 ^ 16 % 2 ^ 40))) = true →
      ∃ t, exec (.tlbInv f) s = .next t ∧ Retires
        (let drops := fun (e : TlbEntry) => c.sA.getLsbD 0
           || decide (e.page = if e.big then c.sA.toNat / 2 ^ 26 % 2 ^ 30 else c.sA.toNat / 2 ^ 16 % 2 ^ 40)
         (s.warpRelease c.g c.w 4).modCtx (s.wg c.g).ctx fun x => { x with tlb := x.tlb.filter fun e => !drops e })
        t c ((s.warpRelease c.g c.w 4).warpOf c) ((s.warpRelease c.g c.w 4).after c) [] [] [])
    ∧ (s.issuing (.hostIrq f) = some c → f.imm = 0x114 → (s.warpOf c).allPerformed = true →
      let s1 := s.warpRelease c.g c.w 5
      ((s1.warpOf c).unacked = false → s1.waitMet c.g c.w .acks = true →
        ∃ t, exec (.hostIrq f) s = .next t ∧ Retires (if c.sA.toNat % 64 = 0 then s1 else s1.msix (c.sA.toNat % 64))
          t c (s1.warpOf c) (s1.after c) [] [] [])
      ∧ ((s1.warpOf c).unacked = true →
        exec (.hostIrq f) s = .next ((s1.modWarp c.g c.w fun x => { x with unacked := false }).trapCx c (some c.ins) 0x11 c.act 0 0)))

namespace Sys2Proof.Claim

/-- The value of a handle (R30): SLOT, GEN, CODE, FAULT and DATA. -/
def handle (slot : Nat) (gen : BitVec 4) (code : Cause) (fault : Bool) (data : BitVec 40) : W64 :=
  data ++ BitVec.ofBool fault ++ (0 : BitVec 1) ++ code ++ gen ++ BitVec.ofNat 12 slot

/-- What is the same in both states: V, Y and every buffer. -/
def SameMemory (s u : State) : Prop := u.vmem = s.vmem ∧ u.vkey = s.vkey ∧ u.ymem = s.ymem ∧ ∀ b, u.buf b = s.buf b

/-- The table of R257, for slot n of core k, which is live and whose operation has not settled: what `hcancel` leaves, by the kind of
operation that the slot belongs to, where it belongs to no kind named before. Completes with 0x01 stands for the value that HANDLE_COMPLETE
will fill in. -/
structure CancelTable (s u : State) (k n : Nat) (completes noEngine noCall noArray noLease noLaunch : Prop) : Prop where
  engine : ∀ e ∈ (s.core k).eops, e.slot = some n → (∀ e' ∈ (s.core k).eops, e'.slot = some n → e' = e) →
    completes ∧ (u.core k).eops = (s.core k).eops.filter (fun o => o.id ≠ e.id) ∧ SameMemory s u
      ∧ ∀ g, { u.wg g with warps := [] } = { s.wg g with warps := [] }
  call   : noEngine → ∀ l ∈ (s.core k).latches, ∀ w, (w, n) ∈ l.arrived →
    (∀ l' ∈ (s.core k).latches, l'.id = l.id → l' = l) → (∀ l' ∈ (s.core k).latches, ∀ a ∈ l'.arrived, a.2 = n → l' = l ∧ a.1 = w) →
    completes ∧ (u.warp l.wg w).blocked = none ∧ (∀ g' w', (g', w') ≠ (l.wg, w) → u.warp g' w' = s.warp g' w')
      ∧ (u.core k).latches = ((s.core k).latches.map fun p =>
          if p.id = l.id then { p with arrived := p.arrived.filter fun a => a.1 ≠ w } else p).filter (fun p => !p.arrived.isEmpty)
  latch  : noEngine → (∀ l ∈ (s.core k).latches, ∀ a ∈ l.arrived, a.2 ≠ n) → ∀ g w q, s.hasWarp g w = true → s.coreOf g = k →
    (s.warp g w).blocked = some q → q.wait = .latch n →
    (∀ g' w' q', (s.warp g' w').blocked = some q' → q'.wait = .latch n → (g', w') = (g, w)) →
    completes ∧ (u.warp g w).blocked = none ∧ ∀ g' w', (g', w') ≠ (g, w) → u.warp g' w' = s.warp g' w'
  array  : noCall → ∀ o ∈ (s.core k).mma, (∃ w, (w, n) ∈ o.members) →
    (∀ o' ∈ (s.core k).mma, (∃ w, (w, n) ∈ o'.members) → o' = o) →
    (o.issued = true → u = s)
    ∧ (o.issued = false → completes
      ∧ (∀ m ∈ o.members, ((s.core k).slot m.2).live = true → ((s.core k).slot m.2).pend = none → m.2 < 4096 →
          ((u.core k).slot m.2).pend = some (handle m.2 ((s.core k).slot m.2).gen 0x01 false 0))
      ∧ (u.core k).mma = (s.core k).mma.filter (fun p => p.id ≠ o.id) ∧ SameMemory s u ∧ u.ctxs = s.ctxs
      ∧ (∀ g, (u.wg g).accs = (s.wg g).accs) ∧ (u.core k).hall.used = (s.core k).hall.used ∧ (u.core k).hall.holder = (s.core k).hall.holder
      ∧ ∀ m ∈ o.members, ∀ q, (s.warp o.wg m.1).blocked = some q → q.wait = .hall o.id → (u.warp o.wg m.1).blocked = none)
  lease  : noArray → ∀ t q, (s.core k).hwait.find? (fun p => p.1 = n) = some (n, .lease t q) →
    completes ∧ (u.core k).hwait = (s.core k).hwait.filter (fun p => p.1 ≠ n) ∧ SameMemory s u
      ∧ (((∃ p ∈ (s.core k).hwait, p.1 ≠ n ∧ p.2 = .lease t q)
          ∨ ∃ o ∈ (s.core k).mma, o.issued = false ∧ (o.ctx, o.queue) = (t, q) ∧ (s.wg o.wg).saved = false) →
          (u.core k).hall.queue = (s.core k).hall.queue)
      ∧ ((∀ p ∈ (s.core k).hwait, p.1 ≠ n → p.2 ≠ .lease t q) →
          (∀ o ∈ (s.core k).mma, o.issued = false → (o.ctx, o.queue) = (t, q) → (s.wg o.wg).saved = true) →
          (u.core k).hall.queue = (s.core k).hall.queue.filter (fun p => p ≠ (t, q)))
  launch : noLease → (∃ l ∈ (s.core k).launches, l.slot = n) →
    completes ∧ (u.core k).launches = (s.core k).launches.filter (fun l => l.slot ≠ n) ∧ { u with cores := s.cores } = s
  atomic : noLaunch → ∀ g w o, s.hasWarp g w = true → s.coreOf g = k → o ∈ (s.warp g w).ops → o.slot = some n → o.units ≠ [] →
    (∀ g' w', ∀ o' ∈ (s.warp g' w').ops, o'.slot = some n → (g', w') = (g, w) ∧ o' = o) →
    ((∀ v ∈ o.units, v.tgt.far = true ∧ v.sent = false ∧ v.done = false) →
      completes ∧ (u.warp g w).ops = (s.warp g w).ops.filter (fun p => p.id ≠ o.id) ∧ SameMemory s u)
    ∧ ((∃ v ∈ o.units, v.sent = true ∨ v.done = true) → u = s)
  other  : noLaunch → (∀ g w, ∀ o ∈ (s.warp g w).ops, o.slot ≠ some n) → u = s

/-- The table of R257 with its conditions written out. -/
def Cancels (s u : State) (k n : Nat) : Prop :=
  let c := s.core k
  let h := c.slot n
  let noEngine := ∀ e ∈ c.eops, e.slot ≠ some n
  let noCall := noEngine ∧ (∀ l ∈ c.latches, ∀ a ∈ l.arrived, a.2 ≠ n) ∧ ∀ g w q, (s.warp g w).blocked = some q → q.wait ≠ .latch n
  let noArray := noCall ∧ ∀ o ∈ c.mma, ∀ m ∈ o.members, m.2 ≠ n
  let noLease := noArray ∧ ∀ p ∈ c.hwait, p.1 ≠ n
  let noLaunch := noLease ∧ ∀ l ∈ c.launches, l.slot ≠ n
  CancelTable s u k n ((u.core k).slot n = { h with pend := some (handle n h.gen 0x01 false 0) }) noEngine noCall noArray noLease noLaunch

end Sys2Proof.Claim

/-- R255 to R258: handles. `htest` never waits: it reads [15:0] of an empty register, and a full one with bit 22 set. `hwait`
writes nothing and settles the accumulators that the handle guarded (log 43). `hbind` fills sD at once for another core or a stale generation
(a slot not taken since reset counts as one: log 86), and for a completed slot, and else binds it to the live slot. `hcancel` of a stale or
completed handle has no effect, and otherwise does what the table of R257 says of the operation. -/
def Obligations.HandleInstructions : Prop :=
  ∀ (f : Fields) (s : State) (c : Cx),
    let k := s.coreOf c.g
    let x := s.warpOf c
    (s.issuing (.htest f) = some c → c.re = false → WritesS (.htest f) s c
      (if x.isEmpty (.s f.sa.toNat) then (x.getS f.sa.toNat).extractLsb' 0 16 |>.setWidth 64
        else x.getS f.sa.toNat ||| 0x400000))
    ∧ (s.issuing (.hwait f) = some c → ∃ t, exec (.hwait f) s = .next t ∧
      Retires (s.modWg c.g fun y => { y with taint := y.taint.filter fun p => !p.2.2.contains (c.sA.toNat % 2 ^ 16) }) t c
        x (s.after c) [] [] [])
    ∧ (s.issuing (.hbind f) = some c →
      let n := c.sA.toNat % 4096
      let h := (s.core k).slot n
      let stale := c.sB.toNat ≠ k ∨ h.gen.toNat ≠ c.sA.toNat / 4096 % 16 ∨ (s.core k).fresh ≤ n
      (stale → WritesS (.hbind f) s c (BitVec.ofNat 64 (c.sA.toNat % 2 ^ 16 + 0x06 * 2 ^ 16 + 2 ^ 23)))
      ∧ (¬ stale → h.live = false → WritesS (.hbind f) s c h.final)
      ∧ (¬ stale → h.live = true → 4 ≤ h.bound.length → Traps (.hbind f) s c 0x06 c.act 0 0)
      ∧ (¬ stale → h.live = true → h.bound.length < 4 → f.dst ≠ 63 → ∃ t, exec (.hbind f) s = .next t
        ∧ Retires (s.modSlot k n fun h => { h with bound := h.bound ++ [(c.g, c.w, f.dst.toNat)] }) t c
            { x with empty := (t.warpOf c).empty } (s.after c) [f.dst.toNat] [] []
        ∧ (t.warpOf c).getS f.dst.toNat = BitVec.ofNat 64 (c.sA.toNat % 2 ^ 16)
        ∧ (∀ r, (t.warpOf c).isEmpty r = (x.isEmpty r || decide (r = .s f.dst.toNat)))))
    ∧ (s.issuing (.hcancel f) = some c → c.re = false →
      let v := x.getS f.sa.toNat
      let n := v.toNat % 4096
      let h := (s.core k).slot n
      (h.gen.toNat ≠ v.toNat / 4096 % 16 ∨ h.live = false ∨ h.pend.isSome = true → Sets (.hcancel f) s c x)
      ∧ (h.gen.toNat = v.toNat / 4096 % 16 → h.live = true → h.pend = none →
        exec (.hcancel f) s = .next ((s.cancel k n).advance c ((s.cancel k n).pcAfter c)) ∧ Cancels s (s.cancel k n) k n))

/-! Vector instructions. -/

namespace Sys2Proof.Claim

/-- What source u (0 A, 1 B, 2 C) holds in a lane: 64 bits of a pair for a 64-bit type, else 32 (R267). -/
def source (c : Cx) (u l : Nat) : Nat :=
  (lane (c.vop (2 * u)) l).toNat
    + if c.f.ty = .f64 ∨ c.f.ty = .i64 ∨ c.f.ty = .n64 then 2 ^ 32 * (lane (c.vop (2 * u + 1)) l).toNat else 0

/-- The immediate of the 96-bit form as a lane's value (R213). -/
def immediate (c : Cx) : Nat :=
  match c.f.ty with
  | .f64 => roundF fp64 0 (decodeF fp32 c.f.imm.toNat)
  | .i64 => (c.f.imm.signExtend 64).toNat
  | .n64 => (c.f.imm.signExtend 64).toNat
  | _ => c.f.imm.toNat

/-- Source B in a lane: vB, or the immediate of the 96-bit form. -/
def sourceB (c : Cx) (l : Nat) : Nat := if c.f.len = .f96 then immediate c else source c 1 l

/-- Element k of a lane, in w bits (R94). -/
def elem (w k x : Nat) : BitVec w := BitVec.ofNat w (x / 2 ^ (w * k))

/-- Instruction i writes its vector destination in the active lanes alone, each element of w bits with op of the elements
of the sources (R267, R269). -/
def WritesElements (i : Instr) (s : State) (c : Cx) (w : Nat) (op : BitVec w → BitVec w → BitVec w → BitVec w) : Prop :=
  ∃ v : Nat → Nat, WritesLanes i s c v ∧ ∀ l, l < 32 → v l < 2 ^ (if w = 64 then 64 else 32)
    ∧ ∀ k, w * k + w ≤ (if w = 64 then 64 else 32) →
      elem w k (v l) = op (elem w k (source c 0 l)) (elem w k (sourceB c l)) (elem w k (source c 2 l))

/-- The types of signed integers. -/
def signed (t : Ty) : Bool := decide (t = .i8) || decide (t = .i16) || decide (t = .i32) || decide (t = .i64)
/-- The floating-point types. -/
def float (t : Ty) : Bool := decide (t = .f16) || decide (t = .bf16) || decide (t = .f32) || decide (t = .f64)
/-- The bits of an element of a type (R211). -/
def size (t : Ty) : Nat :=
  match t with
  | .f64 | .i64 | .n64 => 64
  | .f16 | .bf16 | .i16 | .n16 => 16
  | .i8 | .n8 => 8
  | _ => 32

/-- An element as an integer of its type. -/
def intOf (t : Ty) {w : Nat} (a : BitVec w) : Int := if signed t then a.toInt else a.toNat

/-- An integer result: modulo 2^w, or clamped to the type's range under `.sat` (R268). -/
def fit (t : Ty) (sat : Bool) (w : Nat) (r : Int) : BitVec w :=
  if !sat then BitVec.ofInt w r
  else if signed t then BitVec.ofInt w (max (-2 ^ (w - 1)) (min (2 ^ (w - 1) - 1) r))
  else BitVec.ofInt w (max 0 (min (2 ^ w - 1) r))

/-- The exact value of an element of a float type. -/
def valueOf (t : Ty) {w : Nat} (a : BitVec w) : FVal := decodeF (fmtOf t) a.toNat
/-- A value rounded once into a float type (R93, R268). -/
def rounded (t : Ty) (mode w : Nat) (v : FVal) : BitVec w := BitVec.ofNat w (roundF (fmtOf t) mode v)

/-- A condition of R210 between two floats: a NaN makes the first six false but for "not equal". -/
def holdsF (sub : Nat) (a b : FVal) : Bool :=
  match sub, a.cmp b with
  | 0, some .eq => true
  | 1, some .eq => false
  | 1, _ => true
  | 2, some .lt => true
  | 3, some .lt => true
  | 3, some .eq => true
  | 4, some .gt => true
  | 5, some .gt => true
  | 5, some .eq => true
  | 6, none => true
  | 7, some _ => true
  | _, _ => false

/-- The active lanes, ascending. -/
def activeLanes (m : W32) : List Nat := (List.range 32).filter fun l => m.getLsbD l

end Sys2Proof.Claim

/-- R267 to R269, R271: integer arithmetic on every element: modulo 2^W, or clamped under `.sat`. R271, R273: bitwise operations, shifts, counts and bit fields on 32 bits. -/
def Obligations.VectorIntegerArithmetic : Prop :=
  (
  ∀ (f : Fields) (s : State) (c : Cx), float f.ty = false →
    (s.issuing (.vadd f) = some c → WritesElements (.vadd f) s c (size f.ty) fun a b _ =>
      fit f.ty (decide (f.sub = 1)) _ (intOf f.ty a + intOf f.ty b))
    ∧ (s.issuing (.vsub f) = some c → WritesElements (.vsub f) s c (size f.ty) fun a b _ =>
      fit f.ty (decide (f.sub = 1)) _ (intOf f.ty a - intOf f.ty b))
    ∧ (s.issuing (.vmul f) = some c → WritesElements (.vmul f) s c (size f.ty) fun a b _ => a * b)
    ∧ (s.issuing (.vfma f) = some c → WritesElements (.vfma f) s c (size f.ty) fun a b d => a * b + d)
    ∧ (s.issuing (.vmin f) = some c → WritesElements (.vmin f) s c (size f.ty) fun a b _ => lesser _ (signed f.ty) a b)
    ∧ (s.issuing (.vmax f) = some c → WritesElements (.vmax f) s c (size f.ty) fun a b _ => greater _ (signed f.ty) a b)
    ∧ (s.issuing (.vdiv f) = some c → WritesElements (.vdiv f) s c (size f.ty) fun a b _ => quotient _ (signed f.ty) a b)
    ∧ (s.issuing (.vmulhi f) = some c →
      WritesElements (.vmulhi f) s c (size f.ty) fun a b _ => mulHigh _ (signed f.ty) a b)
    ∧ (s.issuing (.vabs f) = some c → WritesElements (.vabs f) s c (size f.ty) fun a _ _ =>
      fit f.ty (decide (f.sub = 1)) _ (if a.toInt < 0 then -a.toInt else a.toInt))
    ∧ (s.issuing (.vneg f) = some c → WritesElements (.vneg f) s c (size f.ty) fun a _ _ =>
      fit f.ty (decide (f.sub = 1)) _ (-a.toInt))
    ∧ (s.issuing (.vdot4 f) = some c → WritesV (.vdot4 f) s c fun l =>
      let e := fun u k => elem 8 k (source c u l)
      let p := fun k => if f.ty = .i8 then (e 0 k).signExtend 32 * (e 1 k).signExtend 32
        else (e 0 k).setWidth 32 * (e 1 k).setWidth 32
      BitVec.ofNat 32 (source c 2 l) + p 0 + p 1 + p 2 + p 3))
  ∧ (
  ∀ (f : Fields) (s : State) (c : Cx),
    let a := fun l => BitVec.ofNat 32 (source c 0 l)
    let b := fun l => BitVec.ofNat 32 (sourceB c l)
    let d := fun l => BitVec.ofNat 32 (source c 2 l)
    (s.issuing (.vand f) = some c → WritesV (.vand f) s c fun l => a l &&& b l)
    ∧ (s.issuing (.vor f) = some c → WritesV (.vor f) s c fun l => a l ||| b l)
    ∧ (s.issuing (.vxor f) = some c → WritesV (.vxor f) s c fun l => a l ^^^ b l)
    ∧ (s.issuing (.vnot f) = some c → WritesV (.vnot f) s c fun l => ~~~(a l))
    ∧ (s.issuing (.vclz f) = some c → WritesV (.vclz f) s c fun l => BitVec.ofNat 32 (leadingZeros 32 (a l)))
    ∧ (s.issuing (.vpopc f) = some c → WritesV (.vpopc f) s c fun l => BitVec.ofNat 32 (ones 32 (a l)))
    ∧ (s.issuing (.vshl f) = some c → WritesV (.vshl f) s c fun l => a l <<< (b l).toNat)
    ∧ (s.issuing (.vshr f) = some c → WritesV (.vshr f) s c fun l => a l >>> (b l).toNat)
    ∧ (s.issuing (.vsra f) = some c → WritesV (.vsra f) s c fun l => (a l).sshiftRight (b l).toNat)
    ∧ (s.issuing (.vbfx f) = some c →
      WritesV (.vbfx f) s c fun l => extractField 32 (decide (f.ty = .i32)) (a l) (b l))
    ∧ (s.issuing (.vbfi f) = some c → WritesV (.vbfi f) s c fun l => insertField 32 (d l) (a l) (b l)))

/-- R268 to R272: float arithmetic on every element: the exact result, rounded once in SUB's mode; `vmin` and `vmax` follow
minimumNumber and maximumNumber. -/
def Obligations.VectorFloatArithmetic : Prop :=
  ∀ (f : Fields) (s : State) (c : Cx), float f.ty = true →
    let m := f.sub.toNat
    let val := fun {w : Nat} (a : BitVec w) => valueOf f.ty a
    (s.issuing (.vadd f) = some c → WritesElements (.vadd f) s c (size f.ty) fun a b _ =>
      rounded f.ty m _ (FVal.add m (val a) (val b)))
    ∧ (s.issuing (.vsub f) = some c → WritesElements (.vsub f) s c (size f.ty) fun a b _ =>
      rounded f.ty m _ (FVal.add m (val a) (val b).neg))
    ∧ (s.issuing (.vmul f) = some c → WritesElements (.vmul f) s c (size f.ty) fun a b _ =>
      rounded f.ty m _ (FVal.mul (val a) (val b)))
    ∧ (s.issuing (.vfma f) = some c → WritesElements (.vfma f) s c (size f.ty) fun a b d =>
      rounded f.ty m _ (FVal.add m (FVal.mul (val a) (val b)) (val d)))
    ∧ (s.issuing (.vdiv f) = some c → WritesElements (.vdiv f) s c (size f.ty) fun a b _ =>
      rounded f.ty m _ (FVal.div (val a) (val b)))
    ∧ (s.issuing (.vmin f) = some c → WritesElements (.vmin f) s c (size f.ty) fun a b _ =>
      if (val a).isNan then rounded f.ty 0 _ (val b) else if (val b).isNan then a
      else if (val a).lt (val b) || (decide ((val a).cmp (val b) = some .eq) && (val a).sign) then a else b)
    ∧ (s.issuing (.vmax f) = some c → WritesElements (.vmax f) s c (size f.ty) fun a b _ =>
      if (val a).isNan then rounded f.ty 0 _ (val b) else if (val b).isNan then a
      else if (val b).lt (val a) || (decide ((val a).cmp (val b) = some .eq) && !(val a).sign) then a else b)
    ∧ (s.issuing (.vabs f) = some c → WritesElements (.vabs f) s c (size f.ty) fun a _ _ =>
      if (val a).isNan then rounded f.ty 0 _ .nan else a &&& ~~~(BitVec.twoPow _ (size f.ty - 1)))
    ∧ (s.issuing (.vneg f) = some c → WritesElements (.vneg f) s c (size f.ty) fun a _ _ =>
      if (val a).isNan then rounded f.ty 0 _ .nan else a ^^^ BitVec.twoPow _ (size f.ty - 1))
    ∧ (s.issuing (.vsqrt f) = some c → WritesElements (.vsqrt f) s c (size f.ty) fun a _ _ =>
      rounded f.ty m _ (val a).sqrt)
    ∧ (s.issuing (.vrcp f) = some c → f.sub = 0 → WritesElements (.vrcp f) s c (size f.ty) fun a _ _ =>
      rounded f.ty 0 _ (FVal.div (.fin false 1 1 0) (val a)))
    ∧ (s.issuing (.vrsq f) = some c → f.sub = 0 → WritesElements (.vrsq f) s c (size f.ty) fun a _ _ =>
      rounded f.ty 0 _ (val a).rsqrt)
    ∧ (s.issuing (.vexp2 f) = some c → f.sub = 0 → WritesElements (.vexp2 f) s c (size f.ty) fun a _ _ =>
      rounded f.ty 0 _ (val a).exp2)
    ∧ (s.issuing (.vlog2 f) = some c → f.sub = 0 → WritesElements (.vlog2 f) s c (size f.ty) fun a _ _ =>
      rounded f.ty 0 _ (val a).log2)
    ∧ (s.issuing (.vsinpi f) = some c → f.sub = 0 → WritesElements (.vsinpi f) s c (size f.ty) fun a _ _ =>
      rounded f.ty 0 _ ((val a).trigPi false))
    ∧ (s.issuing (.vcospi f) = some c → f.sub = 0 → WritesElements (.vcospi f) s c (size f.ty) fun a _ _ =>
      rounded f.ty 0 _ ((val a).trigPi true))

/-- R93: the rounding of a positive value into each format. Towards zero gives a finite code whose value is at most the value,
and the next code, when it is finite, lies above it; each other mode gives that code or the next one: the next one upwards
unless the value is exact, never downwards, and to nearest one that is no further from the value than the other finite code, where both are
equally far the even code in mode 0 and the greater in mode 4; above the largest finite value, to nearest, that value or infinity as though
the exponent had no end (R93). A negative value gives the code of its magnitude under the mirrored mode, with the sign bit set. -/
def Obligations.FloatRounding : Prop :=
  ∀ fmt ∈ [fp64, fp32, fp16, bf16], ∀ n d (e : Int), 0 < n → 0 < d →
    let v := FVal.fin false n d e
    let t := roundF fmt 1 v
    let gap := fun x => (FVal.add 0 (decodeF fmt x) v.neg).abs
    t < fmt.infBits ∧ (decodeF fmt t).le v = true ∧ (t + 1 < fmt.infBits → v.lt (decodeF fmt (t + 1)) = true)
    ∧ roundF fmt 2 v = t
    ∧ roundF fmt 3 v = (if decodeF fmt t |>.lt v then t + 1 else t)
    ∧ (∀ m, m = 0 ∨ m = 4 → (roundF fmt m v = t ∨ roundF fmt m v = t + 1)
        ∧ (t + 1 < fmt.infBits → (∀ y, y = t ∨ y = t + 1 → (gap (roundF fmt m v)).le (gap y) = true)
          ∧ ((gap t).cmp (gap (t + 1)) = some .eq → roundF fmt m v = if m = 4 ∨ t % 2 = 1 then t + 1 else t))
        ∧ (t + 1 = fmt.infBits →
          let last := decodeF fmt t
          let half := (FVal.add 0 last (decodeF fmt (t - 1)).neg).mul (.fin false 1 2 0)
          roundF fmt m v = if (FVal.add 0 last half).le v then t + 1 else t))
    ∧ (∀ m, m ≤ 4 → roundF fmt m (.fin true n d e)
        = roundF fmt (if m = 2 then 3 else if m = 3 then 2 else m) v + fmt.signBit)

/-- R272: the special cases of the one-operand functions on f32, and the canonical NaN for every NaN. -/
def Obligations.FunctionSpecialCases : Prop :=
  let r := fun (g : FVal → FVal) x => roundF fp32 0 (g (decodeF fp32 x))
  let fs := [FVal.div (.fin false 1 1 0), FVal.rsqrt, FVal.sqrt, FVal.exp2, FVal.log2, FVal.trigPi false, FVal.trigPi true]
  fs.map (r · 0x00000000) = [0x7F800000, 0x7F800000, 0x00000000, 0x3F800000, 0xFF800000, 0x00000000, 0x3F800000]
  ∧ fs.map (r · 0x80000000) = [0xFF800000, 0xFF800000, 0x80000000, 0x3F800000, 0xFF800000, 0x80000000, 0x3F800000]
  ∧ fs.map (r · 0x7F800000) = [0x00000000, 0x00000000, 0x7F800000, 0x7F800000, 0x7F800000, 0x7FC00000, 0x7FC00000]
  ∧ fs.map (r · 0xFF800000) = [0x80000000, 0x7FC00000, 0x7FC00000, 0x00000000, 0x7FC00000, 0x7FC00000, 0x7FC00000]
  ∧ (∀ g ∈ fs, ∀ x, (decodeF fp32 x).isNan = true → r g x = 0x7FC00000)
  ∧ (∀ x, x < 2 ^ 32 → (decodeF fp32 x).lt (.fin false 0 1 0) = true →
      r FVal.rsqrt x = 0x7FC00000 ∧ r FVal.sqrt x = 0x7FC00000 ∧ r FVal.log2 x = 0x7FC00000)
  ∧ (∀ (k : Int), -149 ≤ k → k ≤ 127 →
      (decodeF fp32 (r FVal.exp2 (roundF fp32 0 (FVal.ofInt k)))).cmp (.fin false 1 1 k) = some .eq)

/-- R210, R274 to R276: compare, select, move, broadcast and convert. -/
def Obligations.VectorCompareMoveAndConvert : Prop :=
  ∀ (f : Fields) (s : State) (c : Cx),
    (s.issuing (.vcmp f) = some c → Writes (.vcmp f) s c [] [] [f.dst.toNat] fun y => ∀ l, l < 32 →
      (y.getP f.dst.toNat).getLsbD l =
        if c.act.getLsbD l then
          (if float f.ty then
            holdsF f.sub.toNat (decodeF (fmtOf f.ty) (source c 0 l)) (decodeF (fmtOf f.ty) (sourceB c l))
          else holds (size f.ty) (signed f.ty) f.sub.toNat (BitVec.ofNat _ (source c 0 l)) (BitVec.ofNat _ (sourceB c l)))
        else ((s.warpOf c).getP f.dst.toNat).getLsbD l)
    ∧ (s.issuing (.vsel f) = some c →
      WritesLanes (.vsel f) s c fun l => if c.sC.getLsbD l then source c 0 l else source c 1 l)
    ∧ (s.issuing (.vmov f) = some c → WritesLanes (.vmov f) s c fun l =>
      let x := if f.len = .f96 then immediate c else source c 0 l
      if f.ty = .f64 ∧ (decodeF fp64 x).isNan = true then 0x7FF8000000000000 else x)
    ∧ (s.issuing (.vbcast f) = some c →
      WritesLanes (.vbcast f) s c fun _ => if size f.ty = 64 then c.sA.toNat else c.sA.toNat % 2 ^ 32)
    ∧ (s.issuing (.vcvt f) = some c → WritesLanes (.vcvt f) s c fun l =>
      let st := Ty.ofCode f.sc.toNat
      let m := f.sub.toNat
      let x : BitVec (size st) := BitVec.ofNat _ ((lane (c.vop 0) l).toNat + 2 ^ 32 * (lane (c.vop 1) l).toNat)
      if float st then
        if st = f.ty then roundF (fmtOf f.ty) m ((valueOf st x).toIntegral m)
        else if float f.ty then roundF (fmtOf f.ty) m (valueOf st x)
        else
          let w := size f.ty
          (fit f.ty true w (match valueOf st x with
            | .nan => 0
            | .inf neg => if neg then -2 ^ w else 2 ^ w
            | v => (v.toInt m).getD 0)).toNat
      else if float f.ty then roundF (fmtOf f.ty) m (FVal.ofInt (intOf st x))
      else (fit f.ty true (size f.ty) (intOf st x)).toNat)

/-- R278, R279: shuffle, vote and reduce: the lanes read and counted, the reduction from the lowest active lane up. R277, R101: `vpack` and `vunpack` under a format slot: the slot is checked first, with 0x15, then the element index, with
0x06; `vpack` writes one element of each active lane and keeps the others; `vunpack` counts the reserved INT4 codes. -/
def Obligations.LanesTalkToLanes : Prop :=
  (
  ∀ (f : Fields) (s : State) (c : Cx),
    let ext := fun (x : W32) => if f.ty = .i32 then x.signExtend 64 else x.setWidth 64
    let a := fun l => lane c.vA l
    let red := fun (op : W32 → W32 → W32) (start : W32 → W32) (none_ : W32) =>
      match activeLanes c.act with
      | [] => none_
      | l :: ls => ls.foldl (fun x l => op x (a l)) (start (a l))
    (s.issuing (.vshfl f) = some c → WritesV (.vshfl f) s c fun l =>
      let b := sourceB c l
      let src : Int := match f.sub.toNat with
        | 0 => (b % 32 : Nat)
        | 1 => (l : Int) - b
        | 2 => (l : Int) + b
        | _ => (l ^^^ (b % 32) : Nat)
      lane c.vA (if src < 0 ∨ 31 < src then l else src.toNat))
    ∧ (s.issuing (.vvoteBallot f) = some c →
      WritesS (.vvoteBallot f) s c ((0 : W32) ++ (c.act &&& c.sA.extractLsb' 0 32)))
    ∧ (s.issuing (.vvoteAny f) = some c →
      WritesS (.vvoteAny f) s c (if (activeLanes c.act).any fun l => c.sA.getLsbD l then 1 else 0))
    ∧ (s.issuing (.vvoteAll f) = some c →
      WritesS (.vvoteAll f) s c (if (activeLanes c.act).any fun l => !c.sA.getLsbD l then 0 else 1))
    ∧ (s.issuing (.vred f) = some c → f.ty ≠ .f32 → WritesS (.vred f) s c (ext (match f.sub.toNat with
      | 0 => red (· + ·) id 0
      | 1 => red (lesser 32 (decide (f.ty = .i32))) id (if f.ty = .i32 then 0x7FFFFFFF else 0xFFFFFFFF)
      | 2 => red (greater 32 (decide (f.ty = .i32))) id (if f.ty = .i32 then 0x80000000 else 0)
      | 3 => red (· &&& ·) id 0xFFFFFFFF
      | 4 => red (· ||| ·) id 0
      | _ => red (· ^^^ ·) id 0)))
    ∧ (s.issuing (.vred f) = some c → f.ty = .f32 →
      let val := fun (x : W32) => decodeF fp32 x.toNat
      let canon := fun x => rounded .f32 0 32 (val x)
      WritesS (.vred f) s c (ext (match f.sub.toNat with
      | 0 => red (fun x y => rounded .f32 0 32 (FVal.add 0 (val x) (val y))) canon 0
      | 1 => red (fun x y => rounded .f32 0 32 (FVal.pick true (val x) (val y))) canon 0x7F800000
      | _ => red (fun x y => rounded .f32 0 32 (FVal.pick false (val x) (val y))) canon 0xFF800000))))
  ∧ (
  ∀ (f : Fields) (s : State) (c : Cx),
    let sl := (s.wg c.g).slot f.fs.toNat
    let w := match sl.elem with | 0 => 32 | 1 => 16 | 2 => 16 | 3 => 8 | 4 => 8 | _ => 4
    let k := f.sub.toNat
    let scale := if sl.skind = 1 then decodeF fp32 sl.tscale else FVal.fin false 1 1 0
    ((sl.ok = false ∨ sl.skind = 2) →
      (s.issuing (.vpack f) = some c → Traps (.vpack f) s c 0x15 c.act 0 0)
      ∧ (s.issuing (.vunpack f) = some c → Traps (.vunpack f) s c 0x15 c.act 0 0))
    ∧ (sl.ok = true → sl.skind ≠ 2 → 32 ≤ w * k →
      (s.issuing (.vpack f) = some c → Traps (.vpack f) s c 0x06 c.act 0 0)
      ∧ (s.issuing (.vunpack f) = some c → Traps (.vunpack f) s c 0x06 c.act 0 0))
    ∧ (sl.ok = true → sl.skind ≠ 2 → w * k < 32 →
      (s.issuing (.vpack f) = some c → ∃ v : Nat → W32, WritesV (.vpack f) s c v ∧ ∀ l, l < 32 →
        ∀ j, w * j < 32 → elem w j (v l).toNat =
          if j = k then BitVec.ofNat w (elemOf sl.elem sl.round ((decodeF fp32 (lane c.vA l).toNat).div scale))
          else elem w j (lane ((s.warpOf c).getV f.dst.toNat) l).toNat)
      ∧ (s.issuing (.vunpack f) = some c → (s.ccore (s.coreOf c.g) 0x203).toNat < 2 ^ 32 →
        let el := fun l => (elem w k (lane c.vA l).toNat).toNat
        let n := if sl.elem = 5 then ((activeLanes c.act).filter fun l => el l = 8).length else 0
        let core := s.coreOf c.g
        ∃ t, exec (.vunpack f) s = .next t
          ∧ Retires (s.putCore core 0x203 (BitVec.ofNat 64 (min (2 ^ 32 - 1) ((s.ccore core 0x203).toNat + n)))) t c
              (s.warpOf c) (s.after c) [] [f.dst.toNat] []
          ∧ ∀ l, l < 32 → lane ((t.warpOf c).getV f.dst.toNat) l =
              if c.act.getLsbD l then
                rounded .f32 sl.round 32 ((elemValue sl.elem (el l)).mul scale)
              else lane ((s.warpOf c).getV f.dst.toNat) l)))

/-- R97, R98: the value of every Taper8 code, by its leading zeros, rising with the code, and the nearest code to a value: saturating, with
ties to an even code, +0 for what rounds to zero, and NaR for a NaN. -/
def Obligations.Taper8ValuesAndRounding : Prop :=
  (∀ c, 0 < c → c < 128 →
    let z := 6 - Nat.log2 c
    let fw := 4 - z
    let b := match z with | 0 => (0 : Int) | 1 => -4 | 2 => -8 | 3 => -12 | 4 => -16 | 5 => -18 | _ => -19
    let rest := c - 2 ^ (6 - z)
    ∀ sgn, sgn ≤ 1 → (taperValue (c + 128 * sgn)).cmp
      (.fin (decide (sgn = 1)) (2 ^ fw + rest % 2 ^ fw) (2 ^ fw) (b + (rest / 2 ^ fw : Nat))) = some .eq)
  ∧ taperValue 0 = .fin false 0 1 (-19) ∧ taperValue 0x80 = .nan
  ∧ (∀ c c', c < c' → c' < 128 → (taperValue c).lt (taperValue c') = true)
  ∧ taperBits .nan = 0x80 ∧ taperBits (.inf false) = 0x7F ∧ taperBits (.inf true) = 0xFF
  ∧ (∀ n d (e : Int), 0 < d → let v := FVal.fin false n d e
      let x := taperBits v
      x < 128
      ∧ (∀ y, y < 128 → ((FVal.add 0 (taperValue x) v.neg).abs.le (FVal.add 0 (taperValue y) v.neg).abs) = true
        ∧ (y ≠ x → ((FVal.add 0 (taperValue y) v.neg).abs.le (FVal.add 0 (taperValue x) v.neg).abs) = true → x % 2 = 0))
      ∧ ((FVal.fin false 31 2 0).le v = true → x = 0x7F)
      ∧ taperBits (.fin true n d e) = if x = 0 then 0 else x + 128)

/-! Memory instructions and the ordering machine. -/

namespace Sys2Proof.Claim

/-- The address of a lane (R280): the scalar base, the lane's 32-bit signed offset under VOFF, and the displacement. -/
def address (c : Cx) (voff : Bool) (l : Nat) : Nat :=
  (c.sA + (if voff then (lane c.vB l).signExtend 64 else 0) + c.f.imm.signExtend 64).toNat

/-- The bytes that a memory access of a type moves (R281). -/
def width (t : Ty) : Nat := size t / 8

/-- The n low bytes of a number, lowest first. -/
def lowBytes (n x : Nat) : List W8 := (List.range n).map fun i => BitVec.ofNat 8 (x / 256 ^ i)

/-- Every lane (with its address) of an access of n aligned bytes passes the checks of R282, in state s, and meets no data
watchpoint (R200): s1 is the state that the translations leave, `l` has where each lane lands. -/
structure Lands (s : State) (c : Cx) (lanes : List (Nat × Nat)) (n : Nat) (acc : Acc) (kind : State → Target → Option Cause)
    (s1 : State) (l : List (Nat × Nat × Target)) : Prop where
  checked : ∃ q, s.checkLanes (s.wg c.g).ctx (some (c.g, c.w)) n n acc kind lanes [] = .lanes s1 q ∧
    q.map (fun x => (x.lane, x.va)) = lanes ∧ q.map (fun x => x.at_.toOption) = l.map fun p => some p.2.2
  same    : l.map (fun p => (p.1, p.2.1)) = lanes
  watched : s1.watch c n lanes = none

/-- No lane lands in memory of the host or of a peer. -/
def Near (l : List (Nat × Nat × Target)) : Prop := ∀ p ∈ l, p.2.2.far = false

/-- Instruction i issues as an unfinished instruction of its warp, whose destinations become empty (R27, R121): nothing else
changes but what the state s1 has already, and the next identity. -/
def Starts (i : Instr) (s s1 : State) (c : Cx) (dst : List Reg) (o : Nat → Op) : Prop :=
  ∃ t, exec i s = .next t
    ∧ Retires { s1 with nextId := s1.nextId + 1 } t c
        { s1.warpOf c with ops := (s1.warpOf c).ops ++ [o s1.nextId], empty := (t.warpOf c).empty } (s1.after c) [] [] []
    ∧ ∀ r, (t.warpOf c).isEmpty r = ((s1.warpOf c).isEmpty r || (dst.contains r && decide (r ≠ .s 63)))

/-- The same for an operation that some lane makes on memory of the host or of a peer: its warp then parks until the operation is over,
or enters poll state (R32, R33). -/
def StartsFar (i : Instr) (s s1 : State) (c : Cx) (dst : List Reg) (o : Nat → Op) : Prop :=
  ∃ t, exec i s = .next t ∧ (t.warpOf c).ops = (s1.warpOf c).ops ++ [o s1.nextId] ∧ (t.warpOf c).pc = s1.after c
    ∧ ((t.warpOf c).parked = [.op s1.nextId] ∨ (t.warpOf c).poll = true)
    ∧ ∀ r, (t.warpOf c).isEmpty r = ((s1.warpOf c).isEmpty r || (dst.contains r && decide (r ≠ .s 63)))

/-- One unit for each lane of an access of at most 8 bytes (R117). -/
def laneUnits (n : Nat) (wr cmp : Nat → List W8) (l : List (Nat × Nat × Target)) : List MUnit :=
  l.map fun p => { lane := p.1, off := 0, size := n, va := p.2.1, tgt := p.2.2, wr := wr p.1, cmp := cmp p.1 }

/-- Two units of 8 bytes for each lane of an access of 16 (R117, R283). -/
def laneUnits16 (wr : Nat → List W8) (l : List (Nat × Nat × Target)) : List MUnit :=
  l.flatMap fun p => [0, 8].map fun k =>
    { lane := p.1, off := k, size := 8, va := p.2.1 + k, tgt := p.2.2.add k, wr := ((wr p.1).drop k).take 8 }

/-- The destination registers of a vector result of a type. -/
def pairOf (t : Ty) (d : Nat) : List Reg := if size t = 64 then [.v d, .v (d + 1)] else [.v d]

end Sys2Proof.Claim

/-- R280 to R285, R121: a load whose every active lane passes its checks on memory of the module enters the issue queue, its
destinations empty, with a unit at each lane's address; its warp parks where a lane lands in memory of the host or of a peer, until the
operation is over (log 38). So does a store, with the bytes of each lane, unless it has no active lane and no release, when it has no effect; its warp goes on. Neither
touches memory before its units are performed. -/
def Obligations.LoadsAndStoresEnterTheQueue : Prop :=
  ∀ (f : Fields) (s s1 : State) (c : Cx) (l : List (Nat × Nat × Target)),
    let n := width f.ty
    let t := (s.wg c.g).ctx
    let d := f.dst.toNat
    let vec := (activeLanes c.act).map fun k => (k, address c (f.sub.getLsbD 2) k)
    let sca := [(0, address c false 0)]
    let kind := fun (s : State) => s.kindCause (s.wg c.g).ctx (decide (f.fs = 6)) true
    let op := fun (k : OpKind) id => ({ id := id, ins := c.ins, kind := k, ty := f.ty, scope := f.fs.toNat, ctx := t } : Op)
    let laneData := fun k => lowBytes n ((lane (c.vop 4) k).toNat + 2 ^ 32 * (lane (c.vop 5) k).toNat)
    let quad := fun k => (List.range 4).flatMap fun i =>
      lowBytes 4 (lane (if i < 2 then c.vop (4 + i) else (s.warpOf c).getV (f.sc.toNat + i)) k).toNat
    let stores := fun (i : Instr) (us : List MUnit) (m : Nat) =>
      if us = [] ∧ f.sub.getLsbD 0 = false then ∃ t, exec i s = .next t ∧ Retires s1 t c (s1.warpOf c) (s1.after c) [] [] []
      else Starts i s s1 c [] fun id => { op .store id with rel := f.sub.getLsbD 0, units := us, width := m }
    let loads := fun (i : Instr) (dst : List Reg) (o : Nat → Op) => (Near l → Starts i s s1 c dst o) ∧ (¬ Near l → StartsFar i s s1 c dst o)
    (s.issuing (.ld f) = some c → Lands s c vec n .read kind s1 l →
      loads (.ld f) (pairOf f.ty d) fun id =>
        { op .load id with ins := { c.ins with held := pairOf f.ty d }, acq := f.sub.getLsbD 0
                           units := laneUnits n (fun _ => []) (fun _ => []) l, dst := some (.v d), width := n })
    ∧ (s.issuing (.ldp f) = some c → d % 4 = 0 → Lands s c vec 16 .read kind s1 l →
      let q := [Reg.v d, .v (d + 1), .v (d + 2), .v (d + 3)]
      loads (.ldp f) q fun id =>
        { op .load id with ins := { c.ins with held := q }, acq := f.sub.getLsbD 0
                           units := laneUnits16 (fun _ => []) l, dst := some (.v d), width := 16 })
    ∧ (s.issuing (.lds f) = some c → Lands s c sca n .read kind s1 l →
      loads (.lds f) [.s d] fun id =>
        { op .load id with ins := { c.ins with held := [.s d] }, acq := f.sub.getLsbD 0
                           units := laneUnits n (fun _ => []) (fun _ => []) l, dst := some (.s d), width := n })
    ∧ (s.issuing (.st f) = some c → Lands s c vec n .write kind s1 l →
      stores (.st f) (laneUnits n laneData (fun _ => []) l) n)
    ∧ (s.issuing (.stp f) = some c → f.sc.toNat % 4 = 0 → Lands s c vec 16 .write kind s1 l → stores (.stp f) (laneUnits16 quad l) 16)
    ∧ (s.issuing (.sts f) = some c → Lands s c sca n .write kind s1 l →
      stores (.sts f) (laneUnits n (fun _ => lowBytes n c.sC.toNat) (fun _ => []) l) n)
    ∧ ((∀ k ∈ activeLanes c.act, address c (f.sub.getLsbD 2) k % n = 0
        ∧ address c (f.sub.getLsbD 2) k + n ≤ 1024 * (s.wg c.g).shape.localK) →
      let at_ := vec.map fun p => (p.1, p.2, Target.loc p.2)
      (s.issuing (.ldl f) = some c → Starts (.ldl f) s s c (pairOf f.ty d) fun id =>
        { op .load id with ins := { c.ins with held := pairOf f.ty d }, scope := 0
                           units := laneUnits n (fun _ => []) (fun _ => []) at_, dst := some (.v d), width := n })
      ∧ (s.issuing (.stl f) = some c →
        if c.act = 0 then Sets (.stl f) s c (s.warpOf c)
        else Starts (.stl f) s s c [] fun id =>
          { op .store id with scope := 0, units := laneUnits n laneData (fun _ => []) at_, width := n }))

/-- R287 to R291, R121: atomics, fences, prefetches and flushes enter the issue queue; a release at SYS that waits for answers of peers
parks its warp, and so does an atomic of which a lane lands in memory of the host or of a peer (log 38). An atomic with a handle takes a slot
(R31), whose SLOT and GEN its register holds, empty, until the handle completes, and waits where no slot is free; with no active lane and no
ordering to do, its handle is done at once. -/
def Obligations.AtomicsAndFencesEnterTheQueue : Prop :=
  ∀ (f : Fields) (s s1 : State) (c : Cx) (l : List (Nat × Nat × Target)),
    let n := width f.ty
    let t := (s.wg c.g).ctx
    let k := s.coreOf c.g
    let d := f.dst.toNat
    let h := f.dst2.toNat
    let x := s1.warpOf c
    let vec := (activeLanes c.act).map fun j => (j, address c (f.ext.getLsbD 2) j)
    let plain := decide (f.sub = 0 ∧ f.ty ≠ .f32) || decide (f.sub = 1) || decide (f.sub = 2)
    let order := f.ext.getLsbD 0 || f.ext.getLsbD 1
    let kind := fun (s : State) => s.kindCause (s.wg c.g).ctx (decide (f.fs = 6)) plain
    let data := fun u j => lowBytes n ((lane (c.vop (2 * u)) j).toNat + 2 ^ 32 * (lane (c.vop (2 * u + 1)) j).toNat)
    let op := fun (r : Reg) (us : List MUnit) id => ({ id := id, ins := c.ins, kind := .atomic f.sub.toNat, ctx := t, ty := f.ty, scope := f.fs.toNat, units := us, dst := some r, width := n
                                                       acq := f.ext.getLsbD 0, rel := f.ext.getLsbD 1, feb := f.feb.getLsbD 0
                                                       faults := c.ins.faults, fellBack := c.ins.fellBack } : Op)
    let begins := fun (i : Instr) (dst : List Reg) (o : Nat → Op) =>
      let idle := l = [] ∧ order = false
      let withSlot := fun slot id => { o id with
        ins := { c.ins with held := dst ++ [.s h], prior := if c.ins.prior = [] then [(h, x.getS h)] else c.ins.prior }
        slot := some slot, closed := decide idle }
      if h = 63 then
        (Near l → Starts i s s1 c dst fun id => { o id with ins := { c.ins with held := dst } })
        ∧ (¬ Near l → StartsFar i s s1 c dst fun id => { o id with ins := { c.ins with held := dst } })
      else
        (∀ slot s2, s1.takeSlot k t (some (c.g, c.w, h)) = some (slot, s2) → ∃ t', exec i s = .next t'
          ∧ (Near l → ¬ idle → Retires { s1 with nextId := s1.nextId + 1, cores := s2.cores } t' c
              { x with ops := x.ops ++ [withSlot slot s1.nextId], empty := (t'.warpOf c).empty } (s1.after c) [h] [] [])
          ∧ (idle → c.ins.faults = [] → c.ins.fellBack = false → slot < 4096 → Retires { s1 with nextId := s1.nextId + 1, cores := t'.cores } t' c
                { x with ops := x.ops ++ [withSlot slot s1.nextId], empty := (t'.warpOf c).empty } (s1.after c) [h] [] []
              ∧ ((t'.core k).slot slot).pend = some (handle slot ((s2.core k).slot slot).gen 0 false 0))
          ∧ (¬ Near l → (t'.warpOf c).ops = x.ops ++ [withSlot slot s1.nextId] ∧ (t'.warpOf c).pc = s1.after c
              ∧ ((t'.warpOf c).parked = [.op s1.nextId] ∨ (t'.warpOf c).poll = true))
          ∧ (t'.warpOf c).getS h = BitVec.ofNat 64 (slot + 4096 * ((s2.core k).slot slot).gen.toNat)
          ∧ ∀ r, (t'.warpOf c).isEmpty r = (x.isEmpty r || ((dst ++ [Reg.s h]).contains r && decide (r ≠ .s 63))))
        ∧ (s1.takeSlot k t (some (c.g, c.w, h)) = none → ∃ t', exec i s = .next t' ∧ (t'.warpOf c).ops = (s.warpOf c).ops
          ∧ (t'.warpOf c).pc = (s.warpOf c).pc ∧ ((t'.warpOf c).parked = [.slot] ∨ (t'.warpOf c).poll = true) ∧ t'.cur = none
          ∧ (∀ r, (t'.warpOf c).isEmpty r = (s.warpOf c).isEmpty r) ∧ (∀ n, (t'.warpOf c).getS n = (s.warpOf c).getS n))
    let fence := fun (acq rel : Bool) id => ({ id := id, ins := c.ins, kind := .fence, scope := f.fs.toNat, acq := acq, rel := rel, ctx := t } : Op)
    (s.issuing (.atom f) = some c → Lands s c vec n .atomic kind s1 l →
      begins (.atom f) (pairOf f.ty d) (op (.v d) (laneUnits n (data 2) (data 3) l)))
    ∧ (s.issuing (.atoms f) = some c → Lands s c [(0, address c false 0)] n .atomic kind s1 l →
      begins (.atoms f) [.s d]
        (op (.s d) (laneUnits n (fun _ => lowBytes n c.sC.toNat) (fun _ => lowBytes n c.sD.toNat) l)))
    ∧ (s.issuing (.fenceAcq f) = some c → Starts (.fenceAcq f) s s c [] (fence true false))
    ∧ ((f.fs ≠ 5 ∨ s.peerPending c.g c.w = false) →
      (s.issuing (.fenceRel f) = some c → Starts (.fenceRel f) s s c [] (fence false true))
      ∧ (s.issuing (.fenceAr f) = some c → Starts (.fenceAr f) s s c [] (fence true true)))
    ∧ (f.fs = 5 → s.peerPending c.g c.w = true →
      (s.issuing (.fenceRel f) = some c → StartsFar (.fenceRel f) s s c [] (fence false true))
      ∧ (s.issuing (.fenceAr f) = some c → StartsFar (.fenceAr f) s s c [] (fence true true)))
    ∧ (∀ us, s.issuing (.pref f) = some c →
      s.prefLanes t (some (c.g, c.w)) ((activeLanes c.act).map fun j => (j, address c (f.sub.getLsbD 2) j)) [] = (s1, some us) →
      if us = [] then ∃ t', exec (.pref f) s = .next t' ∧ Retires s1 t' c x (s1.after c) [] [] []
      else Starts (.pref f) s s1 c [] fun id => { id := id, ins := c.ins, kind := .load, ctx := t, width := 0, units := laneUnits 128 (fun _ => []) (fun _ => []) us })
    ∧ (∀ us, s.issuing (.cflush f) = some c → f.imm ≠ 0 → f.imm.toNat ≤ 2 ^ 24 →
      s.flushUnits t (some (c.g, c.w)) (cutLastKib (pagePieces 258 c.sA.toNat f.imm.toNat)) [] = (s1, some us) →
      if us = [] then ∃ t', exec (.cflush f) s = .next t' ∧ Retires s1 t' c x (s1.after c) [] [] []
      else Starts (.cflush f) s s1 c [] fun id => { id := id, ins := c.ins, kind := .cflush, scope := f.fs.toNat, ctx := t, units := us })

namespace Sys2Proof.Claim

/-- The lanes of an access of n aligned bytes checked one after the other (R282), each in the state that the translations of those before it
leave: alignment first, then the translation with its permissions, then the memory kind. The result has what each lane finds. -/
inductive Checks (t : Nat) (who : Walker) (n : Nat) (acc : Acc) (kind : State → Target → Option Cause) :
    State → List (Nat × Nat) → State → List (Nat × Nat × Option Cause) → Prop where
  | none (s) : Checks t who n acc kind s [] s []
  | odd (s l va rest s1 q) : va % n ≠ 0 → Checks t who n acc kind s rest s1 q → Checks t who n acc kind s ((l, va) :: rest) s1 ((l, va, some 0x09) :: q)
  | fault (s l va rest s1 q c e) : va % n = 0 → s.translate t 0 va n acc who = .fault c e →
      Checks t who n acc kind (s.missed t who e) rest s1 q → Checks t who n acc kind s ((l, va) :: rest) s1 ((l, va, some c) :: q)
  | lands (s l va rest s1 q tgt e) : va % n = 0 → s.translate t 0 va n acc who = .ok tgt e →
      Checks t who n acc kind (s.translated t who e) rest s1 q → Checks t who n acc kind s ((l, va) :: rest) s1 ((l, va, kind s tgt) :: q)

/-- Some lane has found a cause: instruction i performs no lane, and traps with the lowest cause, for the lanes that found it, with the
address of the first of them (R158). -/
def TrapsLowest (i : Instr) (s s1 : State) (c : Cx) (q : List (Nat × Nat × Option Cause)) : Prop :=
  ∀ cause lo va, (lo, va, some cause) ∈ q → (∀ x ∈ q, ∀ c', x.2.2 = some c' → cause.toNat ≤ c'.toNat) →
    (q.find? fun x => x.2.2 = some cause) = some (lo, va, some cause) →
    exec i s = .next (s1.trapCx c (some c.ins) cause (maskOf fun k => q.any fun x => decide (x.1 = k ∧ x.2.2 = some cause)) (BitVec.ofNat 64 va) 0)

end Sys2Proof.Claim

/-- R158, R282, R283, R291: the loads, stores and atomics of global memory check every lane and trap with the lowest cause that one finds;
0x06 for WG.remote on memory of the host or of a peer, and for an atomic that a peer does not perform (R289), 0x11 for a peer that is not
there or not reachable. A quad index that is not a multiple of 4 raises 0x06; a scalar access whose address is not a multiple of its size raises 0x09 for lane 0; a local access
raises the lowest cause of its lanes, 0x09 before 0x1E, for the lanes that find it, with the lowest one's offset; a flush of
no bytes or of more than 16 MiB raises 0x06. -/
def Obligations.MemoryAccessesThatTrap : Prop :=
  (∀ (f : Fields) (s s1 : State) (c : Cx) q,
    let n := width f.ty
    let t := (s.wg c.g).ctx
    let vec := fun voff => (activeLanes c.act).map fun k => (k, address c voff k)
    let sca := [(0, address c false 0)]
    let far := decide (f.fs = 6)
    let plain := fun (s : State) => s.kindCause t far true
    let atomic := fun (s : State) => s.kindCause t far (decide (f.sub = 0 ∧ f.ty ≠ .f32) || decide (f.sub = 1) || decide (f.sub = 2))
    let checks := fun lanes n acc kind => Checks t (some (c.g, c.w)) n acc kind s lanes s1 q
    (s.issuing (.ld f) = some c → checks (vec (f.sub.getLsbD 2)) n .read plain → TrapsLowest (.ld f) s s1 c q)
    ∧ (s.issuing (.ldp f) = some c → f.dst.toNat % 4 = 0 → checks (vec (f.sub.getLsbD 2)) 16 .read plain → TrapsLowest (.ldp f) s s1 c q)
    ∧ (s.issuing (.lds f) = some c → checks sca n .read plain → TrapsLowest (.lds f) s s1 c q)
    ∧ (s.issuing (.st f) = some c → checks (vec (f.sub.getLsbD 2)) n .write plain → TrapsLowest (.st f) s s1 c q)
    ∧ (s.issuing (.stp f) = some c → f.sc.toNat % 4 = 0 → checks (vec (f.sub.getLsbD 2)) 16 .write plain → TrapsLowest (.stp f) s s1 c q)
    ∧ (s.issuing (.sts f) = some c → checks sca n .write plain → TrapsLowest (.sts f) s s1 c q)
    ∧ (s.issuing (.atom f) = some c → checks (vec (f.ext.getLsbD 2)) n .atomic atomic → TrapsLowest (.atom f) s s1 c q)
    ∧ (s.issuing (.atoms f) = some c → checks sca n .atomic atomic → TrapsLowest (.atoms f) s s1 c q))
  ∧ (∀ (s : State) t remote atomOk, (∀ pa key, s.kindCause t remote atomOk (.dev pa key) = none)
    ∧ (∀ a hx, s.kindCause t remote atomOk (.host a hx) = if remote = true then some 0x06 else none)
    ∧ ∀ p pctx a, s.kindCause t remote atomOk (.peer p pctx a) =
        if remote = true ∨ atomOk = false then some 0x06
        else if s.peerAddr p = none ∨ (s.stream t p).dead = true then some 0x11 else none)
  ∧ ∀ (f : Fields) (s : State) (c : Cx),
    let n := width f.ty
    let a := address c false 0
    (a % n ≠ 0 →
      (s.issuing (.lds f) = some c → Traps (.lds f) s c 0x09 1 (BitVec.ofNat 64 a) 0)
      ∧ (s.issuing (.sts f) = some c → Traps (.sts f) s c 0x09 1 (BitVec.ofNat 64 a) 0)
      ∧ (s.issuing (.atoms f) = some c → Traps (.atoms f) s c 0x09 1 (BitVec.ofNat 64 a) 0))
    ∧ (let at_ := address c (f.sub.getLsbD 2)
       let odd := fun k => decide (at_ k % n ≠ 0)
       let out := fun k => !odd k && decide (1024 * (s.wg c.g).shape.localK < at_ k + n)
       ∀ cause hit lo, ((cause = (0x09 : Cause) ∧ hit = odd) ∨ (cause = 0x1E ∧ hit = out ∧ ∀ k ∈ activeLanes c.act, odd k = false)) →
        lo ∈ activeLanes c.act → hit lo = true → (∀ k ∈ activeLanes c.act, hit k = true → lo ≤ k) →
        let mask := BitVec.ofNat 32 ((activeLanes c.act).foldr (fun k m => if hit k then m + 2 ^ k else m) 0)
        (s.issuing (.ldl f) = some c → Traps (.ldl f) s c cause mask (BitVec.ofNat 64 (at_ lo)) 0)
        ∧ (s.issuing (.stl f) = some c → Traps (.stl f) s c cause mask (BitVec.ofNat 64 (at_ lo)) 0))
    ∧ (s.issuing (.ldp f) = some c → f.dst.toNat % 4 ≠ 0 → Traps (.ldp f) s c 0x06 c.act 0 0)
    ∧ (s.issuing (.stp f) = some c → f.sc.toNat % 4 ≠ 0 → Traps (.stp f) s c 0x06 c.act 0 0)
    ∧ (s.issuing (.cflush f) = some c → (f.imm = 0 ∨ 2 ^ 24 < f.imm.toNat) → Traps (.cflush f) s c 0x06 c.act 0 0)

/-- R117, R121 to R124, R128, R177, R178: IQ_PERFORM of a unit of device memory that R121 lets be performed, in a line without
errors. A plain load keeps the bytes that its core reads, and one at a scope those that the buffers of its level and above, or V, hold; it
leaves V and Y as they are. A store places its bytes at the level of its scope, where a read then finds them, below DEV without changing V; an
atomic does both as one step, at DEV where it names no scope (R289), and leaves old op operand. At WG.remote all three act as at DEV. These
are stated where the warp has no store entry of its own for the bytes below the level, which would move up first (R125), and for WG.remote where no release-marked
entry for them stands in any buffer (R130). R288: the result that each atomic operation leaves, from the old value, its operand and its
comparand. -/
def Obligations.UnitsArePerformed : Prop :=
  (
  ∀ (s : State) g w id k copies (o : Op) (u : MUnit) pa key,
    s.hasWarp g w = true → (s.warp g w).trapping = none → s.opOf g w id = some o → o.performed = false → o.units[k]? = some u →
    u.done = false → u.sent = false → u.fault = none → o.failed = [] →
    orderOk ((s.warp g w).before id) o = true → bytesOk ((s.warp g w).before id) u = true → (o.rel = false ∨ o.opened = true) →
    s.ue = [] → s.ce = [] → u.tgt = .dev pa key →
    let c := s.coreOf g
    ∀ lvl, (lvl = if o.scope = 6 then 4 else if o.scope ≠ 0 then o.scope else match o.kind with | .atomic _ => 4 | _ => 1) → lvl ≤ 5 →
    (∀ b ∈ path c, b.level < lvl → ∀ e ∈ s.buf b, e.own = some (g, w) → e.touches true pa u.size = false) →
    (o.scope = 6 → ∀ b, ∀ e ∈ s.buf b, e.rel = true → e.touches true pa u.size = false) →
    (o.kind = .load → ∃ t rd, exec (.iqPerform g w id k copies) s = .next t ∧ rd.length = u.size
      ∧ (∀ i v, i < u.size → s.readByte c lvl true (pa + i) key = some v → rd.getD i 0 = v)
      ∧ t.vmem = s.vmem ∧ t.ymem = s.ymem
      ∧ (o.ins.held ≠ [] → ∃ o', t.opOf g w id = some o' ∧ o'.units = modAt (fun u => { u with done := true, sent := false, rd := rd, fault := none }) k o.units))
    ∧ (o.kind = .store → shadowed o u = false → u.wr.length = u.size → ∃ t, exec (.iqPerform g w id k copies) s = .next t
      ∧ (lvl ≤ 3 → t.vmem = s.vmem) ∧ t.ymem = s.ymem
      ∧ (∀ i, i < u.size → t.readByte c lvl true (pa + i) key = u.wr[i]?)
      ∧ (∀ a key' dev, (dev = false ∨ a < pa ∨ pa + u.size ≤ a) → ∀ lvl, t.readByte c lvl dev a key' = s.readByte c lvl dev a key'))
    ∧ (∀ n, o.kind = .atomic n → 0 < u.size → (∀ i, i < u.size → (s.readByte c lvl true (pa + i) key).isSome = true) →
      let old := (List.range u.size).map fun i => (s.readByte c lvl true (pa + i) key).getD 0
      ∃ t, exec (.iqPerform g w id k copies) s = .next t
        ∧ (∀ i, i < u.size → t.readByte c lvl true (pa + i) key
            = (lowBytes u.size (atomNew n o.ty (leVal old) (leVal u.wr) (leVal u.cmp)))[i]?)
        ∧ (o.ins.held ≠ [] → ∃ o', t.opOf g w id = some o' ∧ o'.units = modAt (fun u => { u with done := true, sent := false, rd := old, fault := none }) k o.units)))
  ∧ (
  ∀ (t : Ty) (w old x e : Nat), (t = .i32 ∨ t = .n32 ∨ t = .b32 → w = 32) → (t = .i64 ∨ t = .n64 → w = 64) →
    (t = .i32 ∨ t = .n32 ∨ t = .b32 ∨ t = .i64 ∨ t = .n64) → old < 2 ^ w → x < 2 ^ w → e < 2 ^ w →
    let a := BitVec.ofNat w old
    let b := BitVec.ofNat w x
    let r := fun op => BitVec.ofNat w (atomNew op t old x e)
    r 0 = a + b ∧ r 1 = b ∧ r 2 = (if old = e then b else a) ∧ r 3 = lesser w (signed t) a b ∧ r 4 = greater w (signed t) a b
    ∧ r 5 = a &&& b ∧ r 6 = a ||| b ∧ r 7 = a ^^^ b ∧ ∀ op, atomNew op t old x e < 2 ^ w)
  ∧ (∀ (old x e : Nat), old < 2 ^ 32 → x < 2 ^ 32 →
    let val := decodeF fp32
    let pick := fun (less : Bool) => if (val old).isNan then roundF fp32 0 (val x) else if (val x).isNan then old
      else if (val old).cmp (val x) = some .eq then (if (val old).sign = less then old else x)
      else if (val old).lt (val x) = less then old else x
    atomNew 0 .f32 old x e = roundF fp32 0 (FVal.add 0 (val old) (val x)) ∧ atomNew 3 .f32 old x e = pick true ∧ atomNew 4 .f32 old x e = pick false)

/-! Handles, completions, the engines and the barriers. -/

namespace Sys2Proof.Claim

/-- Instruction i takes a handle slot (R31), bound to its scalar destination, and joins the engine queue of its core; all
else is as in s but for the warp, which is x. -/
def Queues (i : Instr) (s : State) (c : Cx) (x : Warp) (kind : EKind) (us : List EUnit) (rd : List Place) : Prop :=
  let k := s.coreOf c.g
  let d := c.f.dst.toNat
  let waits := ((s.warpOf c).ops.filter fun o => o.isMem && !o.performed).map (·.id)
  let op := fun n => ({ id := s.nextId, wg := c.g, w := c.w, ctx := (s.wg c.g).ctx, kind := kind, slot := some n, after := waits
                        units := us, reads := rd } : EOp)
  ∀ n s2, s.takeSlot k (s.wg c.g).ctx (some (c.g, c.w, d)) = some (n, s2) → ∃ t, exec i s = .next t
    ∧ Retires { s with nextId := s.nextId + 1, cores := (s2.modCore k fun y => { y with eops := y.eops ++ [op n] }).cores }
        t c { x with empty := (t.warpOf c).empty } (s.after c) [d] [] []
    ∧ (t.warpOf c).getS d = (if d = 63 then 0 else BitVec.ofNat 64 (n + 4096 * ((s2.core k).slot n).gen.toNat))
    ∧ ∀ r, (t.warpOf c).isEmpty r = ((s.warpOf c).isEmpty r || decide (r = .s d ∧ d ≠ 63))

/-- A loaded value of a type in n bits: sign-extended for the signed types, else zero-extended (R281, R284). -/
def extendTo (n : Nat) (t : Ty) (b : List W8) : BitVec n :=
  if signed t then (BitVec.ofNat (size t) (leVal b)).signExtend n else BitVec.ofNat n (leVal b)

end Sys2Proof.Claim

/-- R30, R31: a slot is taken with its generation: here one never taken, else the one completed longest ago, whose
generation is one more (that never-taken slots go first is the model's reading); none when every slot is live. A completed
slot keeps its final value, which fills the registers bound to it. A slot whose operation has settled completes with what
the operation left. -/
def Obligations.HandleSlotsAreTakenAndCompleted : Prop :=
  (∀ (s : State) k t b n s', s.takeSlot k t b = some (n, s') →
    ((s.core k).fresh < 4096 ∧ n = (s.core k).fresh ∧ ((s'.core k).slot n).gen = 0
        ∨ 4096 ≤ (s.core k).fresh ∧ (s.core k).recent.head? = some n ∧ ((s'.core k).slot n).gen = ((s.core k).slot n).gen + 1)
    ∧ ((s'.core k).slot n).live = true ∧ ((s'.core k).slot n).bound = b.toList.filter (fun x => x.2.2 ≠ 63) ∧ ((s'.core k).slot n).pend = none
    ∧ ∀ m, m ≠ n → (s'.core k).slot m = (s.core k).slot m)
  ∧ (∀ (s : State) k t b, s.takeSlot k t b = none ↔ 4096 ≤ (s.core k).fresh ∧ (s.core k).recent = [])
  ∧ (∀ (s : State) k n fault code data g w r, n < 4096 → ((s.core k).slot n).live = true → ((s.core k).slot n).bound = [(g, w, r)] →
    s.hasWarp g w = true → r < 63 →
    let v := handle n ((s.core k).slot n).gen code fault data
    ((s.core k).slot n).pend = some v → ∃ t, exec (.handleComplete k n) s = .next t
      ∧ (t.core k).slot n = { (s.core k).slot n with live := false, final := v, bound := [], pend := none }
      ∧ (t.core k).recent = (s.core k).recent ++ [n]
      ∧ (t.warp g w).getS r = v ∧ (t.warp g w).isEmpty (.s r) = false
      ∧ (∀ m, m ≠ r → (t.warp g w).getS m = (s.warp g w).getS m)
      ∧ (∀ q, q ≠ .s r → (t.warp g w).isEmpty q = (s.warp g w).isEmpty q)
      ∧ (∀ m, m ≠ n → (t.core k).slot m = (s.core k).slot m)
      ∧ ∀ k' lvl dev a key, t.readByte k' lvl dev a key = s.readByte k' lvl dev a key)

/-- R27, R281, R284: LONG_LATENCY_FILL of a performed load or atomic writes what its units have read into its destination, in
its lanes alone, extended by its type; that of a lookup writes word i of what each lane has read into its i-th register. Either marks
its destinations full; the instruction leaves the queue. -/
def Obligations.LongLatencyResultsFillTheirDestinations : Prop :=
  ∀ (s : State) g w id (o : Op), s.hasWarp g w = true → s.opOf g w id = some o → (o.works = false ∨ o.performed = true) →
    ∃ t, exec (.longLatencyFill g w id) s = .next t
      ∧ (t.warp g w).ops = (s.warp g w).ops.filter (fun p => p.id ≠ o.id)
      ∧ (∀ r ∈ o.ins.held, (o.slot = none ∨ ∀ p ∈ o.ins.prior, r ≠ .s p.1) → (t.warp g w).isEmpty r = false)
      ∧ (∀ n v, o.dst = none → o.vals = [.s n v] → n < 63 → (t.warp g w).getS n = v)
      ∧ (∀ n, o.dst = some (.s n) → o.vals = [] → o.width = size o.ty / 8 → n ≠ 63 → (o.laneBytes 0).length = o.width →
          (t.warp g w).getS n = extendTo 64 o.ty (o.laneBytes 0))
      ∧ (∀ n, o.dst = some (.v n) → o.vals = [] → o.regs = [] → o.width = size o.ty / 8 → (∀ l, l < 32 → o.ins.lmask.getLsbD l = true → (o.laneBytes l).length = o.width) →
          ∀ l, l < 32 →
            if o.ins.lmask.getLsbD l then
              (if size o.ty = 64 then
                lane ((t.warp g w).getV n) l = (BitVec.ofNat 64 (leVal (o.laneBytes l))).extractLsb' 0 32
                ∧ lane ((t.warp g w).getV (n + 1)) l = (BitVec.ofNat 64 (leVal (o.laneBytes l))).extractLsb' 32 32
              else lane ((t.warp g w).getV n) l = extendTo 32 o.ty (o.laneBytes l))
            else lane ((t.warp g w).getV n) l = lane ((s.warp g w).getV n) l)
      ∧ (o.dst = none → o.vals = [] → o.regs.Nodup → ∀ i n, o.regs[i]? = some n → ∀ l, l < 32 →
          lane ((t.warp g w).getV n) l = if o.ins.lmask.getLsbD l then BitVec.ofNat 32 (leVal (((o.laneBytes l).drop (4 * i)).take 4))
            else lane ((s.warp g w).getV n) l)
      ∧ ∀ k lvl dev a key, t.readByte k lvl dev a key = s.readByte k lvl dev a key

/-- R123, R124, R135, R154, R181: the ordering machine's own steps. A store entry that may move leaves a copy where it was, so that
its core goes on reading it, and stands at the next level, or at V or Y; one for a peer's memory joins the context's stream as a WRITE. A
copy entry may go; a render-target entry reaches V; a warp's wait for a table entry under migration ends when its cycle has come. -/
def Obligations.OrderingMachineSteps : Prop :=
  (∀ (s : State) n pos b e, s.allBufs[n]? = some b → (s.buf b)[pos]? = some e → mayDrain (s.buf b) pos = true →
    ((s.buf b).map (·.age)).Nodup → s.hostFail = [] → ∃ t, exec (.storeDrain n pos) s = .next t
      ∧ (t.buf b)[pos]? = some { e with store := false, rel := false, own := none }
      ∧ (∀ u, b.up = some u → e ∈ t.buf u)
      ∧ ((e.dev = true ∨ e.addr < 2 ^ 64 ∨ b.up ≠ none) → t.wgs = s.wgs
        ∧ (b.up = none → ∀ i v, e.bytes[i]? = some v → t.homeByte e.dev (e.addr + i) e.key = some v))
      ∧ (∀ p pctx a, b.up = none → e.dev = false → farPlace e.addr = some (p, pctx, a) → s.hasCtx e.key = true → s.streamDead e.key p = false →
        let x := s.stream e.key p
        ∃ d, (t.stream e.key p).unacked = x.unacked ++ [(x.next, d, false)] ∧ d.type = 7
          ∧ d.body = peerBody 1 0 0 e.bytes.length x.tag pctx a 0 e.bytes)
      ∧ (∀ c lvl dev a key, b ∈ path c → lvl ≤ b.level → t.readByte c lvl dev a key = s.readByte c lvl dev a key))
  ∧ (∀ (s : State) n pos b e, s.allBufs[n]? = some b → (s.buf b)[pos]? = some e → e.store = false →
    ∃ t, exec (.copyEntryDiscard n pos) s = .next t ∧ t.buf b = (s.buf b).take pos ++ (s.buf b).drop (pos + 1)
      ∧ (∀ b', b' ≠ b → t.buf b' = s.buf b') ∧ t.vmem = s.vmem ∧ t.ymem = s.ymem ∧ t.wgs = s.wgs)
  ∧ (∀ (s : State) d pos e, (s.die d).rt[pos]? = some e → ((s.die d).rt.map (·.age)).Nodup →
    ∃ t, exec (.rtDrain d pos) s = .next t ∧ (∀ i v, e.bytes[i]? = some v → t.homeByte true (e.pa + i) e.key = some v)
      ∧ e ∉ (t.die d).rt ∧ (∀ x ∈ (t.die d).rt, x ∈ (s.die d).rt) ∧ t.ymem = s.ymem ∧ t.wgs = s.wgs)
  ∧ (∀ (s : State) g w, s.hasWarp g w = true → (∀ p ∈ s.ctxs, p.2.decs = [] ∧ p.2.pend = [] ∧ p.2.streams = []) → ∃ t, exec (.migRetry g w) s = .next t
      ∧ (∀ x, x ∈ (t.warp g w).parked ↔ x ∈ (s.warp g w).parked ∧ ∀ n, x = .mig n → s.now g < n)
      ∧ ∀ k lvl dev a key, t.readByte k lvl dev a key = s.readByte k lvl dev a key)

/-- R177, R178: the host fabric answers a request that was sent. A read that succeeds gives the bytes of host memory as the
core reads them; one that fails is noted with 0x10. An AtomicOp that succeeds leaves old op operand at Y as one step and
returns the old value; one that is unsupported falls back, where that is allowed, to a read and a write, and otherwise changes nothing,
returns zeros and contributes 0x0F. -/
def Obligations.HostCompletions : Prop :=
  ∀ (s : State) g w id k (o : Op) (u : MUnit) a hx, s.hasWarp g w = true → (s.warp g w).trapping = none → s.opOf g w id = some o →
    o.units[k]? = some u → u.tgt = .host a hx → u.sent = true → u.done = false → o.failed = [] → o.ins.held ≠ [] → s.cpbOn = false → s.hostFail = [] →
    (o.kind = .load → o.scope = 0 →
      (∃ t rd, exec (.hostReadCompletion g w id k .success) s = .next t ∧ rd.length = u.size
        ∧ (∀ i v, i < u.size → s.readByte (s.coreOf g) 1 false (a + i) 0 = some v → rd.getD i 0 = v)
        ∧ (∃ o', t.opOf g w id = some o' ∧ o'.units = modAt (fun u => { u with done := true, sent := false, rd := rd, fault := none }) k o.units)
        ∧ (u.copies = 0 → ∀ k lvl dev a key, t.readByte k lvl dev a key = s.readByte k lvl dev a key))
      ∧ (∀ st, st ≠ .success → (∃ v ∈ o.units.eraseIdx k, v.done = false ∧ v.fault = none) → ∃ t o', exec (.hostReadCompletion g w id k st) s = .next t
        ∧ t.opOf g w id = some o' ∧ o'.units = modAt (fun u => { u with sent := false, fault := some 0x10 }) k o.units))
    ∧ (∀ n, o.kind = .atomic n → (∀ i, i < u.size → (SMap.find (a + i) s.ymem).isSome = true) →
      let old := (List.range u.size).map fun i => (SMap.find (a + i) s.ymem).getD 0
      (s.devCtl2.getLsbD 6 = true → n < 3 → o.ty ≠ .f32 → ∃ t o', exec (.hostAtomicCompletion g w id k .success) s = .next t
        ∧ (∀ i, i < u.size → SMap.find (a + i) t.ymem = (lowBytes u.size (atomNew n o.ty (leVal old) (leVal u.wr) (leVal u.cmp)))[i]?)
        ∧ (∀ b, (b < a ∨ a + u.size ≤ b) → SMap.find b t.ymem = SMap.find b s.ymem)
        ∧ t.opOf g w id = some o' ∧ o'.units = modAt (fun u => { u with done := true, sent := false, rd := old, fault := none }) k o.units)
      ∧ (hx = true → (s.cctx o.ctx 0x111).getLsbD 0 = true → s.hostPrev = [] → ∃ t o', exec (.hostAtomicCompletion g w id k .unsupported) s = .next t
        ∧ (∀ i, i < u.size → SMap.find (a + i) t.ymem = (lowBytes u.size (atomNew n o.ty (leVal old) (leVal u.wr) (leVal u.cmp)))[i]?)
        ∧ (∀ b, (b < a ∨ a + u.size ≤ b) → SMap.find b t.ymem = SMap.find b s.ymem)
        ∧ t.opOf g w id = some o' ∧ o'.fellBack = true
        ∧ o'.units = modAt (fun u => { u with done := true, sent := false, rd := old, fault := none }) k o.units)
      ∧ ((hx = false ∨ (s.cctx o.ctx 0x111).getLsbD 0 = false) → ∃ t o', exec (.hostAtomicCompletion g w id k .unsupported) s = .next t
        ∧ t.ymem = s.ymem ∧ t.opOf g w id = some o'
        ∧ o'.units = modAt (fun u => { u with done := true, sent := false, rd := List.replicate u.size 0, fault := some 0x0F }) k o.units))

/-- R138, R139, R292, R293: `copy` checks its length, its addresses and its local range, takes a handle and queues units that
cover the destination in order, none crossing an 8-byte boundary of it; the warp counts it among its open copies. `cbatch`
closes them into the next batch and gives its number; `cwait` goes on once every batch up to n is complete, and raises 0x06
for a batch not made yet. -/
def Obligations.CopiesAndBatches : Prop :=
  (∀ (f : Fields) (s : State) (c : Cx),
    let n := f.imm.toNat
    let toLocal := decide (f.sub.toNat = 0) || decide (f.sub.toNat = 3)
    let fromLocal := decide (f.sub.toNat = 1) || decide (f.sub.toNat = 3)
    let bar := f.ext.toNat % 8
    let x := s.warpOf c
    let inside := fun (v : W64) => decide (v.toNat + n ≤ 1024 * (s.wg c.g).shape.localK)
    (s.issuing (.copy f) = some c → (n = 0 ∨ 2 ^ 24 < n) → Traps (.copy f) s c 0x35 c.act 0 0)
    ∧ (s.issuing (.copy f) = some c → 0 < n → n ≤ 2 ^ 24 → n % 4 ≠ 0 → Traps (.copy f) s c 0x09 c.act 0 0)
    ∧ (0 < n → n ≤ 2 ^ 24 → n % 4 = 0 → (f.ext.getLsbD 3 = true → bar < (s.wg c.g).shape.sbars) → s.issuing (.copy f) = some c →
      ((c.sA.toNat % 4 ≠ 0 ∨ c.sB.toNat % 4 ≠ 0) → Traps (.copy f) s c 0x09 c.act 0 0)
      ∧ (c.sA.toNat % 4 = 0 → c.sB.toNat % 4 = 0 →
        (toLocal = true ∧ inside c.sA = false ∨ fromLocal = true ∧ inside c.sB = false) → Traps (.copy f) s c 0x1E c.act 0 0)
      ∧ (c.sA.toNat % 4 = 0 → c.sB.toNat % 4 = 0 → (toLocal = true → inside c.sA = true) → (fromLocal = true → inside c.sB = true) →
        Queues (.copy f) s c { x with copies := x.copies ++ [s.nextId] }
          (.copy f.fs.toNat (if f.ext.getLsbD 3 then some bar else none))
          (copyUnits fromLocal toLocal c.sB.toNat c.sA.toNat n) []))
    ∧ (s.issuing (.cbatch f) = some c → ∃ t, exec (.cbatch f) s = .next t
      ∧ Retires s t c { x with batch := x.batch + 1, copies := [], batches := if x.copies = [] then x.batches else x.batches ++ [(x.batch + 1, x.copies)] }
          (s.after c) [f.dst.toNat] [] []
      ∧ (t.warpOf c).getS f.dst.toNat = if f.dst = 63 then 0 else (x.batch + 1).setWidth 64)
    ∧ (let ahead := (c.sA.setWidth 16 - x.batch).toNat
       (s.issuing (.cwait f) = some c → 1 ≤ ahead → ahead < 2 ^ 15 → Traps (.cwait f) s c 0x06 c.act 0 0)
       ∧ (s.issuing (.cwait f) = some c → (ahead = 0 ∨ 2 ^ 15 ≤ ahead) →
         (∀ b ∈ x.batches, b.2 ≠ [] → 2 ^ 15 ≤ (c.sA.setWidth 16 - b.1).toNat) → Sets (.cwait f) s c x)))
  ∧ (∀ (fl tl : Bool) src dst n, 0 < n → n % 4 = 0 → dst % 4 = 0 →
    let us := copyUnits fl tl src dst n
    (us.map (·.size)).sum = n ∧ ∀ i u, us[i]? = some u →
      let before := ((us.take i).map (·.size)).sum
      u.dst = placeAtOff tl (dst + before) ∧ u.src = placeAtOff fl (src + before) ∧ 0 < u.size ∧ (dst + before) % 8 + u.size ≤ 8)

/-- R133, R138: an access of an engine operation whose turn has come reads its source and writes its destination; one that has
made every access, or has found a cause (log 81: it may then complete before its other accesses), leaves its queue, its handle to complete
with the lowest cause or done, and its copy leaves its batch. -/
def Obligations.EngineOperationsActAndComplete : Prop :=
  ∀ (s : State) k id (e : EOp), s.eop k id = some e → s.eturn k e = true → s.hasWarp e.wg e.w = true →
    (s.wg e.wg).ue = [] → (s.wg e.wg).ce = [] →
    (∀ i (u : EUnit) (b : List W8) from_ to_ copies, e.kind = .copy 0 none → e.cancelled = false → e.units[i]? = some u →
      u.done = false → u.sent = false → u.src = .loc from_ → u.dst = .loc to_ → b.length = u.size →
      (∀ j, j < u.size → SMap.find (from_ + j) (s.wg e.wg).local_ = b[j]?) → from_ + u.size ≤ 2 ^ 23 → to_ + u.size ≤ 2 ^ 23 →
      ∃ t e', exec (.engineAccess k id i copies) s = .next t
        ∧ (∀ j, j < u.size → SMap.find (to_ + j) (t.wg e.wg).local_ = b[j]?)
        ∧ (∀ a, (a < to_ ∨ to_ + u.size ≤ a) → SMap.find a (t.wg e.wg).local_ = SMap.find a (s.wg e.wg).local_)
        ∧ t.eop k id = some e' ∧ e'.units = modAt (fun u => { u with done := true, sent := false }) i e.units
        ∧ t.vmem = s.vmem ∧ t.ymem = s.ymem)
    ∧ (∀ i (u : EUnit) (b : List W8) va t off pa key x copies, e.kind = .tile t → e.cancelled = false → e.units[i]? = some u →
      u.done = false → u.sent = false → u.got = none → u.src = .va va → u.dst = .tile t off → b.length = u.size → t < 16 → off + u.size ≤ 16384 →
      va < 2 ^ 64 → va % 2 ^ 16 + u.size ≤ 2 ^ 16 → s.translate e.ctx 0 va u.size .read (some (e.wg, e.w)) = .ok (.dev pa key) x → x = {} → s.ue = [] → s.ce = [] →
      (∀ j, j < u.size → s.readByte k 1 true (pa + j) key = b[j]?) →
      ∃ r, exec (.engineAccess k id i copies) s = .next r
        ∧ (∀ j, j < u.size → some ((r.wg e.wg).tileAt t (off + j)) = b[j]?) ∧ r.vmem = s.vmem ∧ r.ymem = s.ymem)
    ∧ (e.complete = true → ∀ n h, e.slot = some n → (s.core k).slot n = h → h.live = true → h.pend = none → n < 4096 →
      ∃ t, exec (.engineOpComplete k id) s = .next t
        ∧ (∀ o ∈ (t.core k).eops, o.id ≠ e.id) ∧ (∀ o, o.id ≠ e.id → (o ∈ (t.core k).eops ↔ o ∈ (s.core k).eops))
        ∧ ((t.core k).slot n).pend = some (match lowest e.faults with
            | some x => handle n h.gen x true 0
            | none => handle n h.gen 0 false 0)
        ∧ e.id ∉ (t.warp e.wg e.w).copies ∧ (∀ b ∈ (t.warp e.wg e.w).batches, e.id ∉ b.2)
        ∧ ∀ c lvl dev a key, t.readByte c lvl dev a key = s.readByte c lvl dev a key)

/-- R42, R141 to R143, R295, R296: arriving at a barrier blocks the warp until the barrier opens; with stagger off, the last
arrival opens it and every waiting warp goes on after its `bar`. `sbar.expect` adds to EXP; `sbar.arr` at a broken barrier
raises 0x16; `sbar.reset` clears the barrier. With stagger on, the first four warps go on when the barrier opens, and the others in waves D
cycles apart, D = ceil(8 f / SLOPE) for the cluster's frequency f. A release wave due lets the next four warps go on; a timeout breaks the
barrier, once whatever else the agenda holds for its cycle has taken place (log 58). -/
def Obligations.BarriersHoldAndRelease : Prop :=
  (∀ (f : Fields) (s : State) (c : Cx),
    let y := s.wg c.g
    let b := f.dst.toNat
    let z := y.sbar b
    let ended := (y.warps.filter (·.ended)).length
    (s.issuing (.bar f) = some c → (s.warpOf c).allPerformed = true →
      (y.barArr.length + 1 + ended < y.warps.length → ∃ t q, exec (.bar f) s = .next t ∧ (t.wg c.g).barArr = y.barArr ++ [c.w]
        ∧ (t.warpOf c).blocked = some q ∧ q.wait = .bar ∧ q.ins = c.ins ∧ t.vmem = s.vmem ∧ t.ymem = s.ymem)
      ∧ (y.barArr.length + 1 + ended = y.warps.length → (s.ccluster (clusterOf (s.coreOf c.g)) 0x300).toNat % 2 ^ 16 = 0 → c.w < 32 → c.re = false →
        ∃ t, exec (.bar f) s = .next t ∧ (t.wg c.g).barArr = [] ∧ (t.warpOf c).blocked = none ∧ (t.warpOf c).pc = s.after c
          ∧ (∀ w ∈ y.barArr, w < 32 → (t.warp c.g w).blocked = none) ∧ t.vmem = s.vmem ∧ t.ymem = s.ymem)
      ∧ (let slope := (s.ccluster (clusterOf (s.coreOf c.g)) 0x300).toNat % 2 ^ 16
         let lvl := (s.cluster (clusterOf (s.coreOf c.g))).level
         let dist := (8 * (if lvl = 16 then 2700 else 1000 + 100 * lvl) + slope - 1) / slope
         let all := (List.range 32).filter (y.barArr ++ [c.w]).contains
         y.barArr.length + 1 + ended = y.warps.length → slope ≠ 0 → c.w < 32 →
         ∃ t, exec (.bar f) s = .next t ∧ (t.wg c.g).barArr = [] ∧ (∀ w ∈ all.take 4, (t.warp c.g w).blocked = none)
          ∧ (∀ w ∈ all.drop 4, w ≠ c.w → (t.warp c.g w).blocked = (s.warp c.g w).blocked)
          ∧ (t.wg c.g).waves = y.waves ++ (if all.drop 4 = [] then [] else [{ sbar := none, rest := all.drop 4, dist := dist, next := s.now c.g + dist }])
          ∧ t.vmem = s.vmem ∧ t.ymem = s.ymem))
    ∧ (s.issuing (.sbarExpect f) = some c → (z.broken = true ∨ z.arr = []) → ∃ t, exec (.sbarExpect f) s = .next t
      ∧ Retires (s.modSbar c.g b fun z => { z with exp := z.exp + c.b64.extractLsb' 0 32 }) t c (s.warpOf c) (s.after c) [] [] [])
    ∧ (s.issuing (.sbarArr f) = some c → z.broken = true → Traps (.sbarArr f) s c 0x16 c.act 0 (BitVec.ofNat 64 b))
    ∧ (s.issuing (.sbarArr f) = some c → z.broken = false → (s.warpOf c).allPerformed = true → b < y.sbars.length →
      (z.arr.length + 1 + ended < y.warps.length → ∃ t q, exec (.sbarArr f) s = .next t ∧ ((t.wg c.g).sbar b).arr = z.arr ++ [c.w]
        ∧ (t.warpOf c).blocked = some q ∧ q.wait = .sbar b ∧ q.ins = c.ins ∧ t.vmem = s.vmem ∧ t.ymem = s.ymem)
      ∧ (z.arr.length + 1 + ended = y.warps.length → z.got = z.exp → (s.ccluster (clusterOf (s.coreOf c.g)) 0x300).toNat % 2 ^ 16 = 0 → c.w < 32 → c.re = false →
        ∃ t, exec (.sbarArr f) s = .next t ∧ (t.wg c.g).sbar b = { z with exp := 0, got := 0, arr := [], phase := !z.phase, since := none }
          ∧ (t.warpOf c).blocked = none ∧ (t.warpOf c).pc = s.after c ∧ t.vmem = s.vmem ∧ t.ymem = s.ymem))
    ∧ (s.issuing (.sbarReset f) = some c → z.arr = [] → ∃ t, exec (.sbarReset f) s = .next t
      ∧ Retires (s.modSbar c.g b fun z => { z with broken := false, exp := 0, got := 0, arr := [], since := none }) t c (s.warpOf c) (s.after c) [] [] []))
  ∧ (∀ (s : State) g n v, (s.wg g).waves[n]? = some v → s.hasWg g = true → v.next ≤ s.now g → ∃ t, exec (.barrierReleaseWave g n) s = .next t
    ∧ (∀ w ∈ v.rest.take 4, (t.warp g w).blocked = none)
    ∧ (t.wg g).waves = ((s.wg g).waves.take n ++ { v with rest := v.rest.drop 4, next := v.next + v.dist } :: (s.wg g).waves.drop (n + 1)).filter (fun v => !v.rest.isEmpty)
    ∧ t.vmem = s.vmem ∧ t.ymem = s.ymem)
  ∧ (∀ (s : State) g b m, s.hasWg g = true → b < (s.wg g).sbars.length → ((s.wg g).sbar b).since = some m → (s.wg g).saved = false → ((s.wg g).sbar b).broken = false →
    0 < (s.ccore (s.coreOf g) 0x204).toNat % 2 ^ 32 → m + (s.ccore (s.coreOf g) 0x204).toNat % 2 ^ 32 ≤ s.now g →
    let same := s.sameCycle (Tick.onCore (s.coreOf g)) (.sbarTimeout g b)
    (m + (s.ccore (s.coreOf g) 0x204).toNat % 2 ^ 32 < s.now g ∨ same = none →
      ∃ t, exec (.sbarTimeout g b) s = .next t ∧ ((t.wg g).sbar b).broken = true ∧ ((t.wg g).sbar b).arr = [] ∧ ((t.wg g).sbar b).since = none)
    ∧ ∀ u, m + (s.ccore (s.coreOf g) 0x204).toNat % 2 ^ 32 = s.now g → same = some u → exec (.sbarTimeout g b) s = .next u)
  ∧ (∀ (s : State) passes ev, (s.sameCycle passes ev = none ↔ ∀ k ∈ s.agenda.takeWhile (fun k => !passes k), isTimeout k.ev = true)
    ∧ ∀ u, s.sameCycle passes ev = some u → ∃ now later, s.agenda = now ++ later ∧ (∀ k ∈ now, passes k = false)
      ∧ u = { s with agenda := now ++ [{ ev := ev }] ++ later })

/-! The matrix unit. -/

namespace Sys2Proof.Claim

/-- Instruction i acts on the workgroup's storage or the module as from s to b, and its warp goes on after it. -/
def Does (i : Instr) (s b : State) (c : Cx) : Prop :=
  ∃ t, exec i s = .next t ∧ Retires b t c (s.warpOf c) (s.after c) [] [] []

/-- A valid shape (R301). -/
def validShape (t : TShape) : Prop :=
  t.width ∈ [4, 8, 16, 32] ∧ 1 ≤ t.rows ∧ t.rows ≤ 64 ∧ 1 ≤ t.cols ∧ t.cols * t.width % 8 = 0 ∧ t.cols * t.width ≤ 2048

/-- Tile d of workgroup g holds, after from s to b, in an image of rows of width w, the code `code r j` at element (r, j) for
r < rows and j < cols, and 0 in every byte outside; no other tile has changed. -/
def TileHolds (s b : State) (g d w rows cols : Nat) (code : Nat → Nat → Nat) : Prop :=
  (∀ r j, r < rows → j < cols → elemAt ((b.wg g).tileAt d) w r j = code r j)
  ∧ (∀ off, off < 16384 → (rows ≤ off / 256 ∨ cols * w / 8 ≤ off % 256) → (b.wg g).tileAt d off = 0)
  ∧ ∀ t off, t ≠ d → off < 16384 → (b.wg g).tileAt t off = (s.wg g).tileAt t off

/-- The k-th row of a transfer lies in local memory. -/
def rowsFit (s : State) (c : Cx) (rows rb pitch base : Nat) : Prop :=
  ∀ r, r < rows → base + r * pitch + rb ≤ 1024 * (s.wg c.g).shape.localK

/-- The pitch in force (R303): 0 stands for the row bytes rounded up to a multiple of 4. -/
def pitch (p : W64) (rb : Nat) : Nat := if p.toNat % 2 ^ 32 = 0 then (rb + 3) / 4 * 4 else p.toNat % 2 ^ 32

/-- The value 0. -/
def zero : FVal := FVal.ofInt 0

/-- The bound |s| · H of a carry, H a quarter for Taper8 and a half for the integers (R108). -/
def bound (elem : Nat) (sc : FVal) : FVal := sc.abs.mul (if elem = 3 then .fin false 1 4 0 else .fin false 1 2 0)

/-- A carry clamped to its bound. -/
def clampTo (b c : FVal) : FVal := if b.lt c then b else if c.lt b.neg then b.neg else c

/-- A code that stands for a format value of R108: not NaR, not −128 and not −8. -/
def codeOf (elem q : Nat) : Prop := if elem = 5 then q < 16 ∧ q ≠ 8 else q < 256 ∧ q ≠ 0x80

/-- Code q is the format value v that minimises |y − s v|; a tie goes to the even code (R108). -/
def Nearest (elem : Nat) (sc y : FVal) (q : Nat) : Prop :=
  let gap := fun v => (FVal.add 0 y (sc.mul (elemValue elem v)).neg).abs
  codeOf elem q ∧ ∀ v, codeOf elem v → (gap q).le (gap v) = true ∧ (v ≠ q → (gap v).le (gap q) = true → q % 2 = 0)

/-- One element of the loop of R108, with scale sc and carry c: its code q, and the carry c' that it leaves. -/
def Quantised (elem : Nat) (shaped : Bool) (sc c : FVal) (x q : Nat) (c' : FVal) : Prop :=
  let y := decodeF fp32 (roundF fp32 0 (FVal.add 0 (decodeF fp32 x) c))
  match y with
  | .nan => q = (if elem = 3 then 0x80 else 0) ∧ c' = zero
  | .inf neg => q = (match elem, neg with
      | 3, false => 0x7F | 3, true => 0xFF | 4, false => 127 | 4, true => 129 | _, false => 7 | _, true => 9) ∧ c' = zero
  | y => Nearest elem sc y q
      ∧ c' = if shaped then clampTo (bound elem sc) (decodeF fp32 (roundF fp32 0 (FVal.add 0 y (sc.mul (elemValue elem q)).neg))) else zero

/-- The scale that a block of raw elements computes for itself (R109): the largest finite magnitude over the largest value of the format,
rounded up to BF16. -/
def BlockScale (elem : Nat) (xs : List Nat) (bits : Nat) : Prop :=
  ∃ m : FVal, (∀ x ∈ xs, ∀ s n d e, decodeF fp32 x = .fin s n d e → (FVal.fin false n d e).le m = true)
    ∧ ((m.cmp zero = some .eq) ∨ ∃ x ∈ xs, ∃ s n d e, decodeF fp32 x = .fin s n d e ∧ m = .fin false n d e)
    ∧ bits = roundF bf16 3 (m.div (if elem = 3 then .fin false 31 2 0 else if elem = 4 then FVal.ofInt 127 else FVal.ofInt 7))

/-- Units of a store write byte v at an address of global or local memory. -/
def Stores (us : List EUnit) (loc : Bool) (a : Nat) (v : W8) : Prop :=
  ∃ u ∈ us, ∃ b first, u.late = false ∧ u.src = .val b ∧ u.dst = placeAtOff loc first ∧ first ≤ a ∧ b[a - first]? = some v

/-- n bytes at a virtual address of a context lie in its heap window and may be written, at V under a key, free of soft errors,
and hold these values. -/
structure Held (s : State) (t va : Nat) (b : List W8) (pa key : Nat) : Prop where
  clean : s.ue = [] ∧ s.ce = []
  read  : s.heapTarget t va b.length .read = some (.ok (.dev pa key))
  write : s.heapTarget t va b.length .write = some (.ok (.dev pa key))
  bytes : ∀ i, i < b.length → s.homeByte true (pa + i) key = b[i]?

/-- V holds these bytes at an address under a key, and is as in s outside them. -/
def VHolds (s t : State) (pa key : Nat) (b : List W8) : Prop :=
  (∀ i, i < b.length → t.homeByte true (pa + i) key = b[i]?)
  ∧ ∀ a, (a < pa ∨ pa + b.length ≤ a) → SMap.find a t.vmem = SMap.find a s.vmem ∧ SMap.find a t.vkey = SMap.find a s.vkey

end Sys2Proof.Claim

/-- R302, R305, R313: `tshape` writes three fields of a shape and keeps SOFF, or raises 0x14; `tshape.soff` writes SOFF;
`tzero`, `azero`, `cyzero` clear; `tmov` copies tile and shape. `oprdy` makes tiles, shapes and local memory as they stand the
ones that later `mma`s read. These act at once where no earlier operation of the workgroup is still to act on what they name
(`holder`, R299). R306, R307: `ttrans` transposes a tile bit pattern by bit pattern, its shape (w, C, R) with SOFF 0; `tcvt` reads each
element through the slot X, multiplies by its scale, divides by the scale of Y and converts once; both set every byte outside
the result to 0, and raise 0x15 and 0x14 in the order of the rules. -/
def Obligations.TilesAccumulatorsAndShapesAreWritten : Prop :=
  (
  (∀ (f : Fields) (s : State) (c : Cx),
    let g := c.g
    let x := s.wg g
    let d := f.dst.toNat
    let a := f.sa.toNat
    let new : TShape := { width := c.sA.toNat, rows := c.sB.toNat, cols := c.sC.toNat, soff := (x.tshape d).soff }
    (s.issuing (.tshape f) = some c →
      (validShape new → Does (.tshape f) s (s.putShape g d new) c) ∧ (¬ validShape new → Traps (.tshape f) s c 0x14 c.act 0 0))
    ∧ (s.issuing (.tshapeSoff f) = some c → Does (.tshapeSoff f) s (s.putShape g d { x.tshape d with soff := c.sA.toNat % 2 ^ 32 }) c)
    ∧ (s.issuing (.tzero f) = some c → s.holder g [] [d] = none →
        Does (.tzero f) s (s.putTile g d (List.replicate 16384 0)) c)
    ∧ (s.issuing (.azero f) = some c → s.holder g [] [16 + d] = none →
        Does (.azero f) s ((s.putAcc g s.nextId d ((List.range 4096).map fun k => (k, 0))).settleAcc g s.nextId d) c)
    ∧ (s.issuing (.cyzero f) = some c → s.holder g [] [24 + d] = none →
        Does (.cyzero f) s ((s.putCy g s.nextId d ((List.range 64).map fun k => (k, 0))).settleCy g s.nextId d) c)
    ∧ (s.issuing (.tmov f) = some c → f.dst = f.sa → Does (.tmov f) s s c)
    ∧ (s.issuing (.tmov f) = some c → f.dst ≠ f.sa → s.holder g [a] [d] = none →
        Does (.tmov f) s (((s.putShape g d (x.tshape a)).meetSoft g ((List.range 4096).map fun k => 4096 * a + k) []).putTile g d
          ((List.range 16384).map (x.tileAt a))) c)
    ∧ (s.issuing (.oprdy f) = some c → ((s.core (s.coreOf g)).eops.any fun e => decide (e.wg = g) && e.isAct) = false →
        Does (.oprdy f) s (s.modWg g fun y => { y with hist := [] }) c))
  ∧ (∀ (s : State) g t b, s.hasWg g = true → t < 16 → b.length = 16384 →
      (∀ off, off < 16384 → ((s.putTile g t b).wg g).tileAt t off = b.getD off 0)
      ∧ (∀ u off, u ≠ t → off < 16384 → ((s.putTile g t b).wg g).tileAt u off = (s.wg g).tileAt u off)
      ∧ ((s.putTile g t b).wg g).tshapes = (s.wg g).tshapes ∧ ((s.putTile g t b).wg g).local_ = (s.wg g).local_)
  ∧ (∀ (s : State) g t (v : TShape), s.hasWg g = true → t < 16 → v.width < 64 → v.rows < 128 → v.cols < 1024 → v.soff < 2 ^ 32 →
      ((s.putShape g t v).wg g).tshape t = v ∧ (∀ u, u ≠ t → ((s.putShape g t v).wg g).tshape u = (s.wg g).tshape u)
      ∧ ((s.putShape g t v).wg g).tiles = (s.wg g).tiles ∧ ((s.putShape g t v).wg g).local_ = (s.wg g).local_)
  ∧ (∀ (s : State) g id a ws i, s.hasWg g = true → (∀ p ∈ ws, p.1 < 4096) → i < 4096 →
      let b := (s.putAcc g id a ws).settleAcc g id a
      SMap.get (4096 * a + i) 0 (b.wg g).accs = match (ws.reverse.find? fun p => p.1 = i) with
        | some p => p.2
        | none => SMap.get (4096 * a + i) 0 (s.wg g).accs)
  ∧ (∀ (s : State) g id a ws i, s.hasWg g = true → (∀ p ∈ ws, p.1 < 64) → i < 64 →
      let b := (s.putCy g id a ws).settleCy g id a
      SMap.get (64 * a + i) 0 (b.wg g).cys = match (ws.reverse.find? fun p => p.1 = i) with
        | some p => p.2
        | none => SMap.get (64 * a + i) 0 (s.wg g).cys))
  ∧ (
  ∀ (f : Fields) (s : State) (c : Cx), s.holder c.g [f.sa.toNat] [f.dst.toNat] = none →
    let g := c.g
    let x := s.wg g
    let d := f.dst.toNat
    x.shape.tiles ≤ 16 →
    let t := x.tshape f.sa.toNat
    let fx := x.slot f.fs.toNat
    let fy := x.slot (f.ext.toNat % 8)
    let w := elemBits fy.elem
    (validShape t → validShape t.flip → s.issuing (.ttrans f) = some c → ∃ b,
      Does (.ttrans f) s b c ∧ TileHolds s b g d t.width t.cols t.rows (fun j i => elemAt (x.tileAt f.sa.toNat) t.width i j)
      ∧ (b.wg g).tshape d = { t with rows := t.cols, cols := t.rows, soff := 0 })
    ∧ ((¬ validShape t ∨ ¬ validShape t.flip) → s.issuing (.ttrans f) = some c → Traps (.ttrans f) s c 0x14 c.act 0 0)
    ∧ (s.issuing (.tcvt f) = some c → (fx.ok = false ∨ fy.ok = false ∨ fx.skind = 2 ∨ fy.skind = 2) → Traps (.tcvt f) s c 0x15 c.act 0 0)
    ∧ (s.issuing (.tcvt f) = some c → fx.ok = true → fy.ok = true → fx.skind ≠ 2 → fy.skind ≠ 2 →
      (¬ (validShape t ∧ t.width = elemBits fx.elem ∧ validShape { t with width := w }) → Traps (.tcvt f) s c 0x14 c.act 0 0)
      ∧ (validShape t → t.width = elemBits fx.elem → validShape { t with width := w } → ∃ b, Does (.tcvt f) s b c
        ∧ TileHolds s b g d w t.rows t.cols (fun r j =>
            elemOf fy.elem fy.round (((elemValue fx.elem (elemAt (x.tileAt f.sa.toNat) t.width r j)).mul fx.scale).div fy.scale))
        ∧ (b.wg g).tshape d = { t with width := w })))

/-- R299, R303, R304, R316: a transfer checks its alignment and, in local memory, its rows; it takes a handle and joins the
engine queue with units that cover each row of the tile, accumulator or residue register in order, none crossing an 8-byte
boundary of memory; the tile forms first raise 0x14 for a shape that is not valid. `qst` checks its slot, its region, its
alignment and its rows in this order and joins the queue. R107 to R109, R315: what `qst` computes at its turn: the FP32, BF16 and FP16
formats convert each element; the others follow the loop of R108 line by line, block by block, with the scale of the slot or the one that the
block computes; the codes go to their rows, and the carries left to the residue register (a carry at a bound that is no FP32 number is
rounded to nearest even: log 90). -/
def Obligations.MatrixTransfersJoinTheQueue : Prop :=
  (∀ (f : Fields) (s : State) (c : Cx),
    let x := s.warpOf c
    let sh := (s.wg c.g).tshape f.sb.toNat
    let loc := f.sub.getLsbD 0
    let base := (c.sA + f.imm.signExtend 64).toNat
    let rb := sh.cols * sh.width / 8
    let p := pitch c.sC rb
    let q := pitch c.sC 256
    let tile := fun off => Place.tile f.sb.toNat off
    let acc := fun off => Place.acc f.sb.toNat (off / 4)
    let cy := fun off => Place.cy f.sb.toNat (off / 4)
    (∀ i ∈ [Instr.tld f, .tst f], s.issuing i = some c →
      (¬ validShape sh → Traps i s c 0x14 c.act 0 0)
      ∧ (validShape sh → (base % 4 ≠ 0 ∨ p % 4 ≠ 0) → Traps i s c 0x09 c.act 0 0)
      ∧ (validShape sh → base % 4 = 0 → p % 4 = 0 → loc = true → ¬ rowsFit s c sh.rows rb p base → Traps i s c 0x1E c.act 0 0))
    ∧ (∀ i ∈ [Instr.cyld f, .cyst f], s.issuing i = some c →
      (base % 4 ≠ 0 → Traps i s c 0x09 c.act 0 0)
      ∧ (base % 4 = 0 → loc = true → ¬ rowsFit s c 1 256 256 base → Traps i s c 0x1E c.act 0 0))
    ∧ (∀ i ∈ [Instr.ald f, .ast f], s.issuing i = some c →
      ((base % 4 ≠ 0 ∨ q % 4 ≠ 0) → Traps i s c 0x09 c.act 0 0)
      ∧ (base % 4 = 0 → q % 4 = 0 → loc = true → ¬ rowsFit s c 64 256 q base → Traps i s c 0x1E c.act 0 0))
    ∧ (s.issuing (.tld f) = some c → validShape sh → base % 4 = 0 → p % 4 = 0 → (loc = true → rowsFit s c sh.rows rb p base) →
        Queues (.tld f) s c x (.tile f.sb.toNat) (xferUnits true loc tile sh.rows rb p base) [])
    ∧ (s.issuing (.tst f) = some c → validShape sh → base % 4 = 0 → p % 4 = 0 → (loc = true → rowsFit s c sh.rows rb p base) →
        Queues (.tst f) s c x .store (xferUnits false loc tile sh.rows rb p base) [tile 0])
    ∧ (s.issuing (.ald f) = some c → base % 4 = 0 → q % 4 = 0 → (loc = true → rowsFit s c 64 256 q base) →
        Queues (.ald f) s c x (.acc f.sb.toNat) (xferUnits true loc acc 64 256 q base) [])
    ∧ (s.issuing (.ast f) = some c → base % 4 = 0 → q % 4 = 0 → (loc = true → rowsFit s c 64 256 q base) →
        Queues (.ast f) s c x .store (xferUnits false loc acc 64 256 q base) [acc 0])
    ∧ (s.issuing (.cyld f) = some c → base % 4 = 0 → (loc = true → rowsFit s c 1 256 256 base) →
        Queues (.cyld f) s c x (.cy f.sb.toNat) (xferUnits true loc cy 1 256 256 base) [])
    ∧ (s.issuing (.cyst f) = some c → base % 4 = 0 → (loc = true → rowsFit s c 1 256 256 base) →
        Queues (.cyst f) s c x .store (xferUnits false loc cy 1 256 256 base) [cy 0])
    ∧ (let sl := (s.wg c.g).slot f.fs.toNat
       let row0 := c.sC.toNat % 2 ^ 6
       let col0 := c.sC.toNat / 2 ^ 8 % 2 ^ 6
       let nr := c.sC.toNat / 2 ^ 16 % 2 ^ 6 + 1
       let nc := c.sC.toNat / 2 ^ 24 % 2 ^ 6 + 1
       let w := elemBits sl.elem
       let pq := pitch c.sD (nc * w / 8)
       let good := sl.ok = true ∧ ¬ (sl.elem < 3 ∧ sl.skind ≠ 0)
       (s.issuing (.qst f) = some c → ¬ good → Traps (.qst f) s c 0x15 c.act 0 0)
       ∧ (s.issuing (.qst f) = some c → good → c.sC &&& ~~~(0x3F3F3F3F : W64) ≠ 0 → Traps (.qst f) s c 0x06 c.act 0 0)
       ∧ (s.issuing (.qst f) = some c → good → c.sC &&& ~~~(0x3F3F3F3F : W64) = 0 →
         ((64 < row0 + nr ∨ 64 < col0 + nc ∨ nc * w % 8 ≠ 0) → Traps (.qst f) s c 0x14 c.act 0 0)
         ∧ (row0 + nr ≤ 64 → col0 + nc ≤ 64 → nc * w % 8 = 0 →
           ((c.sA.toNat % 4 ≠ 0 ∨ pq % 4 ≠ 0) → Traps (.qst f) s c 0x09 c.act 0 0)
           ∧ (c.sA.toNat % 4 = 0 → pq % 4 = 0 →
             (loc = true → ¬ rowsFit s c nr (nc * w / 8) pq c.sA.toNat → Traps (.qst f) s c 0x1E c.act 0 0)
             ∧ ((loc = true → rowsFit s c nr (nc * w / 8) pq c.sA.toNat) → Queues (.qst f) s c x (.qst f c.ins.sop) [] []))))))
  ∧ (∀ (load loc : Bool) (file : Nat → Place) rows rb pitch base u, 0 < rb → rb ≤ 256 →
      (u ∈ xferUnits load loc file rows rb pitch base ↔ ∃ r off, r < rows ∧ off < rb
        ∧ (off = 0 ∨ (base + r * pitch + off) % 8 = 0)
        ∧ u.size = min (rb - off) (8 - (base + r * pitch + off) % 8)
        ∧ u = (if load then { src := placeAtOff loc (base + r * pitch + off), dst := file (256 * r + off), size := u.size }
               else { src := file (256 * r + off), dst := placeAtOff loc (base + r * pitch + off), size := u.size })))
  ∧ (∀ elem shaped sc xs (sg : Bool) n d e s' n' d' e', elem ∈ [3, 4, 5] → sc = FVal.fin s' n' d' e' → 0 < n' → 0 < d' → 0 < d →
      let c0 := FVal.fin sg n d e
      let r := quantBlock elem shaped sc c0 xs
      r.1.length = xs.length ∧ ∃ cs : Nat → FVal, cs 0 = c0 ∧ cs xs.length = r.2
        ∧ ∀ j x, xs[j]? = some x → Quantised elem shaped sc (cs j) x (r.1.getD j 0) (cs (j + 1)))
  ∧ (∀ (sl : Slot) carry xs, sl.elem < 3 → quantLine sl carry xs = (xs.map fun x => elemOf sl.elem sl.round (decodeF fp32 x), [], 0))
  ∧ (∀ (sl : Slot) carry xs, sl.elem ∈ [3, 4, 5] →
      let bs := if sl.skind = 2 then 16 * 2 ^ sl.bsize else max 1 xs.length
      let r := quantLine sl carry xs
      let c0 := if sl.shaped = true ∧ (decodeF fp32 carry).isNan = false then decodeF fp32 carry else zero
      r.1.length = xs.length ∧ ∃ cb : Nat → FVal, cb 0 = c0 ∧ r.2.2 = roundF fp32 0 (cb ((xs.length + bs - 1) / bs))
        ∧ ∀ b, b < (xs.length + bs - 1) / bs →
          let blk := (xs.drop (b * bs)).take bs
          let codes := (r.1.drop (b * bs)).take bs
          let sc := if sl.skind = 2 then decodeF bf16 (r.2.1.getD b 0) else if sl.skind = 1 then decodeF fp32 sl.tscale else FVal.ofInt 1
          (sl.skind = 2 → BlockScale sl.elem blk (r.2.1.getD b 0))
          ∧ (sc.isZero = true → (∀ q ∈ codes, q = 0) ∧ cb (b + 1) = zero)
          ∧ (sc.isZero = false → (codes, cb (b + 1)) = quantBlock sl.elem sl.shaped sc (clampTo (bound sl.elem sc) (cb b)) blk))
  ∧ (∀ (s : State) g id (f : Fields) (sop : List W64),
      let x := s.wg g
      let sl := x.slot f.fs.toNat
      let a := f.sb.toNat
      let rg := (sop.getD 2 0).toNat
      let row0 := rg % 2 ^ 6
      let col0 := rg / 2 ^ 8 % 2 ^ 6
      let nr := rg / 2 ^ 16 % 2 ^ 6 + 1
      let nc := rg / 2 ^ 24 % 2 ^ 6 + 1
      let w := elemBits sl.elem
      let lines := if sl.axis then nc else nr
      let len := if sl.axis then nr else nc
      x.tainted a id = false → x.accUndef.contains a = false → x.cyUndef.contains a = false →
      let line := fun l => (List.range len).map fun j =>
        (SMap.get (4096 * a + if sl.axis then 64 * (row0 + j) + col0 + l else 64 * (row0 + l) + col0 + j) 0 x.accs).toNat
      let carry := fun l => if f.ext.getLsbD 0 = true ∧ sl.shaped = true ∧ 3 ≤ sl.elem then (SMap.get (64 * a + l) 0 x.cys).toNat else 0
      let out := fun l => quantLine sl (carry l) (line l)
      let code := fun i j => if sl.axis then (out j).1.getD i 0 else (out i).1.getD j 0
      let r := s.qstCompute g id f sop
      (r.2.1 = (List.range 64).map fun l => (l, BitVec.ofNat 32 (if l < lines then (out l).2.2 else 0)))
      ∧ (nc * w % 8 = 0 → ∀ i k, i < nr → k < nc * w / 8 → ∃ v, Stores r.1 (f.sub.getLsbD 0) ((sop.getD 0 0).toNat + i * pitch (sop.getD 3 0) (nc * w / 8) + k) v
          ∧ ∀ p, p < 8 → v.getLsbD p = (code i ((8 * k + p) / w)).testBit ((8 * k + p) % w)))

namespace Sys2Proof.Claim

/-- An exact sum of products, left to right (R105). -/
def exactSum : List FVal → FVal
  | [] => FVal.ofInt 0
  | p :: ps => ps.foldl (FVal.add 0) p

/-- One accumulator element on the float path (R105): for each block of bs in ascending order, the exact sum of exact products, its product
with the two scales rounded once, and its sum with the element rounded. -/
def floatPath (bs k : Nat) (va vb : Nat → FVal) (sa sb : Nat → FVal) (a : Nat) : Nat :=
  (List.range ((k + bs - 1) / bs)).foldl (fun acc b =>
    let p := exactSum ((List.range (min bs (k - b * bs))).map fun i => (va (b * bs + i)).mul (vb (b * bs + i)))
    let term := roundF fp32 0 ((p.mul (sa b)).mul (sb b))
    roundF fp32 0 (FVal.add 0 (decodeF fp32 acc) (decodeF fp32 term))) a

/-- The integer of an INT8 or INT4 code; the reserved INT4 code is 0 (R95, R96). -/
def integer (elem x : Nat) : Int := if elem = 5 then (if x = 8 then 0 else (BitVec.ofNat 4 x).toInt) else (BitVec.ofNat 8 x).toInt

/-- A slot that may be used (R101). -/
def goodSlot (x : Slot) : Prop :=
  x.elem ≤ 5 ∧ x.skind ≤ 2 ∧ (x.skind = 2 → x.bsize < 3) ∧ x.round < 5 ∧ x.zero = true
    ∧ (x.skind = 1 → ∃ s n d e, decodeF fp32 x.tscale = .fin s n d e) ∧ (x.skind = 2 → x.elem ≠ 0) ∧ (x.shaped = true → 3 ≤ x.elem)

/-- The members that a `gang` value names. -/
def gangOf (m : W32) : List Nat := (List.range 32).filter fun w => m.getLsbD w

/-- What R36 compares of the encodings of two members. -/
def sameCall (a b : Fields) : Prop :=
  ({ a with pen := false, pneg := false, pred := 0, ru := 0 } : Fields) = { b with pen := false, pneg := false, pred := 0, ru := 0 }

end Sys2Proof.Claim

/-- R309, R41, R310: an `mma` checks its counter, its slots, its shapes, its local operand and its gang in this order. One that no gang shares
takes a handle, and blocks its warp until
the operation has issued to the array; its queue asks for the pass, which a free hall grants at once. R36: a joint one arrives at the latch of
its workgroup and MEMBERS, which the first member opens where one of the core's 8 is free, and waits there; the last member's arrival has the
operation accepted once for all; one that differs from the first raises 0x06 and does not arrive. `gang` sets the warp's
MEMBERS, or raises 0x24 where an open latch still waits for the warp. `adrain` and `mlease` return handles, done at once when
there is nothing to wait for; `adrain`'s has the lowest cause of the faulted operations it covers, those complete before it among
them (log 42). MMA_ARRAY_ISSUE issues an operation whose queue holds the pass: it reads its shapes, and the reads of
its scales join the engine queue (R133); the hall pass is freed after 1,024 idle cycles; MMA_RETIRE writes the new accumulator of the region of
rows of A and B by the float path (R105) or the integer path (R106), B from its tile or with `.lb` from local memory, and completes every
member's handle; with `.red` and results that differ each member takes 0x13, and with `.dep` a counter is decremented; with a scale that found a
cause the handles fault and the accumulator is unchanged (log 81: the lowest cause found so far). A roll call whose count expires raises 0x12
(log 58). -/
def Obligations.MatrixOperationsIssueAndRetire : Prop :=
  (∀ (f : Fields) (s : State) (c : Cx),
    let g := c.g
    let k := s.coreOf g
    let x := s.wg g
    let fa := x.slot f.fs.toNat
    let fb := x.slot (f.ext.toNat % 8)
    let ta := x.tshape f.sa.toNat
    let tb := x.tshape f.sb.toNat
    let d := f.dst.toNat
    let good := validShape ta ∧ validShape tb ∧ ta.width = elemBits fa.elem ∧ tb.width = elemBits fb.elem ∧ ta.cols = tb.cols
    let dep := f.ext.getLsbD 4 = true → f.imm.toNat < 4096
    let lb := f.sub.getLsbD 0 = true
    let lbPitch := (tb.cols * tb.width / 8 + 3) / 4 * 4
    let lbFits := lb → rowsFit s c tb.rows (tb.cols * tb.width / 8) lbPitch c.sD.toNat
    let ms := gangOf (s.warpOf c).gang
    let alone := ms = [] ∨ ms = [c.w]
    let joint := 2 ≤ ms.length ∧ ms.length ≤ 6 ∧ c.w ∈ ms ∧ ∀ w ∈ ms, w < x.warps.length
    let ok := mmaSlots fa fb = true ∧ good ∧ dep ∧ (lb → c.sD.toNat % 4 = 0) ∧ lbFits
    (s.issuing (.mma f) = some c → ¬ dep → Traps (.mma f) s c 0x06 c.act 0 0)
    ∧ (s.issuing (.mma f) = some c → dep → mmaSlots fa fb = false → Traps (.mma f) s c 0x15 c.act 0 0)
    ∧ (s.issuing (.mma f) = some c → dep → mmaSlots fa fb = true → ¬ good → Traps (.mma f) s c 0x14 c.act 0 0)
    ∧ (s.issuing (.mma f) = some c → dep → mmaSlots fa fb = true → good → lb →
      (c.sD.toNat % 4 ≠ 0 → Traps (.mma f) s c 0x09 c.act 0 0) ∧ (c.sD.toNat % 4 = 0 → ¬ lbFits → Traps (.mma f) s c 0x1E c.act 0 0))
    ∧ (s.issuing (.mma f) = some c → ok → ¬ alone → ¬ joint → Traps (.mma f) s c 0x06 c.act 0 0)
    ∧ (s.issuing (.mma f) = some c → ok → joint → c.w < 32 → c.re = false → ∀ n s2, s.takeSlot k x.ctx (some (g, c.w, d)) = some (n, s2) →
      let open_ := (s.core k).latches.filter fun l => l.left.isNone
      ((∀ l ∈ (s.core k).latches, ¬ (l.wg = g ∧ l.members = (s.warpOf c).gang)) →
        (open_.length < 8 → ∃ t b l, exec (.mma f) s = .next t ∧ (t.core k).latches = (s.core k).latches ++ [l] ∧ l.wg = g
          ∧ l.members = (s.warpOf c).gang ∧ l.ins = f ∧ l.sop = c.ins.sop ∧ l.arrived = [(c.w, n)] ∧ l.since = s.now g ∧ l.left = none
          ∧ (t.warpOf c).blocked = some b ∧ b.wait = .rollCall l.id ∧ ((t.core k).slot n).live = true ∧ (t.core k).mma = (s.core k).mma)
        ∧ (8 ≤ open_.length → ∃ t b, exec (.mma f) s = .next t ∧ (t.warpOf c).blocked = some b ∧ b.wait = .latch n
          ∧ (t.core k).latches = (s.core k).latches ∧ (t.core k).mma = (s.core k).mma))
      ∧ (∀ l, (s.core k).latches.find? (fun l => decide (l.wg = g ∧ l.members = (s.warpOf c).gang)) = some l →
        (∀ l' ∈ (s.core k).latches, l'.id = l.id → l' = l) →
        (¬ (sameCall l.ins f ∧ l.sop = c.ins.sop) → (s.warpOf c).tm = false → (s.warpOf c).trapping = none → (s.warpOf c).ops = [] →
          (s.cctx x.ctx 0x100).getLsbD 0 = true → ∃ t, exec (.mma f) s = .next t ∧ (t.core k).latches = (s.core k).latches ∧ (t.core k).mma = (s.core k).mma
            ∧ (t.warpOf c).tcause = 0x06 ∧ (t.warpOf c).tm = true ∧ ((t.core k).slot n).live = false ∧ (d ≠ 63 → (t.warpOf c).isEmpty (.s d) = true))
        ∧ (sameCall l.ins f → l.sop = c.ins.sop →
          let arrived := l.arrived ++ [(c.w, n)]
          ((∃ w ∈ ms, ∀ a ∈ arrived, a.1 ≠ w) → ∃ t b, exec (.mma f) s = .next t ∧ (t.warpOf c).blocked = some b ∧ b.wait = .rollCall l.id
            ∧ (t.core k).latches = (s.core k).latches.map (fun p => if p.id = l.id then { p with arrived := arrived } else p)
            ∧ (t.core k).mma = (s.core k).mma)
          ∧ ((∀ w ∈ ms, ∃ a ∈ arrived, a.1 = w) → ∃ t b o, exec (.mma f) s = .next t ∧ (t.warpOf c).blocked = some b ∧ b.wait = .hall o.id
            ∧ (t.core k).latches = (s.core k).latches.filter (fun p => p.id ≠ l.id) ∧ (t.core k).mma = (s.core k).mma ++ [o]
            ∧ o.wg = g ∧ o.members = arrived ∧ o.ins = f ∧ o.gang = (s.warpOf c).gang ∧ o.issued = false
            ∧ (∀ a ∈ l.arrived, a.1 ≠ c.w → ∀ q, (s.warp g a.1).blocked = some q → q.wait = .rollCall l.id →
                ∃ q', (t.warp g a.1).blocked = some q' ∧ q'.wait = .hall o.id)))))
    ∧ (s.issuing (.mma f) = some c → ok → alone → c.re = false →
      ∀ n s2, s.takeSlot k x.ctx (some (g, c.w, d)) = some (n, s2) →
        ∃ t b o, exec (.mma f) s = .next t ∧ (t.warpOf c).blocked = some b ∧ b.wait = .hall s.nextId ∧ b.re = false
          ∧ (t.core k).mma = (s.core k).mma ++ [o] ∧ o.id = s.nextId ∧ o.wg = g ∧ o.members = [(c.w, n)] ∧ o.ins = f ∧ o.sl = c.sD ∧ o.issued = false
          ∧ ((s.core k).hall = {} → (t.core k).hall.holder = some (x.ctx, x.queue))
          ∧ ((t.core k).slot n).live = true ∧ (d ≠ 63 → (t.warpOf c).isEmpty (.s d) = true)
          ∧ t.vmem = s.vmem ∧ t.ymem = s.ymem ∧ (t.wg g).accs = x.accs ∧ (t.wg g).tiles = x.tiles)
    ∧ (s.issuing (.gang f) = some c →
      (∀ l, (s.core k).latches.find? (fun l => decide (l.wg = g) && l.members.getLsbD c.w && l.arrived.all fun a => decide (a.1 ≠ c.w)) = some l →
        Traps (.gang f) s c 0x24 c.act 0 (l.members.setWidth 64))
      ∧ ((∀ l ∈ (s.core k).latches, l.wg = g → l.members.getLsbD c.w = true → ∃ a ∈ l.arrived, a.1 = c.w) →
        Sets (.gang f) s c { s.warpOf c with gang := c.b64.setWidth 32 }))
    ∧ (s.issuing (.adrain f) = some c → (∀ o ∈ (s.core k).mma, ¬ (o.wg = g ∧ o.ins.sc.toNat = f.sb.toNat)) →
      let past := SMap.find f.sb.toNat x.mmaFaults
      ∀ n s2, s.takeSlot k x.ctx (some (g, c.w, d)) = some (n, s2) → n < 4096 → ∃ t, exec (.adrain f) s = .next t
        ∧ (t.warpOf c).pc = s.after c
        ∧ ((t.core k).slot n).pend = some (handle n ((t.core k).slot n).gen (past.getD 0) past.isSome 0)
        ∧ t.vmem = s.vmem ∧ t.ymem = s.ymem ∧ (t.wg g).accs = x.accs)
    ∧ (s.issuing (.mlease f) = some c → (s.core k).hall.holder = some (x.ctx, x.queue) →
      ∀ n s2, s.takeSlot k x.ctx (some (g, c.w, d)) = some (n, s2) → n < 4096 → ∃ t, exec (.mlease f) s = .next t
        ∧ (t.warpOf c).pc = s.after c ∧ ((t.core k).slot n).pend = some (handle n ((t.core k).slot n).gen 0 false 0)
        ∧ (t.core k).hall = (s.core k).hall ∧ t.vmem = s.vmem ∧ t.ymem = s.ymem))
  ∧ (∀ (s : State) k id (o : MmaOp), s.mmaOp k id = some o → o.issued = false → (s.core k).hall.holder = some (o.ctx, o.queue) →
      ((s.core k).mma.filter (·.issued)).length < 4 → (s.wg o.wg).saved = false → s.live o.ctx = true →
      (s.core k).hall.used + 1 < (s.ccore k 0x201).toNat % 2 ^ 16 → ∃ t o', exec (.mmaArrayIssue k id) s = .next t
        ∧ t.mmaOp k id = some o' ∧ o' = { o with issued := true, shA := o'.shA, shB := o'.shB }
        ∧ (o.hist = [] → o'.shA = ((s.wg o.wg).tshape o.ins.sa.toNat).toBits ∧ o'.shB = ((s.wg o.wg).tshape o.ins.sb.toNat).toBits)
        ∧ (∃ e, (t.core k).eops = (s.core k).eops ++ [e] ∧ e.kind = .scales id ∧ e.after = o.before
          ∧ (((s.wg o.wg).slot o.ins.fs.toNat).skind ≠ 2 → ((s.wg o.wg).slot (o.ins.ext.toNat % 8)).skind ≠ 2 → e.units = [] ∧ e.faults = []))
        ∧ (t.core k).hall = { (s.core k).hall with used := (s.core k).hall.used + 1, lastUse := (s.core k).cycle }
        ∧ (∀ m ∈ o.members, s.hasWarp o.wg m.1 = true → (∀ b, (s.warp o.wg m.1).blocked = some b → b.wait = .hall id) → (t.warp o.wg m.1).blocked = none)
        ∧ t.vmem = s.vmem ∧ t.ymem = s.ymem)
  ∧ (∀ (s : State) k q, (s.core k).hall.holder = some q → (s.core k).hall.queue = [] → s.hallWaiters k q = [] →
      (s.core k).hall.lastUse + 1024 ≤ (s.core k).cycle →
      ∃ t, exec (.hallPassIdleRelease k) s = .next t ∧ (t.core k).hall.holder = none ∧ t.wgs = s.wgs ∧ t.vmem = s.vmem ∧ t.ymem = s.ymem)
  ∧ (∀ (x y : Slot), x.bsize < 4 → y.bsize < 4 → (mmaSlots x y = true ↔ goodSlot x ∧ goodSlot y ∧ ((x.elem, y.elem) ∈ [(1, 1), (2, 2), (3, 3)] ∨ 4 ≤ x.elem ∧ 4 ≤ y.elem)
      ∧ (x.skind = 2 → x.axis = false) ∧ (y.skind = 2 → y.axis = false) ∧ (x.skind = 2 → y.skind = 2 → x.bsize = y.bsize)))
  ∧ (∀ (s : State) k id (o : MmaOp) (e : EOp) mismatch, s.mmaOp k id = some o →
      (s.core k).eops.find? (fun e => decide (e.kind = .scales o.id)) = some e → o.issued = true → s.mmaTurn k o = true → s.hasWg o.wg = true →
      (∀ m ∈ o.members, m.2 < 4096 ∧ ((s.core k).slot m.2).live = true ∧ ((s.core k).slot m.2).pend = none) →
      let x := s.wg o.wg
      let fa := x.slot o.ins.fs.toNat
      let fb := x.slot (o.ins.ext.toNat % 8)
      let ta := x.tshape o.ins.sa.toNat
      let tb := x.tshape o.ins.sb.toNat
      let lb := o.ins.sub.getLsbD 0
      let acc := o.ins.sc.toNat
      (∀ cause, lowest e.faults = some cause → ∃ t, exec (.mmaRetire k id mismatch) s = .next t ∧ t.mmaOp k id = none
        ∧ (∀ m ∈ o.members, ((t.core k).slot m.2).pend = some (handle m.2 ((s.core k).slot m.2).gen cause true 0))
        ∧ (t.wg o.wg).accs = x.accs ∧ t.vmem = s.vmem ∧ t.ymem = s.ymem)
      ∧ (e.faults = [] → (∀ u ∈ e.units, u.done = true) → o.hist = [] → o.shA = ta.toBits → o.shB = tb.toBits → x.ue = [] → x.ce = [] →
        o.ins.sa.toNat < 16 → o.ins.sb.toNat < 16 → mmaSlots fa fb = true → validShape ta → validShape tb → ta.width = elemBits fa.elem →
        tb.width = elemBits fb.elem → ta.cols = tb.cols → (lb = true → ∀ r b, r < tb.rows → b < tb.cols * tb.width / 8 →
          o.sl.toNat + r * ((tb.cols * tb.width / 8 + 3) / 4 * 4) + b < 2 ^ 23
          ∧ (SMap.find (o.sl.toNat + r * ((tb.cols * tb.width / 8 + 3) / 4 * 4) + b) x.local_).isSome = true) →
        x.taint.all (fun p => decide (p.1 ≠ acc) || decide (o.id ≤ p.2.1)) = true → x.accUndef.contains acc = false →
        let bs := if fa.skind = 2 then 16 * 2 ^ fa.bsize else if fb.skind = 2 then 16 * 2 ^ fb.bsize else 16
        let nb := (ta.cols + bs - 1) / bs
        let read := fun i => decodeF bf16 (leVal (((e.units[i]?).bind (·.got)).getD []))
        let plain := fun (f : Slot) => if f.skind = 1 then decodeF fp32 f.tscale else FVal.ofInt 1
        let na := if fa.skind = 2 then ta.rows * nb else 0
        let sa := fun m b => if fa.skind = 2 then read (m * nb + b) else plain fa
        let sb := fun j b => if fb.skind = 2 then read (na + j * nb + b) else plain fb
        let byteB := fun off => if lb then SMap.get (o.sl.toNat + off / 256 * ((tb.cols * tb.width / 8 + 3) / 4 * 4) + off % 256) 0 x.local_
          else x.tileAt o.ins.sb.toNat off
        let ea := fun m i => elemAt (x.tileAt o.ins.sa.toNat) ta.width m i
        let eb := fun j i => elemAt byteB tb.width j i
        let new := fun (old : W32) m j =>
          if 4 ≤ fa.elem ∧ fa.skind = 0 ∧ fb.skind = 0 then
            old + BitVec.ofInt 32 ((List.range ta.cols).map fun i => integer fa.elem (ea m i) * integer fb.elem (eb j i)).sum
          else BitVec.ofNat 32 (floatPath bs ta.cols (fun i => elemValue fa.elem (ea m i)) (fun i => elemValue fb.elem (eb j i)) (sa m) (sb j) old.toNat)
        ∃ t, exec (.mmaRetire k id mismatch) s = .next t ∧ t.mmaOp k id = none
          ∧ (∀ m ∈ o.members, ((t.core k).slot m.2).pend = some (handle m.2 ((s.core k).slot m.2).gen 0 false 0))
          ∧ (∀ i, i < 4096 → SMap.get (4096 * acc + i) 0 (t.wg o.wg).accs =
              let old := SMap.get (4096 * acc + i) 0 x.accs
              if i / 64 < ta.rows ∧ i % 64 < tb.rows then new old (i / 64) (i % 64) else old)
          ∧ (∀ a i, a ≠ acc → i < 4096 → SMap.get (4096 * a + i) 0 (t.wg o.wg).accs = SMap.get (4096 * a + i) 0 x.accs)
          ∧ (o.ins.ext.getLsbD 3 = true → mismatch = true → o.ins.ext.getLsbD 4 = false → (o.members.map (·.1)).Nodup → ∀ m ∈ o.members,
              s.hasWarp o.wg m.1 = true → (s.warp o.wg m.1).ended = false → (s.warp o.wg m.1).tm = false →
              (t.warp o.wg m.1).async = (s.warp o.wg m.1).async ++ [{ cause := 0x13, mask := (s.warp o.wg m.1).exec
                                                                      aux := BitVec.ofNat 64 (acc + 2 ^ 32 * o.gang.toNat) }])
          ∧ ((o.ins.ext.getLsbD 3 = false ∨ mismatch = false) → o.ins.ext.getLsbD 4 = false → ∀ w, (t.warp o.wg w).async = (s.warp o.wg w).async)
          ∧ (o.ins.ext.getLsbD 4 = false → t.vmem = s.vmem)
          ∧ (o.ins.ext.getLsbD 4 = true → ∀ v pa key, v < 2 ^ 32 → Held s o.ctx (s.depAddr o.ctx (o.ins.imm.toNat % 2 ^ 12)) (lowBytes 4 v) pa key →
              VHolds s t pa key (lowBytes 4 (v - 1)))))
  ∧ (∀ (s : State) k (l : Latch) w n b, (s.core k).latches.find? (fun p => p.id = l.id) = some l → l.left = none → l.limit = none → l.arrived = [(w, n)] →
      0 < (s.ccore k 0x200).toNat % 2 ^ 32 →
      (l.since + (s.ccore k 0x200).toNat % 2 ^ 32 < (s.core k).cycle
        ∨ l.since + (s.ccore k 0x200).toNat % 2 ^ 32 = (s.core k).cycle ∧ s.sameCycle (Tick.onCore k) (.rollCallTimeout k l.id) = none) →
      (s.warp l.wg w).trapping = none →
      s.hasWarp l.wg w = true → (s.warp l.wg w).blocked = some b → b.re = false → b.ins.prior = [] → (s.warp l.wg w).tm = false →
      (s.warp l.wg w).ops = [] → ((s.core k).slot n).live = true → ((s.core k).slot n).bound = [] →
      (s.cctx (s.wg l.wg).ctx 0x100).getLsbD 0 = true →
      ∃ t, exec (.rollCallTimeout k l.id) s = .next t ∧ (t.core k).latches = (s.core k).latches.filter (fun p => p.id ≠ l.id)
        ∧ (t.warp l.wg w).tcause = 0x12 ∧ (t.warp l.wg w).taux = l.members.setWidth 64 ∧ (t.warp l.wg w).tpc = b.ins.pc
        ∧ (t.warp l.wg w).tm = true ∧ (t.warp l.wg w).blocked = none
        ∧ (t.warp l.wg w).replay = b.ins :: (s.warp l.wg w).reissue ∧ ((t.core k).slot n).live = false)

/-! The stage graph. -/

namespace Sys2Proof.Claim

/-- Edge e of the workgroup's graph leaves, or enters, the stage of the workgroup (R320). -/
def touches (s : State) (g e : Nat) (out : Bool) : Prop :=
  ∃ k, (s.wg g).stage = some k ∧ e < (s.graphOf g).edges.length ∧ (if out then ((s.graphOf g).edge e).prod else ((s.graphOf g).edge e).cons) = k

/-- The warp of an instruction goes on after it, changed in no register and in none of its other parts. -/
def GoesOn (s t : State) (c : Cx) : Prop :=
  Warp.Kept (s.warpOf c) (t.warpOf c) [] [] [] ∧ (t.warpOf c).pc = s.after c ∧ t.cur = none

/-- An instruction that meets conditions l unmet does nothing but that its warp parks on the first four of them, or enters poll state and counts where
the cloakroom lacks room (R32, R33); the sub-core may begin an exchange, or the warp leave the active set (R21, R33). -/
def Waits (i : Instr) (s : State) (g w : Nat) (l : List Wait) : Prop :=
  let x := s.warp g w
  ∃ t act, exec i s = .next t ∧ t.cur = none ∧ { t with wgs := s.wgs, subs := s.subs, cur := s.cur } = s ∧ (∀ v, v ≠ w → t.warp g v = s.warp g v)
    ∧ (∀ h, h ≠ g → SMap.find h t.wgs = SMap.find h s.wgs)
    ∧ if s.cloakUsed (s.subOf g w) + min 4 l.length ≤ 32 then t.warp g w = { x with parked := l.take 4, waits := l, poll := false }
      else t.warp g w = { x with parked := [], waits := l, poll := true, active := act }
        ∧ t.csub (s.subOf g w) 0x280 = satAdd (s.csub (s.subOf g w) 0x280) 31 0 1

/-- An instruction that waits where it stands, with no entry of the cloakroom (R121, R126 part 1), does nothing but note what it waits for. -/
def Stays (i : Instr) (s : State) (c : Cx) (l : List Wait) : Prop :=
  ∃ t, exec i s = .next t ∧ SameBeside s t c ∧ t.warpOf c = { s.warpOf c with parked := l, waits := l, poll := false }

/-- No store entry of any core, cluster or die, and none to a render target, is on its way to memory. -/
def Drained (s : State) : Prop := (∀ b, s.buf b = []) ∧ ∀ d, (s.die d).rt = []

/-- A stream's unacknowledged datagrams, without what sealing adds to them (R72). -/
def unsealed (x : Stream) : List Datagram := x.unacked.map fun u => { u.2.1 with key := 0, nonce := 0 }

end Sys2Proof.Claim

/-- R53, R54, R55, R57, R58, R248, R320: `emit` sends one record for each active lane, in ascending order: into the ring of a LOCAL
edge, each in the next slot; behind the send ring of a REMOTE one, 0x2F where the edge has no key; or on the reliable class to the peer of a
PEER one, for as many credits (log 52: in datagrams of as many as fit), 0x11 where the peer is unreachable. It waits where the warp has earlier operations unperformed, and
while the ring, the send ring or the credits have no room for them all. `eclose` closes the edge for the workgroup; `recv` stores up to k records of the frame with their
status words into local memory, marks their slots as held and fills its destination with their number later, or waits for records or the
close, and on the TRIGGER edge delivers the workgroup's batch once and then 0; `rrel` frees the slots that
the workgroup holds; `end` ends the warp, and the last warp of a workgroup closes the edges still open. Misuse of an edge
raises 0x1F, more records than the ring has slots 0x18. -/
def Obligations.EdgesCarryRecords : Prop :=
  ∀ (f : Fields) (s : State) (c : Cx),
    let g := c.g
    let x := s.warpOf c
    let e := f.ext.toNat
    let gr := s.graphOf g
    let ed := gr.edge e
    let fr := (s.wg g).frame
    let n := 4 * (ed.size + 1)
    let ls := lanesOf c.act
    let a := f.sa.toNat
    let xt := (s.wg g).ctx
    let st := gr.stage (s.wg g).stageNo
    let peer := s.stream xt ed.peer
    let data := fun l => (List.range n).flatMap fun i => lowBytes 4 (lane (x.getV (a + i)) l).toNat
    let key := fun l => (lane (x.getV a) l).toNat
    (s.issuing (.emit f) = some c → c.re = false →
      (c.act = 0 → Sets (.emit f) s c x)
      ∧ (c.act ≠ 0 → (¬ touches s g e true ∨ gr.raster e = true ∨ (s.wg g).closed.getLsbD e = true) →
          Traps (.emit f) s c 0x1F c.act 0 (BitVec.ofNat 64 e))
      ∧ (c.act ≠ 0 → touches s g e true → gr.raster e = false → (s.wg g).closed.getLsbD e = false →
        (∀ i, i < n → x.isEmpty (.v (a + i)) = false) →
        (ed.sparse = false → (∃ l ∈ ls, ed.keys ≤ key l) → Traps (.emit f) s c 0x1F c.act 0 (BitVec.ofNat 64 e))
        ∧ ((ed.sparse = true ∨ ∀ l ∈ ls, key l < ed.keys) → ((gr.kindAt fr e = 0 ∨ gr.kindAt fr e = 1) →
            (ed.slots < ls.length → Traps (.emit f) s c 0x18 c.act 0 (BitVec.ofNat 64 e))
            ∧ (ls.length ≤ ed.slots → gr.kindAt fr e = 1 → peer.dead = true → Traps (.emit f) s c 0x11 c.act 0 0)
            ∧ (ls.length ≤ ed.slots → (gr.kindAt fr e = 1 → peer.dead = false) →
              (x.allPerformed = false → Stays (.emit f) s c [.performed])
              ∧ (x.allPerformed = true →
                (if gr.kindAt fr e = 0 then ed.slots < ed.ring.length + ls.length else ed.credits < ls.length ∨ 256 ≤ peer.unacked.length) →
                Waits (.emit f) s g c.w [.ring e ls.length]))))
        ∧ (gr.kindAt fr e = 1 → ls.length ≤ ed.slots → (ed.sparse = true ∨ ∀ l ∈ ls, key l < ed.keys) → peer.dead = false → x.allPerformed = true →
          ls.length ≤ ed.credits → peer.unacked.length < 256 → (peer.unacked.map (·.1)).Nodup → (∀ u ∈ peer.unacked, u.1 < peer.next) → Drained s →
          (∀ q ∈ (s.ctx xt).streams, ∀ r ∈ q.2.reqs, r.write = true → (r.wg, r.w) ≠ (g, c.w)) → (∀ q ∈ (s.ctx xt).pend, ∀ d own, q.1 ≠ .send ed.peer d own) →
          (∃ kb pa kk, kb.length = 32 ∧ Held s xt ((s.cctx xt 0x112).toNat / 64 % 2 ^ 50 * 64 + 32 * ed.peer) kb pa kk) →
          ∃ t new, exec (.emit f) s = .next t ∧ GoesOn s t c ∧ ((t.graphOf g).edge e).credits = ed.credits - ls.length
            ∧ ((t.graphOf g).edge e).ring = ed.ring ∧ ((t.graphOf g).edge e).send = ed.send
            ∧ unsealed (t.stream xt ed.peer) = unsealed peer ++ new ∧ new.flatMap (·.body) = ls.flatMap data
            ∧ (∀ d ∈ new, d.type = 0 ∧ d.rel = true ∧ d.edge = e ∧ d.graph = gr.gid.setWidth 32 ∧ d.frame = fr ∧ d.size = ed.size ∧ 0 < d.count
                ∧ d.body.length = d.count * n * 4 ∧ d.first.toNat = leVal (d.body.take 4))
            ∧ t.vmem = s.vmem ∧ t.ymem = s.ymem)
        ∧ (gr.kindAt fr e = 2 → (ed.sparse = true ∨ ∀ l ∈ ls, key l < ed.keys) → ∀ kb pa kk, kb.length = 32 →
          Held s xt ((s.cctx xt 0x113).toNat / 64 % 2 ^ 50 * 64 + 32 * e) kb pa kk →
          ((∀ b ∈ kb, b = 0) → Traps (.emit f) s c 0x2F c.act 0 (BitVec.ofNat 64 e))
          ∧ ((∃ b ∈ kb, b ≠ 0) → ed.slots < ls.length → Traps (.emit f) s c 0x18 c.act 0 (BitVec.ofNat 64 e))
          ∧ ((∃ b ∈ kb, b ≠ 0) → ls.length ≤ ed.slots →
            (x.allPerformed = false → Stays (.emit f) s c [.performed])
            ∧ (x.allPerformed = true → ed.slots < ed.send.length + ls.length → Waits (.emit f) s g c.w [.ring e ls.length])
            ∧ (x.allPerformed = true → ed.send.length + ls.length ≤ ed.slots →
              ∃ t new, exec (.emit f) s = .next t ∧ GoesOn s t c ∧ ((t.graphOf g).edge e).send = ed.send ++ new ∧ new.map (·.data) = ls.map data
                ∧ (∀ r ∈ new, r.frame = fr) ∧ ((t.graphOf g).edge e).ring = ed.ring
                ∧ ((t.graphOf g).edge e).sendAt = (if ed.send = [] then (s.die ed.ringDie).counter else ed.sendAt)
                ∧ t.sent = s.sent ∧ t.vmem = s.vmem ∧ t.ymem = s.ymem)))
        ∧ (gr.kindAt fr e = 0 → (ed.sparse = true ∨ ∀ l ∈ ls, key l < ed.keys) →
          (ed.ring.length + ls.length ≤ ed.slots → x.allPerformed = true →
            ∃ t new, exec (.emit f) s = .next t ∧ GoesOn s t c
              ∧ ((t.graphOf g).edge e).ring = ed.ring ++ new ∧ new.map (fun p => p.1.data) = ls.map data
              ∧ new.map (fun p => p.1.slot) = (List.range ls.length).map (ed.serial + ·)
              ∧ (∀ p ∈ new, p.2 = false ∧ p.1.frame = fr) ∧ ((t.graphOf g).edge e).serial = ed.serial + ls.length
              ∧ t.vmem = s.vmem ∧ t.ymem = s.ymem))))
    ∧ (s.issuing (.eclose f) = some c →
      (¬ touches s g e true → Traps (.eclose f) s c 0x1F c.act 0 (BitVec.ofNat 64 e))
      ∧ (touches s g e true → (s.wg g).closed.getLsbD e = true → Sets (.eclose f) s c x)
      ∧ (touches s g e true → (s.wg g).closed.getLsbD e = false →
        (gr.kindAt fr e = 1 → peer.dead = true → Traps (.eclose f) s c 0x11 c.act 0 0)
        ∧ (gr.kindAt fr e = 2 → ∀ kb pa kk, kb.length = 32 → Held s xt ((s.cctx xt 0x113).toNat / 64 % 2 ^ 50 * 64 + 32 * e) kb pa kk →
            (∀ b ∈ kb, b = 0) → Traps (.eclose f) s c 0x2F c.act 0 (BitVec.ofNat 64 e))
        ∧ ((gr.kindAt fr e = 0 ∨ gr.kindAt fr e = 1 ∧ peer.dead = false) → x.allPerformed = false → Stays (.eclose f) s c [.performed]))
      ∧ (touches s g e true → (s.wg g).graph.isSome = true → (s.wg g).closed.getLsbD e = false → gr.kindAt fr e = 0 → x.allPerformed = true → e < 32 →
        (∀ q ∈ s.ctxs, ∀ p ∈ q.2.streams, p.2.dead = false) → ∃ t, exec (.eclose f) s = .next t ∧ GoesOn s t c ∧ (t.wg g).closed = ((s.wg g).closed ||| BitVec.ofNat 32 (2 ^ e))
          ∧ (t.wg g).local_ = (s.wg g).local_))
    ∧ (s.issuing (.recv f) = some c →
      let d := f.dst.toNat
      let off := c.sA.toNat % 2 ^ 32
      let b := 16 * (ed.size + 1)
      let k := ed.perWg
      (¬ touches s g e false → Traps (.recv f) s c 0x1F c.act 0 (BitVec.ofNat 64 e))
      ∧ (touches s g e false → 1024 * (s.wg g).shape.localK < off + k * (b + 4) → Traps (.recv f) s c 0x1E c.act 0 0)
      ∧ (touches s g e false → off + k * (b + 4) ≤ 1024 * (s.wg g).shape.localK → x.allPerformed = false → Stays (.recv f) s c [.performed])
      ∧ (touches s g e false → off + k * (b + 4) ≤ 1024 * (s.wg g).shape.localK → (s.wg g).shape.localK ≤ 512 → x.allPerformed = true →
        let trigger := st.trigen = true ∧ st.trigger = e
        let l := if trigger then (if (s.wg g).batchGiven then [] else (s.wg g).batchRecs)
          else ((ed.ring.filter fun p => !p.2 && decide (p.1.frame = fr)).map (·.1)).take k
        (¬ trigger → l = [] → ed.closedAt.contains fr = false → Waits (.recv f) s g c.w [.records e])
        ∧ ((∀ r ∈ l, r.data.length = b) → l.length ≤ k → (trigger ∨ l ≠ [] ∨ ed.closedAt.contains fr = true) →
          ∃ t o, exec (.recv f) s = .next t ∧ (t.warpOf c).ops = x.ops ++ [o] ∧ o.vals = [.s d (BitVec.ofNat 64 l.length)]
            ∧ (t.warpOf c).pc = s.after c ∧ (d ≠ 63 → (t.warpOf c).isEmpty (.s d) = true)
            ∧ (∀ i r, l[i]? = some r → (∀ j, j < b → SMap.find (off + i * b + j) (t.wg g).local_ = r.data[j]?)
                ∧ ∀ j, j < 4 → SMap.find (off + k * b + 4 * i + j) (t.wg g).local_ = (lowBytes 4 r.status.toNat)[j]?)
            ∧ (∀ z, (z < off ∨ off + k * (b + 4) ≤ z) → SMap.find z (t.wg g).local_ = SMap.find z (s.wg g).local_)
            ∧ (trigger → (t.wg g).batchGiven = true ∧ ((t.graphOf g).edge e).ring = ed.ring ∧ (t.wg g).ringHeld = (s.wg g).ringHeld)
            ∧ (¬ trigger → (t.wg g).batchGiven = (s.wg g).batchGiven
                ∧ ((t.graphOf g).edge e).ring = ed.ring.map (fun p => if (l.map (·.slot)).contains p.1.slot then (p.1, true) else p)
                ∧ (t.wg g).ringHeld = (s.wg g).ringHeld ++ (l.map fun r => (e, r.slot))))))
    ∧ (s.issuing (.rrel f) = some c →
      (¬ touches s g e false → Traps (.rrel f) s c 0x1F c.act 0 (BitVec.ofNat 64 e))
      ∧ (touches s g e false → (s.wg g).graph.isSome = true → ed.batches = [] → ∃ t, exec (.rrel f) s = .next t ∧ GoesOn s t c
        ∧ ((t.graphOf g).edge e).ring = ed.ring.filter (fun p => !((s.wg g).ringHeld.contains (e, p.1.slot)))
        ∧ (t.wg g).ringHeld = (s.wg g).ringHeld.filter (fun p => p.1 ≠ e) ∧ t.vmem = s.vmem ∧ t.ymem = s.ymem))
    ∧ (s.issuing (.endW f) = some c → x.pixel = none →
      ((s.wg g).endedCount + 1 < (s.wg g).warps.length → (s.wg g).barArr = [] → (∀ b ∈ (s.wg g).sbars, b.arr = []) →
        ∃ t, exec (.endW f) s = .next t ∧ (t.warpOf c).ended = true ∧ (t.warpOf c).stack = [] ∧ (t.warpOf c).replay = []
          ∧ (∀ w, w ≠ c.w → t.warp g w = s.warp g w) ∧ t.vmem = s.vmem ∧ t.ymem = s.ymem)
      ∧ ((s.wg g).endedCount + 1 = (s.wg g).warps.length → (s.wg g).graph.isSome = true → x.allPerformed = true →
        ∃ t, exec (.endW f) s = .next t ∧ (t.warpOf c).ended = true
          ∧ ∀ e, e < 32 → e < gr.edges.length → (s.wg g).stage = some (gr.edge e).prod → (t.wg g).closed.getLsbD e = true))

namespace Sys2Proof.Claim

/-- Instruction i fills its scalar destination later with v: it is empty until then (R27), and nothing else has happened but
that the warp goes on. -/
def FillsLater (i : Instr) (s : State) (c : Cx) (v : W64) : Prop :=
  ∃ t o, exec i s = .next t ∧ (t.warpOf c).ops = (s.warpOf c).ops ++ [o] ∧ o.vals = [.s c.f.dst.toNat v] ∧ o.kind = .fill ∧ o.dst = none
    ∧ o.ins.held = [.s c.f.dst.toNat] ∧ o.slot = none ∧ (t.warpOf c).pc = s.after c
    ∧ (∀ r, (t.warpOf c).isEmpty r = ((s.warpOf c).isEmpty r || decide (r = .s c.f.dst.toNat ∧ c.f.dst ≠ 63)))
    ∧ { t with wgs := s.wgs, cur := s.cur, nextId := s.nextId } = s

end Sys2Proof.Claim

/-- R61, R62, R85, R321 to R324: `launch` queues its record's address in the core's launch buffer, which reads it when it is appended; `depdec`
decrements a counter at V, or counts an underflow at 0, and at 1 to 0 admits the records that wait for it; `gcut` asks the far
unit for a cut, or completes its handle with the cause that stands in the way; the `gstat`s read a graph of the context and
raise 0x06 for another. -/
def Obligations.LaunchesDecrementsAndCuts : Prop :=
  (∀ (f : Fields) (s : State) (c : Cx),
    let g := c.g
    let k := s.coreOf g
    let t := (s.wg g).ctx
    let q := if f.len = .f96 then f.imm.toNat else c.sB.toNat
    let d := f.dst.toNat
    (s.issuing (.launch f) = some c →
      (16 ≤ q → Traps (.launch f) s c 0x06 c.act 0 0)
      ∧ (q < 16 → c.sA.toNat % 64 ≠ 0 → Traps (.launch f) s c 0x09 c.act 0 0)
      ∧ (∀ n s2, q < 16 → c.sA.toNat % 64 = 0 → (s.core k).launches.length < 16 → (s.warpOf c).allPerformed = true →
          s.takeSlot k t (some (g, c.w, d)) = some (n, s2) →
          ∃ u l, exec (.launch f) s = .next u ∧ (u.core k).launches = (s.core k).launches ++ [l]
            ∧ l.ctx = t ∧ l.q = q ∧ l.slot = n ∧ l.va = c.sA.toNat ∧ l.wg = g ∧ l.w = c.w ∧ l.token.core = some k ∧ (u.warpOf c).pc = s.after c
            ∧ (d ≠ 63 → (u.warpOf c).isEmpty (.s d) = true) ∧ u.vmem = s.vmem ∧ u.ymem = s.ymem))
    ∧ (let n := if f.len = .f96 then f.imm.toNat else c.sB.toNat
       s.issuing (.depdec f) = some c →
       (4096 ≤ n → Traps (.depdec f) s c 0x06 c.act 0 0)
       ∧ (∀ v pa key, n < 4096 → v < 2 ^ 32 → (s.warpOf c).allPerformed = true → s.live t = true →
          Held s t (s.depAddr t n) (lowBytes 4 v) pa key → ∃ u, exec (.depdec f) s = .next u ∧ GoesOn s u c ∧ u.ymem = s.ymem
            ∧ VHolds s u pa key (lowBytes 4 (v - 1))
            ∧ (v = 0 → u.cctx t 0x11C = satAdd (s.cctx t 0x11C) 31 0 1)
            ∧ (v = 1 → ∀ die a, a ∈ (s.die die).aside → a.ctx = t → a.lrec.wait = some n →
                ∃ a' ∈ (u.die die).aside, a'.index = a.index ∧ a'.q = a.q ∧ a'.ready = true)))
    ∧ (s.issuing (.gcut f) = some c → ∀ h s2, s.takeSlot k t (some (g, c.w, d)) = some (h, s2) → h < 4096 →
        let fails := fun (code : Cause) => ∃ u, exec (.gcut f) s = .next u ∧ (u.warpOf c).pc = s.after c
          ∧ ((u.core k).slot h).pend = some (handle h ((u.core k).slot h).gen code true 0) ∧ u.ctxs = s.ctxs ∧ u.sent = s.sent
        let p := s.otherUnit t
        let fr : W32 := c.sB.setWidth 32
        (s.graphAt t c.sC = none → fails 0x06)
        ∧ ∀ n, s.graphAt t c.sC = some n →
          let gr := s.graph t n
          let asked := s.modGraph t n fun x => { x with move := some (x.askMove c.sA fr (some (k, h))) }
          let good := c.sA.toNat < 2 ^ 48 ∧ gr.far = false ∧ cutOk gr.edges (c.sA.setWidth 32) (c.sA.extractLsb' 32 16) = true
          (¬ good → fails 0x06)
          ∧ (good → (¬ laterEq fr (gr.cur + 2) = true ∨ gr.move.isSome = true) → fails 0x19)
          ∧ (good → laterEq fr (gr.cur + 2) = true → gr.move = none → (s.stream t p).dead = true → fails 0x11)
          ∧ (good → laterEq fr (gr.cur + 2) = true → gr.move = none → (s.stream t p).dead = false → asked.ringsFit = false → fails 0x1D)
          ∧ (good → laterEq fr (gr.cur + 2) = true → gr.move = none → (s.stream t p).dead = false → asked.ringsFit = true →
            (SMap.find n (s.ctx t).graphs).isSome = true → ∃ u m, exec (.gcut f) s = .next u ∧ (u.warpOf c).pc = s.after c
              ∧ (u.graph t n).move = some m ∧ m.frame = fr ∧ m.cut = c.sA.setWidth 32 ∧ m.place = c.sA.extractLsb' 32 16
              ∧ m.accepted = false ∧ m.handle = some (k, h) ∧ (u.stream t p).next = (s.stream t p).next + 1
              ∧ ((u.core k).slot h).pend = none ∧ (u.graph t n).cut = gr.cut ∧ (u.graph t n).place = gr.place))
    ∧ (∀ i ∈ [Instr.gstatCut f, .gstatFrom f, .gstatCur f, .gstatMoving f], s.issuing i = some c → s.graphAt t c.sA = none →
        Traps i s c 0x06 c.act 0 0)
    ∧ (∀ n, s.graphAt t c.sA = some n →
        let gr := s.graph t n
        (s.issuing (.gstatCut f) = some c → FillsLater (.gstatCut f) s c ((gr.place ++ gr.cut).setWidth 64))
        ∧ (s.issuing (.gstatFrom f) = some c → FillsLater (.gstatFrom f) s c (gr.since.setWidth 64))
        ∧ (s.issuing (.gstatCur f) = some c → FillsLater (.gstatCur f) s c (gr.cur.setWidth 64))
        ∧ (s.issuing (.gstatMoving f) = some c → ∃ v, FillsLater (.gstatMoving f) s c v
            ∧ ∀ i, i < 64 → v.getLsbD i = (decide (i < gr.stages.length) && (gr.stage i).moving))))

/-- R56, R59 to R61, R63, R173, R363: an event of the launch queues. LAUNCH_ADMIT admits the record at RIDX of an enabled queue
that is not empty, moving RIDX on; a record that breaks R60 is rejected and counted with event 3; one whose counter is not 0 is set aside.
LAUNCH_BUFFER_APPEND reads a record as its core does, writes it at WIDX and moves WIDX on. WAIT_RECORD_RETEST admits a record whose counter is
0 when it is tested again. CONSUMER_LAUNCH takes k records of a frame, or what is left of it once it has closed. -/
def Obligations.LaunchesAreAdmitted : Prop :=
  (∀ (s : State) t q (e : QEntry) b pa key qpa qkey, s.live t = true → s.cpbOn = false → (∀ a ∈ s.asides t q, a.2.ready = false) →
    s.qRead t q = .ok e s → e.en = true → e.widx ≠ e.ridx → Held s t (e.at_ e.ridx) b pa key → b.length = 64 →
    s.heapTarget t (s.qAddr t q + 16) 4 .write = some (.ok (.dev qpa qkey)) →
    let i := e.ridx
    let done := fun (u : State) => VHolds s u qpa qkey (lowBytes 4 (i + 1).toNat) ∧ u.ymem = s.ymem ∧ u.wgs = s.wgs
    (Launch.parse b = none → ∃ u, exec (.launchAdmit t q) s = .next u ∧ done u ∧ (u.queue t q).cause = 0x1D
      ∧ (u.queue t q).index = i.setWidth 24 ∧ ((s.queue t q).rejects ≠ 0xFFFFFFFF → (u.queue t q).rejects = (s.queue t q).rejects + 1)
      ∧ (s.evts.length < 64 → u.evts = s.evts ++ [BitVec.ofNat 64 (t + 3 * 4096)]))
    ∧ ∀ r, Launch.parse b = some r →
      (r.wait = none → r.kind = 0 → r.shape.startable = true → (s.queue t q).slots = [] → ∃ u x, exec (.launchAdmit t q) s = .next u ∧ done u
        ∧ (u.die e.die).grids = (s.die e.die).grids ++ [x] ∧ x.lrec = r ∧ x.ctx = t ∧ x.q = q ∧ x.next = 0 ∧ x.running = 0 ∧ x.graph = none)
      ∧ (∀ n v cpa ckey, r.wait = some n → 0 < v → v < 2 ^ 32 → Held s t (s.depAddr t n) (lowBytes 4 v) cpa ckey → (s.asides t q).length < 64 →
        ∃ u a, exec (.launchAdmit t q) s = .next u ∧ done u ∧ (u.die e.die).aside = (s.die e.die).aside ++ [a]
          ∧ a.lrec = r ∧ a.index = i ∧ a.ready = false ∧ a.bytes = b ∧ (u.die e.die).grids = (s.die e.die).grids))
  ∧ (∀ (s : State) k (l : LaunchWait) (e : QEntry) (b : List W8) pa key rpa rkey wpa wkey, (s.core k).launches = [l] → s.ue = [] → s.ce = [] → s.qRead l.ctx l.q = .ok e s →
    e.en = true → (e.widx - e.ridx).toNat < 2 ^ e.log2n →
    b.length = 64 → s.heapTarget (s.wg l.wg).ctx l.va 64 .read = some (.ok (.dev pa key)) →
    (∀ i, i < 64 → s.readByte (s.coreOf l.wg) 1 true (pa + i) key = b[i]?) →
    s.heapTarget l.ctx (e.at_ e.widx) 64 .write = some (.ok (.dev rpa rkey)) →
    s.heapTarget l.ctx (s.qAddr l.ctx l.q + 12) 4 .write = some (.ok (.dev wpa wkey)) → (wpa + 4 ≤ rpa ∨ rpa + 64 ≤ wpa) →
    (SMap.find l.ctx s.ctxs).isSome = true →
    ∃ u, exec (.launchBufferAppend k) s = .next u ∧ (u.core k).launches = []
      ∧ (∀ i, i < 64 → u.homeByte true (rpa + i) rkey = b[i]?)
      ∧ (∀ i, i < 4 → u.homeByte true (wpa + i) wkey = (lowBytes 4 (e.widx + 1).toNat)[i]?)
      ∧ (u.queue l.ctx l.q).slots = (s.queue l.ctx l.q).slots ++ [(e.widx, k, l.slot)] ∧ u.ymem = s.ymem)
  ∧ (∀ (s : State) die pos (a : Aside) m n v pa key, (s.die die).aside[pos]? = some a → a.tested = some m → s.live a.ctx = true →
    m + 2 ^ 20 ≤ (s.die die).counter → a.lrec.wait = some n → v < 2 ^ 32 → Held s a.ctx (s.depAddr a.ctx n) (lowBytes 4 v) pa key →
    ∃ u a', exec (.waitRecordRetest die pos) s = .next u ∧ (u.die die).aside[pos]? = some a' ∧ a'.tested = none ∧ a'.lrec = a.lrec
      ∧ a'.ready = (a.ready || decide (v = 0)) ∧ u.vmem = s.vmem)
  ∧ (∀ (s : State) t n e fr,
    let g := s.graph t n
    let x := g.edge e
    let st := g.stage x.cons
    let avail := (x.ring.filter fun p => !p.2 && decide (p.1.frame = fr)).map (·.1)
    let l := avail.take x.perWg
    s.live t = true → e < g.edges.length → st.trigen = true → st.trigger = e → g.here fr x.cons = true → g.move = none → 0 < x.perWg → avail ≠ [] →
    (x.perWg ≤ avail.length ∨ x.closedAt.contains fr = true) →
    (∀ qpa qkey, s.heapTarget t (s.qAddr t st.queue) 32 .read = some (.ok (.dev qpa qkey)) → ∃ u y, exec (.consumerLaunch t n e fr) s = .next u
      ∧ (u.die x.ringDie).grids = (s.die x.ringDie).grids ++ [y] ∧ y.recs = l ∧ y.edge = some e ∧ y.graph = some n ∧ y.lrec.count = 1
      ∧ y.lrec.addr = st.entry ∧ y.lrec.shape = st.shape ∧ y.lrec.frame = fr ∧ y.lrec.stage = x.cons ∧ y.q = st.queue
      ∧ (u.edge t n e).ring = x.ring.map (fun p => if (l.map (·.slot)).contains p.1.slot then (p.1, true) else p)
      ∧ u.vmem = s.vmem ∧ u.wgs = s.wgs))

namespace Sys2Proof.Claim

/-- What the workgroups that hold resources of core k use, by a measure (R11): those that are not evicted and have not ended. -/
def inUse (s : State) (k : Nat) (m : Wg → Nat) : Nat :=
  ((s.wgs.filter fun p => decide (p.2.core = k ∧ p.2.saved = false ∧ p.2.ended = false)).map fun p => m p.2).sum

/-- The warps of a shape on sub-core j for a value of b: warp w is placed on sub-core (b + w) mod 4 (R12). -/
def warpsOn (x : Shape) (b j : Nat) : Nat := ((List.range x.warps).filter fun w => decide ((b + w) % 4 = j)).length

/-- The vector registers of each warp of a shape, rounded up to a multiple of 8 (R11). -/
def vregsOf (x : Shape) : Nat := (x.vregs + 7) / 8 * 8

/-- Core k can supply all that a shape asks for at once, with its warps placed by b (R11, R12). -/
structure Supplies (s : State) (k : Nat) (x : Shape) (b : Nat) : Prop where
  low   : b < 4
  sub   : ∀ j, j < 4 → inUse s k (fun g => warpsOn g.shape g.b j) + warpsOn x b j ≤ 24
  regs  : ∀ j, j < 4 → inUse s k (fun g => warpsOn g.shape g.b j * vregsOf g.shape) + warpsOn x b j * vregsOf x ≤ 1024
  mem   : inUse s k (fun g => g.shape.localK) + x.localK ≤ 512
  tiles : inUse s k (fun g => g.shape.tiles) + x.tiles ≤ 16
  accs  : inUse s k (fun g => g.shape.accs) + x.accs ≤ 8
  bars  : inUse s k (fun _ => 1) < 96
  sbars : inUse s k (fun g => g.shape.sbars) + x.sbars ≤ 32

/-- The place that R17 chooses on die d: of the cores that can supply the workgroup, the one with the fewest warp slots in use, the lowest among
equals; and of the values of b that let every sub-core supply its warps, the one whose sub-core has the fewest in use, the lowest among equals. -/
structure Placed (s : State) (d : Nat) (x : Shape) (k b : Nat) : Prop where
  die  : k / 96 = d
  can  : Supplies s k x b
  core : ∀ k' b', k' / 96 = d → Supplies s k' x b' →
    inUse s k (fun g => g.shape.warps) < inUse s k' (fun g => g.shape.warps) ∨ inUse s k (fun g => g.shape.warps) = inUse s k' (fun g => g.shape.warps) ∧ k ≤ k'
  sub  : ∀ b', Supplies s k x b' →
    inUse s k (fun g => warpsOn g.shape g.b b) < inUse s k (fun g => warpsOn g.shape g.b b')
      ∨ inUse s k (fun g => warpsOn g.shape g.b b) = inUse s k (fun g => warpsOn g.shape g.b b') ∧ b ≤ b'

end Sys2Proof.Claim

/-- R11, R12, R15 to R18, R100, R234: WORKGROUP_START places one workgroup of a launch on the core and sub-cores that R17 chooses, and none while no
core of the die can supply all that it asks for, with every lane active, no register written, its format slots from the template and its warps at the entry. WORKGROUP_END
frees what a workgroup held once all its warps have ended and what it issued has no register, tile or local memory left to write; its
stores that are not performed yet go on, its launch counts it out once those of its warps are performed (model: log 88), and with the last of them the workgroup is gone. -/
def Obligations.WorkgroupsStartAndEnd : Prop :=
  (∀ (s : State) d (x : Grid) k b tb pa key, (s.die d).grids = [x] → s.mayStart x = true → Placed s d x.lrec.shape k b →
    Held s x.ctx x.lrec.slots.toNat tb pa key → tb.length = 128 → x.graph = none → ∃ u, exec (.workgroupStart d) s = .next u
      ∧ u.hasWg s.nextId = true ∧ u.nextId = s.nextId + 1
      ∧ (let y := u.wg s.nextId
         y.ctx = x.ctx ∧ y.queue = x.q ∧ y.core = k ∧ y.b = b ∧ y.num = BitVec.ofNat 32 x.next ∧ y.frame = x.lrec.frame ∧ y.arg = x.lrec.arg
         ∧ y.shape = x.lrec.shape ∧ y.local_ = [] ∧ y.tiles = [] ∧ y.accs = [] ∧ y.warps.length = x.lrec.shape.warps
         ∧ (∀ i, i < 8 → y.fs[i]? = some (BitVec.ofNat 128 (leVal ((tb.drop (16 * i)).take 16))))
         ∧ ∀ w, w < x.lrec.shape.warps →
             let z := u.warp s.nextId w
             z.pc = x.lrec.addr ∧ z.exec = 0xFFFFFFFF ∧ z.sregs = [] ∧ z.vregs = [] ∧ z.pregs = [] ∧ z.empty = [] ∧ z.stack = []
             ∧ z.prio = x.prio ∧ z.tm = false ∧ z.ih = false ∧ z.blocked = none ∧ z.ended = false)
      ∧ (∃ x', (u.die d).grids = [x'] ∧ x'.next = x.next + 1 ∧ x'.running = x.running + 1 ∧ x'.lrec = x.lrec)
      ∧ (x.tokens = [] → u.vmem = s.vmem ∧ u.ymem = s.ymem ∧ ∀ h, h ≠ s.nextId → SMap.find h u.wgs = SMap.find h s.wgs))
  ∧ (∀ (s : State) d (x : Grid), (s.die d).grids = [x] → (∀ k b, k / 96 = d → ¬ Supplies s k x.lrec.shape b) → exec (.workgroupStart d) s = .next s)
  ∧ (∀ (s : State) g, s.live (s.wg g).ctx = true → s.hasWg g = true → (s.wg g).graph = none → (s.wg g).stage = none → (s.wg g).ringHeld = [] →
    SMap.wf s.wgs = true → (s.wg g).signed = false → SMap.find 0 (s.ctx (s.wg g).ctx).graphs = none →
    let x := s.wg g
    let d := dieOf x.core
    let counts := fun (u : State) =>
      (∀ y ∈ (s.die d).grids, some y.id ≠ x.launch → y ∈ (u.die d).grids)
      ∧ (∀ y, (s.die d).grids.find? (fun q => some q.id = x.launch) = some y →
          (y.lastOne = true → ∀ z ∈ (u.die d).grids, z.id ≠ y.id) ∧ (y.lastOne = false → { y with running := y.running - 1 } ∈ (u.die d).grids))
    let performed := ∀ w ∈ x.warps, w.ops = []
    ((s.die d).grids.map (·.id)).Nodup →
    (∀ y, (s.die d).grids.find? (fun q => some q.id = x.launch) = some y → y.lrec.doneDec = none) →
    (s.wgOver g = true →
      ∃ u, exec (.workgroupEnd g) s = .next u ∧ (s.leftOver g = false → u.hasWg g = false) ∧ (s.leftOver g = true → (u.wg g).ended = true)
        ∧ (∀ h, h ≠ g → SMap.find h u.wgs = SMap.find h s.wgs) ∧ (performed → counts u) ∧ (¬ performed → u.dies = s.dies)
        ∧ u.vmem = s.vmem ∧ u.ymem = s.ymem)
    ∧ (x.ended = true → performed →
      ∃ u, exec (.workgroupEnd g) s = .next u ∧ counts u ∧ (s.leftOver g = false → u.hasWg g = false) ∧ (s.leftOver g = true → (u.wg g).signed = true)
        ∧ (∀ h, h ≠ g → SMap.find h u.wgs = SMap.find h s.wgs) ∧ u.vmem = s.vmem ∧ u.ymem = s.ymem)
    ∧ (x.ended = true → ¬ performed → exec (.workgroupEnd g) s = .next s))
  ∧ (∀ (s : State) g, s.live (s.wg g).ctx = true → s.hasWg g = true → (s.wg g).ended = true → (s.wg g).signed = true → SMap.wf s.wgs = true →
    (s.leftOver g = true → exec (.workgroupEnd g) s = .next s)
    ∧ (s.leftOver g = false → ∃ u, exec (.workgroupEnd g) s = .next u ∧ u.hasWg g = false ∧ (∀ h, h ≠ g → SMap.find h u.wgs = SMap.find h s.wgs)
      ∧ u.dies = s.dies ∧ u.vmem = s.vmem ∧ u.ymem = s.ymem))

/-! Graphics. -/

namespace Sys2Proof.Claim

/-- The pool record that an instruction names is there: its index lies below POOL_CNT, its 32 bytes b lie in the heap window
and the core reads them, no soft error is met, and the warp's earlier operations are performed (R228). -/
structure Found (s : State) (c : Cx) (b : List W8) : Prop where
  index : c.f.ext.toNat < min 65536 ((s.cctx (s.wg c.g).ctx 0x107).toNat % 2 ^ 17)
  done  : (s.warpOf c).allPerformed = true
  clean : s.ue = [] ∧ s.ce = []
  len   : b.length = 32
  here  : ∃ pa key, s.heapTarget (s.wg c.g).ctx ((s.cctx (s.wg c.g).ctx 0x106).toNat / 2 ^ 5 % 2 ^ 51 * 32 + 32 * c.f.ext.toNat) 32 .read
      = some (.ok (.dev pa key)) ∧ ∀ i, i < 32 → s.readByte (s.coreOf c.g) 1 true (pa + i) key = b[i]?

/-- Instruction i fills vector registers later with these values, in its active lanes: it holds them until then (R27). -/
def FillsLanes (i : Instr) (s : State) (c : Cx) (regs : List Nat) (v : Nat → Nat → Nat) : Prop :=
  ∃ t o, exec i s = .next t ∧ (t.warpOf c).ops = (s.warpOf c).ops ++ [o] ∧ o.kind = .fill ∧ o.dst = none ∧ o.slot = none
    ∧ o.ins.held = regs.map Reg.v ∧ o.ins.lmask = c.act ∧ (t.warpOf c).pc = s.after c
    ∧ (∀ n ∈ regs, (t.warpOf c).isEmpty (.v n) = true)
    ∧ o.vals.length = regs.length
    ∧ (∀ k n, regs[k]? = some n → ∃ x, o.vals[k]? = some (.v n x) ∧ ∀ l, l < 32 → c.act.getLsbD l = true → lane x l = BitVec.ofNat 32 (v k l))
    ∧ t.vmem = s.vmem ∧ t.ymem = s.ymem

/-- The index that a mesh instruction or an `interp` gives a lane. -/
def index (c : Cx) (l : Nat) : Nat := if c.f.len = .f96 then c.f.imm.toNat else (lane c.vB l).toNat

/-- The last active lane with an index. -/
def lastAt (c : Cx) (l : Nat) : Prop := c.act.getLsbD l = true ∧ ∀ m, l < m → m < 32 → c.act.getLsbD m = true → index c m ≠ index c l

end Sys2Proof.Claim

/-- R333 to R335: in a MESH workgroup `meshn` sets a count, up to 256, from the lowest active lane; `meshv` writes a vertex slot and
`meshp` an index word with the warp's rate into the output area at the end of local memory, unless a lane's index is out of range (0x27
for those lanes); `rate` sets the warp's rate or raises 0x26. Outside a MESH workgroup they raise 0x06. -/
def Obligations.MeshInstructionsWriteTheOutputArea : Prop :=
  ∀ (f : Fields) (s : State) (c : Cx),
    let g := c.g
    let x := s.wg g
    let out := 1024 * x.shape.localK - 36864
    let ls := lanesOf c.act
    let r := if f.len = .f96 then f.imm.toNat else c.sB.toNat
    (∀ i ∈ [Instr.meshv f, .meshp f, .meshnV f, .meshnP f, .rate f], s.issuing i = some c → s.stageKind g ≠ 2 → Traps i s c 0x06 c.act 0 0)
    ∧ (∀ i ∈ [Instr.meshv f, .meshp f, .meshnV f, .meshnP f], s.issuing i = some c → s.stageKind g = 2 → x.shape.localK < 36 →
        Traps i s c 0x1E c.act 0 0)
    ∧ (s.stageKind g = 2 → (6 < r → s.issuing (.rate f) = some c → Traps (.rate f) s c 0x26 c.act 0 0)
      ∧ (r ≤ 6 → s.issuing (.rate f) = some c → Sets (.rate f) s c { s.warpOf c with rate := BitVec.ofNat 3 r }))
    ∧ (s.stageKind g = 2 → 36 ≤ x.shape.localK → x.shape.localK ≤ 512 → x.meshV ≤ 256 → x.meshP ≤ 256 →
      (∀ l rest, ls = l :: rest →
        (∀ i ∈ [Instr.meshnV f, .meshnP f], s.issuing i = some c → 256 < index c l → Traps i s c 0x27 c.act 0 0)
        ∧ (s.issuing (.meshnV f) = some c → index c l ≤ 256 → Does (.meshnV f) s (s.modWg g fun y => { y with meshV := index c l }) c)
        ∧ (s.issuing (.meshnP f) = some c → index c l ≤ 256 → Does (.meshnP f) s (s.modWg g fun y => { y with meshP := index c l }) c))
      ∧ (ls = [] → ∀ i ∈ [Instr.meshnV f, .meshnP f], s.issuing i = some c → Sets i s c (s.warpOf c))
      ∧ (s.issuing (.meshv f) = some c → (∃ l ∈ ls, x.meshV ≤ index c l) →
          Traps (.meshv f) s c 0x27 (maskOf fun l => c.act.getLsbD l && decide (x.meshV ≤ index c l)) 0 0)
      ∧ (s.issuing (.meshv f) = some c → (∀ l ∈ ls, index c l < x.meshV) → (s.warpOf c).allPerformed = true → ∃ b, Does (.meshv f) s b c
        ∧ (∀ l, l < 32 → lastAt c l → ∀ j, j < 16 → SMap.find (out + 128 * index c l + 16 * f.sub.toNat + j) (b.wg g).local_
            = (lowBytes 4 (lane (s.groupReg c 0 f.sa.toNat (j / 4)) l).toNat)[j % 4]?)
        ∧ (∀ a, (∀ l ∈ ls, a < out + 128 * index c l + 16 * f.sub.toNat ∨ out + 128 * index c l + 16 * f.sub.toNat + 16 ≤ a) →
            SMap.find a (b.wg g).local_ = SMap.find a x.local_) ∧ b.vmem = s.vmem ∧ b.ymem = s.ymem)
      ∧ (let w := fun l => (lane c.vA l).toNat
         let bad := fun l => decide (x.meshP ≤ index c l) || decide (x.meshV ≤ w l % 2 ^ 8) || decide (x.meshV ≤ w l / 2 ^ 8 % 2 ^ 8)
           || decide (x.meshV ≤ w l / 2 ^ 16 % 2 ^ 8)
         (s.issuing (.meshp f) = some c → (∃ l ∈ ls, bad l = true) → Traps (.meshp f) s c 0x27 (maskOf fun l => c.act.getLsbD l && bad l) 0 0)
         ∧ (s.issuing (.meshp f) = some c → (∀ l ∈ ls, bad l = false) → (s.warpOf c).allPerformed = true → ∃ b, Does (.meshp f) s b c
           ∧ (∀ l, l < 32 → lastAt c l → ∀ j, j < 4 → SMap.find (out + 32768 + 16 * index c l + j) (b.wg g).local_
               = (lowBytes 4 (w l % 2 ^ 24 + (s.warpOf c).rate.toNat * 2 ^ 24 + w l / 2 ^ 31 * 2 ^ 31))[j]?)
           ∧ (∀ a, (∀ l ∈ ls, a < out + 32768 + 16 * index c l ∨ out + 32768 + 16 * index c l + 4 ≤ a) →
               SMap.find a (b.wg g).local_ = SMap.find a x.local_) ∧ b.vmem = s.vmem ∧ b.ymem = s.ymem)))

namespace Sys2Proof.Claim

/-- Word k of slot n of vertex i of a primitive: 32 words a vertex, 4 a slot (R333). -/
def vertexWord (vs : List W32) (i n k : Nat) : W32 := vs.getD (32 * i + 4 * n + k) 0

/-- The place of vertex i on the screen, in 1/256 of a pixel: x_s = (x / w + 1) Wv / 2 and y_s = (1 - y / w) Hv / 2, to nearest even (R335 step 3). -/
def snapped (view : W32) (vs : List W32) (i : Nat) : Int × Int :=
  let v := fun k => f32 (vertexWord vs i 0 k)
  let x := (FVal.add 0 ((v 0).div (v 3)) (FVal.ofInt 1)).mul (FVal.ofInt (128 * (view.toNat % 2 ^ 16 + 1) : Nat))
  let y := (FVal.add 0 (FVal.ofInt 1) ((v 1).div (v 3)).neg).mul (FVal.ofInt (128 * (view.toNat / 2 ^ 16 + 1) : Nat))
  match x.toInt 0, y.toInt 0 with
  | some a, some b => (a, b)
  | _, _ => (0, 0)

/-- Σ λ_i f_i at a point, exactly: λ_i is the signed area that the point makes with the edge opposite to vertex i, over that of the snapped
triangle (R336). -/
def mixed (view : W32) (vs : List W32) (p : Int × Int) (f : Nat → FVal) : FVal :=
  let v := snapped view vs
  let area := fun (a b q : Int × Int) => FVal.ofInt ((b.1 - a.1) * (q.2 - a.2) - (b.2 - a.2) * (q.1 - a.1))
  let lam := fun i j => (area (v i) (v j) p).div (area (v 0) (v 1) (v 2))
  FVal.add 0 (FVal.add 0 ((lam 1 2).mul (f 0)) ((lam 2 0).mul (f 1))) ((lam 0 1).mul (f 2))

/-- The attribute of R336's table at a point in 1/256 of a pixel, one rounding of the exact value. -/
def attrValue (view : W32) (vs : List W32) (p : Int × Int) (slot comp : Nat) : W32 :=
  let byW := fun k i => (f32 (vertexWord vs i slot k)).div (f32 (vertexWord vs i 0 3))
  let sum := mixed view vs p
  let recip := sum fun i => (FVal.ofInt 1).div (f32 (vertexWord vs i 0 3))
  BitVec.ofNat 32 (roundF fp32 0 (
    if slot ≠ 0 then (sum (byW comp)).div recip
    else match comp with
      | 0 => (FVal.ofInt p.1).div (FVal.ofInt 256)
      | 1 => (FVal.ofInt p.2).div (FVal.ofInt 256)
      | 2 => sum (byW 2)
      | _ => recip))

/-- Width and height of a coarse pixel by rate code (R334). -/
def coarse (r : Nat) : Nat × Nat := [(1, 1), (1, 2), (2, 1), (2, 2), (2, 4), (4, 2)].getD r (4, 4)

/-- The centre of the coarse pixel at an origin: origin + (w / 2, h / 2) (R336), in 1/256 of a pixel. -/
def middle (r : Nat) (o : Nat × Nat) : Int × Int := (256 * (o.1 : Int) + 128 * (coarse r).1, 256 * (o.2 : Int) + 128 * (coarse r).2)

/-- A lower-ranked primitive holds a ticket of a fine pixel of some lanes (R337): of an earlier frame, or of the frame with a lower number. -/
def Blocks (p : Pixel) (act : W32) (q : Prim) : Prop :=
  (later p.frame q.frame = true ∨ q.frame = p.frame ∧ q.seq < p.seq) ∧ ∃ l, l < 32 ∧ act.getLsbD l = true ∧ ∃ z ∈ p.fine.getD l [], z ∈ q.tickets

end Sys2Proof.Claim

/-- R336, R337: in a PIXEL workgroup `interp` gives the interpolated attribute, the one at a covered point, the flat one of the
first vertex, the origin of the coarse pixel, its cover or the primitive's number; `ordb` releases the tickets of inactive
lanes and enters the section once no lower-ranked primitive holds a ticket of any fine pixel of its active lanes, or waits; `orde` drains the
warp's render-target entries, once it has placed them all, and leaves it; `kill` discards lanes and releases their tickets. -/
def Obligations.PixelStateAndOrderedSections : Prop :=
  ∀ (f : Fields) (s : State) (c : Cx),
    let g := c.g
    let x := s.warpOf c
    (∀ i ∈ [Instr.interp f, .ordb f, .orde f, .kill f], s.issuing i = some c → s.stageKind g ≠ 3 → Traps i s c 0x06 c.act 0 0)
    ∧ (s.stageKind g = 3 →
      (∀ p, x.pixel = some p → s.issuing (.interp f) = some c →
        let slot := fun l => index c l % 2 ^ 3
        let comp := fun l => index c l / 2 ^ 3 % 2 ^ 2
        let org := fun l => p.org[l]?
        (f.sub = 0 → WritesV (.interp f) s c fun l => match org l with
          | some o => attrValue p.view p.verts (middle p.rate o) (slot l) (comp l)
          | none => 0)
        ∧ (f.sub = 1 → ∃ t, exec (.interp f) s = .next t ∧ Retires (s.drew 32) t c x (s.after c) [] [f.dst.toNat] []
            ∧ ∀ l o, l < 32 → c.act.getLsbD l = true → org l = some o →
              let mid := (o.1 + (coarse p.rate).1 / 2, o.2 + (coarse p.rate).2 / 2)
              let v := lane ((t.warpOf c).getV f.dst.toNat) l
              (mid ∈ p.fine.getD l [] → v = attrValue p.view p.verts (middle p.rate o) (slot l) (comp l))
              ∧ ∀ q more, mid ∉ p.fine.getD l [] → p.fine.getD l [] = q :: more →
                v = attrValue p.view p.verts (256 * (q.1 : Int) + 128, 256 * (q.2 : Int) + 128) (slot l) (comp l))
        ∧ (f.sub = 2 → WritesV (.interp f) s c fun l => if (org l).isSome then p.verts.getD (4 * slot l + comp l) 0 else 0)
        ∧ (f.sub = 3 → WritesV (.interp f) s c fun l => match org l with
          | some o => BitVec.ofNat 16 o.2 ++ BitVec.ofNat 16 o.1
          | none => 0xFFFFFFFF)
        ∧ (f.sub = 4 → WritesV (.interp f) s c fun l => match org l with
          | some _ => if p.fine.getD l [] = [] ∨ x.killed.getLsbD l = true then 0 else 1
          | none => 0)
        ∧ (f.sub = 5 → WritesV (.interp f) s c fun l => if (org l).isSome then BitVec.ofNat 32 p.seq else 0))
      ∧ (x.held = true → s.issuing (.ordb f) = some c → Traps (.ordb f) s c 0x25 c.act 0 0)
      ∧ (x.held = false → s.issuing (.orde f) = some c → Traps (.orde f) s c 0x25 c.act 0 0)
      ∧ (∀ p, x.pixel = some p → x.held = false → s.issuing (.ordb f) = some c →
        let prims := ((s.graphOf g).edge p.edge).prims
        let kept := ({ p with left := p.left &&& ~~~c.act } : Pixel).leftPixels
        (∀ q ∈ prims, ¬ Blocks p c.act q) →
        ∃ t, exec (.ordb f) s = .next t ∧ (t.warpOf c).held = true ∧ (t.warpOf c).pixel = some { p with left := p.left &&& c.act }
          ∧ (t.warpOf c).pc = s.after c ∧ ((t.graphOf g).edge p.edge).prims = dropTickets p.frame p.seq kept prims
          ∧ t.vmem = s.vmem ∧ t.ymem = s.ymem)
      ∧ (∀ p, x.pixel = some p → x.held = false → s.issuing (.ordb f) = some c →
        (∃ q ∈ ((s.graphOf g).edge p.edge).prims, Blocks p c.act q) →
        ∃ t, exec (.ordb f) s = .next t ∧ (t.warpOf c).held = false ∧ (t.warpOf c).pc = x.pc ∧ (t.warpOf c).waits = [.ticket c.act])
      ∧ (x.held = true → s.issuing (.orde f) = some c → x.allPerformed = false → Stays (.orde f) s c [.performed])
      ∧ (∀ p, x.pixel = some p → x.held = true → s.issuing (.orde f) = some c → x.allPerformed = true → ((s.die (dieOf (s.coreOf g))).rt.map (·.age)).Nodup →
        ∃ t, exec (.orde f) s = .next t ∧ (t.warpOf c).held = false ∧ (t.warpOf c).pixel = some { p with left := 0 } ∧ (t.warpOf c).pc = s.after c
          ∧ (∀ e ∈ (t.die (dieOf (s.coreOf g))).rt, e.own ≠ (g, c.w) ∧ e ∈ (s.die (dieOf (s.coreOf g))).rt)
          ∧ ((t.graphOf g).edge p.edge).prims = dropTickets p.frame p.seq p.leftPixels ((s.graphOf g).edge p.edge).prims ∧ t.ymem = s.ymem)
      ∧ (∀ p, x.pixel = some p → s.issuing (.kill f) = some c → ∃ t, exec (.kill f) s = .next t ∧ (t.warpOf c).killed = (x.killed ||| c.act)
          ∧ (t.warpOf c).pixel = some { p with left := p.left &&& ~~~c.act } ∧ (t.warpOf c).pc = s.after c
          ∧ ((t.graphOf g).edge p.edge).prims
            = dropTickets p.frame p.seq ({ p with left := p.left &&& c.act } : Pixel).leftPixels ((s.graphOf g).edge p.edge).prims
          ∧ t.vmem = s.vmem ∧ t.ymem = s.ymem)
      ∧ (x.pixel = none → s.issuing (.kill f) = some c → Sets (.kill f) s c { x with killed := x.killed ||| c.act }))

namespace Sys2Proof.Claim

/-- Unit k of an operation of a warp may be performed now (R121, R133): no earlier operation stands before it, no higher lane has its
bytes still to write, and no trap waits (R185). -/
structure MayAct (s : State) (g w id k : Nat) (o : Op) (u : MUnit) : Prop where
  warp  : s.hasWarp g w = true ∧ (s.warp g w).trapping = none
  op    : s.opOf g w id = some o ∧ o.rel = false ∧ o.performed = false ∧ o.failed = []
  unit  : o.units[k]? = some u ∧ u.done = false ∧ u.sent = false ∧ u.fault = none ∧ shadowed o u = false
  order : orderOk ((s.warp g w).before id) o = true ∧ bytesOk ((s.warp g w).before id) u = true

/-- Unit k of the operation is over and has read these bytes; V and Y are as they were. -/
def HasRead (s t : State) (g w id k : Nat) (o : Op) (rd : List W8) : Prop :=
  t.vmem = s.vmem ∧ t.ymem = s.ymem
    ∧ (o.ins.held ≠ [] → ∃ o', t.opOf g w id = some o' ∧ o'.units = modAt (fun u => { u with done := true, sent := false, rd := rd, fault := none }) k o.units)

/-- The bytes of the words that a lane is given. -/
def wordBytes (l : List Nat) : List W8 := l.flatMap (lowBytes 4)

/-- No data breakpoint can match an access of the warp (R200). -/
def Unwatched (s : State) (c : Cx) : Prop := ∀ a, s.breakpoint (s.coreOf c.g) (s.wg c.g).ctx true a = none

end Sys2Proof.Claim

/-- R227, R228, R240, R319, R329, R338: an instruction that names a pool record raises 0x2A for an index at or above
POOL_CNT and the record's causes for its KIND and its rules; one that breaks R227 raises 0x2B at `rtwr` and `rtrd`. `saddr` fills its
destination with BASE plus the displacement. `rtwr` joins the warp's queue with a unit for each covered pixel in bounds of a lane that
is not killed, which places one render-target entry, and is over at once when there is none; `rtrd` joins it with a unit for each lane,
which gives the pixel that the die sees, or 0, 0, 0, 1 out of bounds. -/
def Obligations.PoolRecordsAndRenderTargets : Prop :=
  (∀ (f : Fields) (s : State) (c : Cx),
    let g := c.g
    let t := (s.wg g).ctx
    let x := s.warpOf c
    let rt := fun i => i ∈ [Instr.rtwr f, .rtrd f]
    let tex := fun i => i ∈ [Instr.sample f, .sgrad f, .gath4 f, .resq f]
    let ray := fun i => i ∈ [Instr.raybox f, .raytri f]
    (∀ i, (rt i ∨ tex i ∨ ray i ∨ i = .saddr f) → s.issuing i = some c → min 65536 ((s.cctx t 0x107).toNat % 2 ^ 17) ≤ f.ext.toNat →
      Traps i s c 0x2A c.act 0 0)
    ∧ (∀ b, Found s c b →
      let r := PoolRec.parse b
      let n := texelBytes r.fmt
      let ls := (lanesOf c.act).filter fun l => !x.killed.getLsbD l
      let px := fun l => (lane c.vA l).toNat % 2 ^ 16
      let py := fun l => (lane c.vA l).toNat / 2 ^ 16
      let inside := fun l => decide (px l < r.width) && decide (py l < r.height)
      let va := fun l => (r.base + (py l * r.width + px l) * n) % 2 ^ 64
      let good := r.kind = 3 ∧ r.valid = true ∧ r.levels = 0 ∧ r.layers = 0 ∧ r.base % n = 0 ∧ r.width * r.height * n ≤ r.size
      (∀ i, ((rt i ∧ r.valid = true ∧ r.kind ≠ 3) ∨ (tex i ∧ (r.kind ≠ 1 ∨ 10 ≤ r.fmt)) ∨ (ray i ∧ (r.kind ≠ 2 ∨ 10 ≤ r.fmt ∨ r.size % 64 ≠ 0))
          ∨ (i = .saddr f ∧ (3 < r.kind ∨ 10 ≤ r.fmt))) → s.issuing i = some c → Traps i s c 0x29 c.act 0 0)
      ∧ (∀ i, rt i → (r.valid = false ∨ r.kind = 3 ∧ ¬ good) → s.issuing i = some c → Traps i s c 0x2B c.act 0 0)
      ∧ (r.kind ≤ 3 → r.fmt < 10 → s.issuing (.saddr f) = some c →
          FillsLater (.saddr f) s c (BitVec.ofNat 64 r.base + f.imm.signExtend 64))
      ∧ (good → f.sub = 1 → s.stageKind g ≠ 3 → s.issuing (.rtwr f) = some c → Traps (.rtwr f) s c 0x06 c.act 0 0)
      ∧ (∀ (pa key : Nat → Nat), good → f.sub = 0 → Unwatched s c → s.issuing (.rtwr f) = some c →
          (∀ l ∈ ls, inside l = true → s.heapTarget t (va l) n .write = some (.ok (.dev (pa l) (key l)))) →
          (ls.filter inside = [] → Sets (.rtwr f) s c x)
          ∧ (ls.filter inside ≠ [] → Starts (.rtwr f) s s c [] fun id =>
              { id := id, ins := c.ins, kind := .rtw, ctx := t, width := n
                units := (ls.filter inside).map fun l =>
                  { lane := l, off := 0, size := n, va := va l, tgt := .dev (pa l) (key l)
                    wr := encodeTexel r.fmt r.srgb fun i => lane (s.groupReg c 4 f.sc.toNat i) l } }))
      ∧ (∀ (pa key : Nat → Nat), good → Unwatched s c → s.issuing (.rtrd f) = some c →
          (∀ l ∈ lanesOf c.act, inside l = true → s.heapTarget t (va l) n .read = some (.ok (.dev (pa l) (key l)))) →
          let d := f.dst.toNat
          let q := [Reg.v d, .v (d + 1), .v (d + 2), .v (d + 3)]
          Starts (.rtrd f) s s c q fun id =>
            { id := id, ins := { c.ins with held := q }, kind := .rtr, ctx := t, width := n, regs := [d, d + 1, d + 2, d + 3]
              look := some { kind := .rtrd, f := f, rcd := b }
              units := (((lanesOf c.act).filter inside).map fun l =>
                  { lane := l, off := 0, size := n, va := va l, tgt := .dev (pa l) (key l) })
                ++ ((lanesOf c.act).filter fun l => !inside l).map fun l => { lane := l, off := 0, size := 0, va := 0, tgt := .loc 0 } })))
  ∧ (∀ (s : State) g w id k copies (o : Op) (u : MUnit) pa key, MayAct s g w id k o u → s.ue = [] → s.ce = [] → u.tgt = .dev pa key →
      let d := dieOf (s.coreOf g)
      (o.kind = .rtw → ∃ t e, exec (.iqPerform g w id k copies) s = .next t ∧ HasRead s t g w id k o [] ∧ (t.die d).rt = (s.die d).rt ++ [e]
        ∧ e.pa = pa ∧ e.key = key ∧ e.own = (g, w) ∧ e.bytes = u.wr)
      ∧ (∀ l (bs : List W8), o.kind = .rtr → o.look = some l → bs.length = u.size → (∀ i, i < u.size → s.rtByte d (pa + i) key = bs[i]?) →
        ∃ t, exec (.iqPerform g w id k copies) s = .next t
          ∧ HasRead s t g w id k o (wordBytes (decodeTexel (PoolRec.parse l.rcd).fmt (PoolRec.parse l.rcd).srgb bs))))
  ∧ (∀ (s : State) g w id k copies (o : Op) (u : MUnit) l, MayAct s g w id k o u → o.kind = .rtr → o.look = some l → u.tgt = .loc 0 →
      ∃ t, exec (.iqPerform g w id k copies) s = .next t ∧ HasRead s t g w id k o (wordBytes [0, 0, 0, 0x3F800000]))

namespace Sys2Proof.Claim

/-- Instruction i joins the queue of its engine (R133) with one unit for each active lane, its record as it stands and its destinations
empty; with no active lane it has nothing to look up. -/
def Looks (i : Instr) (s : State) (c : Cx) (kind : LookKind) (regs : List Nat) (b : List W8) : Prop :=
  let q := regs.map Reg.v
  let t := (s.wg c.g).ctx
  (c.act = 0 → Starts i s s c q fun id => { id := id, ins := { c.ins with held := q }, kind := .fill, ctx := t })
  ∧ (c.act ≠ 0 → Starts i s s c q fun id =>
      { id := id, ins := { c.ins with held := q }, kind := .look, ctx := t, regs := regs, look := some { kind := kind, f := c.f, rcd := b }
        units := (activeLanes c.act).map fun l => { lane := l, off := 0, size := 0, va := 0, tgt := .loc 0 } })

/-- The levels that a lane looks up without a map: those it wants, as they are. -/
def asWanted (l : List Nat) : List LookLevel := l.map fun n => { want := n, lev := n, kind := 0, inc := false, region := (0, 0, 0) }

/-- Lane k of a lookup is under way as x; V and Y are as they were. -/
def LaneStands (s t : State) (g w id k : Nat) (o : Op) (l : Look) (x : LookLane) : Prop :=
  t.vmem = s.vmem ∧ t.ymem = s.ymem ∧ t.opOf g w id = some { o with look := some { l with lanes := SMap.put k x l.lanes } }

/-- The index along an axis of n texels, and for a linear lookup the fraction (R328): x is u n, less a half and rounded once when linear. -/
def axis (linear : Bool) (u : FVal) (n : Nat) : Int × FVal :=
  match if linear then rne (FVal.add 0 (u.mul (FVal.ofInt n)) (.fin true 1 2 0)) else u.mul (FVal.ofInt n) with
  | .inf neg => (if neg then -(2 ^ 31) else 2 ^ 31, zero)
  | x => ((x.toInt 2).getD 0, FVal.add 0 x (FVal.ofInt (-((x.toInt 2).getD 0))))

/-- What R328 reads at a level of w × h texels: the texel at (i, j); or, linear, t(i, j), t(i+1, j), t(i, j+1) and t(i+1, j+1), with their weights. -/
def texelsAt (linear : Bool) (u v : FVal) (w h : Nat) : List (Int × Int × FVal) :=
  let x := axis linear u w
  let y := axis linear v h
  let rest := fun (f : FVal) => FVal.add 0 (FVal.ofInt 1) f.neg
  if linear then
    [(x.1, y.1, (rest x.2).mul (rest y.2)), (x.1 + 1, y.1, x.2.mul (rest y.2)), (x.1, y.1 + 1, (rest x.2).mul y.2), (x.1 + 1, y.1 + 1, x.2.mul y.2)]
  else [(x.1, y.1, FVal.ofInt 1)]

/-- A lookup weighs four texels, or reads one: `gath4` is formed as bilinear (R328). -/
def Linear (t : Tex) (ga : Option Nat) : Bool := decide (t.filter ≠ 0) || ga.isSome

/-- The same of a lane, at level n of a texture (R327). -/
def weighted (t : Tex) (ga : Option Nat) (i : LaneIn) (n : Nat) : List (Int × Int × FVal) :=
  texelsAt (Linear t ga) i.u i.v (max 1 (t.res.width / 2 ^ n)) (max 1 (t.res.height / 2 ^ n))

/-- The addresses of the texels that a lane reads at a level; kind 3 reads none (R164). -/
def reads (t : Tex) (ga : Option Nat) (i : LaneIn) (lv : LookLevel) : List Nat :=
  if lv.kind = 3 then [] else (((weighted t ga i lv.lev).map (t.tapAt i.k lv.lev)).filterMap fun p => match p with | .texel _ _ va => some va | _ => none)

/-- The addresses of the units of a lane's texels: of at most 8 bytes each (R117, R133). -/
def unitsAt (t : Tex) (ga : Option Nat) (i : LaneIn) (lvs : List LookLevel) : List Nat :=
  (lvs.flatMap (reads t ga i)).flatMap fun va => if texelBytes t.res.fmt ≤ 8 then [va] else [(va + 0) % 2 ^ 64, (va + 8) % 2 ^ 64]

/-- The channels of the four texels, or the one, of a level, of the bytes that were read: the border colour for kind 3 (R164, R328). -/
def channels (t : Tex) (ga : Option Nat) (i : LaneIn) (lv : LookLevel) (bs : List (List W8)) : List (List Nat) :=
  if lv.kind = 3 then List.replicate 4 t.borderColour else t.tapColours ((weighted t ga i lv.lev).map (t.tapAt i.k lv.lev)) bs

/-- The colour of a level (R328): the texel, or per channel the exact sum of weight times texel, rounded once. -/
def colour (t : Tex) (i : LaneIn) (lv : LookLevel) (bs : List (List W8)) : List Nat :=
  let cs := channels t none i lv bs
  if lv.kind = 3 then t.borderColour
  else if Linear t none then (List.range 4).map fun ch =>
    roundF fp32 0 (exactSum (((weighted t none i lv.lev).zip cs).map fun p => p.1.2.2.mul (decodeF fp32 (p.2.getD ch 0))))
  else cs.headD [0, 0, 0, 0]

/-- What a lane gives (R328), of the bytes of its units: channel `ga` of four texels; one colour; or (1 − f) c0 + f c1, rounded once. -/
def answer (t : Tex) (ga : Option Nat) (i : LaneIn) (lvs : List LookLevel) (got : List (List W8)) : List Nat :=
  let m := (texelBytes t.res.fmt + 7) / 8
  let bs := (List.range (got.length / m)).map fun k => ((got.drop (m * k)).take m).flatten
  let f := (t.wants ga i).2
  match ga, lvs with
  | some ch, lv :: _ => (channels t ga i lv bs).map fun c => c.getD ch 0
  | none, [lv] => colour t i lv bs
  | none, l0 :: l1 :: _ =>
    let n := (reads t none i l0).length
    ((colour t i l0 (bs.take n)).zip (colour t i l1 (bs.drop n))).map fun p =>
      roundF fp32 0 (exactSum [(FVal.add 0 (FVal.ofInt 1) f.neg).mul (decodeF fp32 p.1), f.mul (decodeF fp32 p.2)])
  | _, [] => []

/-- The status of a level (R164): its kind, and the levels it lies above the wanted one, at most 15. -/
def levelStatus (lv : LookLevel) : Nat := lv.kind + 4 * if lv.kind = 3 then 0 else min (lv.lev - lv.want) 15

/-- The lanes below lane k of an operation are over. -/
def LowerOver (o : Op) (k : Nat) : Prop := ∀ j v, j < k → o.units[j]? = some v → v.done = true

/-- n bytes lie in the heap window of the workgroup, and the core reads these (R133: a plain load). -/
def Loads (s : State) (g va : Nat) (b : List W8) : Prop :=
  ∃ pa key, s.heapTarget (s.wg g).ctx va b.length .read = some (.ok (.dev pa key)) ∧ ∀ j, j < b.length → s.readByte (s.coreOf g) 1 true (pa + j) key = b[j]?

/-- The near and far distance of one axis of a box (R330). -/
def span (lo hi o d : FVal) : FVal × FVal :=
  let inv := rne ((FVal.ofInt 1).div d)
  let p := (FVal.sub lo o).mul inv
  let q := (FVal.sub hi o).mul inv
  let down := fun v => decodeF fp32 (roundF fp32 2 v)
  let up := fun v => decodeF fp32 (roundF fp32 3 v)
  if p.isNan || q.isNan then (.inf true, .inf false) else (FVal.pick true (down p) (down q), FVal.pick false (up p) (up q))

/-- R330: the five words of `raybox` for ray words y and record words w. -/
def boxAnswer (y w : Nat → W32) : List Nat :=
  let axes := fun k a => span (f32 (w (6 * k + a))) (f32 (w (6 * k + 3 + a))) (f32 (y a)) (f32 (y (4 + a)))
  let most := FVal.pick false
  let least := FVal.pick true
  let entry := fun k => most (most (most (f32 (y 3)) (axes k 0).1) (axes k 1).1) (axes k 2).1
  let leave := fun k => least (least (least (f32 (y 7)) (axes k 0).2) (axes k 1).2) (axes k 2).2
  let hit := fun k => !((List.range 8).any fun j => (f32 (y j)).isNan) && (entry k).le (leave k)
  let t := fun k => if hit k then roundF fp32 0 (entry k) else 0x7F800000
  [(if hit 0 then 1 else 0) + (if hit 1 then 2 else 0) + (if hit 0 && hit 1 && (entry 1).lt (entry 0) then 4 else 0), t 0, t 1, (w 12).toNat, (w 13).toNat]

/-- R331: the five words of `raytri` for ray words y and record words w. -/
def triAnswer (y w : Nat → W32) : List Nat :=
  let miss := [0, 0x7F800000, 0, 0, 0xFFFFFFFF]
  let o := fun a => f32 (y a)
  let d := fun a => f32 (y (4 + a))
  let z := if (d 0).abs.lt (d 1).abs then (if (d 1).abs.lt (d 2).abs then 2 else 1) else if (d 0).abs.lt (d 2).abs then 2 else 0
  let kx := if (d z).below then (z + 2) % 3 else (z + 1) % 3
  let ky := if (d z).below then (z + 1) % 3 else (z + 2) % 3
  let sx := rne ((d kx).div (d z))
  let sy := rne ((d ky).div (d z))
  let sz := rne ((FVal.ofInt 1).div (d z))
  let p := fun v a => rne (FVal.sub (f32 (w (3 * v + a))) (o a))
  let px := fun v => rne (FVal.sub (p v kx) (sx.mul (p v z)))
  let py := fun v => rne (FVal.sub (p v ky) (sy.mul (p v z)))
  let pz := fun v => rne (sz.mul (p v z))
  let cross := fun a b => FVal.sub ((px a).mul (py b)) ((py a).mul (px b))
  let u := cross 2 1
  let v := cross 0 2
  let wt := cross 1 0
  let sum := fun a b c => FVal.add 0 (FVal.add 0 a b) c
  let det := sum u v wt
  let t := rne ((sum (u.mul (pz 0)) (v.mul (pz 1)) (wt.mul (pz 2))).div det)
  if ((List.range 8).any fun j => (f32 (y j)).isNan) || ((List.range 9).any fun j => (f32 (w j)).isNan) || ((d 0).isZero && (d 1).isZero && (d 2).isZero) then miss
  else if !([sx, sy, sz, px 0, px 1, px 2, py 0, py 1, py 2, pz 0, pz 1, pz 2].all FVal.isFin) then miss
  else if (u.below || v.below || wt.below) && (u.above || v.above || wt.above) then miss
  else if det.isZero then miss
  else if t.isFin && (f32 (y 3)).le t && t.le (f32 (y 7)) then [1, roundF fp32 0 t, roundF fp32 0 (v.div det), roundF fp32 0 (wt.div det), (w 9).toNat]
  else miss

/-- R332: word k of the ray y transformed by the matrix m, whose element m_rc is m (4 r + c). -/
def transformed (y m : Nat → W32) (k : Nat) : Nat :=
  let e := fun r c => f32 (m (4 * r + c))
  let v := fun j => f32 (y j)
  if k < 3 then roundF fp32 0 (FVal.add 0 (FVal.add 0 (FVal.add 0 (e k 3) ((e k 0).mul (v 0))) ((e k 1).mul (v 1))) ((e k 2).mul (v 2)))
  else if k = 3 ∨ k = 7 then (y k).toNat
  else roundF fp32 0 (FVal.add 0 (FVal.add 0 ((e (k - 4) 0).mul (v 4)) ((e (k - 4) 1).mul (v 5))) ((e (k - 4) 2).mul (v 6)))

end Sys2Proof.Claim

/-- R133, R164, R167, R297, R298, R326 to R332: the texture and ray instructions join the queue of their engine, which looks each lane
up step by step: the levels, the pages of a map's levels, each unit of a texel or record by itself, and the feedback for a map, which each of its
levels that another answers asks for (log 45), while the finer gives the status. A lane without a map looks up the levels it wants; of the texels it gives
the one at its coordinates, the bilinear or trilinear mixture, or, gathered, one channel of four. A map byte below a wanted level leaves it, one
above takes the level up to TAIL, and a level of which a page is absent, before its texels are read or then, gives way to the next one. A lane of `raybox` and `raytri` tests
the record that its node index names, and finds 0x28 for one out
of range or of another kind. `resq` without a map answers the wanted level as resident; `rayxf` transforms rays by matrices. `resfence`
releases at DEV, and waits while lookups of its context that have read map bytes are under way. -/
def Obligations.TexturesAndRaysAnswer : Prop :=
  (∀ (f : Fields) (s : State) (c : Cx) (b : List W8), Found s c b →
    let r := PoolRec.parse b
    let w := f.imm.toNat
    let d := f.dst.toNat
    let word := r.kind = 1 ∧ r.fmt < 10 ∧ r.base % 65536 = 0 ∧ w % 4 ≠ 3 ∧ w / 64 % 4 ≠ 3 ∧ w < 2 ^ 16 ∧ (r.fmt = 9 → w % 4 = 0)
    let texel := [d, d + 1, d + 2, d + 3, f.dst2.toNat]
    (word → Unwatched s c →
      (s.issuing (.sample f) = some c → Looks (.sample f) s c .sample texel b)
      ∧ (s.issuing (.sgrad f) = some c → Looks (.sgrad f) s c .sgrad texel b)
      ∧ (s.issuing (.gath4 f) = some c → Looks (.gath4 f) s c .gath4 texel b))
    ∧ (r.kind = 1 → r.fmt < 10 → Unwatched s c → s.issuing (.resq f) = some c → Looks (.resq f) s c .resq [d] b)
    ∧ (r.kind = 2 → r.fmt < 10 → r.size % 64 = 0 → Unwatched s c →
      (s.issuing (.raybox f) = some c → Looks (.raybox f) s c .raybox [d, d + 1, d + 2, d + 3, d + 4] b)
      ∧ (s.issuing (.raytri f) = some c → Looks (.raytri f) s c .raytri [d, d + 1, d + 2, d + 3, d + 4] b)))
  ∧ (∀ (s : State) g w id k copies (o : Op) (u : MUnit) (l : Look), MayAct s g w id k o u → o.kind = .look → o.look = some l → o.ctx = (s.wg g).ctx →
    s.ue = [] → s.ce = [] →
    let c : Cx := { g := g, w := w, f := l.f, ins := o.ins, re := false }
    let r := PoolRec.parse l.rcd
    let t := Tex.of l.f.ext.toNat r l.f.imm
    let i := if l.kind = .sgrad then gradIn t s c u.lane else levelIn t s c u.lane
    let ga := if l.kind = .gath4 then some l.f.sub.toNat else none
    let lvl := (lane c.vC u.lane).toNat % 16
    let tex := l.kind = .sample ∨ l.kind = .sgrad ∨ l.kind = .gath4
    let stands := fun x => ∃ u, exec (.iqPerform g w id k copies) s = .next u ∧ LaneStands s u g w id k o l x
    let gives := fun words => ∃ u, exec (.iqPerform g w id k copies) s = .next u ∧ HasRead s u g w id k o (wordBytes words)
    let finds := fun va cause => ∃ s1 : State, s1.vmem = s.vmem ∧ s1.ymem = s.ymem ∧ (∃ o', s1.opOf g w id = some o'
        ∧ o'.units = modAt (fun u => { u with va := va }) k o.units) ∧ ∃ a b m, exec (.iqPerform g w id k copies) s
          = .next (((s1.loadFails g w id k cause).modOp g w id fun o => { o with ueLines := a }).modWarp g w fun y => { y with metCode := b, metAt := m })
    let mapped := fun n (va : Nat) => ∃ pa key, s.heapTarget (s.wg g).ctx va n .read = some (.ok (.dev pa key))
    let absent := fun n (va : Nat) => s.heapTarget (s.wg g).ctx va n .read = some (.error 0x0A)
    let vas := fun (lv : LookLevel) => reads t ga i lv
    let n := texelBytes r.fmt
    (r.rmap = 0 → SMap.find k l.lanes = none → (tex → stands { levels := asWanted (t.wants ga i).1 }) ∧ (l.kind = .resq → stands { levels := asWanted [lvl] }))
    ∧ (r.rmap = 0 → l.kind = .resq → SMap.find k l.lanes = some { levels := asWanted [lvl] } → gives [256 * lvl])
    ∧ (∀ x, tex → SMap.find k l.lanes = some x → x.words = none → x.found = false →
      (r.rmap = 0 ∨ ∀ lv ∈ x.levels, ∀ va ∈ vas lv, mapped n va) → stands { x with found := true, got := List.replicate (unitsAt t ga i x.levels).length none })
    ∧ (∀ x lv, tex → r.rmap ≠ 0 → SMap.find k l.lanes = some x → x.words = none → x.found = false → x.levels = [lv] → lv.kind ≠ 3 →
      (∃ va ∈ vas lv, absent n va) → (∀ va ∈ vas lv, mapped n va ∨ absent n va) →
      (x.tail ≤ lv.lev → ∃ rg, stands { x with levels := [{ lv with kind := 3, inc := true, region := rg }], found := true, got := [] })
      ∧ (lv.lev < x.tail → (∀ va ∈ vas { lv with lev := lv.lev + 1 }, mapped n va) → ∃ rg,
          let next := { lv with lev := lv.lev + 1, kind := if x.tail ≤ lv.lev + 1 then 2 else 1, inc := true, region := rg }
          stands { x with levels := [next], found := true, got := List.replicate (unitsAt t ga i [next]).length none }))
    ∧ (∀ x (bs : Nat → List W8), tex → SMap.find k l.lanes = some x → x.words = none → x.found = true →
      x.got.length = (unitsAt t ga i x.levels).length → none ∈ x.got →
      (∀ j va, (unitsAt t ga i x.levels)[j]? = some va → (bs j).length = min n 8 ∧ Loads s g va (bs j)) →
      ∃ j, x.got[j]? = some none ∧ stands { x with got := modAt (fun _ => some (bs j)) j x.got })
    ∧ (∀ x lv, tex → SMap.find k l.lanes = some x → x.words = none → x.found = true → x.levels = [lv] →
      x.got.length = (unitsAt t ga i x.levels).length → none ∈ x.got → (∀ va ∈ unitsAt t ga i x.levels, absent (min n 8) va) →
      (r.rmap = 0 → ∃ va ∈ unitsAt t ga i x.levels, finds va 0x0A)
      ∧ (r.rmap ≠ 0 → ∃ rg, stands { x with
          found := false, got := [], levels := [if x.tail ≤ lv.lev then { lv with kind := 3, inc := true, region := rg }
            else { lv with lev := lv.lev + 1, kind := if x.tail ≤ lv.lev + 1 then 2 else 1, inc := true, region := rg }] }))
    ∧ (∀ x (got : List (List W8)), tex → SMap.find k l.lanes = some x → x.words = none → x.found = true → x.got = got.map some →
      x.got.length = (unitsAt t ga i x.levels).length →
      (r.rmap = 0 → gives (answer t ga i x.levels got ++ [0]))
      ∧ (r.rmap ≠ 0 → ∀ lv more, x.levels = lv :: more →
        ((∀ v ∈ x.levels, v.kind = 0 ∨ v.kind = 3 ∧ v.inc = false) → gives (answer t ga i x.levels got ++ [levelStatus lv]))
        ∧ ((∃ v ∈ x.levels, v.kind ≠ 0 ∧ (v.kind = 3 → v.inc = true)) → stands { x with words := some (answer t ga i x.levels got) })))
    ∧ (∀ x lv words bits s1, tex → SMap.find k l.lanes = some x → x.words = some words → x.levels = [lv] → lv.kind ≠ 0 → (lv.kind = 3 → lv.inc = true) →
      l.fed = [] → LowerOver o k → s.feed g (lv.feed l.f.ext.toNat) = .bits bits s1 → s1.wgs = s.wgs → ∃ u, exec (.iqPerform g w id k copies) s = .next u
        ∧ HasRead s1 u g w id k o (wordBytes (words ++ [levelStatus lv + bits])))
    ∧ (∀ x lv words, tex → SMap.find k l.lanes = some x → x.words = some words → x.levels = [lv] → lv.kind ≠ 0 → (lv.kind = 3 → lv.inc = true) →
      l.fed = [] → (∃ j v, j < k ∧ o.units[j]? = some v ∧ v.done = false ∧ SMap.find j l.lanes = none) → ∃ u, exec (.iqPerform g w id k copies) s = .next u
        ∧ u.opOf g w id = some o)
    ∧ (∀ x lv lv1 words bits b s1, tex → SMap.find k l.lanes = some x → x.words = some words → x.levels = [lv, lv1] → lv.kind ≠ 0 → lv1.kind ≠ 0 →
      (lv.kind = 3 → lv.inc = true) → (lv1.kind = 3 → lv1.inc = true) →
      let key := fun v : LookLevel => (v.feed l.f.ext.toNat).key
      key lv1 ≠ key lv → l.fed = [(key lv, b)] → LowerOver o k → s.feed g (lv1.feed l.f.ext.toNat) = .bits bits s1 → s1.wgs = s.wgs →
      ∃ u, exec (.iqPerform g w id k copies) s = .next u ∧ HasRead s1 u g w id k o (wordBytes (words ++ [levelStatus lv + b])))
    ∧ (∀ kind (test : (Nat → W32) → (Nat → W32) → List Nat), (l.kind, kind, test) ∈ [(LookKind.raybox, 1, boxAnswer), (.raytri, 2, triAnswer)] →
      let n := (lane c.vA u.lane).toNat % 2 ^ 31
      let va := (r.base + 64 * n) % 2 ^ 64
      (SMap.find k l.lanes = none → (r.size / 64 ≤ n → finds va 0x28) ∧ (n < r.size / 64 → stands { found := true, got := List.replicate 8 none }))
      ∧ (∀ x (bs : Nat → List W8), SMap.find k l.lanes = some x → x.got.length = 8 → none ∈ x.got →
        (∀ j, j < 8 → (bs j).length = 8 ∧ Loads s g ((va + 8 * j) % 2 ^ 64) (bs j)) →
        ∃ j, x.got[j]? = some none ∧ stands { x with got := modAt (fun _ => some (bs j)) j x.got })
      ∧ (∀ x (got : List (List W8)), SMap.find k l.lanes = some x → x.got = got.map some →
        let word := fun j => BitVec.ofNat 32 (leVal ((got.flatten.drop (4 * j)).take 4))
        ((word 14).toNat ≠ kind → finds va 0x28)
        ∧ ((word 14).toNat = kind → gives (test (fun j => lane (s.groupReg c 2 l.f.sb.toNat j) u.lane) word)))))
  ∧ (∀ (s : State) g w rmap (h : MapHdr) L regs,
      (h.tail ≤ L → ∃ lv, s.decideLevel g w rmap h L regs = .ok lv s ∧ lv.lev = L ∧ lv.status = 0)
      ∧ (∀ bs s1, L < h.tail → s.mapBytes g w rmap h regs [] = .ok (bs, s1) → ∃ lv, s.decideLevel g w rmap h L regs = .ok lv s1
          ∧ ((∀ m ∈ bs, m ≤ L) → lv.lev = L ∧ lv.status = 0)
          ∧ (∀ m ∈ bs, L < m → (∀ p ∈ bs, p ≤ m) → lv.lev = min m h.tail ∧ lv.kind = if m < h.tail then 1 else 2)))
  ∧ (∀ (f : Fields) (s : State) (c : Cx),
      let m := fun l i => lane (s.groupReg c 2 f.sb.toNat i) l
      let r := fun l i => lane (s.groupReg c 0 f.sa.toNat i) l
      let s1 := s.warpRelease c.g c.w 4
      (s.issuing (.rayxf f) = some c → Writes (.rayxf f) s c [] ((List.range 8).map (f.dst.toNat + ·)) [] fun y =>
        ∀ l k, l < 32 → k < 8 → lane (y.getV (f.dst.toNat + k)) l =
          if c.act.getLsbD l then BitVec.ofNat 32 (transformed (r l) (m l) k) else lane ((s.warpOf c).getV (f.dst.toNat + k)) l)
      ∧ (s.issuing (.resfence f) = some c → (s.warpOf c).allPerformed = true →
        (s1.lookups (s.wg c.g).ctx = [] → Does (.resfence f) s s1 c)
        ∧ (s1.lookups (s.wg c.g).ctx ≠ [] → ∃ t b, exec (.resfence f) s = .next t ∧ (t.warpOf c).blocked = some b
            ∧ b.wait = .looks (s1.lookups (s.wg c.g).ctx) ∧ (t.warpOf c).pc = (s1.warpOf c).pc)))

/-! Events of the scheduler, the module, its host, the causeway and the power control. -/

namespace Sys2Proof.Claim

/-- A list of warps of a sub-core whose ready active ones may issue (R19, R20, R21). -/
def mayIssue (s : State) (j : Nat) (p : Nat × Nat) : Prop :=
  p ∈ s.subWarps j ∧ (s.warp p.1 p.2).active = true ∧ s.ready p.1 p.2 = true ∧ s.exchanging j p = false

/-- The capacity of host events (R174): an event is appended, or its drop counted, in 32 bits (the model's width: log 94). -/
def Posts (s t : State) (ctx kind : Nat) : Prop :=
  if 64 ≤ s.evts.length then t.evts = s.evts ∧ (s.evtOvf ≠ 0xFFFFFFFF → t.evtOvf = s.evtOvf + 1)
  else t.evts = s.evts ++ [BitVec.ofNat 64 (ctx + kind * 4096)] ∧ t.evtOvf = s.evtOvf

end Sys2Proof.Claim

/-- R20, R21, R32, R33, R250: WARP_ISSUE examines the warps of its sub-core, where nothing happens when none has to wait; then the ready
active warp of the highest rank issues, once in a cycle, and not behind a higher-numbered sub-core of its core (R111); an exchange begins
on a sub-core without one and ends 4 cycles later, when the warps have changed sets; a fill moves the best ready pending warp into an
active set with room; a warp in poll state is examined again at every 64th cycle; a pause ends when its cycles have passed. -/
def Obligations.SchedulerEvents : Prop :=
  (∀ (s : State) j,
    let s1 := s.examineAll j
    let late := ∃ i, i < 4 ∧ j % 4 ≤ i ∧ (s1.sub (4 * (j / 4) + i)).issued = some (s1.subNow j)
    ((∀ p ∈ s.subWarps j, (s.warp p.1 p.2).blocked = none ∧ (s.runnable p.1 p.2 = false ∨ s.exchanging j p = true ∨ s.nextWaits p.1 p.2 = [])) → s1 = s)
    ∧ (∀ p, ¬ late → mayIssue s1 j p → (∀ q, mayIssue s1 j q → q ≠ p → s1.ranks p q = true) → ∃ t, exec (.warpIssue j) s = .next t
      ∧ t.cur = some p ∧ (t.sub j).issued = some (s1.subNow j) ∧ { t with subs := s1.subs, cur := s1.cur } = s1)
    ∧ ((late ∨ ∀ p, ¬ mayIssue s1 j p) → exec (.warpIssue j) s = .next s1))
  ∧ (∀ (s : State) j a p, (s.sub j).xchg = none → s.worstActive j = some a → s.bestPending j = some p →
    (s.subNow j % 64 = 0 → s.above p a = true → ∃ t, exec (.exchangePeriodic j) s = .next t
      ∧ (t.sub j).xchg = some { out := some a, inn := some p, ends := s.now a.1 + 4 } ∧ { t with subs := s.subs } = s)
    ∧ ((s.subNow j % 64 ≠ 0 ∨ s.above p a = false) → exec (.exchangePeriodic j) s = .next s))
  ∧ (∀ (s : State) j p, (s.sub j).xchg = none → s.bestPending j = some p →
    (s.activeCount j < 8 → ∃ t, exec (.activeSetFill j) s = .next t
      ∧ (t.sub j).xchg = some { out := none, inn := some p, ends := s.subNow j + 4 } ∧ { t with subs := s.subs } = s)
    ∧ (8 ≤ s.activeCount j → exec (.activeSetFill j) s = .next s))
  ∧ (∀ (s : State) j (x : Exchange) o i, (s.sub j).xchg = some x → x.out = some o → x.inn = some i → o ≠ i → s.hasWarp o.1 o.2 = true →
    s.hasWarp i.1 i.2 = true →
    (s.subNow j < x.ends → exec (.exchangeComplete j) s = .next s)
    ∧ (x.ends ≤ s.subNow j → ∃ t, exec (.exchangeComplete j) s = .next t ∧ (t.sub j).xchg = none
      ∧ t.warp o.1 o.2 = { s.warp o.1 o.2 with active := false } ∧ t.warp i.1 i.2 = { s.warp i.1 i.2 with active := true }
      ∧ ∀ g w, (g, w) ≠ o → (g, w) ≠ i → t.warp g w = s.warp g w))
  ∧ (∀ (s : State) j g w, s.subNow j % 64 = 0 → s.hasWarp g w = true → (s.subWarps j).filter (fun p => (s.warp p.1 p.2).poll) = [(g, w)] →
    let l := (s.warp g w).waits.filter fun c => !s.waitMet g w c
    (l = [] → ∃ t, exec (.pollReexamine j) s = .next t ∧ t.warp g w = { s.warp g w with poll := false, parked := [] })
    ∧ (l ≠ [] → s.cloakUsed (s.subOf g w) + min 4 l.length ≤ 32 → ∃ t, exec (.pollReexamine j) s = .next t
      ∧ t.warp g w = { s.warp g w with poll := false, parked := l.take 4 })
    ∧ (32 < s.cloakUsed (s.subOf g w) + min 4 l.length → l ≠ [] → exec (.pollReexamine j) s = .next s))
  ∧ (∀ (s : State) j, s.subNow j % 64 ≠ 0 → exec (.pollReexamine j) s = .next s)
  ∧ (∀ (s : State) g w n, s.hasWarp g w = true → (s.warp g w).paused = some n →
    (n ≤ s.now g → ∃ t, exec (.pauseEnd g w) s = .next t ∧ t.warp g w = { s.warp g w with paused := none })
    ∧ (s.now g < n → exec (.pauseEnd g w) s = .next s))

/-- R5, R169, R172, R193, R194, R199, R359 to R361: MODULE_RESET puts the module at its reset values, keeping what lies outside it or in its
non-volatile storage, and refuses an image that the boot ROM does not accept. A context is created with 15 keys never used before and its group's,
all its CSRs at reset, and its fatal record cleared. Removal asked for by the host writes the fatal record, posts event 1 and takes everything of the context.
An attestation starts with a write of 1 and ends with the index advanced and 2,908 bytes of report. Device Control 2 takes a configuration write. -/
def Obligations.ModuleContextAndAttestationEvents : Prop :=
  (∀ (s : State) (fw : Firmware), ∃ t, exec (.moduleReset fw) s = .next t
    ∧ (let ok := fw.sigOk && decide (s.fused ≤ fw.version)
       t.refused = (!ok) ∧ t.fused = (if ok && fw.raises then fw.version else s.fused)
         ∧ t.fwVersion = (if ok then fw.version else s.fwVersion) ∧ t.fwImage = (if ok then fw.image else s.fwImage))
    ∧ t.ctxs = [] ∧ t.wgs = [] ∧ t.vmem = [] ∧ t.vkey = [] ∧ t.groups = [] ∧ t.cores = [] ∧ t.subs = [] ∧ t.clusters = [] ∧ t.dies = [] ∧ t.csr = []
    ∧ t.evts = [] ∧ t.evtOvf = 0 ∧ t.mwin = 0 ∧ t.fatal = [] ∧ t.cur = none ∧ t.attest.index = s.attest.index ∧ t.attest.busy = false
    ∧ t.ymem = s.ymem ∧ t.nextKey = s.nextKey)
  ∧ (∀ (s : State) tag group, s.refused = false → tag < 4096 → SMap.find tag s.ctxs = none →
    ∃ t c, exec (.contextCreate tag group) s = .next t ∧ SMap.find tag t.ctxs = some c ∧ c.tag = tag ∧ c.group = group ∧ c.csr = [] ∧ c.tlb = []
      ∧ c.graphs = [] ∧ c.queues = [] ∧ c.streams = [] ∧ c.dying = none ∧ c.keys.length = 15 ∧ c.keys.Nodup
      ∧ (∀ k ∈ c.keys, s.nextKey ≤ k ∧ k < t.nextKey) ∧ (SMap.find group t.groups).isSome = true
      ∧ (∀ k, SMap.find group s.groups = some k → SMap.find group t.groups = some k)
      ∧ (∀ u, u ≠ tag → SMap.find u t.ctxs = SMap.find u s.ctxs) ∧ (SMap.wf s.fatal = true → SMap.find tag t.fatal = none) ∧ t.vmem = s.vmem ∧ t.wgs = s.wgs)
  ∧ (∀ (s : State) tag group, (s.refused = true ∨ 4096 ≤ tag ∨ (SMap.find tag s.ctxs).isSome = true) → exec (.contextCreate tag group) s = .next s)
  ∧ (∀ (s : State) u (x : Context) grace, SMap.find u s.ctxs = some x → x.dying = none →
    (grace = true → (∃ p ∈ s.wgs, p.2.ctx = u ∧ p.2.graced = true)) → ∃ t c, exec (.hostRemoveContext u grace) s = .next t ∧ SMap.find u t.ctxs = some c
      ∧ c.dying = some (if grace then 0x30 else 0x31) ∧ t.live u = false ∧ c.dyingWarp = none ∧ t.wgs = s.wgs ∧ t.vmem = s.vmem)
  ∧ (∀ (s : State) u (x : Context) code, SMap.find u s.ctxs = some x → x.dying = some code → SMap.wf s.ctxs = true → s.inFlight u = false →
    ∃ t f, exec (.contextRemoval u) s = .next t ∧ SMap.find u t.ctxs = none ∧ (∀ v, v ≠ u → SMap.find v t.ctxs = SMap.find v s.ctxs)
      ∧ SMap.find u t.fatal = some f ∧ f.cause = code ∧ f.inner = x.inner ∧ (x.dyingWarp = none → f.warp = 0xFFFF ∧ f.pc = 0)
      ∧ (∀ p, p ∈ t.wgs ↔ p ∈ s.wgs ∧ p.2.ctx ≠ u) ∧ Posts s t u 1 ∧ t.vmem = s.vmem ∧ t.ymem = s.ymem
      ∧ (s.mwin.toNat % 4096 = u → t.mwin.getLsbD 16 = false) ∧ (s.mwin.toNat % 4096 ≠ u → t.mwin = s.mwin))
  ∧ (∀ (s : State) (v : W64), let a := s.attest
    (v.getLsbD 0 = true → s.refused = false → a.busy = false → a.index < 2 ^ 20 → ∃ t, exec (.attestGo v) s = .next t
      ∧ t = { s with attest := { a with busy := true, taken := a.nonce } })
    ∧ ((v.getLsbD 0 = false ∨ a.busy = true ∨ 2 ^ 20 ≤ a.index) → exec (.attestGo v) s = .next s)
    ∧ (a.busy = false → exec .attestReportDone s = .next s)
    ∧ (a.busy = true → a.nonce.length = 32 → a.taken.length = 32 → ∃ t, exec .attestReportDone s = .next t ∧ t.attest.busy = false
      ∧ t.attest.index = a.index + 1 ∧ t.attest.report.length = 2908
      ∧ (a.taken = a.nonce → (t.attest.report.drop 48).take 32 = a.nonce)
      ∧ (t.attest.report.drop 16).take 32 = (List.range 32).map (Config.measurement s.fwImage)
      ∧ (t.attest.report.drop 80).take 4 = lowBytes 4 a.index ∧ (t.attest.report.drop 84).take 4 = lowBytes 4 (2 ^ 20 - (a.index + 1))
      ∧ t.vmem = s.vmem ∧ t.wgs = s.wgs))
  ∧ (∀ (s : State) v, ∃ t, exec (.deviceControl2Write v) s = .next t ∧ t = { s with devCtl2 := v })

/-- R64, R171 to R175, R178, R264, R359: what the host does to the module: a doorbell write moves WIDX on for a value that the ring admits and is refused, counted and
reported otherwise; a doorbell read gives RIDX; a write of 0 clears REJECTS; the memory window reads and writes V under the key that
`mwin_key` names, or answers nothing; an event is popped, or bit 63 tells that there is none; a CSR takes the fields that the host may write; a
failed posted write posts event 4; `mwin_key` and `host_evt_ovf` are read back; a refused image answers no memory request, but takes the function mask, which lies in configuration space (log 65); setting the masks keeps messages back, and clearing a
mask bit sends a pending message. -/
def Obligations.HostAccessesAnswer : Prop :=
  (∀ (s : State) u q (w : W32) (e : QEntry), s.live u = true → q < 16 → s.cpbOn = false → s.qRead u q = .ok e s →
    (∀ p ∈ (s.ctx u).pend, ∀ v, p.1 ≠ .door q v) →
    let n := (w - e.ridx).toNat
    (∀ pa key, e.en = true → n ≤ 2 ^ e.log2n → (e.widx - e.ridx).toNat ≤ n → s.ue = [] →
      s.heapTarget u (s.qAddr u q + 12) 4 .write = some (.ok (.dev pa key)) →
      ∃ t, exec (.notifyDoorbellWrite u q w) s = .next t ∧ VHolds s t pa key (lowBytes 4 w.toNat) ∧ t.ymem = s.ymem ∧ t.ctxs = s.ctxs)
    ∧ ((e.en = false ∨ 2 ^ e.log2n < n ∨ n < (e.widx - e.ridx).toNat) → ∃ t, exec (.notifyDoorbellWrite u q w) s = .next t
      ∧ Posts s t u 3 ∧ (t.queue u q).cause = 0x06 ∧ (t.queue u q).index = w.setWidth 24 ∧ t.vmem = s.vmem
      ∧ ((s.queue u q).rejects ≠ 0xFFFFFFFF → (t.queue u q).rejects = (s.queue u q).rejects + 1))
    ∧ (s.refused = false → ∃ t, exec (.notifyDoorbellRead u q) s = .next t ∧ t = { s with hostRead := some (.word (e.ridx.setWidth 64)) }))
  ∧ (∀ (s : State) u q, s.refused = true → ∃ t, exec (.notifyDoorbellRead u q) s = .next t ∧ t = { s with hostRead := some .unsupported })
  ∧ (∀ (s : State) u q, s.live u = true → q < 16 → ∃ t, exec (.rejectsWrite u q 0) s = .next t ∧ (t.queue u q).rejects = 0
      ∧ (t.queue u q).slots = (s.queue u q).slots ∧ t.vmem = s.vmem)
  ∧ (∀ (s : State) u q v, v ≠ 0 → exec (.rejectsWrite u q v) s = .next s)
  ∧ (∀ (s : State) off (b : List W8), s.ue = [] → s.ce = [] → installed off b.length = true →
    let u := s.mwin.toNat % 4096
    let key := s.keyOf u (s.mwin.toNat / 2 ^ 12 % 16)
    (s.mwin.getLsbD 16 = true → s.live u = true → s.refused = false →
      (∃ t, exec (.bar2MemoryAccess off 0 (some b)) s = .next t ∧ VHolds s t off key b ∧ t.ymem = s.ymem)
      ∧ ((∀ i, i < b.length → s.homeByte true (off + i) key = b[i]?) → ∃ t, exec (.bar2MemoryAccess off b.length none) s = .next t
        ∧ t = { s with hostRead := some (.bytes b) }))
    ∧ ((s.mwin.getLsbD 16 = false ∨ s.live u = false ∨ s.refused = true) → exec (.bar2MemoryAccess off 0 (some b)) s = .next s
      ∧ exec (.bar2MemoryAccess off b.length none) s = .next { s with hostRead := some .unsupported }))
  ∧ (∀ (s : State) v, s.refused = false → ∃ t, exec (.mwinKeyWrite v) s = .next t ∧ t = { s with mwin := (v.setWidth 17).setWidth 64 })
  ∧ (∀ (s : State), s.refused = false → (s.evts = [] → ∃ t, exec .hostEvt s = .next t ∧ t = { s with hostRead := some (.word (0x8000000000000000)) })
    ∧ ∀ e rest, s.evts = e :: rest → ∃ t, exec .hostEvt s = .next t ∧ t = { s with evts := rest, hostRead := some (.word e) })
  ∧ (∀ (s : State) off v u n sc fs, s.refused = false → (off < 0x1C000000 ∨ 0x1C000020 ≤ off) → csrOffset off = some (u, n) →
    csrFields n = some (sc, fs) → offsetHolds off sc = true → numberFits sc n = true → (sc = .ctx → s.live u.ctx = true) →
    n ∉ [0x105, 0x108, 0x114, 0x118, 0x400, 0x601, 0x602, 0x620] → (sc ≠ .warp) → ∃ t, exec (.hostCsrWrite off v) s = .next t
      ∧ t.csrAt u sc n = csrMerge fs (s.csrAt u sc n) v ∧ t.vmem = s.vmem ∧ t.wgs = s.wgs)
  ∧ (∀ (s : State) i v, s.refused = false → i < 4 → s.attest.nonce.length = 32 → ∃ t, exec (.hostCsrWrite (0x1C000000 + 8 * i) v) s = .next t
      ∧ t.attest.nonce.length = 32 ∧ (t.attest.nonce.drop (8 * i)).take 8 = lowBytes 8 v.toNat
      ∧ (∀ j, (j < 8 * i ∨ 8 * i + 8 ≤ j) → t.attest.nonce[j]? = s.attest.nonce[j]?) ∧ { t with attest := s.attest } = s)
  ∧ (∀ (s : State) u, (s.live u = true → u ∈ s.lost → ∃ t, exec (.hostLinkError u) s = .next t ∧ Posts s t u 4 ∧ t.lost = s.lost.erase u
        ∧ t.ctxs = s.ctxs ∧ t.vmem = s.vmem)
      ∧ ((s.live u = false ∨ u ∉ s.lost) → exec (.hostLinkError u) s = .next s))
  ∧ (∀ (s : State), s.refused = false → s.hostActs (.read 0x1FFFF010 8) = { s with hostRead := some (.word s.mwin) }
      ∧ s.hostActs (.read 0x1FFFF008 8) = { s with hostRead := some (.word (s.evtOvf.setWidth 64)) })
  ∧ (∀ (s : State) v b, s.refused = true → (s.hostActs (.masks v b)).msixMask = s.msixMask ∧ (s.hostActs (.masks v b)).msixOff = b)
  ∧ (∀ (s : State) v, s.refused = false → (s.hostActs (.masks v true)).msixSent = s.msixSent ∧ (s.hostActs (.masks v true)).msixPend = s.msixPend
      ∧ (∀ i, i < 64 → (i ∈ (s.hostActs (.masks v false)).msixSent ↔ i ∈ s.msixSent ∨ s.msixPend.getLsbD i = true ∧ v.getLsbD i = false)
          ∧ (s.hostActs (.masks v false)).msixPend.getLsbD i = (s.msixPend.getLsbD i && v.getLsbD i))
      ∧ ∀ b, (s.hostActs (.masks v b)).msixMask = v ∧ (s.hostActs (.masks v b)).msixOff = b)
  ∧ (∀ (s : State) v, v < 64 → s.refused = false → ∃ t, exec (.msixVectorUnmask v) s = .next t
      ∧ (∀ i, i < 64 → t.msixMask.getLsbD i = (s.msixMask.getLsbD i && decide (i ≠ v)))
      ∧ t.msixSent = s.msixSent ++ (if s.msixPend.getLsbD v && !s.msixOff then [v] else [])
      ∧ (∀ i, i < 64 → t.msixPend.getLsbD i = (s.msixPend.getLsbD i && (decide (i ≠ v) || s.msixOff))) ∧ t.wgs = s.wgs ∧ t.vmem = s.vmem)

namespace Sys2Proof.Claim

/-- Cluster c is asked for level r: the largest `perf_req` of the contexts that have a started workgroup on it, 0 where it is idle (R351). -/
def Requests (s : State) (c r : Nat) : Prop :=
  let asks := fun (p : Nat × Wg) => p.2.core / 12 = c ∧ p.2.saved = false ∧ p.2.ended = false
  (∀ p ∈ s.wgs, asks p → (s.cctx p.2.ctx 0x118).toNat % 16 ≤ r)
    ∧ (r = 0 ∨ ∃ p ∈ s.wgs, asks p ∧ (s.cctx p.2.ctx 0x118).toNat % 16 = r)

/-- Every cluster's target is its request, lowered to the level permitted (R351). -/
def Retargeted (s : State) : Prop :=
  ∀ c r, c < 32 → Requests s c r → (s.cluster c).target = min r ((s.cmod 0x600).toNat % 16)

end Sys2Proof.Claim

/-- R38, R45, R194 to R197, R351: pre-emption is requested by the host, or when a context has run `tslice` cycles while a rival waits;
event 2 is posted once `preempt_grace` has passed; a pre-emptible workgroup stops issuing, and is saved once its asynchronous work has ended; a
saved one is restored on its own core when that has room, every register as it was, and a warp that waited inside an instruction parks again or
enters poll state (R33); one whose wait takes no entry is held where it is (log 100). Both set the clusters' targets anew. A record that cannot be written or read removes the
context with 0x34, a damaged one with 0x32. -/
def Obligations.WorkgroupsArePreemptedAndRestored : Prop :=
  ∀ (s : State) g, s.hasWg g = true →
    let x := s.wg g
    let d := dieOf x.core
    let n := (s.cctx x.ctx 0x116).toNat % 2 ^ 32
    let asked := s.modWg g fun y => { y with preempt := some (s.die d).counter }
    let ran := SMap.find x.ctx (s.core x.core).ran
    let pieces := pagePieces (x.shape.saveBytes / 65536 + 2) (s.saveAt x.ctx) x.shape.saveBytes
    (x.preempt = none → x.saved = false → x.ended = false →
      exec (.preemptRequestHost g) s = .next asked
      ∧ (∀ r, 0 < n → ran = some r → r + n ≤ (s.core x.core).cycle → s.rivals x.core x.ctx x.eprio = true →
        exec (.preemptRequestTimeslice g) s = .next asked)
      ∧ ((n = 0 ∨ s.rivals x.core x.ctx x.eprio = false ∨ ∀ r, ran = some r → (s.core x.core).cycle < r + n) →
        exec (.preemptRequestTimeslice g) s = .next s)
      ∧ exec (.eviction g) s = .next s)
    ∧ (∀ a, x.preempt = some a → x.saved = false → x.ended = false →
      (let m := (s.cdie d 0x406).toNat % 2 ^ 32
       (0 < m → x.graced = false → a + m ≤ (s.die d).counter → ∃ t, exec (.preemptGraceExpiry g) s = .next t ∧ Posts s t x.ctx 2
          ∧ t.wg g = { x with graced := true } ∧ t.vmem = s.vmem)
       ∧ ((m = 0 ∨ x.graced = true ∨ (s.die d).counter < a + m) → exec (.preemptGraceExpiry g) s = .next s))
      ∧ (s.live x.ctx = true → x.evicting = false → s.preemptible g = false → exec (.eviction g) s = .next s)
      ∧ (s.live x.ctx = true → s.preemptible g = true → s.quiet g = false → exec (.eviction g) s = .next (s.modWg g fun y => { y with evicting := true }))
      ∧ (s.live x.ctx = true → s.preemptible g = true → s.quiet g = true → s.ue = [] → s.hostFail = [] →
        (∀ q ∈ s.ctxs, ∀ p ∈ q.2.streams, p.2.dead = false) → (∀ p ∈ pieces, ∃ pa key, s.heapTarget x.ctx p.1 p.2 .write = some (.ok (.dev pa key))) →
        ∃ t, exec (.eviction g) s = .next t ∧ (t.wg g).saved = true ∧ (t.wg g).evicting = false ∧ (t.wg g).preempt = none
          ∧ (t.wg g).warps = x.warps ∧ (t.wg g).local_ = x.local_ ∧ (t.wg g).tiles = x.tiles ∧ (t.wg g).accs = x.accs ∧ (t.wg g).cys = x.cys
          ∧ Retargeted t ∧ (∀ h, h ≠ g → SMap.find h t.wgs = SMap.find h s.wgs) ∧ t.live x.ctx = true)
      ∧ (s.live x.ctx = true → s.preemptible g = true → s.quiet g = true →
        (∀ p ∈ pieces, ∃ c, s.heapTarget x.ctx p.1 p.2 .write = some (.error c)) →
        ∃ t k, exec (.eviction g) s = .next t ∧ SMap.find x.ctx t.ctxs = some k ∧ k.dying = some 0x34))
    ∧ (∀ b, x.saved = true → s.live x.ctx = true → s.coreFits x.core x.shape = true → s.chooseB x.core x.shape = some b → s.latchesFit g = true →
      (∀ d p rest c, pieces = p :: rest → s.heapTarget x.ctx p.1 p.2 .read = some (.error c) →
        ∃ t c, exec (.restore g d) s = .next t ∧ SMap.find x.ctx t.ctxs = some c ∧ c.dying = some 0x34 ∧ t.wgs = s.wgs)
      ∧ (s.ue = [] → (∀ p ∈ pieces, ∃ pa key, s.heapTarget x.ctx p.1 p.2 .read = some (.ok (.dev pa key))) →
       (∃ t c, exec (.restore g true) s = .next t ∧ SMap.find x.ctx t.ctxs = some c ∧ c.dying = some 0x32 ∧ t.wgs = s.wgs)
       ∧ ∃ t, exec (.restore g false) s = .next t ∧ (t.wg g).saved = false ∧ (t.wg g).b = b ∧ (t.wg g).warps.length = x.warps.length
        ∧ (t.wg g).local_ = x.local_ ∧ (t.wg g).tiles = x.tiles ∧ (t.wg g).accs = x.accs ∧ (t.wg g).cys = x.cys
        ∧ (∀ w, w < x.warps.length → (s.warp g w).blocked = none ∨ (s.warp g w).ended = true →
          ∃ act, t.warp g w = { s.warp g w with parked := [], poll := false, active := act })
        ∧ (∀ w k, w < x.warps.length → (s.warp g w).blocked = some k → (s.warp g w).ended = false → ∃ act,
          t.warp g w = { s.warp g w with parked := [k.wait], waits := [k.wait], poll := false, active := act }
          ∨ k.wait.parks = true ∧ t.warp g w = { s.warp g w with parked := [], waits := [k.wait], poll := true, active := act })
        ∧ Retargeted t
        ∧ (∀ h, h ≠ g → SMap.find h t.wgs = SMap.find h s.wgs) ∧ t.vmem = s.vmem ∧ t.ymem = s.ymem))

/-! Events of the causeway and of the power control. -/

namespace Sys2Proof.Claim

/-- Edge e of graph n of a context that runs. -/
def HasEdge (s : State) (t n e : Nat) : Prop := s.live t = true ∧ ∃ g, SMap.find n (s.ctx t).graphs = some g ∧ e < g.edges.length

/-- Datagram d of RECORDS type carries the records l of an edge, under the next SEQ of its direction (R70, R72, R76). -/
def Carries (s : State) (t n e : Nat) (k : BitVec 256) (l : List Rec) (d : Datagram) : Prop :=
  d.type = 0 ∧ d.rel = false ∧ d.ctx = t ∧ d.graph = (s.graph t n).gid ∧ d.edge = e ∧ d.size = (s.edge t n e).size ∧ d.count = l.length
    ∧ (∀ r ∈ l.head?, d.frame = r.frame ∧ d.first.toNat = leVal (r.data.take 4)) ∧ d.body = l.flatMap (·.data) ∧ d.seq = (s.edge t n e).seq ∧ d.key = k
    ∧ d.nonce = (s.graph t n).gid &&& 0x7FFFFFFF ||| (if (s.graph t n).far then 0x80000000 else 0)

/-- Packet q takes datagram d to peer p: to the addresses of its entry of the peer table, which is in use (R179), under the UDP port of
`cw_cfg` and the DSCP of the datagram's class (R68, R69). -/
def Leaves (s : State) (p : Nat) (q : Packet) (d : Datagram) : Prop :=
  let b := s.anyBytes false ((s.cmod 0x500).toNat / 32 % 2 ^ 51 * 32 + 32 * p) 32
  q.gram = d ∧ q.peer = p ∧ q.addr = leVal (b.take 16) ∧ q.mac = leVal ((b.drop 16).take 6) ∧ b.drop 22 = 1 :: List.replicate 9 0 ∧ q.udp = (s.cctx d.ctx 0x10C).extractLsb' 0 16
    ∧ q.dscp = (s.cctx d.ctx 0x10C).extractLsb' (if d.rel then 31 else 25) 6

/-- n bytes that the device writes for a context lie in the heap window (R362). -/
def InHeap (s : State) (t va n : Nat) : Prop := ∃ pa key, s.heapTarget t va n .write = some (.ok (.dev pa key))

/-- The address of STATS of edge e, and of STATUS of stage k, of a graph record (R49, R83). -/
def statsOf (s : State) (t n e : Nat) : Nat := (s.graph t n).at_.toNat + 0x458 + 64 * e
def statusOf (s : State) (t n k : Nat) : Nat := (s.graph t n).at_.toNat + 0x60 + 64 * k

/-- A decoder has nothing under way: no close has begun or is noted, and no datagram waits behind one (R79, R81). -/
def Rests (dec : Decoder) : Prop := dec.closing = none ∧ dec.work = [] ∧ dec.noted = []

/-- No datagram of a PEER edge waits for the answers to its producers' stores (R65). -/
def NoneWaits (s : State) (t : Nat) : Prop := ∀ q ∈ (s.ctx t).pend, ∀ p d own, q.1 ≠ .send p d own

/-- A RECORDS or CLOSE datagram that its edge's decoder takes up: its key and form are right, and nothing else holds it (R72, R79). -/
structure Taken (s : State) (d : Datagram) (n : Nat) (x : Edge) (dec : Decoder) : Prop where
  here   : HasEdge s d.ctx n d.edge ∧ s.replaying d.ctx = false
  edge   : s.edge d.ctx n d.edge = x ∧ x.decoder = some dec ∧ x.older = [] ∧ dec.base = none
  named  : s.gramGraph d.ctx d (fun x => x.decoder.isSome) = some n
  key    : s.edgeKey d.ctx d.edge = .key d.key s
  form   : d.rel = false ∧ gramOk x d = true ∧ d.nonce = edgeNonce (s.graph d.ctx n) (!(s.graph d.ctx n).far)
  serves : dec.serves d.frame = true ∧ (s.graph d.ctx n).holding x.cons d.frame = false

/-- The 32 bytes of a context's key table for a peer are at V, in the heap window, and hold the key k; the peer table has the peer (R179, R266). -/
structure PeerKey (s : State) (t p : Nat) (k : BitVec 256) : Prop where
  clean : s.ue = [] ∧ s.ce = []
  known : (s.peerAddr p).isSome = true ∧ k ≠ 0
  bytes : ∃ pa key b, s.heapTarget t ((s.cctx t 0x112).toNat / 64 % 2 ^ 50 * 64 + 32 * p) 32 .read = some (.ok (.dev pa key)) ∧ b.length = 32
    ∧ k = BitVec.ofNat 256 (leVal b) ∧ ∀ i, i < 32 → s.homeByte true (pa + i) key = b[i]?

/-- Millivolts of an operating point; point 16 is the boost point (R350). -/
def volts (p : Nat) : Nat := if p = 16 then 950 else 550 + 25 * p

/-- The warp slots of cluster c that a context's started workgroups occupy. -/
def occupied (s : State) (t c : Nat) : Nat :=
  ((s.wgs.filter fun p => decide (p.2.ctx = t ∧ p.2.core / 12 = c) && !p.2.saved && !p.2.ended).map fun p => p.2.slots.length).sum

/-- Context t holds the most occupied warp slots of cluster c, ties to the lower tag (R353). -/
def tops (s : State) (t c : Nat) : Bool :=
  (s.ctxs.map (·.1)).contains t && decide (0 < occupied s t c)
    && (s.ctxs.map (·.1)).all fun u => decide (occupied s u c < occupied s t c ∨ (occupied s u c = occupied s t c ∧ t ≤ u))

/-- The power cap of the context that holds the most of cluster c is exceeded: WATTS of `power_cap` is not 0, and less than the context drew over
the interval, summed over the clusters of which it holds the most (R353); the measure counts milliwatts. -/
def OverCap (s : State) (m : Measure) (c : Nat) : Prop :=
  ∃ t, tops s t c = true ∧ let watts := (s.cctx t 0x119).toNat % 2 ^ 16
    watts ≠ 0 ∧ 1000 * watts < ((m.power.filter fun p => tops s t p.1).map (·.2)).sum

end Sys2Proof.Claim

/-- R68, R70, R72, R73, R76, R78 to R83, R179: the encoder of a lossy edge sends a datagram of records of one frame once it is full, another frame follows, or FLUSH
cycles have passed, and three CLOSE copies of a frame without records left; without a key nothing leaves and BAD counts. A decoder counts a
datagram that is not authentic, late, or a duplicate; puts a fresh record of the oldest open frame into the ring and its cache; and closes that frame
on its CLOSE, or once WINDOW has passed. A record of the overflow queue enters the ring while that has room. The model's choice: a datagram is
authentic when it carries the receiver's key and nonce (log 87). -/
def Obligations.LossyCauseway : Prop :=
  (∀ (s : State) t n e (k : BitVec 256) (r : Rec) (rest : List Rec), HasEdge s t n e → (s.edge t n e).send = r :: rest → (s.edge t n e).sendClosed = [] →
    let x := s.edge t n e
    let fit := s.recordsFit t x
    let l := ((r :: rest).takeWhile fun q => q.frame = r.frame).take fit
    let sends := fun (i : Instr) => ∃ u q d, exec i s = .next u ∧ u.sent = s.sent ++ [q] ∧ Leaves s (s.otherUnit t) q d ∧ Carries s t n e k l d
      ∧ (u.edge t n e).send = (r :: rest).drop l.length ∧ (u.edge t n e).seq = x.seq + 1 ∧ (u.edge t n e).ring = x.ring ∧ u.vmem = s.vmem
    let may : Prop := fit ≤ l.length ∨ l.length < (r :: rest).length
    let flush := max 1 ((s.cctx t 0x10C).toNat / 2 ^ 37 % 2 ^ 16)
    (s.edgeKey t e = .key k s → (s.peerAddr (s.otherUnit t)).isSome = true → (may → sends (.encoderSend t n e))
      ∧ (x.sendAt + flush ≤ (s.die x.ringDie).counter → sends (.encoderFlushTimeout t n e)))
    ∧ (¬ may → exec (.encoderSend t n e) s = .next s)
    ∧ ((s.die x.ringDie).counter < x.sendAt + flush → exec (.encoderFlushTimeout t n e) s = .next s)
    ∧ (s.edgeKey t e = .none s → may → InHeap s t (statsOf s t n e) 16 → ∃ u, exec (.encoderSend t n e) s = .next u ∧ u.sent = s.sent
        ∧ (u.edge t n e).stats.bad = min 0xFFFF (x.stats.bad + 1) ∧ (u.edge t n e).seq = x.seq))
  ∧ (∀ (s : State) t n e (k : BitVec 256) f, HasEdge s t n e → (s.edge t n e).send = [] → (s.edge t n e).sendClosed = [f] → s.edgeKey t e = .key k s →
    (s.peerAddr (s.otherUnit t)).isSome = true → ∃ u q0 q1 q2, exec (.encoderSend t n e) s = .next u ∧ u.sent = s.sent ++ [q0, q1, q2]
      ∧ (∀ q ∈ [q0, q1, q2], Leaves s (s.otherUnit t) q q.gram)
      ∧ (∀ p ∈ [(q0.gram, 0), (q1.gram, 1), (q2.gram, 2)], p.1.type = 1 ∧ p.1.rel = false ∧ p.1.ctx = t ∧ p.1.graph = (s.graph t n).gid ∧ p.1.copy = p.2 ∧ p.1.frame = f ∧ p.1.edge = e ∧ p.1.count = 0 ∧ p.1.body = []
          ∧ p.1.seq = (s.edge t n e).seq + p.2 ∧ p.1.key = k)
      ∧ (u.edge t n e).sendClosed = [] ∧ (u.edge t n e).seq = (s.edge t n e).seq + 3)
  ∧ (∀ (s : State) (d : Datagram), (s.live d.ctx = false ∨ d.rel = true ∨ (s.replaying d.ctx = false ∧ s.gramGraph d.ctx d (fun x => x.decoder.isSome) = none)) →
      exec (.causewayDatagramReceive d) s = .next s)
  ∧ (∀ (s : State) (d : Datagram) n x (k : BitVec 256), HasEdge s d.ctx n d.edge → s.replaying d.ctx = false → s.gramGraph d.ctx d (fun x => x.decoder.isSome) = some n →
      s.edge d.ctx n d.edge = x → s.edgeKey d.ctx d.edge = .key k s → d.rel = false →
      (d.key ≠ k ∨ gramOk x d = false ∨ d.nonce ≠ edgeNonce (s.graph d.ctx n) (!(s.graph d.ctx n).far)) →
      ∃ u, exec (.causewayDatagramReceive d) s = .next u ∧ u.edge d.ctx n d.edge = { x with stats := { x.stats with bad := min 0xFFFF (x.stats.bad + 1) } })
  ∧ (∀ (s : State) (d : Datagram) n x dec, Taken s d n x dec →
      let counts := fun (f : Stats) => ∃ u, exec (.causewayDatagramReceive d) s = .next u ∧ u.edge d.ctx n d.edge = { x with stats := f }
      (later d.frame dec.c = false → d.type = 0 → counts { x.stats with late := min 0xFFFF (x.stats.late + d.count) })
      ∧ (∀ h, later d.frame dec.c = true → dec.hi = some h → (d.seq = h ∨ (d.seq < h ∧ (64 ≤ h - d.seq ∨ dec.seen.getLsbD (h - d.seq - 1) = true))) →
          counts { x.stats with dup := min 0xFFFF (x.stats.dup + 1) })
      ∧ (d.frame = dec.c + 1 → (dec.hi = none ∨ ∃ h, dec.hi = some h ∧ h < d.seq) → d.type = 0 → d.count = 1 → x.sparse = false → s.cpbOn = false → Rests dec →
          let key := leVal (d.body.take 4)
          (SMap.get key [] dec.cache = [] → dec.spill = [] → x.ring.length < x.slots → ∃ u r dec', exec (.causewayDatagramReceive d) s = .next u
            ∧ (u.edge d.ctx n d.edge).ring = x.ring ++ [(r, false)] ∧ r.frame = d.frame ∧ r.data = d.body ∧ r.status = 0
            ∧ (u.edge d.ctx n d.edge).stats = x.stats ∧ (u.edge d.ctx n d.edge).decoder = some dec' ∧ dec'.c = dec.c ∧ dec'.hi = some d.seq
            ∧ SMap.get key [] dec'.cache = [(d.frame, d.body)] ∧ dec'.spill = [] ∧ u.vmem = s.vmem)
          ∧ (∀ fl b more, SMap.get key [] dec.cache = (fl, b) :: more → laterEq fl d.frame = true → ∃ u, exec (.causewayDatagramReceive d) s = .next u
            ∧ (u.edge d.ctx n d.edge).ring = x.ring ∧ (u.edge d.ctx n d.edge).stats = { x.stats with late := min 0xFFFF (x.stats.late + 1) }))
      ∧ (d.frame = dec.c + 1 → (dec.hi = none ∨ ∃ h, dec.hi = some h ∧ h < d.seq) → d.type = 1 → x.sparse = true → s.cpbOn = false → dec.spill = [] → dec.later = [] →
          Rests dec → ((s.graph d.ctx n).stage x.cons).trigen = false → ∃ u dec', exec (.causewayDatagramReceive d) s = .next u
            ∧ (u.edge d.ctx n d.edge).decoder = some dec' ∧ dec'.c = d.frame ∧ (u.edge d.ctx n d.edge).ring = x.ring))
  ∧ (∀ (s : State) t n e x dec a, HasEdge s t n e → s.replaying t = false → s.cpbOn = false → s.edge t n e = x → x.older = [] → x.decoder = some dec → dec.base = none → dec.since = some a →
      ((x.window = 0 ∨ (s.die x.ringDie).counter < a + x.window.toNat) → exec (.windowTimeout t n e) s = .next s)
      ∧ (x.window ≠ 0 → a + x.window.toNat ≤ (s.die x.ringDie).counter → Rests dec → dec.spill = [] → dec.later = [] →
          ((s.graph t n).stage x.cons).trigen = false →
          let l := if x.sparse then [] else (List.range x.keys).filterMap fun k => standIn x dec (dec.c + 1) k
          x.stats.standin ≤ 0xFFFFFFFF → x.ring.length + l.length ≤ x.slots → ∃ u dec' rs, exec (.windowTimeout t n e) s = .next u
            ∧ (u.edge t n e).decoder = some dec' ∧ dec'.c = dec.c + 1
            ∧ (u.edge t n e).stats = { x.stats with tmoClose := min 0xFFFF (x.stats.tmoClose + 1), standin := min 0xFFFFFFFF (x.stats.standin + l.length) }
            ∧ (u.edge t n e).ring = x.ring ++ rs ∧ rs.map (fun p => (p.1.data, p.1.status)) = l ∧ ∀ p ∈ rs, p.1.frame = dec.c + 1 ∧ p.2 = false))
  ∧ (∀ (s : State) t n e x dec r, HasEdge s t n e → s.edge t n e = x → x.older = [] → x.decoder = some dec → dec.base = none → dec.spill = [.rcd r] → Rests dec →
      (x.slots ≤ x.ring.length → ∃ u v, exec (.overflowToRing t n e) s = .next u ∧ u.edge t n e = { x with decoder := some { dec with since := v } }
          ∧ u.sent = s.sent ∧ u.vmem = s.vmem)
      ∧ (x.ring.length < x.slots → ∃ u dec', exec (.overflowToRing t n e) s = .next u ∧ (u.edge t n e).ring = x.ring ++ [({ r with slot := x.serial }, false)]
          ∧ (u.edge t n e).decoder = some dec' ∧ dec'.spill = [] ∧ dec'.c = dec.c ∧ u.vmem = s.vmem))
  ∧ (∀ d : Datagram, gramFits d = true → (gramHeader d).length = 32 ∧ gramOfHeader d.ctx d.frm d.plain d.key d.nonce (gramHeader d) d.body = d)

/-- R72, R74, R75, R87, R89, R90: a reliable stream. A datagram that is not authentic or not well formed counts in RELBAD; an ACK moves
the window; a NACK has its datagram sent again; one beyond the next in order is stored and the missing ones are NACKed, once each; one already known changes
nothing but its acknowledgement; one 256 ahead is discarded. An ACK names the last in order and those stored beyond it. The retransmission timer sends the oldest again with twice
the delay, up to `rto_max`, and at its `rel_retry`th expiry the stream is dead; so it is when nothing comes that is awaited. A satchel is one datagram at least, marked last, and
one marked abort when the region cannot be read; a stage without its satchel at the deadline starts cold. The model's choices: a datagram is authentic when it
carries the receiver's key and nonce (log 87); a deadline of the current cycle comes after what else the agenda holds for that cycle (log 58). -/
def Obligations.ReliableCauseway : Prop :=
  (∀ (s : State) (d : Datagram) (k : BitVec 256),
    let t := d.ctx
    let p := d.frm
    let st := s.stream t p
    let sound : Prop := d.key = k ∧ d.nonce = s.relNonceOf p false d ∧ relOk d = true ∧ s.relEdgeOk t d = true ∧ st.dead = false
    ((s.hasCtx t = false ∨ d.rel = false ∨ s.replaying t = true) → exec (.reliableDatagramReceive d) s = .next s)
    ∧ (s.hasCtx t = true → d.rel = true → s.replaying t = false → PeerKey s t p k →
      (¬ sound → ∃ u, exec (.reliableDatagramReceive d) s = .next u ∧ u.cctx t 0x11D = satAdd (s.cctx t 0x11D) 15 0 1 ∧ u.stream t p = st ∧ u.sent = s.sent)
      ∧ (sound → d.type = 3 → p ≠ s.otherUnit t → (∀ u ∈ st.unacked, u.1 < st.tried) →
          let gone := fun (q : Nat) => q < (d.seq + 1) % 2 ^ 64 ∨ ((d.seq + 1) % 2 ^ 64 ≤ q ∧ q < (d.seq + 1) % 2 ^ 64 + 32 ∧ d.aux.getLsbD (q - (d.seq + 1) % 2 ^ 64) = true)
          ∃ u, exec (.reliableDatagramReceive d) s = .next u ∧ (∀ q, q ∈ (u.stream t p).unacked ↔ q ∈ st.unacked ∧ ¬ gone q.1)
            ∧ (u.stream t p).lastRx = st.lastRx ∧ u.sent = s.sent
            ∧ ((u.stream t p).unacked = [] → (u.stream t p).timer = none)
            ∧ ((∃ q ∈ st.unacked, q.1 < (d.seq + 1) % 2 ^ 64) → (u.stream t p).expiries = 0 ∧ (u.stream t p).rto = max 1 ((s.cctx t 0x10D).toNat % 2 ^ 32)))
      ∧ (∀ g, sound → d.type = 4 → (st.unacked.find? fun q => q.1 = d.seq) = some (d.seq, g, true) →
          ∃ u q, exec (.reliableDatagramReceive d) s = .next u ∧ u.sent = s.sent ++ [q] ∧ Leaves s p q g ∧ (u.stream t p).unacked = st.unacked)
      ∧ (sound → d.type = 7 → st.expect + 256 ≤ d.seq → ∃ u, exec (.reliableDatagramReceive d) s = .next u
          ∧ u.stream t p = { st with lastRx := s.relNow t p } ∧ u.sent = s.sent ∧ u.vmem = s.vmem)
      ∧ (sound → d.type = 7 → d.seq < st.expect → st.store = [] → st.since < 7 → ∃ u, exec (.reliableDatagramReceive d) s = .next u
          ∧ (u.stream t p).expect = st.expect ∧ (u.stream t p).store = [] ∧ (u.stream t p).since = st.since + 1 ∧ (u.stream t p).ackDue.isSome = true ∧ (st.ackDue = none → (u.stream t p).ackDue = some (s.relNow t p + 10000))
          ∧ u.sent = s.sent ∧ u.vmem = s.vmem)
      ∧ (sound → d.type = 7 → d.seq = st.expect + 1 → st.store = [] → st.nacked = [] → st.since < 7 → ∃ u q g, exec (.reliableDatagramReceive d) s = .next u
          ∧ (u.stream t p).store = [(d.seq, d)] ∧ (u.stream t p).expect = st.expect ∧ (u.stream t p).nacked = [st.expect]
          ∧ u.sent = s.sent ++ [q] ∧ Leaves s p q g ∧ g.ctx = t ∧ g.type = 4 ∧ g.seq = st.expect ∧ g.key = k ∧ g.rel = true ∧ u.vmem = s.vmem)))
  ∧ (∀ (s : State) t p (k : BitVec 256),
    let st := s.stream t p
    ((s.hasCtx t = false ∨ st.dead = true ∨ st.ackDue = none ∨ ∃ a, st.ackDue = some a ∧ s.relNow t p < a) → exec (.ackDelayTimeout t p) s = .next s)
    ∧ (∀ a, s.hasCtx t = true → st.dead = false → st.ackDue = some a → a ≤ s.relNow t p → 1 ≤ st.expect → st.expect < 2 ^ 64 → PeerKey s t p k →
      ∃ u q g, exec (.ackDelayTimeout t p) s = .next u ∧ u.sent = s.sent ++ [q] ∧ Leaves s p q g ∧ g.ctx = t ∧ g.type = 3 ∧ g.rel = true ∧ g.seq = st.expect - 1 ∧ g.key = k ∧ g.nonce = s.relNonce p true
      ∧ (∀ i, i < 32 → g.aux.getLsbD i = st.store.any fun q => decide (q.1 = st.expect + i)) ∧ u.stream t p = { st with since := 0, ackDue := none }))
  ∧ (∀ (s : State) t p a q g rest,
    let st := s.stream t p
    let top := max (max 1 ((s.cctx t 0x10D).toNat % 2 ^ 32)) ((s.cctx t 0x10E).toNat % 2 ^ 32)
    let retry := max 1 ((s.cctx t 0x10F).toNat % 256)
    let now := s.relNow t p
    st.timer = some a → st.unacked = (q, g, true) :: rest →
    ((s.hasCtx t = false ∨ st.dead = true ∨ now < a) → exec (.retransmitTimeout t p) s = .next s)
    ∧ (s.hasCtx t = true → st.dead = false → a ≤ now →
      (st.expiries + 1 < retry → (s.peerAddr p).isSome = true → ∃ u k, exec (.retransmitTimeout t p) s = .next u ∧ u.sent = s.sent ++ [k] ∧ Leaves s p k g
        ∧ u.stream t p = { st with expiries := st.expiries + 1, rto := min (2 * st.rto) top, timer := some (now + min (2 * st.rto) top) })
      ∧ (retry ≤ st.expiries + 1 → st.reqs = [] → NoneWaits s t → p ≠ s.otherUnit t → ∃ u, exec (.retransmitTimeout t p) s = .next u ∧ u.sent = s.sent
        ∧ u.stream t p = { st with dead := true, timer := none, ackDue := none })))
  ∧ (∀ (s : State) t p,
    let st := s.stream t p
    let top := max (max 1 ((s.cctx t 0x10D).toNat % 2 ^ 32)) ((s.cctx t 0x10E).toNat % 2 ^ 32)
    let retry := max 1 ((s.cctx t 0x10F).toNat % 256)
    ((s.hasCtx t = false ∨ st.dead = true ∨ s.relNow t p < st.lastRx + retry * top) → exec (.receiverUnreachableTimeout t p) s = .next s)
    ∧ (p ≠ s.otherUnit t → st.nacked = [] → exec (.receiverUnreachableTimeout t p) s = .next s)
    ∧ (s.hasCtx t = true → st.dead = false → st.nacked ≠ [] → st.lastRx + retry * top ≤ s.relNow t p → st.reqs = [] → NoneWaits s t → p ≠ s.otherUnit t →
      ∃ u, exec (.receiverUnreachableTimeout t p) s = .next u ∧ u.sent = s.sent ∧ u.stream t p = { st with dead := true, timer := none, ackDue := none }))
  ∧ (∀ (s : State) t n j (k : BitVec 256) (m : Move),
    let g := s.graph t n
    let p := s.otherUnit t
    let st := s.stream t p
    ((s.live t = false ∨ s.snapshotDue t n j = false) → exec (.satchelSnapshot t n j) s = .next s)
    ∧ (HasEdge s t n 0 → s.snapshotDue t n j = true → g.move = .some m → (g.frameOf j (m.frame - 1)).ran = [] → st.dead = false → st.unacked.length < 256 →
      (∀ u ∈ st.unacked, u.1 < st.tried) → st.tried ≤ st.next → PeerKey s t p k →
      let sends := fun (abort : Bool) => ∃ u q d x, exec (.satchelSnapshot t n j) s = .next u ∧ u.sent = s.sent ++ [q] ∧ Leaves s p q d ∧ d.ctx = t ∧ d.type = 2 ∧ d.rel = true ∧ d.seq = st.next
        ∧ d.edge = j ∧ d.frame = m.frame ∧ d.count = 0 ∧ d.body = [] ∧ d.last = true ∧ d.abort = abort ∧ (u.graph t n).moving j = some x ∧ x.sent = true
        ∧ x.lastSeq = some st.next ∧ (abort = true → x.fault = true ∧ Posts s u t 5) ∧ (u.stream t p).next = st.next + 1
      ((g.stage j).state = 0 → sends false)
      ∧ (∀ c, (g.stage j).state ≠ 0 → 0 < (g.stage j).stateSz → (g.stage j).stateSz ≤ 65536 - (g.stage j).state.toNat % 65536 → InHeap s t (statusOf s t n j) 4 →
          s.heapTarget t (g.stage j).state.toNat (g.stage j).stateSz .read = some (.error c) → sends true)))
  ∧ (∀ (s : State) t n j x,
    let g := s.graph t n
    (g.moving j = none → exec (.satchelDeadlineExpiry t n j) s = .next s)
    ∧ (g.moving j = some x → (x.toHere = false ∨ x.ready = true ∨ s.live t = false) → exec (.satchelDeadlineExpiry t n j) s = .next s)
    ∧ (∀ a, g.moving j = some x → x.since = some a → s.streamDead t (s.otherUnit t) = false →
      (s.die (g.deadline j).2).counter < a + (g.deadline j).1 → exec (.satchelDeadlineExpiry t n j) s = .next s)
    ∧ (∀ b, g.moving j = some x → x.whole = some b → s.streamDead t (s.otherUnit t) = false → exec (.satchelDeadlineExpiry t n j) s = .next s)
    ∧ (∀ a, g.moving j = some x → x.since = some a → HasEdge s t n 0 → j < g.stages.length → x.toHere = true → x.ready = false → 0 < (g.deadline j).1 →
      a + (g.deadline j).1 ≤ (s.die (g.deadline j).2).counter → x.whole = none → s.streamDead t (s.otherUnit t) = false →
      let now := s.agenda.takeWhile fun k => !Tick.onDie (g.deadline j).2 k
      (a + (g.deadline j).1 = (s.die (g.deadline j).2).counter → (∃ k ∈ now, isTimeout k.ev = false) →
        exec (.satchelDeadlineExpiry t n j) s
          = .next { s with agenda := now ++ [{ ev := .satchelDeadlineExpiry t n j }] ++ s.agenda.drop now.length })
      ∧ ((a + (g.deadline j).1 < (s.die (g.deadline j).2).counter ∨ ∀ k ∈ now, isTimeout k.ev = true) →
      (g.stage j).state = 0 → (∀ e, e < g.edges.length → (g.edge e).held = []) → InHeap s t (statusOf s t n j) 4 →
      ∃ u y, exec (.satchelDeadlineExpiry t n j) s = .next u ∧ (u.graph t n).moving j = some y ∧ y.ready = true ∧ y.cold = true
        ∧ ((u.graph t n).stage j).cold = true ∧ ((u.graph t n).stage j).coldCnt = min 0xFFFF ((g.stage j).coldCnt + 1)
        ∧ ((u.graph t n).stage j).satFault = (g.stage j).satFault ∧ u.sent = s.sent)))

/-- R160 to R162, R349 to R355: at a control interval each cluster's target is the largest request of the contexts with a started workgroup on it,
lowered to the permitted level; a thermal or current-limit throttle lowers the level by 2, and lifts in steps of 1 once `tj` is 5 below TJMAX, or no sample exceeds 7/8 of
`ilim`; an exceeded power cap lowers it by 1; the lowest throttle level wins; the boost point needs target 15, permission, no throttle and less than 3,800 W; a lower point
applies at once, a higher one when the rail has its voltage, which moves by 10 mV in an interval. A sample and the wear monitors are recorded. The sweeper clears the
accessed bit of the entry at HAND, or lists its frame as ready. The model's choices: the occupied slots are those at the end of the interval (log 91, DEDUCED); the sweeper
drops translations by the address of their entry (log 63); tables are read under the key that wrote them (log 10). -/
def Obligations.PowerAndSweep : Prop :=
  (∀ (s : State) (m : Measure) c r, c < 32 → Requests s c r → (s.cluster c).ramp = none → (s.cluster c).level ≤ 16 → ∃ u, exec (.controlInterval m) s = .next u ∧ u.watts = m.watts ∧
    let k := s.cluster c
    let k' := u.cluster c
    let want := min r ((s.cmod 0x600).toNat % 16)
    let tj := ((m.tj.find? fun p => p.1 = c).map (·.2)).getD ((s.ccluster c 0x604).toNat % 256)
    let most := (s.cmod 0x605).toNat % 256
    let lim := (s.ccluster c 0x603).toNat % 4096
    let l := min 15 k.level
    k'.target = want ∧ k'.peak = 0 ∧ k'.mv = k.mv ∧ (u.ccluster c 0x604).toNat = tj % 256
    ∧ (most ≤ tj → k'.therm = some (l - 2) ∧ k'.level ≤ max (l - 2) (if k.level ≤ l - 2 then k.level else 0))
    ∧ (tj < most → k.therm = none → k'.therm = none)
    ∧ (∀ v, k.therm = some v → tj < most → (most < tj + 5 → k'.therm = some v)
        ∧ (tj + 5 ≤ most → k'.therm = if want ≤ v + 1 then none else some (v + 1)))
    ∧ (k.ilim = none → k.peak ≤ lim → k'.ilim = none)
    ∧ (OverCap s m c → k'.cap = some (l - 1)) ∧ (¬ OverCap s m c → k'.cap = none)
    ∧ (lim < k.peak → k'.ilim = some (l - 2))
    ∧ (∀ v, k.ilim = some v → k.peak ≤ lim → (7 * lim < 8 * k.peak → k'.ilim = some v)
        ∧ (8 * k.peak ≤ 7 * lim → k'.ilim = if want ≤ v + 1 then none else some (v + 1)))
    ∧ (k'.therm = none → k'.ilim = none → k'.cap = none →
        let boosts : Prop := want = 15 ∧ (s.cmod 0x600).getLsbD 4 = true ∧ m.watts < 3800
        (boosts → k'.want = 16) ∧ (¬ boosts → k'.want = want))
    ∧ (let caps := [k'.therm, k'.ilim, k'.cap].filterMap id
       caps ≠ [] → k'.want ≤ want ∧ (∀ v ∈ caps, k'.want ≤ v) ∧ (k'.want = want ∨ k'.want ∈ caps))
    ∧ ((k'.want ≤ k.level ∨ volts k'.want ≤ k.mv) → k'.level = k'.want) ∧ (k.level < k'.want → k.mv < volts k'.want → k'.level = k.level)
    ∧ (k.mv = volts k'.want → k'.ramp = none) ∧ (k.mv ≠ volts k'.want → k'.ramp = some (volts k'.want))
    ∧ { u with clusters := s.clusters, watts := s.watts } = s)
  ∧ (∀ (s : State) c,
    let k := s.cluster c
    (k.ramp = none → exec (.railRampReached c) s = .next s)
    ∧ (∀ v, k.ramp = some v → (10 < k.mv - v ∨ 10 < v - k.mv) → exec (.railRampReached c) s = .next s)
    ∧ (∀ v, k.ramp = some v → k.mv - v ≤ 10 → v - k.mv ≤ 10 → ∃ u, exec (.railRampReached c) s = .next u
      ∧ u.cluster c = { k with mv := v, ramp := none, level := if volts k.want ≤ v then k.want else k.level } ∧ { u with clusters := s.clusters } = s))
  ∧ (∀ (s : State) c (v : BitVec 12), (∃ u, exec (.currentSample c v) s = .next u ∧ (u.ccluster c 0x602).toNat % 4096 = v.toNat
      ∧ (u.cluster c).peak = max (s.cluster c).peak v.toNat ∧ { u with clusters := s.clusters } = s)
    ∧ ∃ u, exec (.wearUpdate c v) s = .next u ∧ (u.ccluster c 0x610).toNat = v.toNat + 4096 ∧ { u with clusters := s.clusters } = s)
  ∧ (∀ (s : State) d,
    let ctl := (s.cdie d 0x403).toNat
    let n := (s.die d).ready.length
    let hand := (s.cdie d 0x404).toNat % 2 ^ 21
    let a := (s.cdie d 0x402).toNat / 16 % 2 ^ 52 * 16 + 16 * hand
    let e := s.entryAt false a
    let pte := e / 8 % 2 ^ 53 * 8
    let l := s.entryAt false pte
    let same : Prop := ∃ u, exec (.sweeperStep d) s = .next u ∧ (u.cdie d 0x404).toNat = (hand + 1) % 1572864 ∧ (u.die d).ready = (s.die d).ready
      ∧ u.vmem = s.vmem ∧ u.ctxs = s.ctxs
    ((4 ≤ d ∨ ctl.testBit 18 = false) → exec (.sweeperStep d) s = .next s)
    ∧ (d < 4 → ctl.testBit 18 = true → min 256 (ctl / 512 % 512) ≤ n → ctl % 512 ≤ n → ∃ u, exec (.sweeperStep d) s = .next u ∧ (u.die d).sweepOn = false
        ∧ { u with dies := s.dies } = s ∧ u.cdie d 0x404 = s.cdie d 0x404 ∧ (u.die d).ready = (s.die d).ready)
    ∧ (d < 4 → ctl.testBit 18 = true → n < ctl % 512 → n < 256 →
      ((e.testBit 0 = false ∨ e.testBit 1 = true ∨ e.testBit 2 = true) → same)
      ∧ (e.testBit 0 = true → e.testBit 1 = false → e.testBit 2 = false →
        ((l.testBit 0 = false ∨ 2 ≤ l / 2 ^ 12 % 8 ∨ l / 2 ^ 16 % 2 ^ 40 ≠ d * 2 ^ 21 + hand) → same)
        ∧ (l.testBit 0 = true → l / 2 ^ 12 % 8 < 2 → l / 2 ^ 16 % 2 ^ 40 = d * 2 ^ 21 + hand →
          (l.testBit 4 = true → ∃ u, exec (.sweeperStep d) s = .next u ∧ SMap.find pte u.vmem = some (s.anyByte false pte &&& 0xEF)
            ∧ (∀ b, b ≠ pte → SMap.find b u.vmem = SMap.find b s.vmem) ∧ (∀ x ∈ (u.ctx (s.entryAt false (a + 8) % 4096)).tlb, x.at_ = pte → x.host = true)
            ∧ (u.die d).ready = (s.die d).ready ∧ (u.cdie d 0x404).toNat = (hand + 1) % 1572864)
          ∧ (l.testBit 4 = false → ((s.die d).ready.contains hand = true → same)
            ∧ ((s.die d).ready.contains hand = false → ∃ u, exec (.sweeperStep d) s = .next u ∧ (u.die d).ready = (s.die d).ready ++ [hand]
              ∧ (u.cdie d 0x404).toNat = (hand + 1) % 1572864 ∧ u.vmem = s.vmem))))))

/-! The checks and waits of an issue. -/

namespace Sys2Proof.Claim

/-- Scalar and vector instructions without a privilege and without checks of their own before their operands. -/
def plainForms : List (Fields → Instr) :=
  [.sadd, .ssub, .smul, .smulh, .sdiv, .srem, .sand, .sor, .sxor, .sshl, .sshr, .ssra, .smin, .smax, .scmp, .ssel, .smov, .sli, .sliHi, .sclz, .spopc,
   .sbfx, .sbfi]
  ++ [.vadd, .vsub, .vmul, .vfma, .vmin, .vmax, .vdiv, .vmulhi, .vdot4, .vabs, .vneg, .vrcp, .vrsq, .vsqrt, .vexp2, .vlog2, .vsinpi, .vcospi]
  ++ [.vnot, .vclz, .vpopc, .vand, .vor, .vxor, .vshl, .vshr, .vsra, .vbfx, .vbfi, .vcmp, .vsel, .vmov, .vbcast, .vcvt, .vshfl, .vvoteBallot, .vvoteAny, .vvoteAll, .vred]

end Sys2Proof.Claim

/-- R14, R28, R29, R32, R33, R184, R190, R207, R215: the checks of an issue in their order, for every instruction form: a seventeenth instruction waits; then a cause
of the encoding, then (for a form without privilege 0x07) an odd pair 0x2D, then an operand outside the reservation 0x1E; and, for the plain scalar and vector
forms, a wait for each empty source read with FEB clear, each empty destination and each destination that an unfinished instruction reads, and where none is
awaited, an empty source with FEB set or held by a replay entry 0x08. -/
def Obligations.IssueChecksAndWaits : Prop :=
  (∀ (s : State) i g w r f, s.cur = some (g, w) → s.rowOf g i = some r → fields i = some f →
    let c := s.context g w r f
    let x := s.warp g w
    (s.hasWarp g w = true → 16 ≤ x.ops.length → Waits i s g w [.room])
    ∧ (x.ops.length < 16 → (∀ cause, formCause r f = some cause → Traps i s c cause c.act 0 0)
      ∧ (formCause r f = none → r.oddPair f = true → Traps i s c 0x2D c.act 0 0)
      ∧ (formCause r f = none → r.oddPair f = false → r.outside (s.wg g).shape f = true → Traps i s c 0x1E c.act 0 0)))
  ∧ (∀ k ∈ plainForms, ∀ (s : State) f g w r, s.cur = some (g, w) → s.hasWarp g w = true → row (k f) = some r →
    let c := s.context g w r f
    let x := s.warp g w
    let src := readsOf (k f) r f c.re
    let awaits := fun (q : Reg) => x.isEmpty q = true ∧ x.replayHeld q = false
      ∧ ((∃ p ∈ src, p.1 = q ∧ p.2 = false) ∨ (q ∈ r.dests f ∧ ∀ e ∈ x.reissue.head?, q ∉ e.held))
    let busy := fun (q : Reg) => q ∈ r.dests f ∧ ∃ o ∈ x.ops, q ∈ o.ins.group
    x.ops.length < 16 → (k f).formCause = none → r.oddPair f = false → r.outside (s.wg g).shape f = false →
    ((∀ q, ¬ awaits q ∧ ¬ busy q) → (∃ p ∈ src, x.isEmpty p.1 = true ∧ (p.2 = true ∨ x.replayHeld p.1 = true)) → Traps (k f) s c 0x08 c.act 0 0)
    ∧ (((∃ q, awaits q) ∨ ∃ q, busy q) → ∃ l, Waits (k f) s g w l ∧ (∀ q, awaits q → .full q ∈ l) ∧ ∀ q, busy q → .group q ∈ l))
end

