-- ==== Sys2Proof/Laws/State.lean ====
section
/-! SUPPORT. One lemma per part of the state and update: what each accessor reads after each update. -/

namespace Sys2Proof.Machine

/-! The map. -/

@[simp] theorem SMap_find_put_same {α : Type} (k : Nat) (v : α) (m : SMap α) : SMap.find k (SMap.put k v m) = some v := by
  induction m with
  | nil => simp [SMap.put, SMap.find]
  | cons p m ih =>
    obtain ⟨k', v'⟩ := p
    unfold SMap.put
    split
    · simp [SMap.find]
    · split
      · simp [SMap.find]
      · rename_i h1 h2
        simp only [SMap.find, ih]
        rw [if_neg (fun h => h2 h.symm)]

theorem SMap_find_put_other {α : Type} {k j : Nat} (v : α) (m : SMap α) (h : j ≠ k) :
    SMap.find j (SMap.put k v m) = SMap.find j m := by
  induction m with
  | nil => simp [SMap.put, SMap.find, Ne.symm h]
  | cons p m ih =>
    obtain ⟨k', v'⟩ := p
    unfold SMap.put
    split
    · simp [SMap.find, Ne.symm h]
    · split
      · rename_i h1 h2
        subst h2
        simp [SMap.find, Ne.symm h]
      · simp only [SMap.find, ih]

@[simp] theorem SMap_get_put_same {α : Type} (k : Nat) (d v : α) (m : SMap α) : SMap.get k d (SMap.put k v m) = v := by
  simp [SMap.get]

theorem SMap_get_put_other {α : Type} {k j : Nat} (d v : α) (m : SMap α) (h : j ≠ k) :
    SMap.get j d (SMap.put k v m) = SMap.get j d m := by
  simp [SMap.get, SMap_find_put_other v m h]

/-- The first key of a rising map lies below the keys of the rest. -/
theorem SMap_wf_cons {α : Type} {k : Nat} {v : α} {m : SMap α} :
    SMap.wf ((k, v) :: m) = true ↔ SMap.wf m = true ∧ ∀ p ∈ m.head?, k < p.1 := by
  cases m with
  | nil => simp [SMap.wf]
  | cons p m => obtain ⟨k', v'⟩ := p; simp [SMap.wf, and_comm]

/-- A write keeps a map's canonical form. -/
theorem SMap_wf_put {α : Type} (k : Nat) (v : α) (m : SMap α) (h : SMap.wf m = true) : SMap.wf (SMap.put k v m) = true := by
  induction m with
  | nil => rfl
  | cons p m ih =>
    obtain ⟨k', v'⟩ := p
    rw [SMap_wf_cons] at h
    unfold SMap.put
    split
    · rename_i h1
      rw [SMap_wf_cons, SMap_wf_cons]
      exact ⟨h, by simpa using h1⟩
    · split
      · rename_i h1 h2
        subst h2
        rw [SMap_wf_cons]
        exact h
      · rename_i h1 h2
        rw [SMap_wf_cons]
        refine ⟨ih h.1, ?_⟩
        have hk : k' < k := by omega
        cases m with
        | nil => simp [SMap.put, hk]
        | cons q m =>
          obtain ⟨k'', v''⟩ := q
          have := h.2 (k'', v'') (by simp)
          unfold SMap.put
          split
          · simpa using hk
          · split <;> simpa using by assumption

/-- A removal keeps a map's canonical form. -/
theorem SMap_wf_del {α : Type} (k : Nat) (m : SMap α) (h : SMap.wf m = true) : SMap.wf (SMap.del k m) = true := by
  induction m with
  | nil => rfl
  | cons p m ih =>
    obtain ⟨k', v'⟩ := p
    rw [SMap_wf_cons] at h
    unfold SMap.del
    split
    · exact h.1
    · rw [SMap_wf_cons]
      refine ⟨ih h.1, ?_⟩
      cases m with
      | nil => simp [SMap.del]
      | cons q m =>
        obtain ⟨k'', v''⟩ := q
        have h1 := h.2 (k'', v'') (by simp)
        unfold SMap.del
        split
        · cases m with
          | nil => simp
          | cons r m =>
            obtain ⟨k3, v3⟩ := r
            have h2 := (SMap_wf_cons.1 h.1).2 (k3, v3) (by simp)
            simp only [List.head?_cons, Option.mem_def, Option.some.injEq, forall_eq']
            exact Nat.lt_trans h1 h2
        · simpa using h1

/-! Lists. -/

@[simp] theorem length_modAt {α : Type} (f : α → α) (n : Nat) (l : List α) : (modAt f n l).length = l.length := by
  induction l generalizing n with
  | nil => cases n <;> rfl
  | cons x l ih => cases n <;> simp [modAt, ih]

theorem getD_modAt_same {α : Type} (f : α → α) (n : Nat) (l : List α) (d : α) (h : n < l.length) :
    (modAt f n l).getD n d = f (l.getD n d) := by
  induction l generalizing n with
  | nil => simp at h
  | cons x l ih =>
    cases n with
    | zero => simp [modAt]
    | succ n => simpa [modAt] using ih n (by simpa using h)

theorem getD_modAt_other {α : Type} (f : α → α) {n m : Nat} (l : List α) (d : α) (h : m ≠ n) :
    (modAt f n l).getD m d = l.getD m d := by
  induction l generalizing n m with
  | nil => cases n <;> simp [modAt]
  | cons x l ih =>
    cases n with
    | zero =>
      cases m with
      | zero => simp at h
      | succ m => simp [modAt]
    | succ n =>
      cases m with
      | zero => simp [modAt]
      | succ m => simpa [modAt] using ih (n := n) (m := m) (by omega)

/-! Registers. -/

/-- Clearing soft errors leaves every register. -/
@[simp] theorem clean_sregs (x : Warp) (p : RegWord → Bool) : (x.clean p).sregs = x.sregs := rfl
@[simp] theorem clean_pregs (x : Warp) (p : RegWord → Bool) : (x.clean p).pregs = x.pregs := rfl
@[simp] theorem clean_vregs (x : Warp) (p : RegWord → Bool) : (x.clean p).vregs = x.vregs := rfl
@[simp] theorem getS_clean (x : Warp) (p : RegWord → Bool) (n : Nat) : (x.clean p).getS n = x.getS n := rfl
@[simp] theorem getP_clean (x : Warp) (p : RegWord → Bool) (n : Nat) : (x.clean p).getP n = x.getP n := rfl
@[simp] theorem getV_clean (x : Warp) (p : RegWord → Bool) (n : Nat) : (x.clean p).getV n = x.getV n := rfl

/-- `s63` discards what is written (R26). -/
@[simp] theorem getS_zero (x : Warp) : x.getS 63 = 0 := by simp [Warp.getS]
@[simp] theorem setS_zero (x : Warp) (v : W64) : x.setS 63 v = x := by simp [Warp.setS]
theorem getS_setS_same (x : Warp) (n : Nat) (v : W64) : (x.setS n v).getS n = if n = 63 then 0 else v := by
  unfold Warp.setS Warp.getS
  split <;> simp
theorem getS_setS_other (x : Warp) {n m : Nat} (v : W64) (h : m ≠ n) : (x.setS n v).getS m = x.getS m := by
  unfold Warp.setS
  split
  · rfl
  · simp [Warp.getS, SMap_get_put_other _ _ _ h]
@[simp] theorem getV_setS (x : Warp) (n m : Nat) (v : W64) : (x.setS n v).getV m = x.getV m := by
  unfold Warp.setS; split <;> rfl
@[simp] theorem getP_setS (x : Warp) (n m : Nat) (v : W64) : (x.setS n v).getP m = x.getP m := by
  unfold Warp.setS; split <;> rfl
@[simp] theorem getV_setV_same (x : Warp) (n : Nat) (v : Lanes) : (x.setV n v).getV n = v := by
  simp [Warp.setV, Warp.getV]
theorem getV_setV_other (x : Warp) {n m : Nat} (v : Lanes) (h : m ≠ n) : (x.setV n v).getV m = x.getV m := by
  simp [Warp.setV, Warp.getV, SMap_get_put_other _ _ _ h]
@[simp] theorem getS_setV (x : Warp) (n m : Nat) (v : Lanes) : (x.setV n v).getS m = x.getS m := rfl
@[simp] theorem getP_setV (x : Warp) (n m : Nat) (v : Lanes) : (x.setV n v).getP m = x.getP m := rfl
@[simp] theorem getP_setP_same (x : Warp) (n : Nat) (v : W32) : (x.setP n v).getP n = v := by simp [Warp.setP, Warp.getP]
theorem getP_setP_other (x : Warp) {n m : Nat} (v : W32) (h : m ≠ n) : (x.setP n v).getP m = x.getP m := by
  simp [Warp.setP, Warp.getP, SMap_get_put_other _ _ _ h]
@[simp] theorem getS_setP (x : Warp) (n m : Nat) (v : W32) : (x.setP n v).getS m = x.getS m := rfl
@[simp] theorem getV_setP (x : Warp) (n m : Nat) (v : W32) : (x.setP n v).getV m = x.getV m := rfl

/-- A lane of a register built lane by lane. -/
theorem lane_mkLanes (f : Nat → W32) {l : Nat} (h : l < 32) : lane (mkLanes f) l = f l := by
  simp [lane, mkLanes, List.getD, h]

/-- R10: a masked write changes the lanes of the mask alone. -/
theorem lane_setVm_same (x : Warp) (m : W32) (n : Nat) (v : Lanes) {l : Nat} (h : l < 32) :
    lane ((x.setVm m n v).getV n) l = if m.getLsbD l then lane v l else lane (x.getV n) l := by
  simp [Warp.setVm, blend, lane_mkLanes, h]
theorem getV_setVm_other (x : Warp) (mask : W32) {n m : Nat} (v : Lanes) (h : m ≠ n) : (x.setVm mask n v).getV m = x.getV m :=
  getV_setV_other x _ h
@[simp] theorem getS_setVm (x : Warp) (mask : W32) (n m : Nat) (v : Lanes) : (x.setVm mask n v).getS m = x.getS m := rfl
@[simp] theorem getP_setVm (x : Warp) (mask : W32) (n m : Nat) (v : Lanes) : (x.setVm mask n v).getP m = x.getP m := rfl

/-! Workgroups and warps. -/

theorem find_of_hasWg {s : State} {g : Nat} (h : s.hasWg g = true) : SMap.find g s.wgs = some (s.wg g) := by
  unfold State.hasWg at h
  cases hf : SMap.find g s.wgs with
  | none => simp [hf] at h
  | some x => simp [State.wg, SMap.get, hf]

theorem modWg_of_find {s : State} {g : Nat} {x : Wg} (f : Wg → Wg) (h : SMap.find g s.wgs = some x) :
    s.modWg g f = { s with wgs := SMap.put g (f x) s.wgs } := by simp [State.modWg, h]

/-- A workgroup that is changed. -/
theorem wg_modWg_same {s : State} {g : Nat} (f : Wg → Wg) (h : s.hasWg g = true) : (s.modWg g f).wg g = f (s.wg g) := by
  rw [modWg_of_find f (find_of_hasWg h)]
  simp [State.wg]

/-- The other workgroups. -/
theorem find_modWg_other {s : State} {g j : Nat} (f : Wg → Wg) (h : j ≠ g) :
    SMap.find j (s.modWg g f).wgs = SMap.find j s.wgs := by
  unfold State.modWg
  split
  · exact SMap_find_put_other _ _ h
  · rfl

theorem wg_modWg_other {s : State} {g j : Nat} (f : Wg → Wg) (h : j ≠ g) : (s.modWg g f).wg j = s.wg j := by
  simp [State.wg, SMap.get, find_modWg_other f h]

/-- A change of a workgroup is a change of nothing else. -/
theorem modWg_rest (s : State) (g : Nat) (f : Wg → Wg) : { s.modWg g f with wgs := s.wgs } = s := by
  unfold State.modWg
  split <;> rfl

@[simp] theorem modWg_cur (s : State) (g : Nat) (f : Wg → Wg) : (s.modWg g f).cur = s.cur := by
  unfold State.modWg; split <;> rfl
@[simp] theorem modWg_cores (s : State) (g : Nat) (f : Wg → Wg) : (s.modWg g f).cores = s.cores := by
  unfold State.modWg; split <;> rfl
@[simp] theorem modWg_clusters (s : State) (g : Nat) (f : Wg → Wg) : (s.modWg g f).clusters = s.clusters := by
  unfold State.modWg; split <;> rfl
@[simp] theorem modWg_dies (s : State) (g : Nat) (f : Wg → Wg) : (s.modWg g f).dies = s.dies := by
  unfold State.modWg; split <;> rfl
@[simp] theorem modWg_ctxs (s : State) (g : Nat) (f : Wg → Wg) : (s.modWg g f).ctxs = s.ctxs := by
  unfold State.modWg; split <;> rfl
@[simp] theorem modWg_vmem (s : State) (g : Nat) (f : Wg → Wg) : (s.modWg g f).vmem = s.vmem := by
  unfold State.modWg; split <;> rfl
@[simp] theorem modWg_vkey (s : State) (g : Nat) (f : Wg → Wg) : (s.modWg g f).vkey = s.vkey := by
  unfold State.modWg; split <;> rfl
@[simp] theorem modWg_ymem (s : State) (g : Nat) (f : Wg → Wg) : (s.modWg g f).ymem = s.ymem := by
  unfold State.modWg; split <;> rfl

/-- A workgroup whose warp is changed. -/
theorem wg_modWarp_same {s : State} {g w : Nat} (f : Warp → Warp) (h : s.hasWg g = true) :
    (s.modWarp g w f).wg g = { s.wg g with warps := modAt f w (s.wg g).warps } := wg_modWg_same _ h

/-- A warp that is changed. -/
theorem warp_modWarp_same {s : State} {g w : Nat} (f : Warp → Warp) (h : s.hasWg g = true)
    (hw : w < (s.wg g).warps.length) : (s.modWarp g w f).warp g w = f (s.warp g w) := by
  simp only [State.warp, wg_modWarp_same f h, Wg.warp]
  exact getD_modAt_same f w _ _ hw

/-- The other warps of its workgroup. -/
theorem warp_modWarp_other {s : State} {g w v : Nat} (f : Warp → Warp) (h : v ≠ w) (hg : s.hasWg g = true) :
    (s.modWarp g w f).warp g v = s.warp g v := by
  simp only [State.warp, wg_modWarp_same f hg, Wg.warp]
  exact getD_modAt_other f _ _ h

/-- A changed warp's workgroup keeps its core. -/
theorem coreOf_modWarp {s : State} {g w : Nat} (f : Warp → Warp) : (s.modWarp g w f).coreOf g = s.coreOf g := by
  unfold State.coreOf State.modWarp
  cases h : SMap.find g s.wgs with
  | none => simp [State.modWg, h]
  | some x => rw [wg_modWg_same _ (by simp [State.hasWg, h])]

theorem now_modWarp {s : State} {g w : Nat} (f : Warp → Warp) : (s.modWarp g w f).now g = s.now g := by
  unfold State.now
  rw [coreOf_modWarp]
  unfold State.modWarp State.core
  simp

@[simp] theorem hasWg_modWarp (s : State) (g w : Nat) (f : Warp → Warp) : (s.modWarp g w f).hasWg g = s.hasWg g := by
  unfold State.hasWg State.modWarp State.modWg
  split <;> simp_all

/-- Two writes of one key are the second. -/
theorem SMap_put_put {α : Type} (k : Nat) (a b : α) (m : SMap α) : SMap.put k b (SMap.put k a m) = SMap.put k b m := by
  induction m with
  | nil => simp [SMap.put]
  | cons p m ih =>
    obtain ⟨k', v'⟩ := p
    by_cases h1 : k < k'
    · simp [SMap.put, h1]
    · by_cases h2 : k = k'
      · simp [SMap.put, h2]
      · simp [SMap.put, h1, h2, ih]

theorem modAt_modAt {α : Type} (f h : α → α) (n : Nat) (l : List α) :
    modAt h n (modAt f n l) = modAt (fun x => h (f x)) n l := by
  induction l generalizing n with
  | nil => cases n <;> rfl
  | cons x l ih => cases n <;> simp [modAt, ih]

/-- Two changes of one workgroup are one. -/
theorem modWg_modWg (s : State) (g : Nat) (f h : Wg → Wg) : (s.modWg g f).modWg g h = s.modWg g fun x => h (f x) := by
  cases hf : SMap.find g s.wgs with
  | none => simp [State.modWg, hf]
  | some x =>
    rw [modWg_of_find f hf, modWg_of_find (s := { s with wgs := _ }) h (SMap_find_put_same g (f x) s.wgs), modWg_of_find _ hf]
    simp [SMap_put_put]

/-- Two changes of one warp are one. -/
theorem modWarp_modWarp (s : State) (g w : Nat) (f h : Warp → Warp) :
    (s.modWarp g w f).modWarp g w h = s.modWarp g w fun x => h (f x) := by
  unfold State.modWarp
  rw [modWg_modWg]
  simp [modAt_modAt]

/-! Cores, sub-cores, clusters, dies, contexts and streams. -/

/-- A core that is changed, and the others. -/
@[simp] theorem core_modCore_same (s : State) (k : Nat) (f : Core → Core) : (s.modCore k f).core k = f (s.core k) := by
  simp [State.core, State.modCore]
theorem core_modCore_other {s : State} {k j : Nat} (f : Core → Core) (h : j ≠ k) : (s.modCore k f).core j = s.core j := by
  simp [State.core, State.modCore, SMap_get_put_other _ _ _ h]
/-- A sub-core that is changed, and the others. -/
@[simp] theorem sub_modSub_same (s : State) (k : Nat) (f : Sub → Sub) : (s.modSub k f).sub k = f (s.sub k) := by
  simp [State.sub, State.modSub]
theorem sub_modSub_other {s : State} {k j : Nat} (f : Sub → Sub) (h : j ≠ k) : (s.modSub k f).sub j = s.sub j := by
  simp [State.sub, State.modSub, SMap_get_put_other _ _ _ h]
/-- A cluster that is changed, and the others. -/
@[simp] theorem cluster_modCluster_same (s : State) (k : Nat) (f : Cluster → Cluster) : (s.modCluster k f).cluster k = f (s.cluster k) := by
  simp [State.cluster, State.modCluster]
theorem cluster_modCluster_other {s : State} {k j : Nat} (f : Cluster → Cluster) (h : j ≠ k) : (s.modCluster k f).cluster j = s.cluster j := by
  simp [State.cluster, State.modCluster, SMap_get_put_other _ _ _ h]
/-- A die that is changed, and the others. -/
@[simp] theorem die_modDie_same (s : State) (k : Nat) (f : Die → Die) : (s.modDie k f).die k = f (s.die k) := by
  simp [State.die, State.modDie]
theorem die_modDie_other {s : State} {k j : Nat} (f : Die → Die) (h : j ≠ k) : (s.modDie k f).die j = s.die j := by
  simp [State.die, State.modDie, SMap_get_put_other _ _ _ h]

theorem find_of_hasCtx {s : State} {t : Nat} (h : s.hasCtx t = true) : SMap.find t s.ctxs = some (s.ctx t) := by
  unfold State.hasCtx at h
  cases hf : SMap.find t s.ctxs with
  | none => simp [hf] at h
  | some x => simp [State.ctx, SMap.get, hf]

/-- A context that is changed, and the others. -/
theorem ctx_modCtx_same {s : State} {t : Nat} (f : Context → Context) (h : s.hasCtx t = true) : (s.modCtx t f).ctx t = f (s.ctx t) := by
  simp [State.modCtx, find_of_hasCtx h, State.ctx]
theorem ctx_modCtx_other {s : State} {t u : Nat} (f : Context → Context) (h : u ≠ t) : (s.modCtx t f).ctx u = s.ctx u := by
  unfold State.modCtx
  split
  · simp [State.ctx, SMap_get_put_other _ _ _ h]
  · rfl

/-- A change of a context is a change of nothing else. -/
theorem modCtx_rest (s : State) (t : Nat) (f : Context → Context) : { s.modCtx t f with ctxs := s.ctxs } = s := by
  unfold State.modCtx
  split <;> rfl

/-- A stream that is changed, and the context's others. -/
theorem stream_modStream_same {s : State} {t p : Nat} (f : Stream → Stream) (h : s.hasCtx t = true) :
    (s.modStream t p f).stream t p = f (s.stream t p) := by
  simp [State.stream, State.modStream, ctx_modCtx_same _ h]
theorem stream_modStream_other {s : State} {t p q : Nat} (f : Stream → Stream) (h : q ≠ p) :
    (s.modStream t p f).stream t q = s.stream t q := by
  unfold State.stream State.modStream
  by_cases hc : s.hasCtx t = true
  · simp [ctx_modCtx_same _ hc, SMap_get_put_other _ _ _ h]
  · have hn : SMap.find t s.ctxs = none := by simpa [State.hasCtx] using hc
    simp [State.modCtx, hn]

end Sys2Proof.Machine
end

