-- ==== Sys2Proof/Laws/Issue.lean ====
section
/-! SUPPORT. What an issue can do: the one lemma about `issue`, and what `advance` leaves. -/

namespace Sys2Proof.Machine

/-- What `issuing` says. -/
theorem issuing_spec {s : State} {i : Instr} {c : Cx} (h : s.issuing i = some c) :
    ∃ r, s.cur = some (c.g, c.w) ∧ s.rowOf c.g i = some r ∧ fields i = some c.f ∧ c = s.context c.g c.w r c.f
      ∧ s.hasWg c.g = true ∧ c.w < (s.wg c.g).warps.length ∧ ¬ 16 ≤ (s.warp c.g c.w).ops.length ∧ formCause r c.f = none ∧ r.oddPair c.f = false
      ∧ r.outside (s.wg c.g).shape c.f = false ∧ febTrap (s.warp c.g c.w) (readsOf i r c.f c.re) = false
      ∧ operandWaits (s.warp c.g c.w) (s.warp c.g c.w).reissue.head? (r.heads c.f) (readsOf i r c.f c.re) (r.dests c.f) = []
      ∧ (r.dests c.f).any (s.warp c.g c.w).replayHeld = false := by
  unfold State.issuing at h
  split at h
  · cases h
  rename_i g w hc
  split at h
  · rename_i r f hr hf
    have hctx : ∀ f, (s.context g w r f).g = g ∧ (s.context g w r f).w = w ∧ (s.context g w r f).f = f := by
      intro f; simp only [State.context]; cases (s.warp g w).reissue <;> simp
    simp only at h
    split at h
    · rename_i hcond
      simp only [Option.some.injEq] at h
      subst h
      obtain ⟨h1, h2, h3⟩ := hctx f
      simp only [h1, h2, h3]
      simp only [Bool.and_eq_true, Bool.not_eq_true', State.hasWarp, decide_eq_true_eq, Option.isNone_iff_eq_none,
        List.isEmpty_iff] at hcond
      obtain ⟨⟨⟨⟨⟨⟨⟨⟨a, b⟩, n⟩, e⟩, o⟩, u⟩, fb⟩, w'⟩, k⟩ := hcond
      exact ⟨r, hc, hr, hf, rfl, a, b, by omega, e, o, u, fb, w', k⟩
    · cases h
  · cases h

/-- Where no replay entry holds a destination, an issue takes none over. -/
theorem takeOver_none {s : State} {i : Instr} {r : Row} {f : Fields} {c : Cx} (h : (r.dests f).any (s.warp c.g c.w).replayHeld = false) :
    s.takeOver i r f c = s := by
  simp only [State.takeOver, h, Bool.false_and, Bool.false_eq_true, if_false]

/-- R215: an instruction form whose operands are ready does what its meaning gives, when no privilege and no check of its
own before the registers stands in the way. -/
theorem issue_of_issuing {s : State} {i : Instr} {c : Cx} {priv : Warp → Bool} {pre : Cx → State → Option Res}
    {body : Cx → State → Res} (h : s.issuing i = some c) (hp : priv (s.warp c.g c.w) = false) (hpre : pre c s = none) :
    issue i s priv pre body = .next (s.conclude c (body c s)) := by
  obtain ⟨r, hcur, hrow, hf, hctx, -, -, hroom, hform, hodd, hout, hfeb, hw, hk⟩ := issuing_spec h
  unfold issue
  simp only [hcur, hrow, hf, ← hctx, takeOver_none hk]
  unfold State.issueRes
  simp only [hroom, hform, hp, hodd, hout, hpre, hfeb, hw, Bool.false_eq_true, if_false]

/-- The same for an instruction without privilege and early checks. -/
theorem run_of_issuing {s : State} {i : Instr} {c : Cx} {body : Cx → State → Res} (h : s.issuing i = some c) :
    run i s body = .next (s.conclude c (body c s)) := issue_of_issuing h rfl rfl

/-- A check of its own that comes before the registers decides what the instruction does. -/
theorem issue_of_pre {s : State} {i : Instr} {c : Cx} {priv : Warp → Bool} {pre : Cx → State → Option Res}
    {body : Cx → State → Res} {x : Res} (h : s.issuing i = some c) (hp : priv (s.warp c.g c.w) = false)
    (hpre : pre c s = some x) : issue i s priv pre body = .next (s.conclude c x) := by
  obtain ⟨r, hcur, hrow, hf, hctx, -, -, hroom, hform, hodd, hout, -, -, hk⟩ := issuing_spec h
  unfold issue
  simp only [hcur, hrow, hf, ← hctx, takeOver_none hk]
  unfold State.issueRes
  simp only [hroom, hform, hp, hodd, hout, hpre, Bool.false_eq_true, if_false]

/-- An instruction without privilege in a warp that lacks it raises 0x07 (R215 step 5). -/
theorem issue_of_priv {s : State} {i : Instr} {c : Cx} {priv : Warp → Bool} {pre : Cx → State → Option Res}
    {body : Cx → State → Res} (h : s.issuing i = some c) (hp : priv (s.warp c.g c.w) = true) :
    issue i s priv pre body = .next (s.conclude c (c.raise 0x07)) := by
  obtain ⟨r, hcur, hrow, hf, hctx, -, -, hroom, hform, -, -, -, -, hk⟩ := issuing_spec h
  unfold issue
  simp only [hcur, hrow, hf, ← hctx, takeOver_none hk]
  unfold State.issueRes
  simp only [hroom, hform, hp, if_true, if_false]

/-- Reading memory does not depend on workgroups. -/
theorem readByte_modWg (s : State) (g : Nat) (f : Wg → Wg) (k lvl : Nat) (dev : Bool) (a key : Nat) :
    (s.modWg g f).readByte k lvl dev a key = s.readByte k lvl dev a key := by
  have hb : ∀ b, (s.modWg g f).buf b = s.buf b := by
    intro b; cases b <;> simp [State.buf, State.core, State.cluster, State.die]
  simp [State.readByte, State.homeByte, hb]

/-- What is beside a warp after a change of the warp alone. -/
theorem sameBeside_modWarp {s : State} {c : Cx} (f : Warp → Warp) (h : s.hasWg c.g = true) :
    SameBeside s { s.modWarp c.g c.w f with cur := none } c where
  module := by
    have := modWg_rest s c.g fun x => { x with warps := modAt f c.w x.warps }
    exact congrArg (fun t : State => { t with cur := s.cur }) this
  idle := rfl
  bytes := fun k lvl dev a key =>
    readByte_modWg s c.g (fun x => { x with warps := modAt f c.w x.warps }) k lvl dev a key
  others := fun g hg => find_modWg_other _ hg
  wg := by
    show ({ (s.modWarp c.g c.w f).wg c.g with warps := (s.wg c.g).warps } : Wg) = s.wg c.g
    rw [wg_modWarp_same f h]
  count := by
    show ((s.modWarp c.g c.w f).wg c.g).warps.length = (s.wg c.g).warps.length
    rw [wg_modWarp_same f h]
    exact length_modAt _ _ _
  warps := fun w hw => by
    show (s.modWarp c.g c.w f).warp c.g w = s.warp c.g w
    exact warp_modWarp_other f hw h

/-- An instruction that changes its warp by f and goes on at pc retires: its warp is as f leaves it, but for the registers
that `hk` names. -/
theorem retires_advance {s : State} {c : Cx} {pc : W64} {x : Warp} {ss vs ps : List Nat} (f : Warp → Warp)
    (hg : s.hasWg c.g = true) (hw : c.w < (s.wg c.g).warps.length) (hk : Warp.Kept x (f (s.warp c.g c.w)) ss vs ps)
    (hq : (f (s.warp c.g c.w)).reissue = x.reissue) :
    Retires s ((s.modWarp c.g c.w f).advance c pc) c x pc ss vs ps := by
  have hadv : (s.modWarp c.g c.w f).advance c pc
      = { s.modWarp c.g c.w (fun x => (f x).issued (s.now c.g) c.re pc) with cur := none } := by
    unfold State.advance
    rw [now_modWarp, modWarp_modWarp]
  rw [hadv]
  have hwarp : State.warpOf { s.modWarp c.g c.w (fun x => (f x).issued (s.now c.g) c.re pc) with cur := none } c
      = (f (s.warp c.g c.w)).issued (s.now c.g) c.re pc := by
    exact warp_modWarp_same (fun x => (f x).issued (s.now c.g) c.re pc) hg hw
  refine ⟨sameBeside_modWarp _ hg, ?_, ?_, ?_, ?_, ?_⟩
  · rw [hwarp]
    obtain ⟨h1, h2, h3, h4⟩ := hk
    refine ⟨h1, h2, h3, ?_⟩
    rw [← h4]
    rfl
  · rw [hwarp]; rfl
  · rw [hwarp]
    show (if c.re then (f (s.warp c.g c.w)).reissue.drop 1 else (f (s.warp c.g c.w)).reissue) = _
    rw [hq]
  · rw [hwarp]; rfl
  · rw [hwarp]; rfl

/-- The warp that issues is there. -/
theorem there_of_issuing {s : State} {i : Instr} {c : Cx} (h : s.issuing i = some c) :
    s.hasWg c.g = true ∧ c.w < (s.wg c.g).warps.length := by
  obtain ⟨-, -, -, -, -, a, b, -⟩ := issuing_spec h
  exact ⟨a, b⟩

/-- The fields of the operands are those of the instruction. -/
theorem fields_of_issuing {s : State} {i : Instr} {c : Cx} (h : s.issuing i = some c) : fields i = some c.f := by
  obtain ⟨-, -, -, hf, -⟩ := issuing_spec h
  exact hf

/-- A warp that is changed but for its address goes on at the same address. -/
theorem pcAfter_modWarp {s : State} {c : Cx} (f : Warp → Warp) (hg : s.hasWg c.g = true)
    (hw : c.w < (s.wg c.g).warps.length) (hpc : (f (s.warp c.g c.w)).pc = (s.warp c.g c.w).pc) :
    (s.modWarp c.g c.w f).pcAfter c = s.pcAfter c := by
  unfold State.pcAfter
  rw [warp_modWarp_same f hg hw, hpc]

/-- An instruction whose effect is a change f of its warp: what it writes. -/
theorem writes_of_done {s : State} {i : Instr} {c : Cx} {ss vs ps : List Nat} {P : Warp → Prop} (f : Warp → Warp)
    (h : s.issuing i = some c) (he : exec i s = .next (s.conclude c (.done (s.modWarp c.g c.w f))))
    (hk : Warp.Kept (s.warp c.g c.w) (f (s.warp c.g c.w)) ss vs ps)
    (hpc : (f (s.warp c.g c.w)).pc = (s.warp c.g c.w).pc)
    (hq : (f (s.warp c.g c.w)).reissue = (s.warp c.g c.w).reissue)
    (hP : ∀ now re pc, P ((f (s.warp c.g c.w)).issued now re pc)) : Writes i s c ss vs ps P := by
  obtain ⟨hg, hw⟩ := there_of_issuing h
  refine ⟨_, he, ?_, ?_⟩
  · simp only [State.conclude, pcAfter_modWarp f hg hw hpc]
    exact retires_advance f hg hw hk hq
  · simp only [State.conclude, pcAfter_modWarp f hg hw hpc]
    have : State.warpOf ((s.modWarp c.g c.w f).advance c (s.pcAfter c)) c
        = (f (s.warp c.g c.w)).issued (s.now c.g) c.re (s.pcAfter c) := by
      unfold State.advance
      rw [now_modWarp, modWarp_modWarp]
      exact warp_modWarp_same (fun x => (f x).issued (s.now c.g) c.re (s.pcAfter c)) hg hw
    rw [this]
    exact hP _ _ _

/-- A scalar write changes one register. -/
theorem kept_setS (x : Warp) (n : Nat) (v : W64) : Warp.Kept x (x.setS n v) [n] [] [] := by
  refine ⟨fun m hm => getS_setS_other x v (by simpa using hm), fun m _ => getV_setS x n m v, fun m _ => getP_setS x n m v, ?_⟩
  unfold Warp.setS
  split <;> rfl

/-- A masked vector write changes one register. -/
theorem kept_setVm (x : Warp) (mask : W32) (n : Nat) (v : Lanes) : Warp.Kept x (x.setVm mask n v) [] [n] [] :=
  ⟨fun m _ => getS_setVm x mask n m v, fun m hm => getV_setVm_other x mask v (by simpa using hm),
    fun m _ => getP_setVm x mask n m v, rfl⟩

/-- A predicate write changes one predicate. -/
theorem kept_setP (x : Warp) (n : Nat) (v : W32) : Warp.Kept x (x.setP n v) [] [] [n] :=
  ⟨fun m _ => getS_setP x n m v, fun m _ => getV_setP x n m v, fun m hm => getP_setP_other x v (by simpa using hm), rfl⟩

/-- An instruction whose effect is a scalar result. -/
theorem writesS_of_done {s : State} {i : Instr} {c : Cx} {v : W64} (h : s.issuing i = some c)
    (he : exec i s = .next (s.conclude c (.done (s.setS c v)))) : WritesS i s c v := by
  refine writes_of_done (fun x => x.setS c.f.dst.toNat v) h he (kept_setS _ _ _) ?_ ?_ fun now re pc => ?_
  · unfold Warp.setS; split <;> rfl
  · unfold Warp.setS; split <;> rfl
  · show ((s.warp c.g c.w).setS c.f.dst.toNat v).getS c.f.dst.toNat = _
    rw [getS_setS_same]
    have : (c.f.dst.toNat = 63) ↔ (c.f.dst = 63) := by
      constructor
      · intro h; exact BitVec.eq_of_toNat_eq h
      · intro h; rw [h]; rfl
    simp only [this]

/-- An instruction whose effect is a vector result in the active lanes. -/
theorem writesV_of_done {s : State} {i : Instr} {c : Cx} {v : Nat → W32} (h : s.issuing i = some c)
    (he : exec i s = .next (s.conclude c (.done (s.setV c (mkLanes v))))) : WritesV i s c v := by
  refine writes_of_done (fun x => x.setVm c.act c.f.dst.toNat (mkLanes v)) h he (kept_setVm _ _ _ _) rfl rfl
    fun now re pc => ?_
  intro l hl
  show lane (((s.warp c.g c.w).setVm c.act c.f.dst.toNat (mkLanes v)).getV c.f.dst.toNat) l = _
  rw [lane_setVm_same _ _ _ _ hl, lane_mkLanes v hl]
  rfl

/-- An instruction whose effect is a change of its warp's other fields. -/
theorem sets_of_done {s : State} {i : Instr} {c : Cx} (f : Warp → Warp) (h : s.issuing i = some c)
    (he : exec i s = .next (s.conclude c (.done (s.modWarp c.g c.w f))))
    (hpc : (f (s.warp c.g c.w)).pc = (s.warp c.g c.w).pc) : Sets i s c (f (s.warp c.g c.w)) := by
  obtain ⟨hg, hw⟩ := there_of_issuing h
  refine ⟨_, he, ?_⟩
  simp only [State.conclude, pcAfter_modWarp f hg hw hpc]
  exact retires_advance f hg hw ⟨fun _ _ => rfl, fun _ _ => rfl, fun _ _ => rfl, rfl⟩ rfl

/-- An instruction with no effect but the warp's progress. -/
theorem sets_of_nothing {s : State} {i : Instr} {c : Cx} (h : s.issuing i = some c)
    (he : exec i s = .next (s.conclude c (.done s))) : Sets i s c (s.warpOf c) := by
  obtain ⟨hg, hw⟩ := there_of_issuing h
  refine ⟨_, he, ?_⟩
  have hadv : s.advance c (s.pcAfter c) = { s.modWarp c.g c.w (fun x => x.issued (s.now c.g) c.re (s.pcAfter c)) with cur := none } := rfl
  have hwarp : State.warpOf (s.advance c (s.pcAfter c)) c = (s.warp c.g c.w).issued (s.now c.g) c.re (s.pcAfter c) :=
    warp_modWarp_same (fun x => x.issued (s.now c.g) c.re (s.pcAfter c)) hg hw
  simp only [State.conclude]
  refine ⟨?_, ?_, ?_, ?_, ?_⟩
  · rw [hadv]; exact sameBeside_modWarp _ hg
  · rw [hwarp]; exact ⟨fun _ _ => rfl, fun _ _ => rfl, fun _ _ => rfl, rfl⟩
  · rw [hwarp]; rfl
  · rw [hwarp]; rfl
  · rw [hwarp]; exact ⟨rfl, rfl⟩

/-- A branch that is taken. -/
theorem jumps_of_goto {s : State} {i : Instr} {c : Cx} {pc : W64} (f : Warp → Warp) (h : s.issuing i = some c)
    (he : exec i s = .next (s.conclude c (.goto (s.modWarp c.g c.w f) pc)))
    : Jumps i s c (f (s.warp c.g c.w)) pc := by
  obtain ⟨hg, hw⟩ := there_of_issuing h
  exact ⟨_, he, retires_advance f hg hw ⟨fun _ _ => rfl, fun _ _ => rfl, fun _ _ => rfl, rfl⟩ rfl⟩

end Sys2Proof.Machine
end

