-- ==== Sys2Proof/Laws/Memory.lean ====
section
/-! SUPPORT. The memories: every operation that writes a byte of V or Y keeps the canonical form, and what a byte reads after a
write. -/

namespace Sys2Proof.Machine

/-- A state whose memories are those of a canonical one is canonical. -/
theorem memoriesWf_of_same {s t : State} (h : s.memoriesWf) (hv : t.vmem = s.vmem) (hk : t.vkey = s.vkey) (hy : t.ymem = s.ymem)
    (hg : t.wgs = s.wgs) : t.memoriesWf := by
  unfold State.memoriesWf at *
  rw [hv, hk, hy, hg]
  exact h

theorem memoriesWf_ue {s : State} (l : List Nat) (h : s.memoriesWf) : ({ s with ue := l } : State).memoriesWf := h

/-- Writes through a list keep a map canonical. -/
theorem SMap_wf_puts {α β : Type} (l : List β) (m : SMap α) (f : β → Nat × α) (h : SMap.wf m = true) :
    SMap.wf (l.foldl (fun m b => SMap.put (f b).1 (f b).2 m) m) = true := by
  induction l generalizing m with
  | nil => exact h
  | cons b l ih => exact ih _ (SMap_wf_put _ _ _ h)

/-- Steps through a list keep the canonical form when each of them does. -/
theorem memoriesWf_foldl {α : Type} {f : State → α → State} (hf : ∀ s a, s.memoriesWf → (f s a).memoriesWf) (l : List α) {s : State}
    (h : s.memoriesWf) : (l.foldl f s).memoriesWf := by
  induction l generalizing s with
  | nil => exact h
  | cons a l ih => exact ih (hf s a h)

/-! Updates of other parts. -/

/-- The entry that a key finds is one of the map's. -/
theorem SMap_find_mem {α : Type} {k : Nat} {v : α} {m : SMap α} (h : SMap.find k m = some v) : (k, v) ∈ m := by
  induction m with
  | nil => simp [SMap.find] at h
  | cons p m ih =>
    obtain ⟨k', v'⟩ := p
    unfold SMap.find at h
    split at h
    · rename_i e; cases h; subst e; exact .head _
    · exact .tail _ (ih h)

/-- An entry of a map after a write is the one written or was there. -/
theorem SMap_mem_put {α : Type} {k : Nat} {v : α} {m : SMap α} {p : Nat × α} (h : p ∈ SMap.put k v m) : p = (k, v) ∨ p ∈ m := by
  induction m with
  | nil => simpa [SMap.put] using h
  | cons q m ih =>
    obtain ⟨k', v'⟩ := q
    unfold SMap.put at h
    split at h
    · simpa using h
    · split at h
      · rcases List.mem_cons.1 h with h | h
        · exact .inl h
        · exact .inr (.tail _ h)
      · rcases List.mem_cons.1 h with h | h
        · exact .inr (h ▸ .head _)
        · exact (ih h).imp id (.tail _)

/-- A change of a workgroup that keeps its own storage canonical. -/
theorem memoriesWf_modWg {s : State} (g : Nat) (f : Wg → Wg) (hf : ∀ x, x.memWf → (f x).memWf) (h : s.memoriesWf) : (s.modWg g f).memoriesWf := by
  refine ⟨by rw [modWg_vmem]; exact h.1, by rw [modWg_vkey]; exact h.2.1, by rw [modWg_ymem]; exact h.2.2.1, fun p hp => ?_⟩
  unfold State.modWg at hp
  split at hp
  · rename_i x hx
    rcases SMap_mem_put hp with rfl | hp
    · exact hf _ (h.2.2.2 _ (SMap_find_mem hx))
    · exact h.2.2.2 _ hp
  · exact h.2.2.2 _ hp

theorem memoriesWf_modWarp {s : State} (g w : Nat) (f : Warp → Warp) (h : s.memoriesWf) : (s.modWarp g w f).memoriesWf :=
  memoriesWf_modWg g _ (fun _ h => h) h

/-! A workgroup's own storage. -/

theorem memWf_setOperand {x : Wg} (k : Nat) (v : W8) (h : x.memWf) : (x.setOperand k v).memWf := by
  obtain ⟨h1, h2, h3, h4, h5⟩ := h
  unfold Wg.setOperand
  split
  · exact ⟨h1, SMap_wf_put _ _ _ h2, h3, h4, h5⟩
  · split
    · exact ⟨SMap_wf_put _ _ _ h1, h2, h3, h4, h5⟩
    · exact ⟨h1, h2, SMap_wf_put _ _ _ h3, h4, h5⟩

theorem memWf_clean {x : Wg} (l : List Nat) (h : x.memWf) : (x.clean l).memWf := by
  unfold Wg.clean
  split <;> exact h

theorem memWf_foldl {α : Type} {f : Wg → α → Wg} (hf : ∀ x a, x.memWf → (f x a).memWf) (l : List α) {x : Wg} (h : x.memWf) :
    (l.foldl f x).memWf := by
  induction l generalizing x with
  | nil => exact h
  | cons a l ih => exact ih (hf x a h)

theorem memWf_zeroWord {x : Wg} (k : Nat) (h : x.memWf) : (x.zeroWord k).memWf := by
  unfold Wg.zeroWord
  split
  · exact memWf_foldl (fun _ _ h => memWf_setOperand _ _ h) _ h
  · obtain ⟨h1, h2, h3, h4, h5⟩ := h
    split
    · exact ⟨h1, h2, h3, SMap_wf_put _ _ _ h4, h5⟩
    · exact ⟨h1, h2, h3, h4, SMap_wf_put _ _ _ h5⟩

theorem memWf_spoil {x : Wg} (bad : Bool) (k : Nat) (h : x.memWf) : (x.spoil bad k).memWf := by
  unfold Wg.spoil
  split
  · exact h
  · split
    · exact h
    · exact memWf_zeroWord k h

/-- Writes of words of an accumulator. -/
theorem memoriesWf_putAcc {s : State} (g id a : Nat) (ws : List (Nat × W32)) (h : s.memoriesWf) : (s.putAcc g id a ws).memoriesWf := by
  refine memoriesWf_modWg g _ (fun x hx => ?_) h
  obtain ⟨h1, h2, h3, h4, h5⟩ := memWf_clean (ws.map fun p => accSoft a p.1) hx
  refine ⟨h1, h2, h3, ?_, h5⟩
  exact SMap_wf_puts _ _ (fun (p : Nat × W32) => (4096 * a + p.1, p.2)) hx.2.2.2.1

/-- Writes of entries of a residue register. -/
theorem memoriesWf_putCy {s : State} (g id c : Nat) (ws : List (Nat × W32)) (h : s.memoriesWf) : (s.putCy g id c ws).memoriesWf := by
  refine memoriesWf_modWg g _ (fun x hx => ?_) h
  obtain ⟨h1, h2, h3, h4, h5⟩ := memWf_clean (ws.map fun p => cySoft c p.1) hx
  refine ⟨h1, h2, h3, h4, ?_⟩
  exact SMap_wf_puts _ _ (fun (p : Nat × W32) => (64 * c + p.1, p.2)) hx.2.2.2.2

theorem memoriesWf_modCore {s : State} (c : Nat) (f : Core → Core) (h : s.memoriesWf) : (s.modCore c f).memoriesWf :=
  memoriesWf_of_same h rfl rfl rfl rfl

theorem memoriesWf_modCluster {s : State} (c : Nat) (f : Cluster → Cluster) (h : s.memoriesWf) : (s.modCluster c f).memoriesWf :=
  memoriesWf_of_same h rfl rfl rfl rfl

theorem memoriesWf_modDie {s : State} (c : Nat) (f : Die → Die) (h : s.memoriesWf) : (s.modDie c f).memoriesWf :=
  memoriesWf_of_same h rfl rfl rfl rfl

theorem memoriesWf_modCtx {s : State} (t : Nat) (f : Context → Context) (h : s.memoriesWf) : (s.modCtx t f).memoriesWf := by
  unfold State.modCtx
  split
  · exact memoriesWf_of_same h rfl rfl rfl rfl
  · exact h

theorem memoriesWf_setBuf {s : State} (b : BufId) (l : Buffer) (h : s.memoriesWf) : (s.setBuf b l).memoriesWf := by
  cases b
  · exact memoriesWf_modCore _ _ h
  · exact memoriesWf_modCluster _ _ h
  · exact memoriesWf_modDie _ _ h

/-! Writes to V and Y. -/

/-- A write of one byte. -/
theorem memoriesWf_putByte {s : State} (dev : Bool) (key a : Nat) (v : W8) (h : s.memoriesWf) : (s.putByte dev key a v).memoriesWf := by
  unfold State.putByte
  split
  · exact ⟨SMap_wf_put _ _ _ h.1, SMap_wf_put _ _ _ h.2.1, h.2.2.1, h.2.2.2⟩
  · split
    · exact h
    · exact ⟨h.1, h.2.1, SMap_wf_put _ _ _ h.2.2.1, h.2.2.2⟩

theorem memoriesWf_putAll (dev : Bool) (key : Nat) (l : List W8) {s : State} (a : Nat) (h : s.memoriesWf) :
    (s.putAll dev key a l).memoriesWf := by
  induction l generalizing s a with
  | nil => exact h
  | cons v l ih => exact ih (a + 1) (memoriesWf_putByte dev key a v h)

/-- The log of what V held changes no memory. -/
theorem logV_rest (s : State) (a n : Nat) : { s.logV a n with vlog := s.vlog, vcount := s.vcount } = s := by
  unfold State.logV
  split <;> rfl

theorem memoriesWf_logV {s : State} (a n : Nat) (h : s.memoriesWf) : (s.logV a n).memoriesWf := by
  unfold State.logV
  split
  · exact h
  · exact memoriesWf_of_same h rfl rfl rfl rfl

/-- A write of bytes. -/
theorem memoriesWf_putBytes (dev : Bool) (key : Nat) (l : List W8) {s : State} (a : Nat) (h : s.memoriesWf) :
    (s.putBytes dev key a l).memoriesWf := by
  unfold State.putBytes
  split
  · exact memoriesWf_putAll _ _ _ _ (memoriesWf_logV _ _ h)
  · exact memoriesWf_putAll _ _ _ _ h

theorem memoriesWf_noteFails {s : State} (t a n : Nat) (h : s.memoriesWf) : (s.noteFails t a n).memoriesWf := by
  unfold State.noteFails
  split
  · exact memoriesWf_of_same h rfl rfl rfl rfl
  · exact h

/-! Counts, host events and streams. -/

theorem memoriesWf_putCtx {s : State} (t n : Nat) (v : W64) (h : s.memoriesWf) : (s.putCtx t n v).memoriesWf := memoriesWf_modCtx _ _ h

theorem memoriesWf_countUe {s : State} (t n : Nat) (h : s.memoriesWf) : (s.countUe t n).memoriesWf := by
  unfold State.countUe
  split
  · exact h
  · exact memoriesWf_putCtx _ _ _ (memoriesWf_putCtx _ _ _ h)

theorem memoriesWf_countCe {s : State} (t : Nat) (dev : Bool) (a n : Nat) (h : s.memoriesWf) : (s.countCe t dev a n).memoriesWf := by
  unfold State.countCe
  generalize (if dev then (linesOf a n).filter s.ce.contains else []) = hit
  simp only
  split
  · exact h
  · exact memoriesWf_putCtx _ _ _ (memoriesWf_of_same h rfl rfl rfl rfl)

theorem memoriesWf_msix {s : State} (v : Nat) (h : s.memoriesWf) : (s.msix v).memoriesWf := by
  unfold State.msix
  split <;> exact memoriesWf_of_same h rfl rfl rfl rfl

theorem memoriesWf_postEvent {s : State} (t kind : Nat) (h : s.memoriesWf) : (s.postEvent t kind).memoriesWf := by
  unfold State.postEvent
  split
  · exact memoriesWf_of_same h rfl rfl rfl rfl
  · simp only
    split
    · exact memoriesWf_msix _ (memoriesWf_of_same h rfl rfl rfl rfl)
    · exact memoriesWf_of_same h rfl rfl rfl rfl

/-- Writes to a workgroup's tiles, local memory and shapes (R115, R300, R134). -/
theorem memoriesWf_putOperands {s : State} (g : Nat) (ws : List (Nat × W8)) (h : s.memoriesWf) : (s.putOperands g ws).memoriesWf := by
  unfold State.putOperands
  refine memoriesWf_modCore _ _ (memoriesWf_modWg _ _ (fun x hx => ?_) ?_)
  · exact memWf_foldl (f := fun x (p : Nat × W8) => x.setOperand p.1 p.2) (fun _ _ h => memWf_setOperand _ _ h) ws hx
  · split
    · exact h
    · exact memoriesWf_modWg _ _ (fun _ h => memWf_clean _ h) (memoriesWf_countUe _ _ h)

theorem memoriesWf_putLocal {s : State} (g off : Nat) (bs : List W8) (h : s.memoriesWf) : (s.putLocal g off bs).memoriesWf :=
  memoriesWf_putOperands _ _ h

theorem memoriesWf_modStream {s : State} (t p : Nat) (f : Stream → Stream) (h : s.memoriesWf) : (s.modStream t p f).memoriesWf :=
  memoriesWf_modCtx _ _ h

theorem memoriesWf_relPost {s : State} (t p : Nat) (d : Datagram) (h : s.memoriesWf) : (s.relPost t p d).memoriesWf := by
  unfold State.relPost
  split
  · exact h
  · exact memoriesWf_modStream _ _ _ h

theorem memoriesWf_peerPost {s : State} (t p : Nat) (r : PeerReq) (op atop len pctx addr cmp : Nat) (data : List W8) (h : s.memoriesWf) :
    (s.peerPost t p r op atop len pctx addr cmp data).memoriesWf := by
  unfold State.peerPost
  split
  · exact h
  · exact memoriesWf_modStream _ _ _ (memoriesWf_relPost _ _ _ h)

theorem memoriesWf_peerStore {s : State} (t p pctx a : Nat) (bs : List W8) (own eng : Option (Nat × Nat)) (unit : Nat) (h : s.memoriesWf) :
    (s.peerStore t p pctx a bs own eng unit).memoriesWf := by
  unfold State.peerStore
  simp only
  split
  · have h1 : (if s.live t = true then s.postEvent t 4 else s).memoriesWf := by
      split
      · exact memoriesWf_postEvent _ _ h
      · exact h
    split
    · exact memoriesWf_modWarp _ _ _ h1
    · exact h1
  · exact memoriesWf_peerPost _ _ _ _ _ _ _ _ _ _ h

/-- A store entry that reaches V or Y (R123). -/
theorem memoriesWf_toHome {s : State} (e : Entry) (h : s.memoriesWf) : (s.toHome e).memoriesWf := by
  unfold State.toHome
  split
  · exact memoriesWf_putBytes _ _ _ _ h
  · split
    · exact memoriesWf_peerStore _ _ _ _ _ _ _ _ h
    · exact memoriesWf_putBytes _ _ _ _ (memoriesWf_noteFails _ _ _ h)

/-- A store entry is placed (R122). -/
theorem memoriesWf_place {s : State} (c lvl : Nat) (e : Entry) (h : s.memoriesWf) : (s.place c lvl e).memoriesWf := by
  unfold State.place
  split
  · exact memoriesWf_of_same (memoriesWf_setBuf _ _ h) rfl rfl rfl rfl
  · exact memoriesWf_toHome _ h

/-- Entries move up a level (R123). -/
theorem memoriesWf_moveUp {s : State} (b : BufId) (sel : Entry → Bool) (h : s.memoriesWf) : (s.moveUp b sel).1.memoriesWf := by
  unfold State.moveUp
  simp only
  split
  · exact memoriesWf_setBuf _ _ (memoriesWf_setBuf _ _ h)
  · exact memoriesWf_foldl (fun s e h => memoriesWf_toHome _ h) _ (memoriesWf_setBuf _ _ h)

theorem memoriesWf_moveThrough (l : List BufId) {s : State} (sel : Entry → Bool) (h : s.memoriesWf) : (s.moveThrough l sel).memoriesWf := by
  induction l generalizing s sel with
  | nil => exact h
  | cons b l ih => exact ih _ (memoriesWf_moveUp b sel h)

theorem memoriesWf_drainTo {s : State} (c lvl : Nat) (sel : Entry → Bool) (h : s.memoriesWf) : (s.drainTo c lvl sel).memoriesWf :=
  memoriesWf_moveThrough _ _ h

/-- A release (R126). -/
theorem memoriesWf_release {s : State} (c lvl : Nat) (h : s.memoriesWf) : (s.release c lvl).memoriesWf := memoriesWf_drainTo _ _ _ h

/-- An acquire (R127). -/
theorem memoriesWf_acquire {s : State} (c lvl : Nat) (h : s.memoriesWf) : (s.acquire c lvl).memoriesWf :=
  memoriesWf_foldl (fun _ _ h => memoriesWf_setBuf _ _ h) _ h

theorem memoriesWf_age {s : State} (n : Nat) (h : s.memoriesWf) : ({ s with age := n } : State).memoriesWf := h

/-- Copies of a value read (R124). -/
theorem memoriesWf_leaveCopies {s : State} (c copies : Nat) (dev : Bool) (a key : Nat) (vs : List W8) (h : s.memoriesWf) :
    (s.leaveCopies c copies dev a key vs).memoriesWf := by
  refine memoriesWf_foldl (fun s b h => ?_) _ h
  unfold State.copyInto
  simp only
  split
  · exact memoriesWf_age _ (memoriesWf_setBuf _ _ h)
  · exact memoriesWf_foldl (fun s i h => memoriesWf_age (s.age + 1) (memoriesWf_setBuf b _ h)) _ h

/-- A promotion (R130). -/
theorem memoriesWf_promote {s : State} (all : Bool) (a n : Nat) (h : s.memoriesWf) : (s.promote all a n).memoriesWf :=
  memoriesWf_foldl (fun _ _ h => memoriesWf_moveThrough _ _ h) _ h

/-- Render-target entries drain (R135). -/
theorem memoriesWf_rtMove {s : State} (d : Nat) (sel : RtEntry → Bool) (h : s.memoriesWf) : (s.rtMove d sel).memoriesWf :=
  memoriesWf_foldl (fun _ _ h => memoriesWf_putBytes _ _ _ _ h) _ (memoriesWf_modDie _ _ h)

/-- A warp's release. -/
theorem memoriesWf_warpRelease {s : State} (g w lvl : Nat) (h : s.memoriesWf) : (s.warpRelease g w lvl).memoriesWf := by
  refine memoriesWf_release _ _ ?_
  split
  · exact memoriesWf_rtMove _ _ h
  · exact h

/-- A store into a line with an uncorrectable error (R145). -/
theorem memoriesWf_clearUe {s : State} (dev : Bool) (key a n : Nat) (h : s.memoriesWf) : (s.clearUe dev key a n).memoriesWf := by
  unfold State.clearUe
  refine memoriesWf_foldl (fun s l h => ?_) _ h
  exact memoriesWf_ue _ (memoriesWf_putBytes true key (List.replicate 128 0) (128 * l) h)

/-- The acquires of a walk (R127, R154). -/
theorem memoriesWf_walkAcquires {s : State} (g w : Nat) (l : List TableRead) (h : s.memoriesWf) : (s.walkAcquires g w l).memoriesWf :=
  memoriesWf_foldl (fun _ _ h => memoriesWf_acquire _ _ (memoriesWf_drainTo _ _ _ h)) _ h

/-- A leaf's accessed and dirty bits (R155). -/
theorem memoriesWf_leafUsed {s : State} (t : Nat) (x : TlbEntry) (o : Nat) (h : s.memoriesWf) : (s.leafUsed t x o).memoriesWf := by
  unfold State.leafUsed
  refine memoriesWf_modCtx _ _ ?_
  split
  · exact h
  · split
    · exact ⟨h.1, h.2.1, SMap_wf_put _ _ _ h.2.2.1, h.2.2.2⟩
    · have hl := memoriesWf_logV x.at_ 1 h
      exact ⟨SMap_wf_put _ _ _ h.1, hl.2.1, hl.2.2.1, hl.2.2.2⟩

theorem memoriesWf_free {s : State} (n : Nat) (h : s.memoriesWf) : ({ s with free := n } : State).memoriesWf := h

theorem memoriesWf_meetLines {s : State} (t : Nat) (who : Walker) (l : List Nat) (h : s.memoriesWf) : (s.meetLines t who l).memoriesWf := by
  unfold State.meetLines
  split
  · exact h
  · split
    · exact memoriesWf_countUe _ _ (memoriesWf_modWarp _ _ _ h)
    · exact memoriesWf_countUe _ _ h

/-- What a walk leaves (R127, R154, R155). -/
theorem memoriesWf_walkDone {s : State} (t : Nat) (who : Walker) (e : XEff) (h : s.memoriesWf) : (s.walkDone t who e).memoriesWf := by
  have h0 := memoriesWf_foldl (f := fun s (r : TableRead) => s.countCe t (!r.host) r.at_ r.n) (fun _ _ h => memoriesWf_countCe _ _ _ _ h) e.reads h
  have h1 : ((e.reads.foldl (fun s r => s.countCe t (!r.host) r.at_ r.n) s).walked who e).memoriesWf := by
    unfold State.walked
    split
    · exact memoriesWf_walkAcquires _ _ _ h0
    · exact h0
  have h2 := memoriesWf_foldl (f := fun s (x : TlbEntry × Nat) => s.leafUsed t x.1 x.2) (fun _ _ h => memoriesWf_leafUsed _ _ _ h)
    (e.inner ++ e.entry.toList.map fun x => (x, e.orBits)) h1
  unfold State.walkDone
  dsimp only
  split
  · exact memoriesWf_free _ h2
  · exact h2

/-- The effects of a translation (R144, R145, R154, R155). -/
theorem memoriesWf_translated {s : State} (t : Nat) (who : Walker) (e : XEff) (h : s.memoriesWf) : (s.translated t who e).memoriesWf :=
  memoriesWf_walkDone _ _ _ (memoriesWf_meetLines _ _ _ h)

theorem memoriesWf_missed {s : State} (t : Nat) (who : Walker) (e : XEff) (h : s.memoriesWf) : (s.missed t who e).memoriesWf :=
  memoriesWf_free _ (memoriesWf_translated _ _ _ h)

theorem memoriesWf_peerMet {s : State} (t p : Nat) (h : s.memoriesWf) : (s.peerMet t p).memoriesWf :=
  memoriesWf_countCe _ _ _ _ (memoriesWf_countUe _ _ h)

/-- The state after an access of the device (R362), whatever its result. -/
def DevAt.state {α : Type} : DevAt α → State
  | .ok _ s => s
  | .fault _ s => s
  | .mig s => s
  | .peer _ _ _ s => s

/-- A read of the device for a context (R362). -/
theorem memoriesWf_devReadAt {s : State} (t va n : Nat) (h : s.memoriesWf) : (s.devReadAt t va n).state.memoriesWf := by
  have hr : ∀ (s : State) l, s.memoriesWf → (s.resolve l).2.memoriesWf := by
    intro s l h
    unfold State.resolve
    split <;> exact memoriesWf_of_same h rfl rfl rfl rfl
  unfold State.devReadAt
  split
  · exact memoriesWf_missed _ _ _ h
  · exact memoriesWf_missed _ _ _ h
  · rename_i tgt e _
    have h1 := memoriesWf_translated t none e h
    simp only
    split
    · have h2 := fun m => memoriesWf_countCe (a := m) t true n (memoriesWf_countUe t ((s.translated t none e).ueLines true m n).length h1)
      split
      · exact h2 _
      · exact hr _ _ (h2 _)
    · split
      · exact h1
      · exact hr _ _ h1
    · exact h1
    · exact h1

theorem memoriesWf_keepReads {s : State} (t : Nat) (h : s.memoriesWf) : (s.keepReads t).memoriesWf := memoriesWf_modCtx _ _ h

/-- The state after an access of the device that may wait, whatever its result. -/
def DevRes.state {α : Type} : DevRes α → State
  | .ok _ s => s
  | .fault _ s => s
  | .later s => s

/-- A read of a peer's memory (R362, R181). -/
theorem memoriesWf_peerGet {s : State} (t p pctx a n : Nat) (h : s.memoriesWf) : (s.peerGet t p pctx a n).state.memoriesWf := by
  have ha : ∀ (s : State) (r : Nat × Nat), s.memoriesWf → (s.askPeer t p pctx r.1 r.2).memoriesWf := by
    intro s r h
    unfold State.askPeer
    split
    · exact h
    · exact memoriesWf_modStream _ _ _ (memoriesWf_relPost _ _ _ h)
  unfold State.peerGet
  dsimp only
  split
  · exact h
  · split
    · exact memoriesWf_keepReads _ (memoriesWf_foldl ha _ h)
    · have h1 := memoriesWf_foldl (f := fun s (r : Nat × Nat) => s.useRead t p pctx r.1 r.2) (fun _ _ h => memoriesWf_modStream _ _ _ h)
        (peerParts a n) h
      split <;> exact h1

/-- A packet leaves (R70). -/
theorem memoriesWf_transmit {s : State} (p port : Nat) (d : Datagram) (h : s.memoriesWf) : (s.transmit p port d).memoriesWf :=
  memoriesWf_of_same (memoriesWf_peerMet d.ctx p h) rfl rfl rfl rfl


/-- A stream's key is read (R179). -/
theorem memoriesWf_relKey {s : State} (t p : Nat) (h : s.memoriesWf) : (s.relKey t p).state.memoriesWf := by
  have h1 := memoriesWf_devReadAt t (bits (s.cctx t 0x112).toNat 55 6 * 64 + 32 * p) 32 h
  unfold State.relKey
  generalize s.devReadAt t (bits (s.cctx t 0x112).toNat 55 6 * 64 + 32 * p) 32 = r at h1
  cases r with
  | ok b s2 => exact h1
  | fault c s2 => exact memoriesWf_postEvent _ _ h1
  | mig s2 => exact memoriesWf_keepReads _ h1
  | peer q qctx a s2 =>
    have h2 : (s2.peerGet t q qctx a 32).state.memoriesWf := memoriesWf_peerGet t q qctx a 32 h1
    dsimp only
    generalize s2.peerGet t q qctx a 32 = r at h2
    cases r with
    | ok b s3 => exact h2
    | fault c s3 => exact memoriesWf_postEvent _ _ h2
    | later s3 => exact h2

/-- A datagram is sealed and sent (R72). -/
theorem memoriesWf_relSeal {s : State} (t p : Nat) (d : Datagram) (h : s.memoriesWf) : (s.relSeal t p d).state.memoriesWf := by
  have h1 := memoriesWf_relKey t p h
  unfold State.relSeal
  generalize s.relKey t p = r at h1
  cases r with
  | later s1 => exact h1
  | fault c s1 => exact h1
  | ok k s1 =>
    cases k with
    | none => exact h1
    | some key =>
      dsimp only
      split
      · exact memoriesWf_peerMet _ _ h1
      · exact memoriesWf_transmit _ _ _ h1

theorem memoriesWf_relTry (t p : Nat) (l : List (Nat × Datagram × Bool)) {s : State} (h : s.memoriesWf) : (State.relTry t p l s).memoriesWf := by
  induction l generalizing s with
  | nil => exact h
  | cons u l ih =>
    have h1 := memoriesWf_relSeal t p u.2.1 h
    unfold State.relTry
    generalize s.relSeal t p u.2.1 = r at h1
    cases r with
    | later s1 => exact h1
    | fault c s1 => exact h1
    | ok d s1 => exact ih (memoriesWf_modStream _ _ _ h1)

/-- A stream sends what it may (R74). -/
theorem memoriesWf_relFlush {s : State} (t p : Nat) (h : s.memoriesWf) : (s.relFlush t p).memoriesWf := by
  unfold State.relFlush
  split
  · exact h
  · exact memoriesWf_relTry _ _ _ h

theorem memoriesWf_flushStreams {s : State} (h : s.memoriesWf) : s.flushStreams.memoriesWf :=
  memoriesWf_foldl (fun _ _ h => memoriesWf_foldl (fun _ _ h => memoriesWf_relFlush _ _ h) _ h) _ h

/-- The sweeper (R162). -/
theorem memoriesWf_sweepEntry {s : State} (d hand : Nat) (h : s.memoriesWf) : (s.sweepEntry d hand).memoriesWf := by
  unfold State.sweepEntry
  dsimp only
  split
  · exact h
  · split
    · exact h
    · split
      · have hl := fun a => memoriesWf_logV a 1 h
        exact memoriesWf_modCtx _ _ ⟨SMap_wf_put _ _ _ h.1, (hl _).2.1, (hl _).2.2.1, (hl _).2.2.2⟩
      · split
        · exact h
        · exact memoriesWf_modDie _ _ h

/-! What the world does between two steps (log 2). -/

theorem memoriesWf_modEdge {s : State} (t n e : Nat) (f : Edge → Edge) (h : s.memoriesWf) : (s.modEdge t n e f).memoriesWf := memoriesWf_modCtx _ _ h

theorem memoriesWf_spoil {s : State} (bad : Bool) (x : SoftWord) (h : s.memoriesWf) : (s.spoil bad x).memoriesWf := by
  cases x with
  | reg g w r => exact memoriesWf_modWarp _ _ _ h
  | own g k => exact memoriesWf_modWg _ _ (fun _ h => memWf_spoil bad k h) h
  | ring t n e slot i =>
    refine ⟨?_, ?_, ?_, fun p hp => ?_⟩ <;> have h1 := memoriesWf_modEdge t n e (fun x : Edge => { x with ring := x.ring.map fun p => (if p.1.slot = slot then p.1.spoil bad i else p.1, p.2) }) h
    · exact h1.1
    · exact h1.2.1
    · exact h1.2.2.1
    · obtain ⟨q, hq, rfl⟩ := List.mem_map.1 hp
      have h2 := h1.2.2.2 q hq
      dsimp only
      split <;> exact h2

/-- A read of a peer's memory that sends what it asks for. -/
theorem memoriesWf_peerRead {s : State} (t p pctx a n : Nat) (h : s.memoriesWf) : (s.peerRead t p pctx a n).state.memoriesWf := by
  have h1 := memoriesWf_peerGet t p pctx a n h
  unfold State.peerRead
  generalize s.peerGet t p pctx a n = r at h1
  cases r with
  | ok b s1 => exact h1
  | fault c s1 => exact h1
  | later s1 => exact memoriesWf_relFlush _ _ h1

/-- A read of the device that may wait (R362). -/
theorem memoriesWf_devRead {s : State} (t va n : Nat) (h : s.memoriesWf) : (s.devRead t va n).state.memoriesWf := by
  have h1 := memoriesWf_devReadAt t va n h
  unfold State.devRead
  generalize s.devReadAt t va n = r at h1
  cases r with
  | ok b s1 => exact h1
  | fault c s1 => exact h1
  | mig s1 => exact memoriesWf_keepReads _ h1
  | peer p pctx a s1 => exact memoriesWf_peerRead _ _ _ _ _ h1

theorem memoriesWf_qRead {s : State} (t q : Nat) (h : s.memoriesWf) : (s.qRead t q).state.memoriesWf := by
  have h1 := memoriesWf_devRead t (s.qAddr t q) 32 h
  unfold State.qRead
  generalize s.devRead t (s.qAddr t q) 32 = r at h1
  cases r <;> exact h1

theorem memoriesWf_hostRead {s : State} (x : Option HostRead) (h : s.memoriesWf) : ({ s with hostRead := x } : State).memoriesWf := h

/-- The host reads BAR 0 (R64, R174, R264). -/
theorem memoriesWf_barRead {s : State} (off n : Nat) (h : s.memoriesWf) : (s.barRead off n).memoriesWf := by
  have hp : s.popEvent.memoriesWf := by
    unfold State.popEvent
    split <;> exact memoriesWf_of_same h rfl rfl rfl rfl
  have hd : ∀ t q, (s.doorRead t q).memoriesWf := by
    intro t q
    have h1 := memoriesWf_qRead t q h
    unfold State.doorRead
    split
    · exact h
    · generalize s.qRead t q = r at h1
      cases r with
      | ok e s1 => exact h1
      | fault c s1 => exact memoriesWf_hostRead _ (memoriesWf_postEvent _ _ h1)
      | later s1 => exact h1
  have hs : ∀ d, (s.sweepPop d).2.memoriesWf := by
    intro d
    unfold State.sweepPop
    split
    · exact h
    · exact memoriesWf_modDie _ _ h
  unfold State.barRead
  split
  · exact h
  · split
    · exact hd _ _
    · split
      · exact hp
      · split
        · exact hs _
        · exact h

theorem memoriesWf_hostActs {s : State} (a : HostAct) (h : s.memoriesWf) : (s.hostActs a).memoriesWf := by
  cases a with
  | read off n => exact memoriesWf_barRead off n h
  | masks v f =>
    show (s.setMasks (if s.refused then s.msixMask else v) f).memoriesWf
    unfold State.setMasks
    simp only
    split <;> exact memoriesWf_of_same h rfl rfl rfl rfl

/-- What happens before a step of the agenda (log 2). -/
theorem memoriesWf_tick {s : State} (k : Tick) (h : s.memoriesWf) : (s.tick k).memoriesWf := by
  have hf : s.freeEntries.memoriesWf := by
    refine memoriesWf_foldl (fun s p h => ?_) _ h
    split
    · exact h
    · exact memoriesWf_modWarp _ _ _ h
  have hc : ∀ (s : State) c n, s.memoriesWf → (s.coreTime c n).memoriesWf := fun s c n h =>
    memoriesWf_foldl (fun _ _ h => memoriesWf_modWarp _ _ _ h) _ (memoriesWf_modCore _ _ h)
  have h1 := memoriesWf_foldl (f := fun s (p : Nat × Nat) => s.coreTime p.1 p.2) (fun s p h => hc s p.1 p.2 h) k.cores hf
  have h2 := memoriesWf_foldl (f := fun s (p : Nat × Nat) => s.dieTime p.1 p.2) (fun s p h => memoriesWf_modDie _ _ h) k.dies h1
  have hd : ∀ s : State, s.memoriesWf → s.dropReads.memoriesWf := by
    intro s h
    unfold State.dropReads
    split
    · exact h
    · exact memoriesWf_of_same h rfl rfl rfl rfl
  have h3 := memoriesWf_foldl (f := fun s (c : Nat × Nat × Nat × Nat) => s.addCredits c.1 c.2.1 c.2.2.1 c.2.2.2)
    (fun s c h => memoriesWf_modEdge _ _ _ _ h) k.credits (memoriesWf_flushStreams (hd _ h2))
  unfold State.tick
  refine memoriesWf_foldl (fun _ _ h => memoriesWf_hostActs _ h) _ (memoriesWf_foldl (fun _ _ h => memoriesWf_spoil _ _ h) _ ?_)
  exact ⟨h3.1, h3.2.1, SMap_wf_puts k.host _ id h3.2.2.1, h3.2.2.2⟩

/-! Reading. -/

/-- A byte of V reads as written under the key it was written with, and as unpredictable under another (R169). -/
theorem homeByte_putByte_dev (s : State) (key k a : Nat) (v : W8) :
    (s.putByte true key a v).homeByte true a k = if key = k then some v else none := by
  simp [State.putByte, State.homeByte]

/-- A write of one byte of V leaves every other byte of V, and Y, as they were. -/
theorem homeByte_putByte_other {s : State} {a b : Nat} (key k : Nat) (v : W8) (dev : Bool) (h : b ≠ a ∨ dev = false) :
    (s.putByte true key a v).homeByte dev b k = s.homeByte dev b k := by
  rcases h with h | h
  · cases dev
    · rfl
    · simp [State.putByte, State.homeByte, SMap_find_put_other _ _ h]
  · subst h; rfl

/-- The log changes no byte. -/
@[simp] theorem homeByte_logV (s : State) (a n : Nat) (dev : Bool) (b k : Nat) : (s.logV a n).homeByte dev b k = s.homeByte dev b k := by
  unfold State.logV
  split <;> rfl

/-- Bytes before those written are as they were. -/
theorem homeByte_putAll_before (key k : Nat) (l : List W8) {s : State} {a b : Nat} (h : b < a) :
    (s.putAll true key a l).homeByte true b k = s.homeByte true b k := by
  induction l generalizing s a with
  | nil => rfl
  | cons v l ih =>
    show ((s.putByte true key a v).putAll true key (a + 1) l).homeByte true b k = _
    rw [ih (by omega), homeByte_putByte_other _ _ _ _ (.inl (by omega))]

/-- Bytes set one by one: byte i of them, and a byte beyond them. -/
theorem homeByte_putAll (key : Nat) (l : List W8) {s : State} (a i : Nat) :
    (s.putAll true key a l).homeByte true (a + i) key = if h : i < l.length then some l[i] else s.homeByte true (a + i) key := by
  induction l generalizing s a i with
  | nil => rfl
  | cons v l ih =>
    show ((s.putByte true key a v).putAll true key (a + 1) l).homeByte true (a + i) key = _
    cases i with
    | zero =>
      rw [homeByte_putAll_before _ _ _ (by omega)]
      simp [homeByte_putByte_dev]
    | succ i =>
      have := ih (s := s.putByte true key a v) (a + 1) i
      rw [show a + 1 + i = a + (i + 1) by omega] at this
      rw [this, homeByte_putByte_other _ _ _ _ (.inl (by omega))]
      simp

/-- Byte i of those written reads as written, and a byte beyond them as it was. -/
theorem homeByte_putBytes (key : Nat) (l : List W8) {s : State} (a i : Nat) :
    (s.putBytes true key a l).homeByte true (a + i) key = if h : i < l.length then some l[i] else s.homeByte true (a + i) key := by
  unfold State.putBytes
  rw [homeByte_putAll]
  split
  · rfl
  · split <;> simp

/-- Bytes before those written are as they were. -/
theorem homeByte_putBytes_before (key k : Nat) (l : List W8) {s : State} {a b : Nat} (h : b < a) :
    (s.putBytes true key a l).homeByte true b k = s.homeByte true b k := by
  unfold State.putBytes
  rw [homeByte_putAll_before key k l h]
  split <;> simp

end Sys2Proof.Machine
end

