-- ==== Sys2Proof/Laws/PerInstr.lean ====
section
/-! SUPPORT. The family Opcode, one lemma for each constructor: the opcode of an instruction form is assigned to an
instruction, whatever its other fields hold (R216 to R222); an event has no opcode. -/

namespace Sys2Proof.Laws.Opcode

open Sys2Proof Sys2Proof.Machine

/-- The opcode that the format table gives the instruction is one the decoder assigns. -/
def Statement (i : Instr) : Prop := ∀ r f, row i = some r → fields i = some f → select r.opc f ≠ none

/-- For an instruction form: from its table row. -/
theorem of_row {i : Instr} {r : Row} {f : Fields} (hr : row i = some r) (hf : fields i = some f)
    (h : select r.opc f ≠ none) : Statement i := by
  intro r' f' hr' hf'
  rw [hr] at hr'; rw [hf] at hf'
  cases hr'; cases hf'; exact h

/-- An opcode with several rows is assigned whichever row is chosen. -/
theorem cond_ne {c : Prop} [Decidable c] (a : Instr) {x y : Option Instr} (h : y = if c then some a else x)
    (hx : x ≠ none) : y ≠ none := by subst h; split <;> simp_all

/-- For an event. -/
theorem of_event {i : Instr} (h : row i = none) : Statement i := fun r _ hr => by rw [h] at hr; cases hr

theorem sadd (f : Fields) : Statement (.sadd f) := of_row rfl rfl (Option.some_ne_none _)
theorem ssub (f : Fields) : Statement (.ssub f) := of_row rfl rfl (Option.some_ne_none _)
theorem smul (f : Fields) : Statement (.smul f) := of_row rfl rfl (Option.some_ne_none _)
theorem smulh (f : Fields) : Statement (.smulh f) := of_row rfl rfl (Option.some_ne_none _)
theorem sdiv (f : Fields) : Statement (.sdiv f) := of_row rfl rfl (Option.some_ne_none _)
theorem srem (f : Fields) : Statement (.srem f) := of_row rfl rfl (Option.some_ne_none _)
theorem sand (f : Fields) : Statement (.sand f) := of_row rfl rfl (Option.some_ne_none _)
theorem sor (f : Fields) : Statement (.sor f) := of_row rfl rfl (Option.some_ne_none _)
theorem sxor (f : Fields) : Statement (.sxor f) := of_row rfl rfl (Option.some_ne_none _)
theorem sshl (f : Fields) : Statement (.sshl f) := of_row rfl rfl (Option.some_ne_none _)
theorem sshr (f : Fields) : Statement (.sshr f) := of_row rfl rfl (Option.some_ne_none _)
theorem ssra (f : Fields) : Statement (.ssra f) := of_row rfl rfl (Option.some_ne_none _)
theorem smin (f : Fields) : Statement (.smin f) := of_row rfl rfl (Option.some_ne_none _)
theorem smax (f : Fields) : Statement (.smax f) := of_row rfl rfl (Option.some_ne_none _)
theorem scmp (f : Fields) : Statement (.scmp f) := of_row rfl rfl (Option.some_ne_none _)
theorem ssel (f : Fields) : Statement (.ssel f) := of_row rfl rfl (Option.some_ne_none _)
theorem smov (f : Fields) : Statement (.smov f) := of_row rfl rfl (Option.some_ne_none _)
theorem sli (f : Fields) : Statement (.sli f) := of_row rfl rfl (cond_ne _ rfl (Option.some_ne_none _))
theorem sliHi (f : Fields) : Statement (.sliHi f) := of_row rfl rfl (cond_ne _ rfl (Option.some_ne_none _))
theorem sclz (f : Fields) : Statement (.sclz f) := of_row rfl rfl (Option.some_ne_none _)
theorem spopc (f : Fields) : Statement (.spopc f) := of_row rfl rfl (Option.some_ne_none _)
theorem sbfx (f : Fields) : Statement (.sbfx f) := of_row rfl rfl (Option.some_ne_none _)
theorem sbfi (f : Fields) : Statement (.sbfi f) := of_row rfl rfl (Option.some_ne_none _)
theorem saddr (f : Fields) : Statement (.saddr f) := of_row rfl rfl (Option.some_ne_none _)
theorem bra (f : Fields) : Statement (.bra f) := of_row rfl rfl (Option.some_ne_none _)
theorem bz (f : Fields) : Statement (.bz f) := of_row rfl rfl (Option.some_ne_none _)
theorem bnz (f : Fields) : Statement (.bnz f) := of_row rfl rfl (Option.some_ne_none _)
theorem bexz (f : Fields) : Statement (.bexz f) := of_row rfl rfl (Option.some_ne_none _)
theorem call (f : Fields) : Statement (.call f) := of_row rfl rfl (Option.some_ne_none _)
theorem jmp (f : Fields) : Statement (.jmp f) := of_row rfl rfl (cond_ne _ rfl (Option.some_ne_none _))
theorem jmpLink (f : Fields) : Statement (.jmpLink f) := of_row rfl rfl (cond_ne _ rfl (Option.some_ne_none _))
theorem ret (f : Fields) : Statement (.ret f) := of_row rfl rfl (Option.some_ne_none _)
theorem mand (f : Fields) : Statement (.mand f) := of_row rfl rfl (Option.some_ne_none _)
theorem mset (f : Fields) : Statement (.mset f) := of_row rfl rfl (Option.some_ne_none _)
theorem mget (f : Fields) : Statement (.mget f) := of_row rfl rfl (Option.some_ne_none _)
theorem mandn (f : Fields) : Statement (.mandn f) := of_row rfl rfl (Option.some_ne_none _)
theorem pmovToScalar (f : Fields) : Statement (.pmovToScalar f) := of_row rfl rfl (cond_ne _ rfl (Option.some_ne_none _))
theorem pmovToPredicate (f : Fields) : Statement (.pmovToPredicate f) := of_row rfl rfl (cond_ne _ rfl (Option.some_ne_none _))
theorem plog (f : Fields) : Statement (.plog f) := of_row rfl rfl (Option.some_ne_none _)
theorem nop (f : Fields) : Statement (.nop f) := of_row rfl rfl (Option.some_ne_none _)
theorem endW (f : Fields) : Statement (.endW f) := of_row rfl rfl (Option.some_ne_none _)
theorem yield (f : Fields) : Statement (.yield f) := of_row rfl rfl (Option.some_ne_none _)
theorem pause (f : Fields) : Statement (.pause f) := of_row rfl rfl (Option.some_ne_none _)
theorem pauseEnd (wg w : Nat) : Statement (.pauseEnd wg w) := of_event rfl
theorem cyc (f : Fields) : Statement (.cyc f) := of_row rfl rfl (Option.some_ne_none _)
theorem trapI (f : Fields) : Statement (.trapI f) := of_row rfl rfl (Option.some_ne_none _)
theorem brk (f : Fields) : Statement (.brk f) := of_row rfl rfl (Option.some_ne_none _)
theorem rte (f : Fields) : Statement (.rte f) := of_row rfl rfl (Option.some_ne_none _)
theorem rqrd (f : Fields) : Statement (.rqrd f) := of_row rfl rfl (Option.some_ne_none _)
theorem rqwr (f : Fields) : Statement (.rqwr f) := of_row rfl rfl (Option.some_ne_none _)
theorem rqdrop (f : Fields) : Statement (.rqdrop f) := of_row rfl rfl (Option.some_ne_none _)
theorem csrr (f : Fields) : Statement (.csrr f) := of_row rfl rfl (cond_ne _ rfl (Option.some_ne_none _))
theorem csrw (f : Fields) : Statement (.csrw f) := of_row rfl rfl (cond_ne _ rfl (cond_ne _ rfl (cond_ne _ rfl (Option.some_ne_none _))))
theorem hwait (f : Fields) : Statement (.hwait f) := of_row rfl rfl (Option.some_ne_none _)
theorem htest (f : Fields) : Statement (.htest f) := of_row rfl rfl (Option.some_ne_none _)
theorem hcancel (f : Fields) : Statement (.hcancel f) := of_row rfl rfl (Option.some_ne_none _)
theorem hbind (f : Fields) : Statement (.hbind f) := of_row rfl rfl (Option.some_ne_none _)
theorem getid (f : Fields) : Statement (.getid f) := of_row rfl rfl (Option.some_ne_none _)
theorem sprio (f : Fields) : Statement (.sprio f) := of_row rfl rfl (Option.some_ne_none _)
theorem vadd (f : Fields) : Statement (.vadd f) := of_row rfl rfl (Option.some_ne_none _)
theorem vsub (f : Fields) : Statement (.vsub f) := of_row rfl rfl (Option.some_ne_none _)
theorem vmul (f : Fields) : Statement (.vmul f) := of_row rfl rfl (Option.some_ne_none _)
theorem vfma (f : Fields) : Statement (.vfma f) := of_row rfl rfl (Option.some_ne_none _)
theorem vmin (f : Fields) : Statement (.vmin f) := of_row rfl rfl (Option.some_ne_none _)
theorem vmax (f : Fields) : Statement (.vmax f) := of_row rfl rfl (Option.some_ne_none _)
theorem vabs (f : Fields) : Statement (.vabs f) := of_row rfl rfl (Option.some_ne_none _)
theorem vneg (f : Fields) : Statement (.vneg f) := of_row rfl rfl (Option.some_ne_none _)
theorem vand (f : Fields) : Statement (.vand f) := of_row rfl rfl (Option.some_ne_none _)
theorem vor (f : Fields) : Statement (.vor f) := of_row rfl rfl (Option.some_ne_none _)
theorem vxor (f : Fields) : Statement (.vxor f) := of_row rfl rfl (Option.some_ne_none _)
theorem vnot (f : Fields) : Statement (.vnot f) := of_row rfl rfl (Option.some_ne_none _)
theorem vshl (f : Fields) : Statement (.vshl f) := of_row rfl rfl (Option.some_ne_none _)
theorem vshr (f : Fields) : Statement (.vshr f) := of_row rfl rfl (Option.some_ne_none _)
theorem vsra (f : Fields) : Statement (.vsra f) := of_row rfl rfl (Option.some_ne_none _)
theorem vcmp (f : Fields) : Statement (.vcmp f) := of_row rfl rfl (Option.some_ne_none _)
theorem vsel (f : Fields) : Statement (.vsel f) := of_row rfl rfl (Option.some_ne_none _)
theorem vmov (f : Fields) : Statement (.vmov f) := of_row rfl rfl (Option.some_ne_none _)
theorem vbcast (f : Fields) : Statement (.vbcast f) := of_row rfl rfl (Option.some_ne_none _)
theorem vcvt (f : Fields) : Statement (.vcvt f) := of_row rfl rfl (Option.some_ne_none _)
theorem vrcp (f : Fields) : Statement (.vrcp f) := of_row rfl rfl (Option.some_ne_none _)
theorem vrsq (f : Fields) : Statement (.vrsq f) := of_row rfl rfl (Option.some_ne_none _)
theorem vsqrt (f : Fields) : Statement (.vsqrt f) := of_row rfl rfl (Option.some_ne_none _)
theorem vexp2 (f : Fields) : Statement (.vexp2 f) := of_row rfl rfl (Option.some_ne_none _)
theorem vlog2 (f : Fields) : Statement (.vlog2 f) := of_row rfl rfl (Option.some_ne_none _)
theorem vsinpi (f : Fields) : Statement (.vsinpi f) := of_row rfl rfl (Option.some_ne_none _)
theorem vcospi (f : Fields) : Statement (.vcospi f) := of_row rfl rfl (Option.some_ne_none _)
theorem vdiv (f : Fields) : Statement (.vdiv f) := of_row rfl rfl (Option.some_ne_none _)
theorem vclz (f : Fields) : Statement (.vclz f) := of_row rfl rfl (Option.some_ne_none _)
theorem vpopc (f : Fields) : Statement (.vpopc f) := of_row rfl rfl (Option.some_ne_none _)
theorem vbfx (f : Fields) : Statement (.vbfx f) := of_row rfl rfl (Option.some_ne_none _)
theorem vbfi (f : Fields) : Statement (.vbfi f) := of_row rfl rfl (Option.some_ne_none _)
theorem vshfl (f : Fields) : Statement (.vshfl f) := of_row rfl rfl (Option.some_ne_none _)
theorem vvoteBallot (f : Fields) : Statement (.vvoteBallot f) := of_row rfl rfl (cond_ne _ rfl (cond_ne _ rfl (Option.some_ne_none _)))
theorem vvoteAny (f : Fields) : Statement (.vvoteAny f) := of_row rfl rfl (cond_ne _ rfl (cond_ne _ rfl (Option.some_ne_none _)))
theorem vvoteAll (f : Fields) : Statement (.vvoteAll f) := of_row rfl rfl (cond_ne _ rfl (cond_ne _ rfl (Option.some_ne_none _)))
theorem vred (f : Fields) : Statement (.vred f) := of_row rfl rfl (Option.some_ne_none _)
theorem vdot4 (f : Fields) : Statement (.vdot4 f) := of_row rfl rfl (Option.some_ne_none _)
theorem vmulhi (f : Fields) : Statement (.vmulhi f) := of_row rfl rfl (Option.some_ne_none _)
theorem vpack (f : Fields) : Statement (.vpack f) := of_row rfl rfl (Option.some_ne_none _)
theorem vunpack (f : Fields) : Statement (.vunpack f) := of_row rfl rfl (Option.some_ne_none _)
theorem ld (f : Fields) : Statement (.ld f) := of_row rfl rfl (Option.some_ne_none _)
theorem st (f : Fields) : Statement (.st f) := of_row rfl rfl (Option.some_ne_none _)
theorem lds (f : Fields) : Statement (.lds f) := of_row rfl rfl (Option.some_ne_none _)
theorem sts (f : Fields) : Statement (.sts f) := of_row rfl rfl (Option.some_ne_none _)
theorem ldl (f : Fields) : Statement (.ldl f) := of_row rfl rfl (Option.some_ne_none _)
theorem stl (f : Fields) : Statement (.stl f) := of_row rfl rfl (Option.some_ne_none _)
theorem ldp (f : Fields) : Statement (.ldp f) := of_row rfl rfl (Option.some_ne_none _)
theorem stp (f : Fields) : Statement (.stp f) := of_row rfl rfl (Option.some_ne_none _)
theorem atom (f : Fields) : Statement (.atom f) := of_row rfl rfl (Option.some_ne_none _)
theorem atoms (f : Fields) : Statement (.atoms f) := of_row rfl rfl (Option.some_ne_none _)
theorem fenceAcq (f : Fields) : Statement (.fenceAcq f) := of_row rfl rfl (cond_ne _ rfl (cond_ne _ rfl (Option.some_ne_none _)))
theorem fenceRel (f : Fields) : Statement (.fenceRel f) := of_row rfl rfl (cond_ne _ rfl (cond_ne _ rfl (Option.some_ne_none _)))
theorem fenceAr (f : Fields) : Statement (.fenceAr f) := of_row rfl rfl (cond_ne _ rfl (cond_ne _ rfl (Option.some_ne_none _)))
theorem copy (f : Fields) : Statement (.copy f) := of_row rfl rfl (Option.some_ne_none _)
theorem cbatch (f : Fields) : Statement (.cbatch f) := of_row rfl rfl (Option.some_ne_none _)
theorem cwait (f : Fields) : Statement (.cwait f) := of_row rfl rfl (Option.some_ne_none _)
theorem pref (f : Fields) : Statement (.pref f) := of_row rfl rfl (Option.some_ne_none _)
theorem cflush (f : Fields) : Statement (.cflush f) := of_row rfl rfl (Option.some_ne_none _)
theorem bar (f : Fields) : Statement (.bar f) := of_row rfl rfl (Option.some_ne_none _)
theorem sbarExpect (f : Fields) : Statement (.sbarExpect f) := of_row rfl rfl (cond_ne _ rfl (cond_ne _ rfl (Option.some_ne_none _)))
theorem sbarArr (f : Fields) : Statement (.sbarArr f) := of_row rfl rfl (cond_ne _ rfl (cond_ne _ rfl (Option.some_ne_none _)))
theorem sbarReset (f : Fields) : Statement (.sbarReset f) := of_row rfl rfl (cond_ne _ rfl (cond_ne _ rfl (Option.some_ne_none _)))
theorem resq (f : Fields) : Statement (.resq f) := of_row rfl rfl (Option.some_ne_none _)
theorem resfence (f : Fields) : Statement (.resfence f) := of_row rfl rfl (Option.some_ne_none _)
theorem tshape (f : Fields) : Statement (.tshape f) := of_row rfl rfl (cond_ne _ rfl (Option.some_ne_none _))
theorem tshapeSoff (f : Fields) : Statement (.tshapeSoff f) := of_row rfl rfl (cond_ne _ rfl (Option.some_ne_none _))
theorem tld (f : Fields) : Statement (.tld f) := of_row rfl rfl (Option.some_ne_none _)
theorem tst (f : Fields) : Statement (.tst f) := of_row rfl rfl (Option.some_ne_none _)
theorem tzero (f : Fields) : Statement (.tzero f) := of_row rfl rfl (Option.some_ne_none _)
theorem tcvt (f : Fields) : Statement (.tcvt f) := of_row rfl rfl (Option.some_ne_none _)
theorem mma (f : Fields) : Statement (.mma f) := of_row rfl rfl (Option.some_ne_none _)
theorem oprdy (f : Fields) : Statement (.oprdy f) := of_row rfl rfl (Option.some_ne_none _)
theorem azero (f : Fields) : Statement (.azero f) := of_row rfl rfl (Option.some_ne_none _)
theorem ald (f : Fields) : Statement (.ald f) := of_row rfl rfl (Option.some_ne_none _)
theorem ast (f : Fields) : Statement (.ast f) := of_row rfl rfl (Option.some_ne_none _)
theorem adrain (f : Fields) : Statement (.adrain f) := of_row rfl rfl (Option.some_ne_none _)
theorem qst (f : Fields) : Statement (.qst f) := of_row rfl rfl (Option.some_ne_none _)
theorem cyld (f : Fields) : Statement (.cyld f) := of_row rfl rfl (Option.some_ne_none _)
theorem cyst (f : Fields) : Statement (.cyst f) := of_row rfl rfl (Option.some_ne_none _)
theorem cyzero (f : Fields) : Statement (.cyzero f) := of_row rfl rfl (Option.some_ne_none _)
theorem mlease (f : Fields) : Statement (.mlease f) := of_row rfl rfl (Option.some_ne_none _)
theorem gang (f : Fields) : Statement (.gang f) := of_row rfl rfl (Option.some_ne_none _)
theorem tmov (f : Fields) : Statement (.tmov f) := of_row rfl rfl (Option.some_ne_none _)
theorem ttrans (f : Fields) : Statement (.ttrans f) := of_row rfl rfl (Option.some_ne_none _)
theorem emit (f : Fields) : Statement (.emit f) := of_row rfl rfl (Option.some_ne_none _)
theorem eclose (f : Fields) : Statement (.eclose f) := of_row rfl rfl (Option.some_ne_none _)
theorem recv (f : Fields) : Statement (.recv f) := of_row rfl rfl (Option.some_ne_none _)
theorem rrel (f : Fields) : Statement (.rrel f) := of_row rfl rfl (Option.some_ne_none _)
theorem launch (f : Fields) : Statement (.launch f) := of_row rfl rfl (Option.some_ne_none _)
theorem depdec (f : Fields) : Statement (.depdec f) := of_row rfl rfl (Option.some_ne_none _)
theorem gcut (f : Fields) : Statement (.gcut f) := of_row rfl rfl (Option.some_ne_none _)
theorem gstatCut (f : Fields) : Statement (.gstatCut f) := of_row rfl rfl (cond_ne _ rfl (cond_ne _ rfl (cond_ne _ rfl (Option.some_ne_none _))))
theorem gstatFrom (f : Fields) : Statement (.gstatFrom f) := of_row rfl rfl (cond_ne _ rfl (cond_ne _ rfl (cond_ne _ rfl (Option.some_ne_none _))))
theorem gstatCur (f : Fields) : Statement (.gstatCur f) := of_row rfl rfl (cond_ne _ rfl (cond_ne _ rfl (cond_ne _ rfl (Option.some_ne_none _))))
theorem gstatMoving (f : Fields) : Statement (.gstatMoving f) := of_row rfl rfl (cond_ne _ rfl (cond_ne _ rfl (cond_ne _ rfl (Option.some_ne_none _))))
theorem sample (f : Fields) : Statement (.sample f) := of_row rfl rfl (Option.some_ne_none _)
theorem sgrad (f : Fields) : Statement (.sgrad f) := of_row rfl rfl (Option.some_ne_none _)
theorem gath4 (f : Fields) : Statement (.gath4 f) := of_row rfl rfl (Option.some_ne_none _)
theorem raybox (f : Fields) : Statement (.raybox f) := of_row rfl rfl (Option.some_ne_none _)
theorem raytri (f : Fields) : Statement (.raytri f) := of_row rfl rfl (Option.some_ne_none _)
theorem rayxf (f : Fields) : Statement (.rayxf f) := of_row rfl rfl (Option.some_ne_none _)
theorem interp (f : Fields) : Statement (.interp f) := of_row rfl rfl (Option.some_ne_none _)
theorem meshv (f : Fields) : Statement (.meshv f) := of_row rfl rfl (Option.some_ne_none _)
theorem meshp (f : Fields) : Statement (.meshp f) := of_row rfl rfl (Option.some_ne_none _)
theorem meshnV (f : Fields) : Statement (.meshnV f) := of_row rfl rfl (cond_ne _ rfl (Option.some_ne_none _))
theorem meshnP (f : Fields) : Statement (.meshnP f) := of_row rfl rfl (cond_ne _ rfl (Option.some_ne_none _))
theorem ordb (f : Fields) : Statement (.ordb f) := of_row rfl rfl (Option.some_ne_none _)
theorem orde (f : Fields) : Statement (.orde f) := of_row rfl rfl (Option.some_ne_none _)
theorem rtwr (f : Fields) : Statement (.rtwr f) := of_row rfl rfl (Option.some_ne_none _)
theorem rtrd (f : Fields) : Statement (.rtrd f) := of_row rfl rfl (Option.some_ne_none _)
theorem kill (f : Fields) : Statement (.kill f) := of_row rfl rfl (Option.some_ne_none _)
theorem rate (f : Fields) : Statement (.rate f) := of_row rfl rfl (Option.some_ne_none _)
theorem moduleReset (fw : Firmware) : Statement (.moduleReset fw) := of_event rfl
theorem contextCreate (tag group : Nat) : Statement (.contextCreate tag group) := of_event rfl
theorem longLatencyFill (wg w op : Nat) : Statement (.longLatencyFill wg w op) := of_event rfl
theorem handleComplete (core slot : Nat) : Statement (.handleComplete core slot) := of_event rfl
theorem pollReexamine (sub : Nat) : Statement (.pollReexamine sub) := of_event rfl
theorem exchangePeriodic (sub : Nat) : Statement (.exchangePeriodic sub) := of_event rfl
theorem activeSetFill (sub : Nat) : Statement (.activeSetFill sub) := of_event rfl
theorem exchangeComplete (sub : Nat) : Statement (.exchangeComplete sub) := of_event rfl
theorem warpIssue (sub : Nat) : Statement (.warpIssue sub) := of_event rfl
theorem workgroupStart (die : Nat) : Statement (.workgroupStart die) := of_event rfl
theorem workgroupEnd (wg : Nat) : Statement (.workgroupEnd wg) := of_event rfl
theorem launchAdmit (ctx q : Nat) : Statement (.launchAdmit ctx q) := of_event rfl
theorem launchBufferAppend (core : Nat) : Statement (.launchBufferAppend core) := of_event rfl
theorem waitRecordRetest (die pos : Nat) : Statement (.waitRecordRetest die pos) := of_event rfl
theorem notifyDoorbellWrite (ctx q : Nat) (w : BitVec 32) : Statement (.notifyDoorbellWrite ctx q w) := of_event rfl
theorem notifyDoorbellRead (ctx q : Nat) : Statement (.notifyDoorbellRead ctx q) := of_event rfl
theorem consumerLaunch (ctx graph edge : Nat) (frame : BitVec 32) : Statement (.consumerLaunch ctx graph edge frame) := of_event rfl
theorem rollCallTimeout (core latch : Nat) : Statement (.rollCallTimeout core latch) := of_event rfl
theorem hallPassIdleRelease (core : Nat) : Statement (.hallPassIdleRelease core) := of_event rfl
theorem mmaArrayIssue (core op : Nat) : Statement (.mmaArrayIssue core op) := of_event rfl
theorem mmaRetire (core op : Nat) (mismatch : Bool) : Statement (.mmaRetire core op mismatch) := of_event rfl
theorem barrierReleaseWave (wg bar : Nat) : Statement (.barrierReleaseWave wg bar) := of_event rfl
theorem sbarTimeout (wg bar : Nat) : Statement (.sbarTimeout wg bar) := of_event rfl
theorem engineAccess (core op unit copies : Nat) : Statement (.engineAccess core op unit copies) := of_event rfl
theorem engineOpComplete (core op : Nat) : Statement (.engineOpComplete core op) := of_event rfl
theorem iqPerform (wg w op unit copies : Nat) : Statement (.iqPerform wg w op unit copies) := of_event rfl
theorem storeDrain (buf pos : Nat) : Statement (.storeDrain buf pos) := of_event rfl
theorem copyEntryDiscard (buf pos : Nat) : Statement (.copyEntryDiscard buf pos) := of_event rfl
theorem rtDrain (die pos : Nat) : Statement (.rtDrain die pos) := of_event rfl
theorem migRetry (wg w : Nat) : Statement (.migRetry wg w) := of_event rfl
theorem tlbInv (f : Fields) : Statement (.tlbInv f) := of_row rfl rfl (cond_ne _ rfl (cond_ne _ rfl (cond_ne _ rfl (Option.some_ne_none _))))
theorem hostIrq (f : Fields) : Statement (.hostIrq f) := of_row rfl rfl (cond_ne _ rfl (cond_ne _ rfl (cond_ne _ rfl (Option.some_ne_none _))))
theorem fbCtlWrite (f : Fields) : Statement (.fbCtlWrite f) := of_row rfl rfl (cond_ne _ rfl (cond_ne _ rfl (cond_ne _ rfl (Option.some_ne_none _))))
theorem sweepPop (f : Fields) : Statement (.sweepPop f) := of_row rfl rfl (cond_ne _ rfl (Option.some_ne_none _))
theorem sweeperStep (die : Nat) : Statement (.sweeperStep die) := of_event rfl
theorem preemptRequestTimeslice (wg : Nat) : Statement (.preemptRequestTimeslice wg) := of_event rfl
theorem preemptRequestHost (wg : Nat) : Statement (.preemptRequestHost wg) := of_event rfl
theorem preemptGraceExpiry (wg : Nat) : Statement (.preemptGraceExpiry wg) := of_event rfl
theorem eviction (wg : Nat) : Statement (.eviction wg) := of_event rfl
theorem restore (wg : Nat) (damaged : Bool) : Statement (.restore wg damaged) := of_event rfl
theorem contextRemoval (ctx : Nat) : Statement (.contextRemoval ctx) := of_event rfl
theorem hostRemoveContext (ctx : Nat) (grace : Bool) : Statement (.hostRemoveContext ctx grace) := of_event rfl
theorem encoderSend (ctx graph edge : Nat) : Statement (.encoderSend ctx graph edge) := of_event rfl
theorem encoderFlushTimeout (ctx graph edge : Nat) : Statement (.encoderFlushTimeout ctx graph edge) := of_event rfl
theorem causewayDatagramReceive (d : Datagram) : Statement (.causewayDatagramReceive d) := of_event rfl
theorem windowTimeout (ctx graph edge : Nat) : Statement (.windowTimeout ctx graph edge) := of_event rfl
theorem overflowToRing (ctx graph edge : Nat) : Statement (.overflowToRing ctx graph edge) := of_event rfl
theorem reliableDatagramReceive (d : Datagram) : Statement (.reliableDatagramReceive d) := of_event rfl
theorem ackDelayTimeout (ctx peer : Nat) : Statement (.ackDelayTimeout ctx peer) := of_event rfl
theorem retransmitTimeout (ctx peer : Nat) : Statement (.retransmitTimeout ctx peer) := of_event rfl
theorem receiverUnreachableTimeout (ctx peer : Nat) : Statement (.receiverUnreachableTimeout ctx peer) := of_event rfl
theorem satchelSnapshot (ctx graph stage : Nat) : Statement (.satchelSnapshot ctx graph stage) := of_event rfl
theorem satchelDeadlineExpiry (ctx graph stage : Nat) : Statement (.satchelDeadlineExpiry ctx graph stage) := of_event rfl
theorem mwinKeyWrite (v : W64) : Statement (.mwinKeyWrite v) := of_event rfl
theorem hostEvt : Statement .hostEvt := of_event rfl
theorem hostAtomicCompletion (wg w op unit : Nat) (st : HostStatus) : Statement (.hostAtomicCompletion wg w op unit st) := of_event rfl
theorem hostReadCompletion (wg w op unit : Nat) (st : HostStatus) : Statement (.hostReadCompletion wg w op unit st) := of_event rfl
theorem hostCsrWrite (off : Nat) (v : W64) : Statement (.hostCsrWrite off v) := of_event rfl
theorem controlInterval (m : Measure) : Statement (.controlInterval m) := of_event rfl
theorem railRampReached (cluster : Nat) : Statement (.railRampReached cluster) := of_event rfl
theorem currentSample (cluster : Nat) (code : BitVec 12) : Statement (.currentSample cluster code) := of_event rfl
theorem wearUpdate (cluster : Nat) (months : BitVec 12) : Statement (.wearUpdate cluster months) := of_event rfl
theorem attestGo (v : W64) : Statement (.attestGo v) := of_event rfl
theorem attestReportDone : Statement .attestReportDone := of_event rfl
theorem hostLinkError (ctx : Nat) : Statement (.hostLinkError ctx) := of_event rfl
theorem rejectsWrite (ctx q : Nat) (v : BitVec 32) : Statement (.rejectsWrite ctx q v) := of_event rfl
theorem deviceControl2Write (v : BitVec 16) : Statement (.deviceControl2Write v) := of_event rfl
theorem msixVectorUnmask (vec : Nat) : Statement (.msixVectorUnmask vec) := of_event rfl
theorem bar2MemoryAccess (off len : Nat) (write : Option (List W8)) : Statement (.bar2MemoryAccess off len write) := of_event rfl

end Sys2Proof.Laws.Opcode
end

