-- ==== Sys2Proof/Laws/Schedule.lean ====
section
/-! SUPPORT. What the scheduler's shared operations can do: parking a warp, and setting the clusters' targets. -/

namespace Sys2Proof.Machine

/-- Every instruction but `emit` has the row of the opcode map. -/
theorem rowOf_eq_row {s : State} {g : Nat} {i : Instr} (h : ∀ f, i ≠ .emit f) : s.rowOf g i = row i := by
  unfold State.rowOf
  split
  · exact absurd rfl (h _)
  · rfl

/-- A wait that takes no entry of the cloakroom holds the warp where it stands (R121). -/
theorem park_stays {s : State} {ws : List Wait} (g w : Nat) (h : ws.all Wait.parks = false) :
    s.park g w ws = s.modWarp g w fun x => { x with parked := ws, waits := ws, poll := false } := by
  simp [State.park, h]

/-- A pending warp whose conditions find room parks on the first four of them, and nothing else changes (R32). -/
theorem park_pending {s : State} {ws : List Wait} (g w : Nat) (h : ws.all Wait.parks = true) (hc : s.cloakUsed (s.subOf g w) + min 4 ws.length ≤ 32)
    (ha : (s.warp g w).active = false) : s.park g w ws = s.modWarp g w fun x => { x with parked := ws.take 4, waits := ws, poll := false } := by
  simp [State.park, h, hc, ha]

/-- Setting a cluster's target changes that cluster alone, and gives it the level that R351 asks for. -/
theorem retarget_spec (s : State) (c : Nat) :
    { s.retarget c with clusters := s.clusters } = s ∧ ((s.retarget c).cluster c).target = s.target c
      ∧ ∀ j, j ≠ c → (s.retarget c).cluster j = s.cluster j := by
  refine ⟨rfl, ?_, fun j h => cluster_modCluster_other _ h⟩
  unfold State.retarget
  rw [cluster_modCluster_same]
  rfl

/-- Setting the targets of all clusters changes nothing but clusters. -/
theorem retargetAll_rest (s : State) : { s.retargetAll with clusters := s.clusters } = s := by
  suffices h : ∀ (l : List Nat) (u : State), { u with clusters := s.clusters } = s → { l.foldl (fun s c => s.retarget c) u with clusters := s.clusters } = s from h _ _ rfl
  intro l
  induction l with
  | nil => exact fun _ h => h
  | cons c l ih => exact fun u h => ih _ h

/-- A target depends on no cluster. -/
theorem target_retarget (s : State) (c j : Nat) : (s.retarget c).target j = s.target j := rfl

end Sys2Proof.Machine
end

