-- ==== Sys2Proof/Laws/Traps.lean ====
section
/-! SUPPORT. What the shared operations on a warp can do: taking a trap, returning from one, a fatal cause, a handle slot taken or
completed, an operation that joins the unfinished ones, a host event. -/

namespace Sys2Proof.Machine

/-- A fatal cause marks a context that is not marked yet, and changes nothing else (R193). -/
theorem kill_spec (s : State) (t : Nat) (c inner : Cause) (warp : Option (Nat × Nat)) (pc : W64) (x : Context) (h : SMap.find t s.ctxs = some x) :
    SMap.find t (s.kill t c inner warp pc).ctxs = some (if x.dying.isSome then x else { x with dying := some c, inner := inner, dyingWarp := warp, dyingPc := pc })
      ∧ (∀ u, u ≠ t → SMap.find u (s.kill t c inner warp pc).ctxs = SMap.find u s.ctxs) ∧ { s.kill t c inner warp pc with ctxs := s.ctxs } = s := by
  unfold State.kill State.modCtx
  simp only [h]
  exact ⟨SMap_find_put_same _ _ _, fun u hu => SMap_find_put_other _ _ hu, trivial⟩

/-- A trap while the warp is in trap mode removes the context with 0x1A (R192). -/
theorem trap_double {s : State} {g w : Nat} (i : TrapInfo) (h : (s.warp g w).tm = true) :
    s.trap g w i = { s.kill (s.wg g).ctx 0x1A i.cause (some (g, w)) (s.warp g w).tpc with cur := none } := by
  simp [State.trap, h]

/-- A warp without unfinished instructions gives no slot back. -/
theorem freeDrained_none {s : State} {g w : Nat} (h : (s.warp g w).ops = []) : s.freeDrained g w = s := by
  simp [State.freeDrained, h]

/-- A trap of a warp without unfinished instructions, outside trap mode, with a handler and a cause that does not halt the workgroup:
the warp goes on at its handler with its frame, and nothing else changes (R185, R187). -/
theorem trap_spec {s : State} {g w : Nat} (i : TrapInfo) (hg : s.hasWg g = true) (hw : w < (s.wg g).warps.length) (htm : (s.warp g w).tm = false)
    (hops : (s.warp g w).ops = []) (hno : (s.warp g w).trapping = none) (hv : (s.cctx (s.wg g).ctx 0x100).getLsbD 0 = true)
    (hd : isDebug i.cause = false ∨ (s.cctx (s.wg g).ctx 0x117).getLsbD 0 = false) :
    (s.trap g w i).warp g w = (s.warp g w).enterTrap i (s.cctx (s.wg g).ctx 0x100 &&& 0x00FFFFFFFFFFFFFC)
      ∧ (s.trap g w i).cur = none ∧ { s.trap g w i with wgs := s.wgs, cur := s.cur } = s
      ∧ (∀ v, v ≠ w → (s.trap g w i).warp g v = s.warp g v) ∧ ∀ j, j ≠ g → SMap.find j (s.trap g w i).wgs = SMap.find j s.wgs := by
  have hh : (isDebug i.cause && (s.cctx (s.wg g).ctx 0x117).getLsbD 0) = false := by
    rcases hd with h | h <;> rw [h] <;> cases isDebug i.cause <;> rfl
  have ht : s.trap g w i = { s.modWarp g w (fun x => x.enterTrap i (s.cctx (s.wg g).ctx 0x100 &&& 0x00FFFFFFFFFFFFFC)) with cur := none } := by
    unfold State.trap State.enter
    simp only [htm, hno, hops, List.any_nil, Option.isSome_none, freeDrained_none hops, hh, hv, Bool.false_eq_true, if_false, if_true]
  rw [ht]
  refine ⟨warp_modWarp_same _ hg hw, rfl, ?_, fun v hv => warp_modWarp_other _ hv hg, fun j hj => find_modWg_other _ hj⟩
  exact congrArg (fun t : State => { t with cur := s.cur }) (modWg_rest s g _)

/-- A trap of a warp with values on their way, outside trap mode and with no trap waiting already: the warp stops, keeping its
registers and its queue, and the trap waits (R185 step 2, log 11). -/
theorem trap_waits {s : State} {g w : Nat} (i : TrapInfo) (hg : s.hasWg g = true) (hw : w < (s.wg g).warps.length) (htm : (s.warp g w).tm = false)
    (hno : (s.warp g w).trapping = none) (hops : (s.warp g w).ops.any Op.onItsWay = true) :
    (s.trap g w i).warp g w = { s.warp g w with trapping := some i, parked := [], waits := [], poll := false, blocked := none }
      ∧ (s.trap g w i).cur = none ∧ { s.trap g w i with wgs := s.wgs, cur := s.cur } = s := by
  have ht : s.trap g w i = { s.modWarp g w (fun x => { x with trapping := some i, parked := [], waits := [], poll := false, blocked := none }) with cur := none } := by
    simp [State.trap, htm, hno, hops]
  rw [ht]
  exact ⟨warp_modWarp_same _ hg hw, rfl, congrArg (fun t : State => { t with cur := s.cur }) (modWg_rest s g _)⟩

/-- The arrival of a value leaves a warp that no trap holds as it is; one whose trap waits enters it with the last value. -/
theorem arrived_spec (s : State) (g w : Nat) :
    s.arrived g w = match (s.warp g w).trapping with
      | some i => if (s.warp g w).ops.any Op.onItsWay then s else { s.enter g w i with cur := s.cur }
      | none => s := rfl

/-- The frame of a trap of a warp without unfinished instructions (R187): its queue is the trapping instruction and those behind it. -/
theorem enterTrap_spec (x : Warp) (i : TrapInfo) (entry : W64) (h : x.ops = []) :
    x.enterTrap i entry = { i.holds.foldl Warp.markEmpty x with
      replay := i.cap.toList ++ i.rest, reissue := [], tcause := i.cause, tasync := i.async, tpc := i.tpc, trpc := i.trpc, taddr := i.addr
      tmask := i.mask, taux := i.aux, texec := x.exec, tm := true, ih := true, pc := entry, rewritten := [], trapping := none, parked := [], waits := [], poll := false, blocked := none
      noBp := false, stepped := false } := by
  simp [Warp.enterTrap, h]

/-- `rte` with a changed entry removes the context with 0x1C (R191). -/
theorem returnFromTrap_bad {s : State} {g w : Nat} (h : (s.warp g w).replay.all Issued.intact = false) :
    s.returnFromTrap g w = { s.kill (s.wg g).ctx 0x1C 0 (some (g, w)) (s.warp g w).tpc with cur := none } := by
  simp [State.returnFromTrap, h]

/-- `rte` with entries as captured, in a workgroup that the warp has not halted: the warp goes on at `trpc` with `texec`, out of trap mode
and without privilege, its entries to be re-issued; nothing else changes (R191). -/
theorem returnFromTrap_spec {s : State} {g w : Nat} (hg : s.hasWg g = true) (hw : w < (s.wg g).warps.length)
    (h : (s.warp g w).replay.all Issued.intact = true) (hh : (s.wg g).halt ≠ some w) :
    let x := s.warp g w
    (s.returnFromTrap g w).warp g w = { x with exec := x.texec, tm := false, ih := false, reissue := x.replay, replay := [], rewritten := [], pc := x.trpc, noBp := true
                                               lastAt := s.now g, aged := 0, stepped := false }
      ∧ (s.returnFromTrap g w).cur = none ∧ { s.returnFromTrap g w with wgs := s.wgs, cur := s.cur } = s
      ∧ (∀ v, v ≠ w → (s.returnFromTrap g w).warp g v = s.warp g v)
      ∧ ∀ j, j ≠ g → SMap.find j (s.returnFromTrap g w).wgs = SMap.find j s.wgs := by
  intro x
  let f : Warp → Warp := fun x => { x with exec := x.texec, tm := false, ih := false, reissue := x.replay, replay := [], rewritten := [], pc := x.trpc, noBp := true
                                           lastAt := s.now g, aged := 0, stepped := false }
  have hid : ∀ y : Wg, y.halt ≠ some w → (fun y : Wg => if y.halt = some w then { y with halt := .none } else y) y = y := fun y hy => if_neg hy
  have ht : s.returnFromTrap g w = { (s.modWarp g w f).modWg g (fun y => if y.halt = some w then { y with halt := .none } else y) with cur := none } := by
    simp only [State.returnFromTrap, h, Bool.not_true, Bool.false_eq_true, if_false]
    rfl
  have hm : (s.modWarp g w f).modWg g (fun y => if y.halt = some w then { y with halt := .none } else y) = s.modWarp g w f := by
    unfold State.modWarp
    rw [modWg_modWg]
    have hf := find_of_hasWg hg
    rw [modWg_of_find _ hf, modWg_of_find _ hf]
    rw [if_neg (by exact hh)]
  rw [ht, hm]
  refine ⟨warp_modWarp_same f hg hw, rfl, ?_, fun v hv => warp_modWarp_other f hv hg, fun j hj => find_modWg_other _ hj⟩
  exact congrArg (fun t : State => { t with cur := s.cur }) (modWg_rest s g _)

/-- A slot that has never been taken comes first, with GEN 0; then the one completed longest ago, with its GEN advanced (R31). -/
theorem nextSlot_spec (k : Core) : k.nextSlot = (if k.fresh < 4096 then some (k.fresh, 0) else k.recent.head?.map fun n => (n, (k.slot n).gen + 1)) := by
  unfold Core.nextSlot
  split
  · rfl
  · cases k.recent <;> rfl

/-- An operation without a register takes a slot: the slot is live, and nothing else changes but the core's order of slots (R30, R31). -/
theorem takeSlot_spec {s : State} {c ctx n : Nat} {gen : BitVec 4} (h : (s.core c).nextSlot = some (n, gen)) :
    ∃ t, s.takeSlot c ctx none = some (n, t) ∧ (t.core c).slot n = { gen := gen, live := true, ctx := ctx } ∧ { t with cores := s.cores } = s
      ∧ (∀ m, m ≠ n → (t.core c).slot m = (s.core c).slot m) ∧ ∀ k, k ≠ c → t.core k = s.core k := by
  let f : Core → Core := fun x =>
    { x with slots := SMap.put n { gen := gen, live := true, ctx := ctx } x.slots, fresh := if x.fresh < 4096 then x.fresh + 1 else x.fresh
             recent := if x.fresh < 4096 then x.recent else x.recent.drop 1 }
  refine ⟨s.modCore c f, by unfold State.takeSlot; rw [h]; rfl, ?_, rfl, fun m hm => ?_, fun k hk => ?_⟩
  · simp [State.core, State.modCore, Core.slot, f]
  · simp [State.core, State.modCore, Core.slot, f, SMap_get_put_other _ _ _ hm]
  · simp [State.core, State.modCore, SMap_get_put_other _ _ _ hk]

/-- No free slot: nothing is taken. -/
theorem takeSlot_none {s : State} {c ctx : Nat} {b : Option (Nat × Nat × Nat)} (h : (s.core c).nextSlot = none) : s.takeSlot c ctx b = none := by
  simp [State.takeSlot, h]

/-- A live slot without registers completes: it holds its final value and comes last among the free ones (R30, R31). -/
theorem completeSlot_spec {s : State} {c n : Nat} (fault : Bool) (code : Cause) (data : BitVec 40) (hl : ((s.core c).slot n).live = true)
    (hb : ((s.core c).slot n).bound = []) :
    let t := s.completeSlot c n fault code data
    (t.core c).slot n = { (s.core c).slot n with live := false, final := handleValue n ((s.core c).slot n).gen fault code data, bound := [], pend := none }
      ∧ (t.core c).recent = (s.core c).recent ++ [n] ∧ { t with cores := s.cores } = s ∧ ∀ m, m ≠ n → (t.core c).slot m = (s.core c).slot m := by
  intro t
  have ht : t = s.modCore c fun x =>
      { x with slots := SMap.put n { (s.core c).slot n with live := false, final := handleValue n ((s.core c).slot n).gen fault code data, bound := [], pend := none } x.slots
               recent := x.recent ++ [n] } := by
    simp [t, State.completeSlot, hl, hb]
  rw [ht]
  refine ⟨?_, ?_, rfl, fun m hm => ?_⟩
  · simp [State.core, State.modCore, Core.slot]
  · simp [State.core, State.modCore]
  · simp [State.core, State.modCore, Core.slot, SMap_get_put_other _ _ _ hm]

/-- A slot that is not live does not complete. -/
theorem completeSlot_dead {s : State} {c n : Nat} (fault : Bool) (code : Cause) (data : BitVec 40) (hl : ((s.core c).slot n).live = false) :
    s.completeSlot c n fault code data = s := by
  simp [State.completeSlot, hl]

/-- A long-latency producer empties its destinations and joins the warp's unfinished instructions (R27, R184). -/
theorem launchOp_spec {s : State} {c : Cx} (dst : List Reg) (o : Nat → Op) (hg : s.hasWg c.g = true) (hw : c.w < (s.wg c.g).warps.length) :
    let t := s.launchOp c dst o
    let y := dst.foldl Warp.markEmpty (s.warpOf c)
    t.warpOf c = { y with ops := y.ops ++ [o s.nextId] } ∧ t.nextId = s.nextId + 1 ∧ { t with wgs := s.wgs, nextId := s.nextId } = s := by
  intro t y
  let f : Warp → Warp := fun x => { dst.foldl Warp.markEmpty x with ops := (dst.foldl Warp.markEmpty x).ops ++ [o s.nextId] }
  have hr := modWg_rest { s with nextId := s.nextId + 1 } c.g fun x => { x with warps := modAt f c.w x.warps }
  exact ⟨warp_modWarp_same (s := { s with nextId := s.nextId + 1 }) f hg hw, congrArg State.nextId hr,
    congrArg (fun t : State => { t with nextId := s.nextId }) hr⟩

/-- A host event is appended while the queue has room, and counted beyond; the first of an empty queue sends message 0 (R174). -/
theorem postEvent_spec (s : State) (t kind : Nat) :
    s.postEvent t kind = (if 64 ≤ s.evts.length then { s with evtOvf := if s.evtOvf = 0xFFFFFFFF then s.evtOvf else s.evtOvf + 1 }
      else if s.evts = [] then ({ s with evts := [BitVec.ofNat 64 (t + kind * 4096)] } : State).msix 0
      else { s with evts := s.evts ++ [BitVec.ofNat 64 (t + kind * 4096)] }) := by
  unfold State.postEvent
  split
  · rfl
  · cases h : s.evts <;> simp

end Sys2Proof.Machine
end

