-- ==== Sys2Proof/Machine/Image.lean ====
section
/-! DEFINITION. Executable images (R224 to R226, R229 to R232): what the loader accepts, and the bytes and pool it leaves
for a context. The loader is host software, so this is no step of the machine (log 71). -/

namespace Sys2Proof.Machine

/-- The n bytes at an offset of a file, as a number. -/
def fileNat (b : List W8) (o n : Nat) : Nat := leNat ((b.drop o).take n)

/-- A section table entry (R225). -/
structure Section where
  kind  : Nat
  align : Nat
  off   : Nat
  size  : Nat
  mem   : Nat
  zeros : Bool
  deriving DecidableEq, Repr

/-- The entry at a file offset. -/
def sectionAt (b : List W8) (o : Nat) : Section :=
  { kind := fileNat b o 1, align := fileNat b (o + 1) 1, off := fileNat b (o + 8) 8, size := fileNat b (o + 16) 8
    mem := fileNat b (o + 24) 8, zeros := decide (fileNat b (o + 2) 6 = 0) }

/-- The sections of an image, in the order of its table. -/
def sections (b : List W8) : List Section :=
  (List.range (fileNat b 0x08 4)).map fun i => sectionAt b (fileNat b 0x10 8 + 32 * i)

/-- The header (R224), with the table inside the file. -/
def headerOk (b : List W8) : Bool :=
  let n := fileNat b 0x08 4
  let tab := fileNat b 0x10 8
  decide (64 ≤ b.length) && decide (fileNat b 0 4 = 0x31495647) && decide (fileNat b 4 2 = 1) && decide (fileNat b 6 2 = 1)
    && decide (1 ≤ n) && decide (n ≤ 64) && decide (fileNat b 0x0C 4 = 0) && decide (tab % 8 = 0) && decide (tab + 32 * n ≤ b.length)
    && ((b.drop 0x1C).take 0x24).all fun x => decide (x = 0)

/-- The least LOG2ALIGN of a type that is loaded: CODE, DATA, POOL, SLOTS, GRAPH (R226). -/
def leastAlign (kind : Nat) : Option Nat :=
  match kind with
  | 1 => some 5 | 2 => some 4 | 3 => some 5 | 4 => some 4 | 5 => some 6 | _ => none

/-- One entry of the table by itself (R225, R226). -/
def sectionOk (b : List W8) (x : Section) : Bool :=
  decide (1 ≤ x.kind) && decide (x.kind ≤ 8) && x.zeros && decide (x.off + x.size ≤ b.length) && decide (x.size ≤ x.mem)
    && match leastAlign x.kind with | some a => decide (a ≤ x.align) | none => true

/-- POOL, SYMBOLS, RELOC and DEBUG stand at most once (R225). -/
def onceOk (xs : List Section) : Bool :=
  [3, 6, 7, 8].all fun k => decide ((xs.filter fun x => x.kind = k).length ≤ 1)

/-- The bytes of a section as it is loaded: its contents, and zeros up to MEMSIZE (R225). -/
def sectionBytes (b : List W8) (x : Section) : List W8 := (b.drop x.off).take x.size ++ List.replicate (x.mem - x.size) 0

/-- The contents of the one section of a kind; none where there is none. -/
def contents (b : List W8) (kind : Nat) : List W8 :=
  match (sections b).find? fun x => x.kind = kind with
  | some x => (b.drop x.off).take x.size
  | none => []

/-- A symbol, with its name; none where NAME gives no NUL-terminated string of the string area (R230). -/
structure Symbol where
  name  : Option (List W8)
  kind  : Nat
  sect  : Nat
  zero  : Nat
  value : Nat
  size  : Nat
  shape : Nat
  deriving DecidableEq, Repr

/-- Bytes are UTF-8, of which n continuation bytes are due, the next one in [lo, hi). -/
def utf8 : Nat → Nat → Nat → List W8 → Bool
  | n, _, _, [] => decide (n = 0)
  | 0, _, _, b :: bs =>
    let x := b.toNat
    if x < 0x80 then utf8 0 0 0 bs
    else if x < 0xC2 then false
    else if x < 0xE0 then utf8 1 0x80 0xC0 bs
    else if x < 0xF0 then utf8 2 (if x = 0xE0 then 0xA0 else 0x80) (if x = 0xED then 0xA0 else 0xC0) bs
    else if x < 0xF5 then utf8 3 (if x = 0xF0 then 0x90 else 0x80) (if x = 0xF4 then 0x90 else 0xC0) bs
    else false
  | n + 1, lo, hi, b :: bs => decide (lo ≤ b.toNat) && decide (b.toNat < hi) && utf8 n 0x80 0xC0 bs

/-- The name at an offset of the string area of a SYMBOLS section (R230). -/
def nameAt (c : List W8) (o : Nat) : Option (List W8) :=
  let l := c.drop (fileNat c 8 8 + o)
  let n := l.takeWhile fun b => decide (b ≠ 0)
  if n.length < l.length ∧ utf8 0 0 0 n then some n else none

/-- The symbols of an image (R230). -/
def symbols (b : List W8) : List Symbol :=
  let c := contents b 6
  (List.range (min (fileNat c 0 4) (c.length / 32))).map fun i =>
    let o := 16 + 32 * i
    { name := nameAt c (fileNat c o 4), kind := fileNat c (o + 4) 1, sect := fileNat c (o + 5) 1, zero := fileNat c (o + 6) 2, value := fileNat c (o + 8) 8
      size := fileNat c (o + 16) 8, shape := fileNat c (o + 24) 8 }

/-- A symbol by itself (R230): a kernel's value is a multiple of 4 and it does not begin with a fill word. -/
def symbolOk (b : List W8) (y : Symbol) : Bool :=
  y.name.isSome && decide (1 ≤ y.kind) && decide (y.kind ≤ 5) && decide (y.zero = 0) && decide (y.shape < 2 ^ 38)
    && (decide (y.kind = 3) || decide (y.sect < (sections b).length))
    && if y.kind = 1 then
        decide (y.value % 4 = 0)
          && match (sections b)[y.sect]? with
            | some x => decide (x.kind = 1) && decide (y.value + 4 ≤ x.size) && decide (fileNat b (x.off + y.value) 4 ≠ 0)
            | none => false
      else decide (y.shape = 0)

/-- The SYMBOLS section (R230), where there is one, and ENTRY of the header (R224): a kernel, or none. -/
def symbolsOk (b : List W8) : Bool :=
  let c := contents b 6
  let e := fileNat b 0x18 4
  (!((sections b).any fun x => x.kind = 6) ||
      (decide (16 + 32 * fileNat c 0 4 ≤ c.length) && decide (fileNat c 4 4 = 0) && (symbols b).all (symbolOk b)))
    && (decide (e = 0xFFFFFFFF) || match (symbols b)[e]? with | some y => decide (y.kind = 1) | none => false)

/-- A relocation (R229). -/
structure Reloc where
  sect   : Nat
  kind   : Nat
  tsect  : Nat
  zeros  : Bool
  place  : Nat
  addend : Nat
  deriving DecidableEq, Repr

/-- The relocations of an image, in order. -/
def relocs (b : List W8) : List Reloc :=
  let c := contents b 7
  (List.range (c.length / 24)).map fun i =>
    let o := 24 * i
    { sect := fileNat c o 1, kind := fileNat c (o + 1) 1, tsect := fileNat c (o + 2) 1, zeros := decide (fileNat c (o + 3) 5 = 0)
      place := fileNat c (o + 8) 8, addend := fileNat c (o + 16) 8 }

/-- The section at an index is loaded. -/
def isLoaded (b : List W8) (i : Nat) : Bool :=
  match (sections b)[i]? with | some x => (leastAlign x.kind).isSome | none => false

/-- A relocation by itself (R229): ABS64, its place a multiple of 8 inside a DATA, POOL, SLOTS or GRAPH section. -/
def relocOk (b : List W8) (r : Reloc) : Bool :=
  decide (r.kind = 0) && r.zeros && decide (r.place % 8 = 0) && isLoaded b r.tsect
    && match (sections b)[r.sect]? with
      | some x => decide (2 ≤ x.kind) && decide (x.kind ≤ 5) && decide (r.place + 8 ≤ x.mem)
      | none => false

/-- R232 step 1: the loader accepts an image. DEBUG is not looked at (R231). -/
def imageOk (b : List W8) : Bool :=
  headerOk b && (sections b).all (sectionOk b) && onceOk (sections b) && symbolsOk b && (relocs b).all (relocOk b)

/-- The addresses that a loader may give the sections (R226): each aligned; DATA inside the heap window [base, limit). -/
def placesOk (b : List W8) (at_ : List Nat) (base limit : Nat) : Bool :=
  decide (at_.length = (sections b).length)
    && ((sections b).zip at_).all fun p => decide (p.2 % 2 ^ p.1.align = 0)
      && (decide (p.1.kind ≠ 2) || (decide (base ≤ p.2) && decide (p.2 + p.1.mem ≤ limit)))

/-- Bytes with `new` in place of those from offset o. -/
def overwrite (bs : List W8) (o : Nat) (new : List W8) : List W8 := bs.take o ++ new ++ bs.drop (o + new.length)

/-- R232 step 3: ABS64 writes the loaded address of TSECT plus ADDEND, modulo 2^64 (R229). -/
def applyReloc (at_ : List Nat) (mem : List (List W8)) (r : Reloc) : List (List W8) :=
  mem.set r.sect (overwrite (mem.getD r.sect []) r.place (leBytes 8 ((at_.getD r.tsect 0 + r.addend) % 2 ^ 64)))

/-- What the application binds to the symbol of a POOL record: the symbol's name, the resource, and the residency map or 0. -/
structure Bind where
  name : List W8
  base : Nat
  rmap : Nat
  deriving DecidableEq, Repr

/-- The bind of a POOL record, by its symbol (R230, R232). -/
def bindOf (b : List W8) (binds : List Bind) (i : Nat) : Option Bind :=
  ((symbols b).filter fun y => y.kind = 3 ∧ y.value = i).findSome? fun y => binds.find? fun x => some x.name = y.name

/-- R232 step 4 on POOL record i: BASE from the resource bound to its symbol, and RMAP from the bound residency map, or 0. A record to
which nothing is bound keeps the BASE that the relocations gave it (log 71). -/
def bindRecord (b : List W8) (binds : List Bind) (pool : List W8) (i : Nat) : List W8 :=
  match bindOf b binds i with
  | some x => overwrite (overwrite pool (32 * i) (leBytes 8 x.base)) (32 * i + 24) (leBytes 8 x.rmap)
  | none => overwrite pool (32 * i + 24) (leBytes 8 0)

/-- R232 step 4 on the POOL section. -/
def bindPool (b : List W8) (binds : List Bind) (pool : List W8) : List W8 :=
  (List.range (pool.length / 32)).foldl (bindRecord b binds) pool

/-- R232 steps 1 to 4: the bytes of each loaded section with its type and address; none for an image or addresses that are refused, of
which nothing is placed (R226). -/
def loadImage (b : List W8) (at_ : List Nat) (base limit : Nat) (binds : List Bind) : Option (List (Nat × Nat × List W8)) :=
  if imageOk b && placesOk b at_ base limit then
    let mem := (relocs b).foldl (applyReloc at_) ((sections b).map (sectionBytes b))
    some ((((sections b).zip at_).zip mem).filterMap fun p =>
      if (leastAlign p.1.1.kind).isSome then
        some (p.1.1.kind, p.1.2, if p.1.1.kind = 3 then bindPool b binds p.2 else p.2)
      else none)
  else none

/-! Loading into a context's memory. -/

/-- The accesses that the place of a section allows (R226). -/
def sectionAccess (kind : Nat) : List Acc :=
  match kind with
  | 1 => [.read, .fetch] | 2 => [.read, .write] | 5 => [.read, .write] | _ => [.read]

/-- Where a piece of a section lies, in a window or on a page that allows the accesses that R226 gives the section (log 71). -/
def State.sectionPage (s : State) (t kind a n : Nat) : Option Target :=
  let at_ := fun acc => match s.translate t 0 a n acc with | .ok x _ => some x | _ => none
  if (sectionAccess kind).all fun acc => (at_ acc).isSome then at_ .read else none

/-- The host writes bytes where they lie, at V or in its own memory (R171). -/
def State.hostPut (s : State) (bs : List W8) : Target → State
  | .dev pa key => s.putBytes true key pa bs
  | .host a _ => s.putBytes false 0 a bs
  | _ => s

/-- Places the pieces of a section; none where a page does not allow it. -/
def State.putSection (t kind : Nat) : List (Nat × Nat) → List W8 → State → Option State
  | [], _, s => some s
  | (a, n) :: rest, bs, s =>
    match s.sectionPage t kind a n with
    | some x => State.putSection t kind rest (bs.drop n) (s.hostPut (bs.take n) x)
    | none => none

/-- Places sections. -/
def State.putSections (t : Nat) : List (Nat × Nat × List W8) → State → Option State
  | [], s => some s
  | (kind, a, bs) :: rest, s =>
    match State.putSection t kind (cutLastKib (pagePieces (bs.length / 2 ^ 16 + 2) a bs.length)) bs s with
    | some s1 => State.putSections t rest s1
    | none => none

/-- R232 step 5: the pool of the image that was loaded last is the one in force. -/
def State.namePool (s : State) (t pool count : Nat) : State :=
  (s.putCtx t 0x106 (BitVec.ofNat 64 (pool / 32 * 32))).putCtx t 0x107 (BitVec.ofNat 64 count)

/-- R232: the loader loads an image for context t at the addresses it has chosen; none when it refuses the image, of which nothing is then
placed. Step 6, the release at SYS before the first notify write or `launch`, finds nothing to perform: the host's writes are at V, or
in its own memory, once they are made (R171), ahead of any later write of the host. -/
def State.loadInto (s : State) (t : Nat) (b : List W8) (at_ : List Nat) (binds : List Bind) : Option State :=
  let base := bits (s.cctx t 0x101).toNat 55 16 * 2 ^ 16
  match loadImage b at_ base (base + bits (s.cctx t 0x102).toNat 55 16 * 2 ^ 16) binds with
  | none => none
  | some l =>
    match s.putSections t l with
    | none => none
    | some s1 =>
      match l.find? fun p => p.1 = 3 with
      | some p => some (s1.namePool t p.2.1 (p.2.2.length / 32))
      | none => some s1

end Sys2Proof.Machine
end

