-- ==== Sys2Proof/Tests/Slice0.lean ====
section
/-! SUPPORT. The model's own tests: encodings written out by hand, one ill-formed term for each check, results worked out from the manual,
and for each statement states and operands that meet the hypotheses of its clauses. -/

namespace Sys2Proof.Tests

open Sys2Proof.Machine Sys2Proof.Claim

/-! Small states. -/

/-- One warp of one workgroup of one context, about to issue at address 0, changed by f. -/
def lab (f : Warp → Warp) : State := (State.reset.place1 []).modWarp 0 0 f
/-- The warp as it is. -/
def base : State := lab fun x => x
/-- The warp with s1 to s4. -/
def regs (a b c d : W64) : State := lab fun x => { x with sregs := [(1, a), (2, b), (3, c), (4, d)] }
/-- The warp in a handler, with s1, s2 and a replay queue of n entries. -/
def handler (n : Nat) (a b : W64) : State := lab fun x =>
  { x with sregs := [(1, a), (2, b)], tm := true, ih := true, replay := List.replicate n {} }
/-- Instruction i issues, and its operands meet p. -/
def wit (s : State) (i : Instr) (p : Cx → Bool) : Bool := match s.issuing i with | some c => p c | none => false
/-- Instruction i issues. -/
def can (s : State) (i : Instr) : Bool := (s.issuing i).isSome
/-- Executing i gives a next state that meets p. -/
def gives (s : State) (i : Instr) (p : State → Bool) : Bool := match exec i s with | .next t => p t | _ => false

/-! Words written out from the tables of R203 to R222, and the instructions they stand for. -/

/-- R203 to R222: words of sadd to ssra in the order of the opcode map, written out from its tables. -/
def wordsScalar1 : List (Nat × Nat × Instr) :=
  [(64, 0x4000000C0B0A0001, .sadd { blank .f64 with dst := 10, sa := 11, sb := 12, ty := .i32 }),
   (96, 0x80010203500000000B0A0006, .ssub { blank .f96 with dst := 10, sa := 11, ty := .n32, imm := 0x80010203 }),
   (64, 0xA000000C0B0A0009, .smul { blank .f64 with dst := 10, sa := 11, sb := 12, ty := .b32 }),
   (96, 0x80030609C00000000B0A000E, .smulh { blank .f96 with dst := 10, sa := 11, ty := .n64, imm := 0x80030609 }),
   (64, 0x4000000C0B0A0011, .sdiv { blank .f64 with dst := 10, sa := 11, sb := 12, ty := .i32 }),
   (96, 0x80050A0F500000000B0A0016, .srem { blank .f96 with dst := 10, sa := 11, ty := .n32, imm := 0x80050A0F }),
   (64, 0x5000000C0B0A0019, .sand { blank .f64 with dst := 10, sa := 11, sb := 12, ty := .n32 }),
   (96, 0x80070E15A00000000B0A001E, .sor { blank .f96 with dst := 10, sa := 11, ty := .b32, imm := 0x80070E15 }),
   (64, 0xB000000C0B0A0021, .sxor { blank .f64 with dst := 10, sa := 11, sb := 12, ty := .i64 }),
   (96, 0x8009121BC00000000B0A0026, .sshl { blank .f96 with dst := 10, sa := 11, ty := .n64, imm := 0x8009121B }),
   (64, 0x4000000C0B0A0029, .sshr { blank .f64 with dst := 10, sa := 11, sb := 12, ty := .i32 }),
   (96, 0x800B1621500000000B0A002E, .ssra { blank .f96 with dst := 10, sa := 11, ty := .n32, imm := 0x800B1621 })]

theorem test_wordsScalar1 : ∀ p ∈ wordsScalar1, decodeTableWord p.1 p.2.1 = some p.2.2 := by decide

/-- Each of them issues on the warp of `base`: the premise of the statements about its effect. -/
theorem witness_wordsScalar1 : ∀ p ∈ wordsScalar1, can base p.2.2 = true := by decide

/-- R203 to R222: words of smin to saddr in the order of the opcode map, written out from its tables. -/
def wordsScalar2 : List (Nat × Nat × Instr) :=
  [(64, 0x4000000C0B0A0031, .smin { blank .f64 with dst := 10, sa := 11, sb := 12, ty := .i32 }),
   (96, 0x800D1A27500000000B0A0036, .smax { blank .f96 with dst := 10, sa := 11, ty := .n32, imm := 0x800D1A27 }),
   (64, 0xC000000C0B0A0039, .scmp { blank .f64 with dst := 10, sa := 11, sb := 12, ty := .n64 }),
   (64, 0x00000D0C0B0A003D, .ssel { blank .f64 with dst := 10, sa := 11, sb := 12, sc := 13 }),
   (64, 0x000000000B0A0041, .smov { blank .f64 with dst := 10, sa := 11 }),
   (96, 0x8011223300000000000A0046, .sli { blank .f96 with dst := 10, imm := 0x80112233 }),
   (96, 0x8012243602000000000A0046, .sliHi { blank .f96 with dst := 10, sub := 1, imm := 0x80122436 }),
   (64, 0xC00000000B0A0049, .sclz { blank .f64 with dst := 10, sa := 11, ty := .n64 }),
   (64, 0x400000000B0A004D, .spopc { blank .f64 with dst := 10, sa := 11, ty := .i32 }),
   (96, 0x80152A3F500000000B0A0052, .sbfx { blank .f96 with dst := 10, sa := 11, ty := .n32, imm := 0x80152A3F }),
   (64, 0xA0000D0C0B0A0055, .sbfi { blank .f64 with dst := 10, sa := 11, sb := 12, sc := 13, ty := .b32 }),
   (128, 0x0000000080172E4500000000000A005B, .saddr { blank .f128 with dst := 10, imm := 0x80172E45 })]

theorem test_wordsScalar2 : ∀ p ∈ wordsScalar2, decodeTableWord p.1 p.2.1 = some p.2.2 := by decide

/-- Each of them issues on the warp of `base`: the premise of the statements about its effect. -/
theorem witness_wordsScalar2 : ∀ p ∈ wordsScalar2, can base p.2.2 = true := by decide

/-- R203 to R222: words of bra to mandn in the order of the opcode map, written out from its tables. -/
def wordsControl1 : List (Nat × Nat × Instr) :=
  [(96, 0x801830480000000000000082, .bra { blank .f96 with imm := 0x80183048 }),
   (96, 0x8019324B000000000B000086, .bz { blank .f96 with sa := 11, imm := 0x8019324B }),
   (96, 0x801A344E000000000B00008A, .bnz { blank .f96 with sa := 11, imm := 0x801A344E }),
   (96, 0x801B3651000000000000008E, .bexz { blank .f96 with imm := 0x801B3651 }),
   (96, 0x801C38540000000000000092, .call { blank .f96 with imm := 0x801C3854 }),
   (64, 0x000000000B000095, .jmp { blank .f64 with sa := 11 }),
   (64, 0x020000000B000095, .jmpLink { blank .f64 with sa := 11, sub := 1 }),
   (64, 0x0000000000000099, .ret (blank .f64)),
   (64, 0x000000000B00009D, .mand { blank .f64 with sa := 11 }),
   (64, 0x000000000B0000A1, .mset { blank .f64 with sa := 11 }),
   (64, 0x00000000000A00A5, .mget { blank .f64 with dst := 10 }),
   (64, 0x000000000B0000A9, .mandn { blank .f64 with sa := 11 })]

theorem test_wordsControl1 : ∀ p ∈ wordsControl1, decodeTableWord p.1 p.2.1 = some p.2.2 := by decide

/-- Each of them issues on the warp of `base`: the premise of the statements about its effect. -/
theorem witness_wordsControl1 : ∀ p ∈ wordsControl1, can base p.2.2 = true := by decide

/-- R203 to R222: words of pmovToScalar to rqrd in the order of the opcode map, written out from its tables. -/
def wordsControl2 : List (Nat × Nat × Instr) :=
  [(64, 0x00000000030A00AD, .pmovToScalar { blank .f64 with dst := 10, sa := 3 }),
   (64, 0x020000000B0200AD, .pmovToPredicate { blank .f64 with dst := 2, sa := 11, sub := 1 }),
   (64, 0x00000004030294B1, .plog { blank .f64 with pen := true, pred := 9, dst := 2, sa := 3, sb := 4 }),
   (128, 0x0000000080274E7500000000000000B7, .nop { blank .f128 with imm := 0x80274E75 }),
   (64, 0x00000000000000B9, .endW (blank .f64)),
   (64, 0x00000000000000BD, .yield (blank .f64)),
   (64, 0x0000000C000000FD, .pause { blank .f64 with sb := 12 }),
   (64, 0x00000000000A00F9, .cyc { blank .f64 with dst := 10 }),
   (96, 0x802C588400000000000000C2, .trapI { blank .f96 with imm := 0x802C5884 }),
   (64, 0x00000000000000C5, .brk (blank .f64)),
   (64, 0x00000000000000C9, .rte (blank .f64)),
   (96, 0x802F5E8D000000000B0A00E6, .rqrd { blank .f96 with dst := 10, sa := 11, imm := 0x802F5E8D })]

theorem test_wordsControl2 : ∀ p ∈ wordsControl2, decodeTableWord p.1 p.2.1 = some p.2.2 := by decide

/-- Each of them issues on the warp of `base`: the premise of the statements about its effect. -/
theorem witness_wordsControl2 : ∀ p ∈ wordsControl2, can base p.2.2 = true := by decide

/-- R203 to R222: words of rqwr to hostIrq in the order of the opcode map, written out from its tables. -/
def wordsControl3 : List (Nat × Nat × Instr) :=
  [(96, 0x803060900000000C0B0000EA, .rqwr { blank .f96 with sa := 11, sb := 12, imm := 0x80306090 }),
   (96, 0x8031629300000000000000EE, .rqdrop { blank .f96 with imm := 0x80316293 }),
   (96, 0x0000010000000000000A00CE, .csrr { blank .f96 with dst := 10, imm := 0x100 }),
   (96, 0x00000100000000000B0000D2, .csrw { blank .f96 with sa := 11, imm := 0x100 }),
   (64, 0x000000000B0000D5, .hwait { blank .f64 with sa := 11 }),
   (64, 0x000000000B0A00D9, .htest { blank .f64 with dst := 10, sa := 11 }),
   (64, 0x000000000B0000DD, .hcancel { blank .f64 with sa := 11 }),
   (64, 0x0000000C0B0A00E1, .hbind { blank .f64 with dst := 10, sa := 11, sb := 12 }),
   (96, 0x0000000700000000000A00F2, .getid { blank .f96 with dst := 10, imm := 0x7 }),
   (96, 0x803972AB00000000000000F6, .sprio { blank .f96 with imm := 0x803972AB }),
   (96, 0x00000105000000000B0000D2, .tlbInv { blank .f96 with sa := 11, imm := 0x105 }),
   (96, 0x00000114000000000B0000D2, .hostIrq { blank .f96 with sa := 11, imm := 0x114 })]

theorem test_wordsControl3 : ∀ p ∈ wordsControl3, decodeTableWord p.1 p.2.1 = some p.2.2 := by decide

/-- Each of them issues on the warp of `base`: the premise of the statements about its effect. -/
theorem witness_wordsControl3 : ∀ p ∈ wordsControl3, can base p.2.2 = true := by decide

/-- R203 to R222: words of fbCtlWrite to sweepPop in the order of the opcode map, written out from its tables. -/
def wordsControl4 : List (Nat × Nat × Instr) :=
  [(96, 0x00000108000000000B0000D2, .fbCtlWrite { blank .f96 with sa := 11, imm := 0x108 }),
   (96, 0x0000040500000000000A00CE, .sweepPop { blank .f96 with dst := 10, imm := 0x405 })]

theorem test_wordsControl4 : ∀ p ∈ wordsControl4, decodeTableWord p.1 p.2.1 = some p.2.2 := by decide

/-- Each of them issues on the warp of `base`: the premise of the statements about its effect. -/
theorem witness_wordsControl4 : ∀ p ∈ wordsControl4, can base p.2.2 = true := by decide

/-- R203 to R222: words of vadd to vnot in the order of the opcode map, written out from its tables. -/
def wordsVector1 : List (Nat × Nat × Instr) :=
  [(64, 0x000000888446E501, .vadd { blank .f64 with pen := true, pred := 14, dst := 70, sa := 132, sb := 136 }),
   (96, 0x803B76B1000000008446FD06, .vsub { blank .f96 with pen := true, pneg := true, pred := 15, dst := 70, sa := 132, imm := 0x803B76B1 }),
   (64, 0x0000008884461509, .vmul { blank .f64 with pen := true, pred := 1, dst := 70, sa := 132, sb := 136 }),
   (96, 0x803D7AB740008C0084462D0E, .vfma { blank .f96 with pen := true, pneg := true, pred := 2, dst := 70, sa := 132, sc := 140, ty := .i32, imm := 0x803D7AB7 }),
   (64, 0x0000008884463511, .vmin { blank .f64 with pen := true, pred := 3, dst := 70, sa := 132, sb := 136 }),
   (96, 0x803F7EBD0000000084464D16, .vmax { blank .f96 with pen := true, pneg := true, pred := 4, dst := 70, sa := 132, imm := 0x803F7EBD }),
   (64, 0x0000000084465519, .vabs { blank .f64 with pen := true, pred := 5, dst := 70, sa := 132 }),
   (64, 0x4000000084466D1D, .vneg { blank .f64 with pen := true, pneg := true, pred := 6, dst := 70, sa := 132, ty := .i32 }),
   (64, 0xA000008884467521, .vand { blank .f64 with pen := true, pred := 7, dst := 70, sa := 132, sb := 136, ty := .b32 }),
   (96, 0x804386C9A000000084468D26, .vor { blank .f96 with pen := true, pneg := true, pred := 8, dst := 70, sa := 132, ty := .b32, imm := 0x804386C9 }),
   (64, 0xA000008884469529, .vxor { blank .f64 with pen := true, pred := 9, dst := 70, sa := 132, sb := 136, ty := .b32 }),
   (64, 0xA00000008446AD2D, .vnot { blank .f64 with pen := true, pneg := true, pred := 10, dst := 70, sa := 132, ty := .b32 })]

theorem test_wordsVector1 : ∀ p ∈ wordsVector1, decodeTableWord p.1 p.2.1 = some p.2.2 := by decide

/-- Each of them issues on the warp of `base`: the premise of the statements about its effect. -/
theorem witness_wordsVector1 : ∀ p ∈ wordsVector1, can base p.2.2 = true := by decide

/-- R203 to R222: words of vshl to vexp2 in the order of the opcode map, written out from its tables. -/
def wordsVector2 : List (Nat × Nat × Instr) :=
  [(64, 0x400000888446B531, .vshl { blank .f64 with pen := true, pred := 11, dst := 70, sa := 132, sb := 136, ty := .i32 }),
   (96, 0x80478ED5500000008446CD36, .vshr { blank .f96 with pen := true, pneg := true, pred := 12, dst := 70, sa := 132, ty := .n32, imm := 0x80478ED5 }),
   (64, 0xA00000888446D539, .vsra { blank .f64 with pen := true, pred := 13, dst := 70, sa := 132, sb := 136, ty := .b32 }),
   (96, 0x804992DB500000008402ED3E, .vcmp { blank .f96 with pen := true, pneg := true, pred := 14, dst := 2, sa := 132, ty := .n32, imm := 0x804992DB }),
   (64, 0xC00005888446F541, .vsel { blank .f64 with pen := true, pred := 15, dst := 70, sa := 132, sb := 136, sc := 5, ty := .n64 }),
   (96, 0x804B96E13000000000461D46, .vmov { blank .f96 with pen := true, pneg := true, pred := 1, dst := 70, ty := .f64, imm := 0x804B96E1 }),
   (64, 0xA00000000B462549, .vbcast { blank .f64 with pen := true, pred := 2, dst := 70, sa := 11, ty := .b32 }),
   (64, 0x0000000084463D4D, .vcvt { blank .f64 with pen := true, pneg := true, pred := 3, dst := 70, sa := 132 }),
   (64, 0x0000000084464551, .vrcp { blank .f64 with pen := true, pred := 4, dst := 70, sa := 132 }),
   (64, 0x0000000084465D55, .vrsq { blank .f64 with pen := true, pneg := true, pred := 5, dst := 70, sa := 132 }),
   (64, 0x0000000084466559, .vsqrt { blank .f64 with pen := true, pred := 6, dst := 70, sa := 132 }),
   (64, 0x0000000084467D5D, .vexp2 { blank .f64 with pen := true, pneg := true, pred := 7, dst := 70, sa := 132 })]

theorem test_wordsVector2 : ∀ p ∈ wordsVector2, decodeTableWord p.1 p.2.1 = some p.2.2 := by decide

/-- Each of them issues on the warp of `base`: the premise of the statements about its effect. -/
theorem witness_wordsVector2 : ∀ p ∈ wordsVector2, can base p.2.2 = true := by decide

/-- R203 to R222: words of vlog2 to vvoteAll in the order of the opcode map, written out from its tables. -/
def wordsVector3 : List (Nat × Nat × Instr) :=
  [(64, 0x0000000084468561, .vlog2 { blank .f64 with pen := true, pred := 8, dst := 70, sa := 132 }),
   (64, 0x0000000084469D65, .vsinpi { blank .f64 with pen := true, pneg := true, pred := 9, dst := 70, sa := 132 }),
   (64, 0x000000008446A569, .vcospi { blank .f64 with pen := true, pred := 10, dst := 70, sa := 132 }),
   (96, 0x8055AAFF300000008446BD6E, .vdiv { blank .f96 with pen := true, pneg := true, pred := 11, dst := 70, sa := 132, ty := .f64, imm := 0x8055AAFF }),
   (64, 0xA00000008446C571, .vclz { blank .f64 with pen := true, pred := 12, dst := 70, sa := 132, ty := .b32 }),
   (64, 0xA00000008446DD75, .vpopc { blank .f64 with pen := true, pneg := true, pred := 13, dst := 70, sa := 132, ty := .b32 }),
   (64, 0x400000888446E579, .vbfx { blank .f64 with pen := true, pred := 14, dst := 70, sa := 132, sb := 136, ty := .i32 }),
   (96, 0x8059B30B50008C008446FD7E, .vbfi { blank .f96 with pen := true, pneg := true, pred := 15, dst := 70, sa := 132, sc := 140, ty := .n32, imm := 0x8059B30B }),
   (64, 0xA000008884461581, .vshfl { blank .f64 with pen := true, pred := 1, dst := 70, sa := 132, sb := 136, ty := .b32 }),
   (64, 0x00000000030A2D85, .vvoteBallot { blank .f64 with pen := true, pneg := true, pred := 2, dst := 10, sa := 3 }),
   (64, 0x02000000030A3585, .vvoteAny { blank .f64 with pen := true, pred := 3, dst := 10, sa := 3, sub := 1 }),
   (64, 0x04000000030A4D85, .vvoteAll { blank .f64 with pen := true, pneg := true, pred := 4, dst := 10, sa := 3, sub := 2 })]

theorem test_wordsVector3 : ∀ p ∈ wordsVector3, decodeTableWord p.1 p.2.1 = some p.2.2 := by decide

/-- Each of them issues on the warp of `base`: the premise of the statements about its effect. -/
theorem witness_wordsVector3 : ∀ p ∈ wordsVector3, can base p.2.2 = true := by decide

/-- R203 to R222: words of vred to vunpack in the order of the opcode map, written out from its tables. -/
def wordsVector4 : List (Nat × Nat × Instr) :=
  [(64, 0x50000000840A5589, .vred { blank .f64 with pen := true, pred := 5, dst := 10, sa := 132, ty := .n32 }),
   (64, 0x90008C8884466D8D, .vdot4 { blank .f64 with pen := true, pneg := true, pred := 6, dst := 70, sa := 132, sb := 136, sc := 140, ty := .n8 }),
   (64, 0x4000008884467591, .vmulhi { blank .f64 with pen := true, pred := 7, dst := 70, sa := 132, sb := 136, ty := .i32 }),
   (64, 0x0000000084468D95, .vpack { blank .f64 with pen := true, pneg := true, pred := 8, dst := 70, sa := 132 }),
   (64, 0x0000000084469599, .vunpack { blank .f64 with pen := true, pred := 9, dst := 70, sa := 132 })]

theorem test_wordsVector4 : ∀ p ∈ wordsVector4, decodeTableWord p.1 p.2.1 = some p.2.2 := by decide

/-- Each of them issues on the warp of `base`: the premise of the statements about its effect. -/
theorem witness_wordsVector4 : ∀ p ∈ wordsVector4, can base p.2.2 = true := by decide

/-- R203 to R222: words of ld to fenceRel in the order of the opcode map, written out from its tables. -/
def wordsMemory1 : List (Nat × Nat × Instr) :=
  [(96, 0x8063C729600000000B46AE02, .ld { blank .f96 with pen := true, pneg := true, pred := 10, dst := 70, sa := 11, ty := .i16, imm := 0x8063C729 }),
   (64, 0x70008C000B00B605, .st { blank .f64 with pen := true, pred := 11, sa := 11, sc := 140, ty := .n16 }),
   (96, 0x8065CB2F800000000B0A020A, .lds { blank .f96 with dst := 10, sa := 11, ty := .i8, imm := 0x8065CB2F }),
   (64, 0x90000D000B00020D, .sts { blank .f64 with sa := 11, sc := 13, ty := .n8 }),
   (96, 0x8067CF35A00000000B46EE12, .ldl { blank .f96 with pen := true, pneg := true, pred := 14, dst := 70, sa := 11, ty := .b32, imm := 0x8067CF35 }),
   (64, 0x00008C000B00F615, .stl { blank .f64 with pen := true, pred := 15, sa := 11, sc := 140 }),
   (96, 0x8069D33BA00000000BC81E1A, .ldp { blank .f96 with pen := true, pneg := true, pred := 1, dst := 200, sa := 11, ty := .b32, imm := 0x8069D33B }),
   (64, 0xA000CC000B00261D, .stp { blank .f64 with pen := true, pred := 2, sa := 11, sc := 204, ty := .b32 }),
   (128, 0x00000F00806BD74150408C000B463E23, .atom { blank .f128 with pen := true, pneg := true, pred := 3, dst := 70, sa := 11, sc := 140, fs := 1, ty := .n32, imm := 0x806BD741, dst2 := 15 }),
   (128, 0x00000F00806CD94450400D000B0A0227, .atoms { blank .f128 with dst := 10, sa := 11, sc := 13, fs := 1, ty := .n32, imm := 0x806CD944, dst2 := 15 }),
   (64, 0x0280000000000229, .fenceAcq { blank .f64 with fs := 2, sub := 1 }),
   (64, 0x0480000000000229, .fenceRel { blank .f64 with fs := 2, sub := 2 })]

theorem test_wordsMemory1 : ∀ p ∈ wordsMemory1, decodeTableWord p.1 p.2.1 = some p.2.2 := by decide

/-- Each of them issues on the warp of `base`: the premise of the statements about its effect. -/
theorem witness_wordsMemory1 : ∀ p ∈ wordsMemory1, can base p.2.2 = true := by decide

/-- R203 to R222: words of fenceAr to resfence in the order of the opcode map, written out from its tables. -/
def wordsMemory2 : List (Nat × Nat × Instr) :=
  [(64, 0x0680000000000229, .fenceAr { blank .f64 with fs := 2, sub := 3 }),
   (96, 0x8070E1500000000C0B0A022E, .copy { blank .f96 with dst := 10, sa := 11, sb := 12, imm := 0x8070E150 }),
   (64, 0x00000000000A0231, .cbatch { blank .f64 with dst := 10 }),
   (64, 0x000000000B000235, .cwait { blank .f64 with sa := 11 }),
   (96, 0x8073E759000000000B00BE3A, .pref { blank .f96 with pen := true, pneg := true, pred := 11, sa := 11, imm := 0x8073E759 }),
   (96, 0x8074E95C00C000000B00023E, .cflush { blank .f96 with sa := 11, fs := 3, imm := 0x8074E95C }),
   (64, 0x0000000000000241, .bar (blank .f64)),
   (64, 0x0000000C00070245, .sbarExpect { blank .f64 with dst := 7, sb := 12 }),
   (64, 0x0200000000070245, .sbarArr { blank .f64 with dst := 7, sub := 1 }),
   (64, 0x0400000000070245, .sbarReset { blank .f64 with dst := 7, sub := 2 }),
   (128, 0x000000008079F36B00008C8800462E4B, .resq { blank .f128 with pen := true, pneg := true, pred := 2, dst := 70, sb := 136, sc := 140, imm := 0x8079F36B }),
   (64, 0x000000000000024D, .resfence (blank .f64))]

theorem test_wordsMemory2 : ∀ p ∈ wordsMemory2, decodeTableWord p.1 p.2.1 = some p.2.2 := by decide

/-- Each of them issues on the warp of `base`: the premise of the statements about its effect. -/
theorem witness_wordsMemory2 : ∀ p ∈ wordsMemory2, can base p.2.2 = true := by decide

/-- R203 to R222: words of tshape to adrain in the order of the opcode map, written out from its tables. -/
def wordsMatrix1 : List (Nat × Nat × Instr) :=
  [(64, 0x00000D0C0B050281, .tshape { blank .f64 with dst := 5, sa := 11, sb := 12, sc := 13 }),
   (64, 0x020000000B050281, .tshapeSoff { blank .f64 with dst := 5, sa := 11, sub := 1 }),
   (96, 0x807DFB7700000D080B0A0286, .tld { blank .f96 with dst := 10, sa := 11, sb := 8, sc := 13, imm := 0x807DFB77 }),
   (64, 0x00000D080B0A0289, .tst { blank .f64 with dst := 10, sa := 11, sb := 8, sc := 13 }),
   (64, 0x000000000006028D, .tzero { blank .f64 with dst := 6 }),
   (128, 0x00000000000000000000000007060293, .tcvt { blank .f128 with dst := 6, sa := 7 }),
   (128, 0x000000000000000000000208070AAE97, .mma { blank .f128 with pen := true, pneg := true, pred := 10, dst := 10, sa := 7, sb := 8, sc := 2 }),
   (64, 0x0000000000000299, .oprdy (blank .f64)),
   (64, 0x000000000001029D, .azero { blank .f64 with dst := 1 }),
   (64, 0x00000D030B0A02A1, .ald { blank .f64 with dst := 10, sa := 11, sb := 3, sc := 13 }),
   (96, 0x80860B8F00000D030B0A02A6, .ast { blank .f96 with dst := 10, sa := 11, sb := 3, sc := 13, imm := 0x80860B8F }),
   (64, 0x00000003000A02A9, .adrain { blank .f64 with dst := 10, sb := 3 })]

theorem test_wordsMatrix1 : ∀ p ∈ wordsMatrix1, decodeTableWord p.1 p.2.1 = some p.2.2 := by decide

/-- Each of them issues on the warp of `base`: the premise of the statements about its effect. -/
theorem witness_wordsMatrix1 : ∀ p ∈ wordsMatrix1, can base p.2.2 = true := by decide

/-- R203 to R222: words of qst to ttrans in the order of the opcode map, written out from its tables. -/
def wordsMatrix2 : List (Nat × Nat × Instr) :=
  [(128, 0x0000000E80880F9500000D030B0A02AF, .qst { blank .f128 with dst := 10, sa := 11, sb := 3, sc := 13, imm := 0x80880F95, sd := 14 }),
   (64, 0x000000060B0A02B1, .cyld { blank .f64 with dst := 10, sa := 11, sb := 6 }),
   (96, 0x808A139B000000060B0A02B6, .cyst { blank .f96 with dst := 10, sa := 11, sb := 6, imm := 0x808A139B }),
   (64, 0x00000000000402B9, .cyzero { blank .f64 with dst := 4 }),
   (64, 0x00000000000A02BD, .mlease { blank .f64 with dst := 10 }),
   (64, 0x0000000C000002C1, .gang { blank .f64 with sb := 12 }),
   (64, 0x00000000070602C5, .tmov { blank .f64 with dst := 6, sa := 7 }),
   (64, 0x00000000070602C9, .ttrans { blank .f64 with dst := 6, sa := 7 })]

theorem test_wordsMatrix2 : ∀ p ∈ wordsMatrix2, decodeTableWord p.1 p.2.1 = some p.2.2 := by decide

/-- Each of them issues on the warp of `base`: the premise of the statements about its effect. -/
theorem witness_wordsMatrix2 : ∀ p ∈ wordsMatrix2, can base p.2.2 = true := by decide

/-- R203 to R222: words of emit to sample in the order of the opcode map, written out from its tables. -/
def wordsGraph1 : List (Nat × Nat × Instr) :=
  [(128, 0x00000000000000000000000084009F03, .emit { blank .f128 with pen := true, pneg := true, pred := 9, sa := 132 }),
   (128, 0x00000000000000000000000000000307, .eclose (blank .f128)),
   (128, 0x0000000000000000000000000B0A030B, .recv { blank .f128 with dst := 10, sa := 11 }),
   (128, 0x0000000000000000000000000000030F, .rrel (blank .f128)),
   (96, 0x809427B9000000000B0A0312, .launch { blank .f96 with dst := 10, sa := 11, imm := 0x809427B9 }),
   (64, 0x0000000C00000315, .depdec { blank .f64 with sb := 12 }),
   (64, 0x00000D0C0B0A0319, .gcut { blank .f64 with dst := 10, sa := 11, sb := 12, sc := 13 }),
   (64, 0x000000000B0A031D, .gstatCut { blank .f64 with dst := 10, sa := 11 }),
   (64, 0x020000000B0A031D, .gstatFrom { blank .f64 with dst := 10, sa := 11, sub := 1 }),
   (64, 0x040000000B0A031D, .gstatCur { blank .f64 with dst := 10, sa := 11, sub := 2 }),
   (64, 0x060000000B0A031D, .gstatMoving { blank .f64 with dst := 10, sa := 11, sub := 3 }),
   (128, 0x0000A000809B35CE0000008884465723, .sample { blank .f128 with pen := true, pred := 5, dst := 70, sa := 132, sb := 136, imm := 0x809B35CE, dst2 := 160 })]

theorem test_wordsGraph1 : ∀ p ∈ wordsGraph1, decodeTableWord p.1 p.2.1 = some p.2.2 := by decide

/-- Each of them issues on the warp of `base`: the premise of the statements about its effect. -/
theorem witness_wordsGraph1 : ∀ p ∈ wordsGraph1, can base p.2.2 = true := by decide

/-- R203 to R222: words of sgrad to orde in the order of the opcode map, written out from its tables. -/
def wordsGraph2 : List (Nat × Nat × Instr) :=
  [(128, 0x0000A000809C37D10000008884466F27, .sgrad { blank .f128 with pen := true, pneg := true, pred := 6, dst := 70, sa := 132, sb := 136, imm := 0x809C37D1, dst2 := 160 }),
   (128, 0x0000A000809D39D4000000888446772B, .gath4 { blank .f128 with pen := true, pred := 7, dst := 70, sa := 132, sb := 136, imm := 0x809D39D4, dst2 := 160 }),
   (128, 0x00000000000000000000008884468F2F, .raybox { blank .f128 with pen := true, pneg := true, pred := 8, dst := 70, sa := 132, sb := 136 }),
   (128, 0x00000000000000000000008884469733, .raytri { blank .f128 with pen := true, pred := 9, dst := 70, sa := 132, sb := 136 }),
   (64, 0x000000888446AF35, .rayxf { blank .f64 with pen := true, pneg := true, pred := 10, dst := 70, sa := 132, sb := 136 }),
   (64, 0x000000880046B739, .interp { blank .f64 with pen := true, pred := 11, dst := 70, sb := 136 }),
   (96, 0x80A243E3000000008400CF3E, .meshv { blank .f96 with pen := true, pneg := true, pred := 12, sa := 132, imm := 0x80A243E3 }),
   (64, 0x000000888400D741, .meshp { blank .f64 with pen := true, pred := 13, sa := 132, sb := 136 }),
   (96, 0x80A447E9000000000000EF46, .meshnV { blank .f96 with pen := true, pneg := true, pred := 14, imm := 0x80A447E9 }),
   (64, 0x020000880000F745, .meshnP { blank .f64 with pen := true, pred := 15, sb := 136, sub := 1 }),
   (64, 0x0000000000001F49, .ordb { blank .f64 with pen := true, pneg := true, pred := 1 }),
   (64, 0x000000000000274D, .orde { blank .f64 with pen := true, pred := 2 })]

theorem test_wordsGraph2 : ∀ p ∈ wordsGraph2, decodeTableWord p.1 p.2.1 = some p.2.2 := by decide

/-- Each of them issues on the warp of `base`: the premise of the statements about its effect. -/
theorem witness_wordsGraph2 : ∀ p ∈ wordsGraph2, can base p.2.2 = true := by decide

/-- R203 to R222: words of rtwr to rate in the order of the opcode map, written out from its tables. -/
def wordsGraph3 : List (Nat × Nat × Instr) :=
  [(128, 0x000000000000000000008C0084003F53, .rtwr { blank .f128 with pen := true, pneg := true, pred := 3, sa := 132, sc := 140 }),
   (128, 0x00000000000000000000000084464757, .rtrd { blank .f128 with pen := true, pred := 4, dst := 70, sa := 132 }),
   (64, 0x0000000000005F59, .kill { blank .f64 with pen := true, pneg := true, pred := 5 }),
   (64, 0x0000000C0000035D, .rate { blank .f64 with sb := 12 })]

theorem test_wordsGraph3 : ∀ p ∈ wordsGraph3, decodeTableWord p.1 p.2.1 = some p.2.2 := by decide

/-- Each of them issues on the warp of `base`: the premise of the statements about its effect. -/
theorem witness_wordsGraph3 : ∀ p ∈ wordsGraph3, can base p.2.2 = true := by decide

/-! Well-formedness: a term that passes each check of R215, and one that fails it alone. -/

/-- At the edge of each range. -/
theorem test_wellFormed : ([
    .sadd { blank .f64 with dst := 7, sa := 1, sb := 2, ty := .i32 },
    .sadd { blank .f96 with dst := 7, sa := 1, ty := .i32, imm := 5 },
    .smov { blank .f64 with dst := 7, sa := 1 },
    .sadd { blank .f64 with dst := 63, sa := 1, sb := 2, ty := .i32 },
    .pmovToPredicate { blank .f64 with dst := 15, sa := 1, sub := 1 },
    .tzero { blank .f64 with dst := 15 },
    .tshape { blank .f64 with dst := 15, sa := 1, sb := 2, sc := 3 },
    .azero { blank .f64 with dst := 7 },
    .cyzero { blank .f64 with dst := 7 },
    .sbarReset { blank .f64 with dst := 7, sub := 2 },
    .sample { blank .f128 with dst := 252, sa := 253 },
    .emit { blank .f128 with sa := 4 },
    .vadd { blank .f64 with dst := 2, sa := 4, sb := 6, ty := .i32, pen := true, pneg := true, pred := 15 },
    .vadd { blank .f64 with dst := 2, sa := 4, sb := 6, ty := .i32 },
    .sadd { blank .f64 with dst := 7, sa := 1, sb := 2, ty := .n64 },
    .ld { blank .f64 with dst := 7, sa := 1, ty := .b32, fs := 5 },
    .vadd { blank .f64 with dst := 2, sa := 4, sb := 6, ty := .f32, sub := 4 },
    .emit { blank .f128 with sa := 4, ext := 0x1F },
    .csrr { blank .f96 with dst := 7, imm := 0x1000 },
    .getid { blank .f96 with dst := 7, imm := 15 },
    .ldp { blank .f64 with dst := 253, sa := 1, ty := .b32 },
    .vcvt { blank .f64 with dst := 2, sa := 4, sc := 4, ty := .f32 },
    .jmpLink { blank .f64 with sa := 1, sub := 1 }] : List Instr).all (·.wellFormed) = true := by decide

/-- Just outside: length (R204, R216): a form's LEN is one of its own; a field that the format lacks is 0; an unused field is 0 (R207); scalar index; predicate index; tile index; shape index; accumulator index; accumulator scale index; barrier index; register group; IMM32 of a 128-bit form; a guard on a form of class U (R206); PNEG and PRED without PEN; TYPE (R211); FS of a form without it; scope (R125); SUB; EXT16; identity selector; the types of a conversion (R276); SUB selects another form. -/
theorem test_ill_formed : ([
    .sadd { blank .f128 with dst := 7, sa := 1, sb := 2, ty := .i32 },
    .sadd { blank .f64 with dst := 7, sa := 1, sb := 2, ty := .i32, imm := 5 },
    .sadd { blank .f96 with dst := 7, sa := 1, ty := .i32, imm := 5, ext := 1 },
    .smov { blank .f64 with dst := 7, sa := 1, sb := 1 },
    .sadd { blank .f64 with dst := 64, sa := 1, sb := 2, ty := .i32 },
    .pmovToPredicate { blank .f64 with dst := 16, sa := 1, sub := 1 },
    .tzero { blank .f64 with dst := 16 },
    .tshape { blank .f64 with dst := 16, sa := 1, sb := 2, sc := 3 },
    .azero { blank .f64 with dst := 8 },
    .cyzero { blank .f64 with dst := 8 },
    .sbarReset { blank .f64 with dst := 8, sub := 2 },
    .sample { blank .f128 with dst := 253, sa := 253 },
    .emit { blank .f128 with sa := 4, imm := 1 },
    .sadd { blank .f64 with dst := 7, sa := 1, sb := 2, ty := .i32, pen := true },
    .vadd { blank .f64 with dst := 2, sa := 4, sb := 6, ty := .i32, pneg := true },
    .vadd { blank .f64 with dst := 2, sa := 4, sb := 6, ty := .i32, pred := 1 },
    .sadd { blank .f64 with dst := 7, sa := 1, sb := 2, ty := .f64 },
    .sadd { blank .f64 with dst := 7, sa := 1, sb := 2, ty := .i32, fs := 1 },
    .ld { blank .f64 with dst := 7, sa := 1, ty := .b32, fs := 6 },
    .vadd { blank .f64 with dst := 2, sa := 4, sb := 6, ty := .f32, sub := 5 },
    .emit { blank .f128 with sa := 4, ext := 0x20 },
    .getid { blank .f96 with dst := 7, imm := 16 },
    .vcvt { blank .f64 with dst := 2, sa := 4, sc := 6, ty := .f32 },
    .jmpLink { blank .f64 with sa := 1 }] : List Instr).all (fun i => !i.wellFormed) = true := by decide

/-- R215: the ranges that step 7 gives, of a CSR number (R261) and of a quad index (R283), raise 0x06 at issue. -/
theorem test_late_ranges : [.csrr { blank .f96 with dst := 7, imm := 0x1200 }, .ldp { blank .f64 with dst := 250, sa := 1, ty := .b32 }].all
    (fun i => gives base i fun t => decide ((t.warp 0 0).tcause = 0x06 ∧ (t.warp 0 0).tm = true)) = true := by decide

/-- A step of the part that is no instruction form has no word. -/
theorem test_event_wellFormed : (Instr.hostEvt).wellFormed = true ∧ encode .hostEvt = none := by decide

/-! Witnesses: issuing scalar and mask instructions; operands of the float and taper rules. -/

theorem witness_ScalarArithmeticResults :
    let f : Fields := { blank .f64 with dst := 63, sa := 1, sb := 2, ty := .n64 }
    [Instr.sadd f, .ssub f, .smul f, .smulh f, .sand f, .sor f, .sxor f, .sshl f, .sshr f, .ssra f, .smin f, .smax f, .sdiv f, .srem f].all
      (can (regs 5 0 0 0)) = true := by decide

theorem witness_ScalarCompareMoveAndBitFieldResults :
    let f : Fields := { blank .f64 with dst := 7, sa := 1, sb := 2, ty := .i32 }
    let one : Fields := { blank .f64 with dst := 7, sa := 1 }
    let wide : Fields := { blank .f96 with dst := 7, imm := 0x80000000 }
    [Instr.scmp { f with sub := 5 }, .ssel { f with sc := 3, ty := .f32 }, .smov one, .sli wide, .sliHi { wide with sub := 1 }, .sclz { one with ty := .n64 }, .spopc { one with ty := .n64 },
      .sbfx f, .sbfi { f with sc := 3 }].all (can (regs 1 2 3 4)) = true := by decide

theorem witness_MaskAndPredicateResults :
    let a : Fields := { blank .f64 with sa := 1 }
    [Instr.mand a, .mset a, .mandn a, .mget { blank .f64 with dst := 7 }, .pmovToScalar { blank .f64 with dst := 7, sa := 15 }, .pmovToPredicate { a with dst := 15, sub := 1 },
      .plog { blank .f64 with dst := 1, sa := 2, sb := 3, sub := 4 }].all (can (regs 1 2 3 4)) = true
    ∧ (Instr.pmovToScalar { blank .f64 with dst := 63, sa := 15 }).formCause = none
    ∧ (Instr.pmovToScalar { blank .f64 with dst := 63, sa := 15, sub := 2 }).formCause = some 0x04
    ∧ (Instr.pmovToScalar (blank .f64)).formCause = none ∧ (Instr.pmovToScalar { blank .f64 with sub := 2 }).formCause = some 0x06
    ∧ (Instr.pmovToPredicate { blank .f64 with dst := 15, sa := 63, sub := 1 }).formCause = none
    ∧ (Instr.plog { blank .f64 with dst := 15, sa := 15, sub := 6 }).formCause = none
    ∧ (Instr.plog { blank .f64 with dst := 15, sa := 15, sub := 7 }).formCause = some 0x06
    ∧ (Instr.plog { blank .f64 with dst := 15, sa := 15, sb := 1 }).formCause = none
    ∧ (Instr.plog { blank .f64 with dst := 15, sa := 15, sb := 1, sub := 7 }).formCause = some 0x04 := by decide

set_option maxRecDepth 4000 in
theorem witness_FunctionSpecialCases : (decodeF fp32 0x7F800001).isNan = true ∧ (decodeF fp32 0xFF800000).lt (.fin false 0 1 0) = true
    ∧ (decodeF fp32 0x80000001).lt (.fin false 0 1 0) = true ∧ (0xFF800000 : Nat) < 2 ^ 32 := by decide

set_option maxRecDepth 4000 in
theorem witness_Taper8ValuesAndRounding : (FVal.fin false 31 2 0).le (.fin false 31 2 0) = true ∧ (taperBits (.fin false 0 1 0) = 0 ∧ taperBits (.fin false 1 1 0) ≠ 0)
    ∧ taperBits (.fin false 31 2 0) < 128 := by decide

/-! Witnesses: encoding, decoding, the step, scalar instructions and control. -/

theorem witness_DecodeOfEncodeIsTheInstruction : (Instr.sadd { blank .f64 with dst := 10, sa := 11, sb := 12, ty := .i32 }).wellFormed = true
    ∧ (row (.sadd { blank .f64 with dst := 10, sa := 11, sb := 12, ty := .i32 })).isSome = true := by decide

theorem witness_EncodeOfDecodeIsTheBytes : decode (tableBytes 64 0x4000000C0B0A0001 ++ [1, 2, 3])
    = .ins (.sadd { blank .f64 with dst := 10, sa := 11, sb := 12, ty := .i32 }) := by decide

/-- A state whose first two fetch blocks hold an `sadd`, and 31 fill bytes with an `sadd` behind them. -/
def twoBlocks (pc : W64) : State :=
  (State.reset.place1 ((tableBytes 64 0x4000000C0B0A0001).take 8 ++ List.replicate 24 0 ++ (tableBytes 64 0x4000000C0B0A0001).take 8 ++ List.replicate 24 0)).modWarp 0 0
    fun x => { x with pc := pc }

/-- Block k of a fetch, at pc, is bytes that read as y from the address on. -/
def fetches (s : State) (k : Nat) (pc : W64) (y : Decoded) : Bool :=
  match s.fetchBlock 0 0 k pc with
  | .bytes b _ _ => decide (decode (b.drop (pc.toNat % 32)) = y)
  | _ => false

theorem witness_StepRunsTheDecodedInstruction :
    let add : Instr := .sadd { blank .f64 with dst := 10, sa := 11, sb := 12, ty := .i32 }
    (fetches (twoBlocks 0) 0 0 (.ins add) = true ∧ ((twoBlocks 0).warp 0 0).async = [] ∧ ((twoBlocks 0).warp 0 0).ue = [] ∧ (twoBlocks 0).breakpoint 0 0 false 0 = none ∧ (twoBlocks 0).cur = some (0, 0))
    ∧ (fetches (twoBlocks 8) 0 8 .fill = true ∧ fetches (twoBlocks 8) 1 32 (.ins add) = true ∧ (twoBlocks 8).breakpoint 0 0 false 32 = none)
    ∧ (decode ((leBytes 16 0x4000000C0B0A0001).take 8) = .ins add
      ∧ ((lab fun x => { x with reissue := [{ insn := 0x4000000C0B0A0001, tail := 8 }] }).warp 0 0).reissue ≠ [])
    ∧ ({ State.reset with agenda := [{ ev := .exchangePeriodic 0 }] } : State).agenda ≠ []
    ∧ (State.reset.cur = none ∧ State.reset.agenda = [] ∧ State.reset.lateWarp = none ∧ ({ State.reset with agenda := [{ ev := .exchangePeriodic 0 }] } : State).lateWarp = none)
    ∧ (let s : State := { (twoBlocks 0).modWarp 0 0 fun x => { x with aged := issueBound } with cur := none }
       s.cur = none ∧ s.lateWarp = some (0, 0)) := by decide

theorem witness_StepKeepsMemoriesCanonical : State.reset.memoriesWf
    ∧ (∃ t, exec (.warpIssue State.reset.turn) { State.reset with turn := 1 } = .next t) := by
  exact ⟨⟨by decide, by decide, by decide, fun _ h => nomatch h⟩, _, rfl⟩

theorem witness_ReadAfterWriteOfOneByte : State.reset.fails 0 = false
    ∧ ({ State.reset with hostFail := [(0, 128)] } : State).fails 0 = true ∧ ({ State.reset with hostFail := [(0, 128)] } : State).fails 128 = false := by decide

theorem witness_OperandsAreCaptured :
    can base (.sadd { blank .f64 with dst := 1, sa := 2, sb := 3, ty := .i32 }) = true
    ∧ wit (lab fun x => { x with reissue := [{ insn := 0x4000000C0B0A0001, sop := [7, 8], tail := 8 }] })
      (.sadd { blank .f64 with dst := 10, sa := 11, sb := 12, ty := .i32 }) (fun c => c.re && decide (c.sA = 7)) = true := by decide

/-- R236: 2^31 - 1 plus 1 at i32 is sign-extended; at n32 it is zero-extended. -/
theorem test_sadd_wraps :
    gives (regs 0x7FFFFFFF 1 0 0) (.sadd { blank .f64 with dst := 5, sa := 1, sb := 2, ty := .i32 }) (fun t => decide ((t.warp 0 0).getS 5 = 0xFFFFFFFF80000000)) = true
    ∧ gives (regs 0x7FFFFFFF 1 0 0) (.sadd { blank .f64 with dst := 5, sa := 1, sb := 2, ty := .n32 }) (fun t => decide ((t.warp 0 0).getS 5 = 0x80000000)) = true := by decide

/-- R236: division by 0 gives all ones and the dividend; the most negative number by -1 gives itself and 0. -/
theorem test_sdiv_corners :
    gives (regs 5 0 0 0) (.sdiv { blank .f64 with dst := 5, sa := 1, sb := 2, ty := .i32 }) (fun t => decide ((t.warp 0 0).getS 5 = 0xFFFFFFFFFFFFFFFF)) = true
    ∧ gives (regs 5 0 0 0) (.srem { blank .f64 with dst := 5, sa := 1, sb := 2, ty := .i32 }) (fun t => decide ((t.warp 0 0).getS 5 = 5)) = true
    ∧ gives (regs 0x8000000000000000 0xFFFFFFFFFFFFFFFF 0 0) (.sdiv { blank .f64 with dst := 5, sa := 1, sb := 2, ty := .i64 })
      (fun t => decide ((t.warp 0 0).getS 5 = 0x8000000000000000)) = true
    ∧ gives (regs 0x8000000000000000 0xFFFFFFFFFFFFFFFF 0 0) (.srem { blank .f64 with dst := 5, sa := 1, sb := 2, ty := .i64 })
      (fun t => decide ((t.warp 0 0).getS 5 = 0)) = true := by decide

/-- R236, R213: shifts by the width give 0, or all sign bits; the 96-bit form sign-extends its immediate. -/
theorem test_shift_by_the_width :
    gives (regs 0x80000000 32 0 0) (.sshl { blank .f64 with dst := 5, sa := 1, sb := 2, ty := .n32 }) (fun t => decide ((t.warp 0 0).getS 5 = 0)) = true
    ∧ gives (regs 0x80000000 32 0 0) (.ssra { blank .f64 with dst := 5, sa := 1, sb := 2, ty := .i32 })
      (fun t => decide ((t.warp 0 0).getS 5 = 0xFFFFFFFFFFFFFFFF)) = true
    ∧ gives (regs 1 0 0 0) (.sadd { blank .f96 with dst := 5, sa := 1, ty := .i64, imm := 0xFFFFFFFE })
      (fun t => decide ((t.warp 0 0).getS 5 = 0xFFFFFFFFFFFFFFFF)) = true := by decide

/-- R238: counts of leading zeros and of ones at 32 bits; `sli.hi` keeps the low half. -/
theorem test_counts_and_halves :
    gives (regs 0x00010000 0 0 0) (.sclz { blank .f64 with dst := 5, sa := 1, ty := .i32 }) (fun t => decide ((t.warp 0 0).getS 5 = 15)) = true
    ∧ gives (regs 0xF0F 0 0 0) (.spopc { blank .f64 with dst := 5, sa := 1, ty := .i32 }) (fun t => decide ((t.warp 0 0).getS 5 = 8)) = true
    ∧ gives (regs 0x1122334455667788 0 0 0) (.sliHi { blank .f96 with dst := 1, sub := 1, imm := 0x99AABBCC })
      (fun t => decide ((t.warp 0 0).getS 1 = 0x99AABBCC55667788)) = true
    ∧ gives (regs 1 0 0 0) (.smov { blank .f64 with dst := 63, sa := 1 }) (fun t => decide ((t.warp 0 0).getS 63 = 0)) = true := by decide

theorem witness_BranchesCallsAndReturnsGoOn :
    let go := fun (i : Instr) => wit (regs 0 0 0 0) i fun c => decide ((c.ins.pc + c.f.imm.signExtend 64).toNat % 4 = 0)
    (go (.bra { blank .f96 with imm := 4 }) && go (.bz { blank .f96 with sa := 1, imm := 8 }) && go (.bnz { blank .f96 with sa := 1, imm := 8 })
      && go (.bexz { blank .f96 with imm := 8 })) = true
    ∧ wit (lab fun x => { x with stack := List.replicate 15 0 }) (.call { blank .f96 with imm := 8 }) (fun c => decide ((c.ins.pc + c.f.imm.signExtend 64).toNat % 4 = 0)) = true
    ∧ wit (regs 4 0 0 0) (.jmp { blank .f64 with sa := 1 }) (fun c => decide (c.sA.toNat % 4 = 0)) = true
    ∧ wit (lab fun x => { x with sregs := [(1, 4)], stack := List.replicate 15 0 }) (.jmpLink { blank .f64 with sa := 1, sub := 1 })
      (fun c => decide (c.sA.toNat % 4 = 0)) = true
    ∧ can (lab fun x => { x with stack := [64] }) (.ret (blank .f64)) = true := by decide

theorem witness_ControlInstructionsThatTrap :
    let odd := fun (i : Instr) => wit (regs 0 0 0 0) i fun c => decide ((c.ins.pc + c.f.imm.signExtend 64).toNat % 4 ≠ 0)
    let full := lab fun x => { x with sregs := [(1, 1)], stack := List.replicate 16 0 }
    (odd (.bra { blank .f96 with imm := 1 }) && odd (.bz { blank .f96 with sa := 1, imm := 3 }) && odd (.bnz { blank .f96 with sa := 1, imm := 2 })
      && odd (.bexz { blank .f96 with imm := 1 }) && odd (.call { blank .f96 with imm := 1 })) = true
    ∧ wit full (.call { blank .f96 with imm := 4 }) (fun c => decide ((c.ins.pc + c.f.imm.signExtend 64).toNat % 4 = 0)) = true
    ∧ can full (.jmpLink { blank .f64 with sa := 1, sub := 1 }) = true
    ∧ wit (regs 1 0 0 0) (.jmp { blank .f64 with sa := 1 }) (fun c => decide (c.sA.toNat % 4 ≠ 0)) = true
    ∧ wit (regs 3 0 0 0) (.jmpLink { blank .f64 with sa := 1, sub := 1 }) (fun c => decide (c.sA.toNat % 4 ≠ 0)) = true
    ∧ can base (.ret (blank .f64)) = true
    ∧ (can base (.rqrd { blank .f96 with dst := 1, sa := 2 }) && can base (.rqwr { blank .f96 with sa := 1, sb := 2 })
      && can base (.rqdrop (blank .f96))) = true
    ∧ (can (handler 1 0 0) (.rqrd { blank .f96 with dst := 1, sa := 2, imm := 1 }) && can (handler 1 0 0) (.rqwr { blank .f96 with sa := 1, sb := 2, imm := 16 })
      && can (handler 1 0 0) (.rqdrop { blank .f96 with imm := 1 })) = true
    ∧ wit (handler 1 136 0) (.rqrd { blank .f96 with dst := 2, sa := 1 }) (fun c => decide (136 ≤ c.sA.toNat)) = true
    ∧ wit (handler 1 136 0) (.rqwr { blank .f96 with sa := 1, sb := 2 }) (fun c => decide (136 ≤ c.sA.toNat)) = true := by decide

/-- R242: `call` pushes the address after it; `ret` goes back there. -/
theorem test_call_and_ret :
    gives base (.call { blank .f96 with imm := 64 }) (fun t => decide ((t.warp 0 0).stack = [12] ∧ (t.warp 0 0).pc = 64)) = true
    ∧ gives (lab fun x => { x with stack := [12, 40] }) (.ret (blank .f64)) (fun t => decide ((t.warp 0 0).stack = [40] ∧ (t.warp 0 0).pc = 12)) = true := by decide

/-- R244: `mand` narrows exec; R246: `plog` writes the active lanes alone. -/
theorem test_masks :
    gives (lab fun x => { x with exec := 0xFF, sregs := [(1, 0x1F0)] }) (.mand { blank .f64 with sa := 1 }) (fun t => decide ((t.warp 0 0).exec = 0xF0)) = true
    ∧ gives (lab fun x => { x with exec := 0xF, pregs := [(1, 0xFF), (2, 0x0A), (3, 0x06)] }) (.plog { blank .f64 with dst := 1, sa := 2, sb := 3, sub := 2 })
      (fun t => decide ((t.warp 0 0).getP 1 = 0xFC)) = true := by decide

theorem witness_TimeRankAndIdentityResults :
    (can base (.getid { blank .f96 with dst := 1 }) && can base (.getid { blank .f96 with dst := 1, imm := 1 }) && can base (.getid { blank .f96 with dst := 1, imm := 15 })) = true
      := by decide

theorem witness_BreakAndTrapTakeTheirCause :
    (can base (.brk (blank .f64)) && can base (.trapI (blank .f96)) && can base (.trapI { blank .f96 with imm := 1 })
      && can base (.trapI { blank .f96 with imm := 8 }) && can base (.trapI { blank .f96 with imm := 9 })) = true := by decide

/-- R185, R187, R252: `trap 8` takes cause 0x3F, saves the address after it as TRPC, and goes on at `tvec`. -/
theorem test_trap_entry :
    gives base (.trapI { blank .f96 with imm := 8 }) (fun t => let x := t.warp 0 0
      decide (x.tcause = 0x3F ∧ x.tpc = 0 ∧ x.trpc = 12 ∧ x.pc = 0x8000 ∧ x.tm = true ∧ x.ih = true ∧ x.replay = [])) = true := by decide

/-- A context whose `tvec` has EN clear. -/
def noHandler : State := base.modCtx 0 fun x => { x with csr := [(0x102, 0x10000)] }

theorem witness_TrapEntryOrRemoval :
    (base.hasWarp 0 0 = true ∧ (base.warp 0 0).tm = false ∧ (base.warp 0 0).ops = [] ∧ (base.warp 0 0).trapping = none ∧ (base.cctx 0 0x100).getLsbD 0 = true)
    ∧ ((handler 0 0 0).warp 0 0).tm = true
    ∧ (noHandler.hasWarp 0 0 = true ∧ (noHandler.warp 0 0).tm = false ∧ (noHandler.warp 0 0).ops = []
      ∧ (noHandler.warp 0 0).trapping = none ∧ (noHandler.cctx 0 0x100).getLsbD 0 = false) := by decide

/-- R185 step 2: one unfinished operation of two lanes into v8, with and without a handle slot. -/
theorem witness_TrapEntryOrRemoval_split :
    let u := fun (l : Nat) (done sent : Bool) => ({ lane := l, off := 0, size := 4, va := 4 * l, tgt := .dev (4 * l) 1, done := done, sent := sent, rd := if done then [1, 2, 3, 4] else [] } : MUnit)
    let o := fun (a b : MUnit) => ({ id := 1, ins := { held := [.v 8], lmask := 3 }, kind := .load, dst := some (.v 8), units := [a, b] } : Op)
    let s := fun (p : Op) => lab fun x => { x with ops := [p], empty := [.v 8] }
    let open_ := fun (p : Op) => decide (∀ q ∈ ((s p).warp 0 0).ops, ∀ v ∈ q.units, v.sent = true → v.done = true)
    (open_ (o (u 0 true false) (u 1 true true)) = true ∧ (o (u 0 true false) (u 1 true true)).performed = true)
    ∧ (open_ (o (u 0 true false) (u 1 false false)) = true ∧ owed (o (u 0 true false) (u 1 false false)) = 2)
    ∧ (open_ (o (u 0 false false) (u 1 false false)) = true ∧ (o (u 0 false false) (u 1 false false)).slot = none ∧ ((s (o (u 0 false false) (u 1 false false))).warp 0 0).tm = false)
    ∧ open_ (o (u 0 true false) (u 1 false true)) = false
    ∧ (let h := ((s { o (u 0 false false) (u 1 true false) with slot := some 3 }).modCore 0 fun k => { k with fresh := 4 }).modSlot 0 3 fun _ => { live := true }
       ((h.core (h.coreOf 0)).slot 3).live = true ∧ h.hasWarp 0 0 = true ∧ (h.warp 0 0).trapping = none) := by decide

theorem witness_ReturnFromTrap :
    (can (handler 16 0 0) (.rte (blank .f64)) = true ∧ ((handler 16 0 0).warp 0 0).ops.length + ((handler 16 0 0).warp 0 0).replay.length ≤ 16)
    ∧ (let s := (handler 2 0 0).modWarp 0 0 fun x => { x with replay := [{}, { insn := 1 }] }
       can s (.rte (blank .f64)) = true ∧ (s.warp 0 0).ops.length + (s.warp 0 0).replay.length ≤ 16 ∧ ∃ e ∈ (s.warp 0 0).replay, e.insn.extractLsb' 0 10 ≠ e.orig.extractLsb' 0 10)
    ∧ (can base (.rte (blank .f64)) = true ∧ (base.warp 0 0).ops.length + (base.warp 0 0).replay.length ≤ 16) := by decide

theorem witness_ReplayQueueInstructions :
    wit (handler 16 135 7) (.rqrd { blank .f96 with dst := 5, sa := 1, imm := 15 }) (fun c => decide (c.sA.toNat < 136)) = true
    ∧ wit (handler 16 0 7) (.rqwr { blank .f96 with sa := 1, sb := 2, imm := 0 }) (fun c => decide (c.sA.toNat < 136)) = true
    ∧ can (handler 1 0 0) (.rqdrop (blank .f96)) = true := by decide

theorem witness_CsrReads :
    (can base (.csrr { blank .f96 with dst := 1, imm := 0x200 }) && can base (.csrr { blank .f96 with dst := 1, imm := 0x601 })
      && can (handler 0 0 0) (.csrr { blank .f96 with dst := 1, imm := 0x003 }) && can base (.csrr { blank .f96 with dst := 1, imm := 0x10B })
      && can base (.csrr { blank .f96 with dst := 1, imm := 0x280 }) && can (handler 0 0 0) (.csrr { blank .f96 with dst := 1, imm := 0x400 })
      && can (handler 0 0 0) (.csrr { blank .f96 with dst := 1, imm := 0x600 }) && can (handler 0 0 0) (.sweepPop { blank .f96 with dst := 1, imm := 0x405 })) = true
    ∧ ((csrFields 0x200).map fun p => p.2.all fun x => !x.priv) = some true ∧ ((csrFields 0x601).map fun p => p.2.all fun x => !x.priv) = some true := by decide

theorem witness_CsrFieldsAndRefusals :
    (csrFields 0x10B).isSome = true ∧ csrFields 0x7FF = none
    ∧ (can base (.csrr { blank .f96 with dst := 1, imm := 0x1200 }) && can base (.csrw { blank .f96 with sa := 1, imm := 0x1201 })) = true
    ∧ (∀ n ∈ [0x200, 0x201], (csrFields n).any (fun p => p.2.all fun x => !x.priv) = true)
    ∧ (can base (.csrr { blank .f96 with dst := 1, imm := 0x7FF }) && can base (.csrw { blank .f96 with sa := 1, imm := 0x7FF })) = true
    ∧ (can base (.csrr { blank .f96 with dst := 1, imm := 0x003 }) && can base (.csrw { blank .f96 with sa := 1, imm := 0x000 })
      && can (handler 0 0 0) (.csrw { blank .f96 with sa := 1, imm := 0x600 })) = true
    ∧ (can base (.sweepPop { blank .f96 with dst := 1, imm := 0x405 }) && can base (.tlbInv { blank .f96 with sa := 1, imm := 0x105 })
      && can base (.fbCtlWrite { blank .f96 with sa := 1, imm := 0x108 })) = true := by decide

theorem witness_CsrWrites :
    (can (handler 0 12 0) (.csrw { blank .f96 with sa := 1, imm := 0x000 }) && can (handler 0 12 0) (.csrw { blank .f96 with sa := 1, imm := 0x003 })
      && can base (.csrw { blank .f96 with sa := 1, imm := 0x201 })) = true
    ∧ wit (handler 0 15 0) (.csrw { blank .f96 with sa := 1, imm := 0x118 }) (fun c => decide (c.sA.toNat % 16 ≤ (base.cmod 0x600).toNat % 16)) = true
    ∧ can (handler 0 1 0) (.csrw { blank .f96 with sa := 1, imm := 0x602 }) = true
    ∧ (can (handler 0 1 0) (.fbCtlWrite { blank .f96 with sa := 1, imm := 0x108 }) = true ∧ SMap.wf base.cores = true ∧ (SMap.find 0 base.ctxs).isSome = true)
    ∧ (can (handler 0 1 0) (.tlbInv { blank .f96 with sa := 1, imm := 0x105 }) = true ∧ ((handler 0 1 0).warp 0 0).allPerformed = true
      ∧ ((handler 0 1 0).warpRelease 0 0 4).waitMet 0 0 (.xlat none) = true)
    ∧ (let irq : Instr := .hostIrq { blank .f96 with sa := 1, imm := 0x114 }
       let lost := lab fun x => { x with unacked := true }
       can base irq = true ∧ (base.warp 0 0).allPerformed = true ∧ ((base.warpRelease 0 0 5).warp 0 0).unacked = false
       ∧ (base.warpRelease 0 0 5).waitMet 0 0 .acks = true
       ∧ can lost irq = true ∧ (lost.warp 0 0).allPerformed = true ∧ ((lost.warpRelease 0 0 5).warp 0 0).unacked = true) := by decide

/-- R261: a write of 0 to the low field of a clear-on-zero CSR clears that field alone. -/
theorem test_csr_write_zero_clears : csrMerge [w0f 15 0, w0f 31 16] 0x00050007 0x00010000 = 0x00050000 := by decide

/-- A core's slot n holds h. -/
def slotted (n : Nat) (h : HSlot) (f : Warp → Warp) : State := ((lab f).modCore 0 fun k => { k with fresh := n + 1 }).modSlot 0 n fun _ => h

theorem witness_HandleInstructions :
    (can (lab fun x => { x with sregs := [(1, 5)], empty := [.s 1] }) (.htest { blank .f64 with dst := 2, sa := 1 }) && can base (.htest { blank .f64 with dst := 2, sa := 1 })
      && can base (.hwait { blank .f64 with sa := 1 })) = true
    ∧ wit (regs 3 1 0 0) (.hbind { blank .f64 with dst := 5, sa := 1, sb := 2 }) (fun c => decide (c.sB.toNat ≠ 0)) = true
    ∧ (let s := slotted 3 { live := false } fun x => { x with sregs := [(1, 3)] }
       can s (.hbind { blank .f64 with dst := 5, sa := 1, sb := 2 }) = true ∧ ((s.core 0).slot 3).gen = 0 ∧ (s.core 0).fresh = 4)
    ∧ (let s := slotted 3 { live := true, bound := List.replicate 4 (0, 0, 1) } fun x => { x with sregs := [(1, 3)] }
       can s (.hbind { blank .f64 with dst := 5, sa := 1, sb := 2 }) = true ∧ ((s.core 0).slot 3).bound.length = 4 ∧ ((s.core 0).slot 3).live = true)
    ∧ (let s := slotted 3 { live := true, bound := List.replicate 3 (0, 0, 1) } fun x => { x with sregs := [(1, 3)] }
       can s (.hbind { blank .f64 with dst := 5, sa := 1, sb := 2 }) = true ∧ ((s.core 0).slot 3).bound.length = 3
       ∧ can s (.hcancel { blank .f64 with sa := 1 }) = true ∧ ((s.core 0).slot 3).pend = none)
    ∧ can (regs 0x1003 0 0 0) (.hcancel { blank .f64 with sa := 1 }) = true := by decide

/-- R257's table, a state for each kind of operation that slot 3 can belong to. -/
theorem witness_HandleInstructions_cancel :
    let s := slotted 3 { live := true } fun x => { x with sregs := [(1, 3)] }
    let with_ := fun (f : Core → Core) => s.modCore 0 f
    let latch : Latch := { id := 5, wg := 0, members := 3, ins := blank .f128, sop := [], arrived := [(0, 3)], since := 0 }
    let op : MmaOp := { id := 4, wg := 0, queue := 0, ctx := 0, members := [(0, 3)], ins := { blank .f128 with dst := 10, sa := 7, sb := 8, sc := 2 }, gang := 0, sl := 0, issued := false }
    let e : EOp := { id := 9, wg := 0, w := 0, ctx := 0, kind := .tile 3, slot := some 3, units := [{ src := .va 0, dst := .tile 3 0, size := 4 }] }
    let far : MUnit := { lane := 0, off := 0, size := 4, va := 0, tgt := .host 0 true }
    let atomic := fun (u : MUnit) => s.modWarp 0 0 fun x => { x with ops := [{ id := 7, ins := {}, kind := .atomic 0, slot := some 3, units := [u] }] }
    (((with_ fun k => { k with eops := [e] }).core 0).eops = [e] ∧ e.slot = some 3 ∧ (s.core 0).eops = [] ∧ ((s.core 0).slot 3).live = true ∧ ((s.core 0).slot 3).pend = none
      ∧ can (with_ fun k => { k with eops := [e] }) (.hcancel { blank .f64 with sa := 1 }) = true)
    ∧ (((with_ fun k => { k with latches := [latch] }).core 0).latches = [latch] ∧ latch.arrived = [(0, 3)])
    ∧ (((s.modWarp 0 0 fun x => { x with blocked := some { wait := .latch 3, ins := {} } }).warp 0 0).blocked.map (·.wait) = some (.latch 3) ∧ (s.core 0).latches = []
      ∧ (s.modWarp 0 0 fun x => { x with blocked := some { wait := .latch 3, ins := {} } }).coreOf 0 = 0)
    ∧ (((with_ fun k => { k with mma := [op] }).core 0).mma = [op] ∧ op.issued = false ∧ ({ op with issued := true } : MmaOp).members = [(0, 3)])
    ∧ (((with_ fun k => { k with hwait := [(3, .lease 0 2)] }).core 0).hwait.find? (fun p => p.1 = 3) = some (3, .lease 0 2) ∧ (s.core 0).mma = [])
    ∧ (((with_ fun k => { k with hwait := [(3, .lease 0 2), (4, .lease 0 2)] }).core 0).hwait.any (fun p => decide (p.1 ≠ 3 ∧ p.2 = .lease 0 2)) = true)
    ∧ (((with_ fun k => { k with launches := [{ ctx := 0, q := 0, slot := 3, va := 0, wg := 0, w := 0, token := {} }] }).core 0).launches.map (·.slot) = [3] ∧ (s.core 0).hwait = [])
    ∧ (((atomic far).warp 0 0).ops.map (·.slot) = [some 3] ∧ far.tgt.far = true ∧ far.sent = false ∧ far.done = false ∧ ({ far with sent := true } : MUnit).sent = true
      ∧ (atomic far).hasWarp 0 0 = true ∧ (s.core 0).launches = [])
    ∧ (s.warp 0 0).ops = [] := by decide

/-! Witnesses: vector instructions. -/

theorem witness_VectorIntegerArithmetic : float .i32 = false
    ∧ can base (.vadd { blank .f64 with dst := 2, sa := 4, sb := 6, ty := .i32, sub := 1 }) = true
    ∧ can base (.vadd { blank .f64 with dst := 2, sa := 4, sb := 6, ty := .n64 }) = true
    ∧ can base (.vdot4 { blank .f64 with dst := 2, sa := 4, sb := 6, sc := 8, ty := .i8 }) = true := by decide

theorem witness_VectorFloatArithmetic : float .f16 = true
    ∧ can base (.vfma { blank .f64 with dst := 2, sa := 4, sb := 6, sc := 8, ty := .f16, sub := 4 }) = true
    ∧ can base (.vmin { blank .f64 with dst := 2, sa := 4, sb := 6, ty := .f64 }) = true
    ∧ (can base (.vrcp { blank .f64 with dst := 2, sa := 4 }) && can base (.vrsq { blank .f64 with dst := 2, sa := 4 })
      && can base (.vexp2 { blank .f64 with dst := 2, sa := 4 }) && can base (.vlog2 { blank .f64 with dst := 2, sa := 4 })
      && can base (.vsinpi { blank .f64 with dst := 2, sa := 4 }) && can base (.vcospi { blank .f64 with dst := 2, sa := 4 })) = true := by decide

/-- Lane 0 to 3 of v4, v6 and v8. -/
def lanes3 (a b d : Lanes) : State := lab fun x => { x with vregs := [(4, a), (6, b), (8, d)] }
/-- Lane l of v2 after i. -/
def lane2 (s : State) (i : Instr) (l : Nat) (v : W32) : Bool := gives s i fun t => decide (lane ((t.warp 0 0).getV 2) l = v)

/-- R268: `.sat` clamps at i32; modulo otherwise; an inactive lane keeps its value (R10). -/
theorem test_vadd :
    lane2 (lanes3 [0x7FFFFFFF, 5] [1, 6] []) (.vadd { blank .f64 with dst := 2, sa := 4, sb := 6, ty := .i32, sub := 1 }) 0 0x7FFFFFFF = true
    ∧ lane2 (lanes3 [0x7FFFFFFF, 5] [1, 6] []) (.vadd { blank .f64 with dst := 2, sa := 4, sb := 6, ty := .i32 }) 0 0x80000000 = true
    ∧ lane2 (lab fun x => { x with exec := 2, vregs := [(4, [1, 5]), (6, [1, 6]), (2, [77, 77])] })
      (.vadd { blank .f64 with dst := 2, sa := 4, sb := 6, ty := .i32 }) 0 77 = true
    ∧ lane2 (lab fun x => { x with exec := 2, vregs := [(4, [1, 5]), (6, [1, 6]), (2, [77, 77])] })
      (.vadd { blank .f64 with dst := 2, sa := 4, sb := 6, ty := .i32 }) 1 11 = true := by decide

/-- R93, R268: 1.0 + 2^-24 rounds to even, and upwards under rounding towards plus infinity; a NaN becomes the canonical one. -/
theorem test_vadd_rounds :
    lane2 (lanes3 [0x3F800000] [0x33800000] []) (.vadd { blank .f64 with dst := 2, sa := 4, sb := 6 }) 0 0x3F800000 = true
    ∧ lane2 (lanes3 [0x3F800000] [0x33800000] []) (.vadd { blank .f64 with dst := 2, sa := 4, sb := 6, sub := 3 }) 0 0x3F800001 = true
    ∧ lane2 (lanes3 [0x7F800001] [0x3F800000] []) (.vadd { blank .f64 with dst := 2, sa := 4, sb := 6 }) 0 0x7FC00000 = true := by decide

/-- R276: 2.5 converts to 2 in i32 with ties to even; a NaN to 0; a value above the range to its top. -/
theorem test_vcvt :
    lane2 (lanes3 [0x40200000, 0x7FC00000, 0x50000000] [] []) (.vcvt { blank .f64 with dst := 2, sa := 4, ty := .i32 }) 0 2 = true
    ∧ lane2 (lanes3 [0x40200000, 0x7FC00000, 0x50000000] [] []) (.vcvt { blank .f64 with dst := 2, sa := 4, ty := .i32 }) 1 0 = true
    ∧ lane2 (lanes3 [0x40200000, 0x7FC00000, 0x50000000] [] []) (.vcvt { blank .f64 with dst := 2, sa := 4, ty := .i32 }) 2 0x7FFFFFFF = true := by decide

/-- R279: an i32 sum over the active lanes. -/
theorem test_vred : gives (lab fun x => { x with exec := 7, vregs := [(4, [1, 2, 0xFFFFFFFF, 9])] }) (.vred { blank .f64 with dst := 5, sa := 4, ty := .i32 })
    (fun t => decide ((t.warp 0 0).getS 5 = 2)) = true := by decide

theorem witness_LanesTalkToLanes :
    can base (.vred { blank .f64 with dst := 5, sa := 4, ty := .b32, sub := 5 }) = true ∧ can base (.vred { blank .f64 with dst := 5, sa := 4 }) = true
    ∧ (let s := fun (v : W128) => base.modWg 0 fun y => { y with fs := [v] }
       let p : Instr := .vpack { blank .f64 with dst := 2, sa := 4, sub := 1 }
       let q : Instr := .vunpack { blank .f64 with dst := 2, sa := 4, sub := 3 }
       (can (s 7) p = true ∧ can (s 7) q = true ∧ (((s 7).wg 0).slot 0).ok = false)
       ∧ ((((s 0).wg 0).slot 0).ok = true ∧ (((s 0).wg 0).slot 0).skind ≠ 2 ∧ (((s 0).wg 0).slot 0).elem = 0 ∧ can (s 0) p = true ∧ can (s 0) q = true)
       ∧ ((((s 3).wg 0).slot 0).ok = true ∧ (((s 3).wg 0).slot 0).elem = 3 ∧ can (s 3) q = true ∧ ((s 3).ccore 0 0x203).toNat < 2 ^ 32)) := by decide

theorem witness_VectorCompareMoveAndConvert :
    can base (.vcmp { blank .f64 with dst := 2, sa := 4, sb := 6, sub := 6 }) = true ∧ can base (.vsel { blank .f64 with dst := 2, sa := 4, sb := 6, sc := 1, ty := .b32 }) = true
    ∧ can base (.vmov { blank .f96 with dst := 2, ty := .f64, imm := 0x3F800000 }) = true ∧ can base (.vbcast { blank .f64 with dst := 2, sa := 1, ty := .n64 }) = true
    ∧ can base (.vcvt { blank .f64 with dst := 2, sa := 4, ty := .f16 }) = true := by decide

theorem witness_FloatRounding : fp32 ∈ [fp64, fp32, fp16, bf16] ∧ 0 < 1 := by decide

set_option maxRecDepth 4000 in
/-- Half a unit above 1 lies midway in FP16, and one below the first even code; the largest finite FP16 is 0x7BFF. -/
theorem witness_FloatRounding_ties :
    let gap := fun (v : FVal) x => (FVal.add 0 (decodeF fp16 x) v.neg).abs
    let up := FVal.fin false 2049 2048 0
    let odd := FVal.fin false 2051 2048 0
    (roundF fp16 1 up = 0x3C00 ∧ (gap up 0x3C00).cmp (gap up 0x3C01) = some .eq) ∧ (roundF fp16 1 odd = 0x3C01 ∧ (gap odd 0x3C01).cmp (gap odd 0x3C02) = some .eq)
    ∧ roundF fp16 1 (.fin false 65520 1 0) + 1 = fp16.infBits ∧ roundF fp16 1 (.fin false 65519 1 0) + 1 = fp16.infBits := by decide

/-- R97: Taper8 codes of the table: 0x40 is 1, 0x7F is 15.5 and 0x01 is 2^-19. -/
theorem test_taper :
    (taperValue 0x40).cmp (.fin false 1 1 0) = some .eq ∧ (taperValue 0x7F).cmp (.fin false 31 2 0) = some .eq
    ∧ (taperValue 0x01).cmp (.fin false 1 1 (-19)) = some .eq ∧ taperBits (.fin false 1 1 0) = 0x40 := by decide

/-! Witnesses: memory, the ordering machine, handles, engines and barriers. -/

/-- Every lane of an access lands in memory of the module (or, when `far`, of the host or a peer), and nothing watches it. -/
def lands (s : State) (i : Instr) (n : Nat) (acc : Acc) (voff plain : Bool) (lanes : Cx → List Nat) (far : Bool := false) : Bool :=
  wit s i fun c =>
    let l := (lanes c).map fun k => (k, address c voff k)
    match s.checkLanes 0 (some (0, 0)) n n acc (fun s => s.kindCause 0 false plain) l [] with
    | .lanes s1 q => q.all (fun x => match x.at_ with | .ok t => decide (t.far = far) | .error _ => false) && (s1.watch c n l).isNone
    | _ => false
/-- The active lanes. -/
def acts (c : Cx) : List Nat := activeLanes c.act
/-- Two active lanes, v4 with the offsets 0 and 16, s1 and s2. -/
def mem2 (a b : W64) : State := lab fun x => { x with exec := 3, sregs := [(1, a), (2, b)], vregs := [(4, [0, 16])] }

/-- The warp with one lane, and with s1 in a page of 64 MiB, in host memory behind window 0 at 0. -/
def hosted : State :=
  (((((lab fun x => { x with exec := 1, sregs := [(1, 0x20000)] }).putBytes true 1 0x2000 (leBytes 8 (2 ^ 57 + 1))).putBytes true 1 0x4000 (leBytes 8 (3 * 2 ^ 56 + 1))).putBytes true 1 0x6000
    (leBytes 8 0x2037)).putBytes true 1 0x3000 (leBytes 16 (0x200000 * 2 ^ 64))).modCtx 0 fun x => { x with csr := x.csr ++ [(0x104, 0x2008), (0x110, 0x3000)] }

/-- The core reads bytes at an address, all written. -/
def reads (s : State) (a n : Nat) : Bool := (List.range n).all fun i => (s.readByte 0 1 true (a + i) 1).isSome && (s.homeByte true (a + i) 1).isSome
/-- The heap window has n bytes at va, with both rights. -/
def heap (s : State) (va n : Nat) : Bool :=
  [Acc.read, .write].all (fun x => match s.heapTarget 0 va n x with | some (.ok t) => decide (t = .dev va 1) | _ => false) && decide (s.ue = []) && decide (s.ce = [])

theorem witness_LoadsAndStoresEnterTheQueue :
    let v : Fields := { blank .f64 with dst := 8, sa := 1, sb := 4, sc := 8, sub := 4, ty := .i32 }
    let q : Fields := { blank .f64 with dst := 8, sa := 1, sb := 4, sc := 8, sub := 4, ty := .b32 }
    let p : Fields := { blank .f64 with dst := 5, sa := 1, sc := 2, ty := .i64 }
    lands (mem2 0xFFE0 0) (.ld { v with sc := 0 }) 4 .read true true acts = true
    ∧ lands (mem2 0xFFE0 0) (.ldp { q with sc := 0 }) 16 .read true true acts = true ∧ q.dst.toNat % 4 = 0 ∧ q.sc.toNat % 4 = 0
    ∧ (lands hosted (.ld { v with sc := 0 }) 4 .read true true acts true && lands hosted (.ldp { q with sc := 0 }) 16 .read true true acts true
      && lands hosted (.lds { p with sc := 0 }) 8 .read false true (fun _ => [0]) true) = true
    ∧ lands (mem2 0xFFF8 0) (.lds { p with sc := 0 }) 8 .read false true (fun _ => [0]) = true
    ∧ lands (mem2 0xFFE0 0) (.st { v with dst := 0 }) 4 .write true true acts = true
    ∧ lands (mem2 0xFFE0 0) (.stp { q with dst := 0 }) 16 .write true true acts = true
    ∧ lands (mem2 0xFFF8 0) (.sts { p with dst := 0 }) 8 .write false true (fun _ => [0]) = true
    ∧ wit (mem2 65500 0) (.ldl { v with fs := 0, sc := 0 }) (fun c => (acts c).all fun k => decide (address c true k % 4 = 0 ∧ address c true k + 4 ≤ 65536)) = true
    ∧ wit (mem2 65516 0) (.stl { v with fs := 0, dst := 0 }) (fun c => (acts c).all fun k => decide (address c true k % 4 = 0 ∧ address c true k + 4 ≤ 65536)) = true := by decide

theorem witness_AtomicsAndFencesEnterTheQueue :
    let v : Fields := { blank .f64 with dst := 8, sa := 1, sb := 4, sc := 10, ty := .n32 }
    let a : Fields := { blank .f128 with dst := 8, sa := 1, sb := 4, sc := 10, ty := .n32, fs := 1, ext := 4, dst2 := 63 }
    v.len = .f64
    ∧ lands (mem2 0xFFE0 0) (.atom a) 4 .atomic true true acts = true
    ∧ (mem2 0xFFE0 0).takeSlot 0 0 (some (0, 0, 7)) ≠ none ∧ can (mem2 0 0) (.atom { a with dst2 := 7 }) = true
    ∧ lands (mem2 0xFFF8 0) (.atoms { a with sb := 0, sc := 2, ext := 0, ty := .n64, dst := 5 }) 8 .atomic false true (fun _ => [0]) = true
    ∧ (can base (.fenceAcq { blank .f64 with fs := 5, sub := 1 }) && can base (.fenceRel { blank .f64 with fs := 5, sub := 2 })
      && can base (.fenceAr { blank .f64 with fs := 2, sub := 3 })) = true
    ∧ base.peerPending 0 0 = false
    ∧ (let s := base.modStream 0 3 fun x => { x with reqs := [{ tag := 0, wg := 0, w := 0, op := 0, unit_ := 0, write := true, eng := none }] }
       s.peerPending 0 0 = true ∧ can s (.fenceRel { blank .f64 with fs := 5, sub := 2 }) = true ∧ can s (.fenceAr { blank .f64 with fs := 5, sub := 3 }) = true)
    ∧ (match base.prefLanes 0 (some (0, 0)) [(0, 0)] [] with | (_, some l) => decide (l.length = 1) | _ => false) = true
    ∧ (match base.prefLanes 0 (some (0, 0)) [(0, 2 ^ 60)] [] with | (_, some l) => decide (l = []) | _ => false) = true
    ∧ (match base.flushUnits 0 (some (0, 0)) (cutLastKib (pagePieces 258 0 0x100)) [] with | (_, some l) => !l.isEmpty | _ => false) = true
    ∧ can base (.pref { blank .f64 with sa := 1 }) = true
    ∧ can base (.cflush { blank .f96 with sa := 1, imm := 0x1000000, fs := 3 }) = true := by decide

/-- R287, R289, R31: an atomic of which a lane lands in memory of the host; one without an active lane; one that finds no slot. -/
theorem witness_AtomicsAndFencesEnterTheQueue_far :
    let a : Fields := { blank .f128 with dst := 8, sa := 1, sb := 4, sc := 10, ty := .n32, fs := 1, ext := 4, dst2 := 63 }
    let none_ := lab fun x => { x with exec := 0 }
    (lands hosted (.atom a) 4 .atomic true true acts true = true ∧ lands hosted (.atoms { a with sb := 0, sc := 2, ext := 0, dst := 5 }) 4 .atomic false true (fun _ => [0]) true = true
      ∧ (hosted.takeSlot 0 0 (some (0, 0, 7))).isSome = true)
    ∧ (lands none_ (.atom { a with dst2 := 7 }) 4 .atomic true true acts = true ∧ wit none_ (.atom { a with dst2 := 7 }) (fun c => decide (c.act = 0) && decide (c.ins.faults = []) && !c.ins.fellBack) = true
      ∧ ((none_.takeSlot 0 0 (some (0, 0, 7))).map (·.1)) = some 0)
    ∧ (let s := (mem2 0xFFE0 0).modCore 0 fun k => { k with fresh := 4096, recent := [] }
       lands s (.atom { a with dst2 := 7 }) 4 .atomic true true acts = true ∧ s.takeSlot 0 0 (some (0, 0, 7)) = none) := by decide

theorem witness_MemoryAccessesThatTrap :
    let p : Fields := { blank .f64 with dst := 5, sa := 1, ty := .i32 }
    wit (regs 3 0 0 0) (.lds p) (fun c => decide (address c false 0 % 4 ≠ 0)) = true
    ∧ wit (regs 1 0 0 0) (.sts { p with dst := 0, sc := 2 }) (fun c => decide (address c false 0 % 4 ≠ 0)) = true
    ∧ wit (regs 2 0 0 0) (.atoms { blank .f128 with dst := 5, sa := 1, sc := 2, ty := .n32, fs := 1, dst2 := 63 }) (fun c => decide (address c false 0 % 4 ≠ 0)) = true
    ∧ wit (mem2 65524 0) (.ldl { blank .f64 with dst := 8, sa := 1, sb := 4, sub := 4, ty := .i32 })
      (fun c => decide (65536 < address c true 1 + 4 ∧ address c true 0 + 4 ≤ 65536)) = true
    ∧ wit (mem2 65522 0) (.stl { blank .f64 with sa := 1, sb := 4, sc := 8, sub := 4, ty := .i32 }) (fun c => decide (address c true 0 % 4 ≠ 0)) = true
    ∧ (can base (.ldp { blank .f64 with dst := 250, sa := 1, ty := .b32 }) && can base (.stp { blank .f64 with sa := 1, sc := 250, ty := .b32 })) = true
    ∧ (can base (.cflush { blank .f96 with sa := 1, imm := 0, fs := 3 }) && can base (.cflush { blank .f96 with sa := 1, imm := 0x1000001, fs := 3 })) = true := by decide

/-- Three lanes at 2, 0x20000 and 4. -/
def odd3 : State := lab fun x => { x with exec := 7, sregs := [(1, 2)], vregs := [(4, [0, 0x1FFFE, 2])] }

/-- The load of a word by each of them. -/
def load3 : Fields := { blank .f64 with dst := 8, sa := 1, sb := 4, sub := 4, ty := .i32 }

/-- The first lane is misaligned, the second finds no table node, and the third lands. -/
theorem witness_MemoryAccessesThatTrap_lanes : ∃ s1 q, wit odd3 (.ld load3) (fun c => decide (((activeLanes c.act).map fun k => (k, address c (load3.sub.getLsbD 2) k))
      = [(0, 2), (1, 0x20000), (2, 4)])) = true
    ∧ Checks 0 (some (0, 0)) 4 .read (fun s => s.kindCause 0 false true) odd3 [(0, 2), (1, 0x20000), (2, 4)] s1 q
    ∧ q.map (fun x => (x.1, x.2.2)) = [(0, some 0x09), (1, some 0x0C), (2, none)] :=
  have h1 : odd3.translate 0 0 0x20000 4 .read (some (0, 0)) = .fault 0x0C {} := by decide
  have h2 : (odd3.missed 0 (some (0, 0)) {}).translate 0 0 4 4 .read (some (0, 0)) = .ok (.dev 4 1) {} := by decide
  ⟨_, _, by decide, .odd _ _ _ _ _ _ (by decide) (.fault _ _ _ _ _ _ _ _ (by decide) h1 (.lands _ _ _ _ _ _ _ _ (by decide) h2 (.none _))), by decide⟩

/-- The warp with one unfinished operation of one unit. -/
def queued (o : Op) (u : MUnit) : State := lab fun x => { x with ops := [{ o with id := 7, units := [u] }] }
/-- A unit of four bytes at device address 0x100. -/
def unit4 : MUnit := { lane := 0, off := 0, size := 4, va := 0x100, tgt := .dev 0x100 1 }

/-- The premises about the operation that a unit belongs to. -/
def performable (s : State) : Bool :=
  match s.opOf 0 0 7 with
  | some o => s.hasWarp 0 0 && !o.rel && o.units.all (fun u => !u.done && !u.sent && decide (u.fault = none)) && !o.performed && decide ((s.warp 0 0).trapping = none) && decide (o.failed = []) && orderOk ((s.warp 0 0).before 7) o
    && (match o.units with | u :: _ => bytesOk ((s.warp 0 0).before 7) u && !shadowed o u | [] => false)
  | none => false

theorem witness_UnitsArePerformed :
    performable (queued { id := 7, ins := { held := [.v 8] }, kind := .load } unit4) = true
    ∧ performable (queued { id := 7, ins := {}, kind := .store } { unit4 with wr := [1, 2, 3, 4] }) = true
    ∧ performable (queued { id := 7, ins := { held := [.v 8] }, kind := .atomic 0, scope := 1 } unit4) = true
    ∧ (let s := (queued { id := 7, ins := {}, kind := .atomic 0 } unit4).putBytes true 1 0x100 [1, 2, 3, 4]
       (List.range 4).all (fun i => (s.readByte 0 1 true (0x100 + i) 1).isSome) = true)
    ∧ (base.ue = [] ∧ base.ce = [] ∧ base.hasWarp 0 0 = true)
    ∧ ((0xFFFFFFFF : Nat) < 2 ^ 32) := by decide

/-- R130: units at each level that a scope names, and at WG.remote, on a core without buffered stores. -/
theorem witness_UnitsArePerformed_scopes :
    ([2, 3, 4, 5, 6].all fun n => performable (queued { id := 7, ins := { held := [.v 8] }, kind := .load, scope := n } unit4)
      && performable (queued { id := 7, ins := {}, kind := .store, scope := n } { unit4 with wr := [1, 2, 3, 4] })
      && performable (queued { id := 7, ins := { held := [.v 8] }, kind := .atomic 0, scope := n } unit4)) = true
    ∧ (path 0).all (fun b => (base.buf b).isEmpty) = true
    ∧ (let s := (queued { id := 7, ins := {}, kind := .atomic 0, scope := 4 } unit4).putBytes true 1 0x100 [1, 2, 3, 4]
       (List.range 4).all (fun i => (s.readByte 0 4 true (0x100 + i) 1).isSome) = true)
    ∧ (0xFFFFFFFF : Nat) < 2 ^ 32 := by decide

theorem witness_HandleSlotsAreTakenAndCompleted :
    ((base.takeSlot 0 0 (some (0, 0, 1))).map fun p => p.1) = some 0 ∧ ((base.takeSlot 0 0 (some (0, 0, 63))).map fun p => p.1) = some 0
    ∧ (let s := base.modCore 0 fun k => { k with fresh := 4096, recent := [9, 3] }
       ((s.takeSlot 0 0 none).map fun p => p.1) = some 9)
    ∧ (let s := base.modCore 0 fun k => { k with fresh := 4096, recent := [] }
       s.takeSlot 0 0 none = none)
    ∧ (let s := slotted 4095 { live := true, bound := [(0, 0, 62)], pend := some (handle 4095 0 0 false 0) } fun x => { x with empty := [.s 62] }
       ((s.core 0).slot 4095).live = true ∧ ((s.core 0).slot 4095).bound = [(0, 0, 62)] ∧ s.hasWarp 0 0 = true
         ∧ ((s.core 0).slot 4095).pend = some (handle 4095 ((s.core 0).slot 4095).gen 0 false 0)) := by decide

theorem witness_LongLatencyResultsFillTheirDestinations :
    let f := fun (o : Op) => ((queued { o with id := 7 } { unit4 with done := true, rd := [1, 2, 3, 0x84] }).opOf 0 0 7).map fun o =>
      (o.works, o.performed, (o.laneBytes 0).length, o.width)
    f { id := 7, ins := { held := [.v 8], lmask := 1 }, kind := .load, dst := some (.v 8), ty := .i32 } = some (true, true, 4, 4)
    ∧ f { id := 7, ins := { held := [.s 8] }, kind := .load, dst := some (.s 8), ty := .i32 } = some (true, true, 4, 4)
    ∧ f { id := 7, ins := { held := [.v 8, .v 9], lmask := 1 }, kind := .look, regs := [8, 9] } = some (true, true, 4, 4)
    ∧ (f { id := 7, ins := { held := [.s 62] }, kind := .fill, vals := [.s 62 5] }).map (·.1) = some false := by decide

/-- A store entry of core 0, and a copy entry. -/
def buffered : State := base.modCore 0 fun k =>
  { k with buf := [{ age := 1, dev := true, addr := 8, key := 1, bytes := [5], store := false }, { age := 2, dev := true, addr := 16, key := 1, bytes := [6], store := true }] }

theorem witness_OrderingMachineSteps :
    ((buffered.allBufs[0]?).isSome = true ∧ (buffered.buf (.core 0))[1]?.map (·.store) = some true ∧ mayDrain (buffered.buf (.core 0)) 1 = true
      ∧ ((buffered.buf (.core 0)).map (·.age)).Nodup ∧ buffered.hostFail = [] ∧ buffered.allBufs[0]? = some (.core 0))
    ∧ (buffered.buf (.core 0))[0]?.map (·.store) = some false
    ∧ (let s := base.modDie 0 fun d => { d with rt := [{ age := 1, pa := 64, key := 1, bytes := [1, 2], own := (0, 0), ctx := 0, graph := none, stage := none, frame := 0 }] }
       (s.die 0).rt[0]?.isSome = true ∧ ((s.die 0).rt.map (·.age)).Nodup)
    ∧ (let s := (base.modCtx 0 fun c => { c with streams := [(3, {})] }).modDie 0 fun d =>
          { d with buf := [{ age := 1, dev := false, addr := farAddr 3 7 0x40, key := 0, bytes := [5], store := true }] }
       s.allBufs.contains (.die 0) = true ∧ (s.buf (.die 0)).map (·.store) = [true] ∧ (BufId.die 0).up = none ∧ farPlace (farAddr 3 7 0x40) = some (3, 7, 0x40)
         ∧ s.hasCtx 0 = true ∧ s.streamDead 0 3 = false)
    ∧ (base.hasWarp 0 0 = true ∧ base.ctxs.all (fun p => p.2.decs.isEmpty && p.2.pend.isEmpty && p.2.streams.isEmpty) = true) := by decide

theorem witness_HostCompletions :
    let u : MUnit := { unit4 with tgt := .host 0x200 true, sent := true }
    let s := (queued { id := 7, ins := { held := [.v 8] }, kind := .atomic 2, ty := .n32 } u).putBytes false 0 0x200 [1, 2, 3, 4]
    let r := lab fun x => { x with ops := [{ id := 7, ins := { held := [.v 8] }, kind := .load, units := [u, { u with sent := false }] }] }
    (s.hasWarp 0 0 = true ∧ s.cpbOn = false ∧ s.hostFail = [] ∧ ((s.opOf 0 0 7).map fun o => (o.failed, o.ins.held)) = some ([], [.v 8])
      ∧ (List.range 4).all (fun i => (SMap.find (0x200 + i) s.ymem).isSome) = true ∧ ({ s with devCtl2 := 64 } : State).devCtl2.getLsbD 6 = true
      ∧ (s.cctx 0 0x111).getLsbD 0 = false ∧ (s.warp 0 0).trapping = none)
    ∧ (let b := s.modCtx 0 fun c => { c with csr := c.csr ++ [(0x111, 1)] }
       (b.cctx 0 0x111).getLsbD 0 = true ∧ b.hostPrev = [])
    ∧ ((r.opOf 0 0 7).map fun o => (o.failed, o.scope, o.units.length)) = some ([], 0, 2) := by decide

theorem witness_CopiesAndBatches :
    let f : Fields := { blank .f96 with dst := 5, sa := 1, sb := 2, sub := 3 }
    (can base (.copy { f with imm := 0 }) && can base (.copy { f with imm := 0x1000001 }) && can base (.copy { f with imm := 0xFFFFFF })) = true
    ∧ wit (regs 2 0 0 0) (.copy { f with imm := 4 }) (fun c => decide (c.sA.toNat % 4 ≠ 0)) = true
    ∧ wit (regs 65536 0 0 0) (.copy { f with imm := 4 }) (fun c => decide (1024 * 64 < c.sA.toNat + 4)) = true
    ∧ wit (regs 65532 65532 0 0) (.copy { f with imm := 4 }) (fun c => decide (c.sA.toNat + 4 ≤ 1024 * 64 ∧ c.sB.toNat + 4 ≤ 1024 * 64)) = true
    ∧ (base.takeSlot 0 0 (some (0, 0, 5))).isSome = true
    ∧ can base (.cbatch { blank .f64 with dst := 5 }) = true
    ∧ wit (regs 1 0 0 0) (.cwait { blank .f64 with sa := 1 }) (fun c => decide ((c.sA.setWidth 16 - (base.warp 0 0).batch).toNat = 1)) = true
    ∧ wit (regs 0 0 0 0) (.cwait { blank .f64 with sa := 1 }) (fun c => decide ((c.sA.setWidth 16 - (base.warp 0 0).batch).toNat = 0)) = true := by decide

/-- The engine of core 0 holds one operation. -/
def engined (e : EOp) : State := (slotted 3 { live := true, bound := [(0, 0, 5)] } fun x => x).modCore 0 fun k => { k with eops := [e] }
/-- An operation of one unit. -/
def eop1 (kind : EKind) (u : EUnit) : EOp := { id := 9, wg := 0, w := 0, ctx := 0, kind := kind, slot := some 3, units := [u] }

theorem witness_EngineOperationsActAndComplete :
    (let u : EUnit := { src := .loc 0, dst := .loc (2 ^ 16 - 4), size := 4 }
     let s := (engined (eop1 (.copy 0 none) u)).modWg 0 fun y => { y with local_ := [(0, 1), (1, 2), (2, 3), (3, 4)] }
     ((s.eop 0 9).map fun e => s.eturn 0 e) = some true ∧ s.hasWarp 0 0 = true ∧ (s.wg 0).ue = [] ∧ (s.wg 0).ce = [] ∧ (List.range 4).all (fun j => (SMap.find j (s.wg 0).local_).isSome) = true)
    ∧ (let u : EUnit := { src := .va 0x100, dst := .tile 15 16380, size := 4 }
       let s := (engined (eop1 (.tile 15) u)).putBytes true 1 0x100 [1, 2, 3, 4]
       ((s.eop 0 9).map fun e => (s.eturn 0 e, e.units.map (·.got))) = some (true, [none]) ∧ (0x100 : Nat) % 2 ^ 16 + 4 ≤ 2 ^ 16
       ∧ (match s.translate 0 0 0x100 4 .read (some (0, 0)) with | .ok (.dev pa key) x => decide (pa = 0x100 ∧ key = 1 ∧ x = {}) | _ => false) = true
       ∧ (List.range 4).all (fun j => (s.readByte 0 1 true (0x100 + j) 1).isSome) = true)
    ∧ (let s := engined { eop1 (.copy 0 none) { src := .loc 0, dst := .loc 0, size := 4 } with units := [] }
       ((s.eop 0 9).map fun e => (s.eturn 0 e, e.complete)) = some (true, true) ∧ ((s.core 0).slot 3).live = true ∧ ((s.core 0).slot 3).pend = none) := by decide

/-- The workgroup with two warps, and STAGGER 0 on the cluster. -/
def pair2 : State := (base.modWg 0 fun y => { y with warps := y.warps ++ y.warps, slots := [0, 1] }).putCluster 0 0x300 0

theorem witness_BarriersHoldAndRelease :
    let arrived := pair2.modWg 0 fun y => { y with barArr := [1] }
    let at7 := fun (z : Sbar) => pair2.modWg 0 fun y => { y with sbars := List.replicate 7 {} ++ [z] }
    let arr : Instr := .sbarArr { blank .f64 with dst := 7, sub := 1 }
    (can pair2 (.bar (blank .f64)) = true ∧ (pair2.warp 0 0).allPerformed = true ∧ (pair2.wg 0).warps.length = 2)
    ∧ (can arrived (.bar (blank .f64)) = true ∧ (arrived.wg 0).barArr.length + 1 = 2 ∧ (arrived.ccluster 0 0x300).toNat % 2 ^ 16 = 0)
    ∧ can base (.sbarExpect { blank .f64 with dst := 7, sb := 1 }) = true ∧ ((base.wg 0).sbar 7).arr = []
    ∧ (can (at7 { broken := true }) arr = true ∧ (((at7 { broken := true }).wg 0).sbar 7).broken = true)
    ∧ (can (at7 {}) arr = true ∧ (((at7 {}).wg 0).sbar 7).broken = false ∧ 7 < ((at7 {}).wg 0).sbars.length)
    ∧ (can (at7 { arr := [1] }) arr = true ∧ (((at7 { arr := [1] }).wg 0).sbar 7).got = (((at7 { arr := [1] }).wg 0).sbar 7).exp)
    ∧ can base (.sbarReset { blank .f64 with dst := 7, sub := 2 }) = true
    ∧ (let s := base.modWg 0 fun y => { y with waves := [{ sbar := none, rest := [0], next := 0, dist := 5 }] }
       (s.wg 0).waves[0]?.map (·.next) = some 0 ∧ s.hasWg 0 = true ∧ s.now 0 = 0)
    ∧ (let s := (at7 { since := some 0 }).modCore 0 fun k => { k with cycle := 0x1000000 }
       let later := s.modCore 0 fun k => { k with cycle := 0x1000001 }
       let busy : State := { s with agenda := [{ ev := .exchangePeriodic 0 }] }
       ((s.wg 0).sbar 7).since = some 0 ∧ ((s.wg 0).sbar 7).broken = false ∧ (s.wg 0).saved = false ∧ s.hasWg 0 = true ∧ 7 < (s.wg 0).sbars.length
       ∧ 0 < (s.ccore 0 0x204).toNat % 2 ^ 32 ∧ 0 + (s.ccore 0 0x204).toNat % 2 ^ 32 < later.now 0 ∧ 0 + (s.ccore 0 0x204).toNat % 2 ^ 32 = s.now 0
       ∧ s.sameCycle (Tick.onCore 0) (.sbarTimeout 0 7) = none ∧ (busy.sameCycle (Tick.onCore 0) (.sbarTimeout 0 7)).isSome = true
       ∧ busy.now 0 = s.now 0) := by decide

/-- The workgroup with six warps, five at the barrier, under the STAGGER of reset. -/
theorem witness_BarriersHoldAndRelease_waves :
    let s := base.modWg 0 fun y => { y with warps := (List.replicate 6 y.warps).flatten, slots := List.range 6, barArr := [1, 2, 3, 4, 5] }
    can s (.bar (blank .f64)) = true ∧ (s.warp 0 0).allPerformed = true ∧ (s.ccluster 0 0x300).toNat % 2 ^ 16 ≠ 0 ∧ (s.wg 0).barArr.length + 1 = (s.wg 0).warps.length
      ∧ (((List.range 32).filter ((s.wg 0).barArr ++ [0]).contains).drop 4) = [4, 5] := by decide

/-- R281: an i32 load's last result fills its lane; R30: a completed handle reads SLOT, GEN and CODE. -/
theorem test_fill_and_handle :
    gives (queued { id := 7, ins := { held := [.v 2], lmask := 1 }, kind := .load, dst := some (.v 2), ty := .i16, width := 2 } { unit4 with size := 2, done := true, rd := [0xFF, 0x80] })
      (.longLatencyFill 0 0 7) (fun t => decide (lane ((t.warp 0 0).getV 2) 0 = 0xFFFF80FF)) = true
    ∧ handle 5 3 0x11 true 0 = 0x913005 := by decide

/-! Witnesses: the matrix unit. -/

/-- A shape that R301 admits. -/
def shapeGood (t : TShape) : Bool :=
  [4, 8, 16, 32].contains t.width && decide (1 ≤ t.rows ∧ t.rows ≤ 64 ∧ 1 ≤ t.cols ∧ t.cols * t.width % 8 = 0 ∧ t.cols * t.width ≤ 2048)
theorem validShape_of_good (t : TShape) (h : shapeGood t = true) : validShape t := by
  simp only [shapeGood, Bool.and_eq_true, decide_eq_true_eq, List.contains_iff_mem] at h
  exact h
/-- The workgroup with the shapes t in tiles 7, 8 and 15, the format slots fs, and the warp with s1 to s4. -/
def shaped (t : TShape) (fs : List W128) (a b c d : W64) : State :=
  ((((regs a b c d).putShape 0 7 t).putShape 0 8 t).putShape 0 15 t).modWg 0 fun y => { y with fs := fs }
/-- 64 by 64 of INT8. -/
def full8 : TShape := { width := 8, rows := 64, cols := 64, soff := 0 }
/-- 2 by 4 of INT8. -/
def small8 : TShape := { width := 8, rows := 2, cols := 4, soff := 0 }
/-- 33 columns of 64 bits: no shape. -/
def badShape : TShape := { width := 64, rows := 1, cols := 33, soff := 0 }

theorem witness_TilesAccumulatorsAndShapesAreWritten :
    let two := List.replicate 2 (4 : W128)
    (wit (regs 32 64 64 0) (.tshape { blank .f64 with dst := 15, sa := 1, sb := 2, sc := 3 }) (fun c => decide (c.sA = 32 ∧ c.sB = 64 ∧ c.sC = 64)) = true
      ∧ wit (regs 32 64 65 0) (.tshape { blank .f64 with dst := 15, sa := 1, sb := 2, sc := 3 }) (fun c => decide (c.sC = 65)) = true
      ∧ shapeGood { width := 32, rows := 64, cols := 64, soff := 0 } = true ∧ shapeGood { width := 32, rows := 64, cols := 65, soff := 0 } = false)
    ∧ can base (.tshapeSoff { blank .f64 with dst := 5, sa := 1, sub := 1 }) = true
    ∧ (can base (.tzero { blank .f64 with dst := 15 }) = true ∧ base.holder 0 [] [15] = none)
    ∧ (can base (.azero { blank .f64 with dst := 7 }) = true ∧ base.holder 0 [] [23] = none)
    ∧ (can base (.cyzero { blank .f64 with dst := 7 }) = true ∧ base.holder 0 [] [31] = none)
    ∧ (can base (.tmov { blank .f64 with dst := 6, sa := 6 }) = true ∧ can base (.tmov { blank .f64 with dst := 6, sa := 7 }) = true ∧ base.holder 0 [7] [6] = none)
    ∧ (can base (.oprdy (blank .f64)) = true ∧ ((base.core 0).eops.any fun e => decide (e.wg = 0) && e.isAct) = false)
    ∧ (can (shaped full8 two 0 0 0 0) (.ttrans { blank .f64 with dst := 6, sa := 15 }) = true ∧ shapeGood full8 = true ∧ shapeGood full8.flip = true
      ∧ shapeGood { width := 8, rows := 3, cols := 64, soff := 0 } = true ∧ shapeGood { width := 4, rows := 3, cols := 64, soff := 0 : TShape }.flip = false
      ∧ (shaped full8 two 0 0 0 0).holder 0 [15] [6] = none ∧ ((shaped full8 two 0 0 0 0).wg 0).shape.tiles = 16
      ∧ ((shaped full8 two 0 0 0 0).wg 0).tshape 15 = full8)
    ∧ (can (shaped full8 two 0 0 0 0) (.tcvt { blank .f128 with dst := 6, sa := 15, ext := 1 }) = true
      ∧ (((shaped full8 two 0 0 0 0).wg 0).slot 0).ok = true ∧ (((shaped full8 two 0 0 0 0).wg 0).slot 0).skind ≠ 2 ∧ elemBits 4 = 8)
    ∧ (((shaped full8 [6, 4] 0 0 0 0).wg 0).slot 0).ok = false := by decide

/-- Every row lies in local memory. -/
def fits (rows rb pitch base : Nat) : Bool := (List.range rows).all fun r => decide (base + r * pitch + rb ≤ 65536)

theorem witness_MatrixTransfersJoinTheQueue :
    let ld : Fields := { blank .f64 with dst := 10, sa := 1, sb := 15, sc := 3, sub := 1 }
    let ac : Fields := { blank .f64 with dst := 10, sa := 1, sb := 7, sc := 3, sub := 1 }
    let cy : Fields := { blank .f64 with dst := 10, sa := 1, sb := 7, sub := 1 }
    let q : Fields := { blank .f128 with dst := 10, sa := 1, sb := 7, sc := 3, sd := 4, sub := 1 }
    (can (shaped badShape [] 0 0 0 0) (.tld ld) = true ∧ can (shaped badShape [] 0 0 0 0) (.tst ld) = true
      ∧ shapeGood (((shaped badShape [] 0 0 0 0).wg 0).tshape 15) = false)
    ∧ (wit (shaped full8 [] 2 0 0 0) (.tld ld) (fun c => decide (c.sA.toNat % 4 ≠ 0)) && wit (shaped full8 [] 0 0 2 0) (.tst ld) (fun c => decide (pitch c.sC 64 % 4 ≠ 0))) = true
    ∧ (wit (shaped full8 [] (65536 - 64 * 64 + 4) 0 0 0) (.tld ld) (fun c => !fits 64 64 64 c.sA.toNat)
      && wit (shaped full8 [] (65536 - 64 * 64) 0 0 0) (.tld ld) (fun c => fits 64 64 64 c.sA.toNat)
      && wit (shaped full8 [] 0 0 0 0) (.tst ld) (fun c => fits 64 64 64 c.sA.toNat)) = true
    ∧ (wit (regs 1 0 0 0) (.ald ac) (fun c => decide (c.sA.toNat % 4 ≠ 0)) && wit (regs (65536 - 16380) 0 0 0) (.ast ac) (fun c => !fits 64 256 256 c.sA.toNat)
      && wit (regs (65536 - 16384) 0 0 0) (.ald ac) (fun c => fits 64 256 256 c.sA.toNat) && wit (regs 0 0 256 0) (.ast ac) (fun c => fits 64 256 256 c.sA.toNat)) = true
    ∧ (wit (regs (65536 - 256) 0 0 0) (.cyld cy) (fun c => fits 1 256 256 c.sA.toNat) && wit (regs 0 0 0 0) (.cyst cy) (fun c => fits 1 256 256 c.sA.toNat)) = true
    ∧ (base.takeSlot 0 0 (some (0, 0, 10))).isSome = true
    ∧ (can (shaped full8 [6] 0 0 0 0) (.qst q) = true
      ∧ wit (shaped full8 [4] 0 0 0x40 0) (.qst q) (fun c => decide (c.sC &&& ~~~(0x3F3F3F3F : W64) ≠ 0)) = true
      ∧ wit (shaped full8 [4] 0 0 0x0000003F 0) (.qst q) (fun c => decide (c.sC &&& ~~~(0x3F3F3F3F : W64) = 0)) = true
      ∧ wit (shaped full8 [4] 0 0 0x00010001 0) (.qst q) (fun c => decide (64 < c.sC.toNat % 64 + c.sC.toNat / 2 ^ 16 % 64 + 63)) = true
      ∧ wit (shaped full8 [4] 2 0 0 0) (.qst q) (fun c => decide (c.sA.toNat % 4 ≠ 0)) = true
      ∧ wit (shaped full8 [4] 65536 0 0 0) (.qst q) (fun c => !fits 1 1 4 c.sA.toNat) = true
      ∧ wit (shaped full8 [4] 65532 0 0x3F3F0000 0) (.qst q) (fun c => decide (c.sC.toNat / 2 ^ 16 % 64 + 1 = 64)) = true
      ∧ (((shaped full8 [4] 0 0 0 0).wg 0).slot 0).ok = true ∧ elemBits 4 = 8) := by decide

/-- R315, R107 to R109: `cyld` at an address that is not a multiple of 4, and at one whose row leaves local memory; scales, slots and regions of the quantiser. -/
theorem witness_MatrixTransfersJoinTheQueue_quantise :
    let cy : Fields := { blank .f64 with dst := 10, sa := 1, sb := 7, sub := 1 }
    (wit (regs 2 0 0 0) (.cyld cy) (fun c => decide (c.sA.toNat % 4 ≠ 0)) && wit (regs 65284 0 0 0) (.cyld cy) (fun c => !fits 1 256 256 c.sA.toNat)
      && wit (regs 65284 0 0 0) (.cyst cy) (fun c => !fits 1 256 256 c.sA.toNat)) = true
    ∧ (3 ∈ [3, 4, 5] ∧ 0 < 1 ∧ ((base.modWg 0 fun y => { y with fs := [4] }).wg 0).slot 0 ≠ (base.wg 0).slot 0
      ∧ (((base.modWg 0 fun y => { y with fs := [4] }).wg 0).slot 0).elem = 4 ∧ ((base.wg 0).slot 0).elem < 3)
    ∧ ((base.wg 0).tainted 7 0 = false ∧ (base.wg 0).accUndef.contains 7 = false ∧ (base.wg 0).cyUndef.contains 7 = false ∧ 64 * elemBits 5 % 8 = 0) := by decide

/-- An issued operation of the array on tiles 7 and 8 and accumulator 2, with handle slot 3 of the warp. -/
def arrayOp : MmaOp :=
  { id := 4, wg := 0, queue := 0, ctx := 0, members := [(0, 3)], ins := { blank .f128 with dst := 10, sa := 7, sb := 8, sc := 2 }, gang := 0, sl := 0, issued := true }
/-- Core 0 holds it, under the pass. -/
def arrayed (o : MmaOp) : State :=
  ((slotted 3 { live := true, bound := [(0, 0, 10)] } fun x => x).modCore 0 fun k => { k with mma := [o], hall := { holder := some (0, 0) } }).modWg 0
    fun y => { ((shaped small8 [4, 4] 0 0 0 0).wg 0) with warps := y.warps }

/-- R314: an `adrain` after an `mma` on a3 that faulted with 0x0C and then 0x09 is complete at once with 0x09 as its status. -/
theorem test_adrain_reports_done_faults :
    let s := base.modWg 0 fun x => (x.noteFault 3 0x0C).noteFault 3 0x09
    gives s (.adrain { blank .f64 with dst := 10, sb := 3 }) (fun t =>
      ((t.core 0).slot 0).pend.map (fun v => v.toNat / 2 ^ 16 % 2 ^ 8) == some 0x89) = true := by decide

theorem witness_MatrixOperationsIssueAndRetire :
    let m : Instr := .mma { blank .f128 with dst := 10, sa := 7, sb := 8, sc := 2 }
    let s := shaped small8 [4, 4] 0 0 0 0
    let latch : Latch := { id := 5, wg := 0, members := 3, ins := blank .f128, sop := [], arrived := [(1, 3)], since := 0 }
    (can (shaped small8 [6, 4] 0 0 0 0) m = true ∧ mmaSlots (((shaped small8 [6, 4] 0 0 0 0).wg 0).slot 0) (((shaped small8 [6, 4] 0 0 0 0).wg 0).slot 0) = false)
    ∧ (can (shaped badShape [4, 4] 0 0 0 0) m = true ∧ mmaSlots ((s.wg 0).slot 0) ((s.wg 0).slot 0) = true ∧ shapeGood badShape = false)
    ∧ (wit s m (fun c => !c.re) = true ∧ shapeGood small8 = true ∧ (s.warp 0 0).gang = 0 ∧ (s.takeSlot 0 0 (some (0, 0, 10))).isSome = true ∧ (s.core 0).hall = {}
      ∧ (s.wg 0).tshape 7 = small8 ∧ (s.wg 0).tshape 8 = small8 ∧ small8.width = elemBits ((s.wg 0).slot 0).elem)
    ∧ (let t := base.modCore 0 fun k => { k with latches := [latch] }
       can t (.gang { blank .f64 with sb := 1 }) = true
       ∧ ((t.core 0).latches.find? fun l => decide (l.wg = 0) && l.members.getLsbD 0 && l.arrived.all fun a => decide (a.1 ≠ 0)).isSome = true)
    ∧ (can base (.gang { blank .f64 with sb := 1 }) = true ∧ (base.core 0).latches = [])
    ∧ (can base (.adrain { blank .f64 with dst := 10, sb := 3 }) = true ∧ (base.core 0).mma = [] ∧ (base.takeSlot 0 0 (some (0, 0, 10))).isSome = true)
    ∧ (let t := base.modCore 0 fun k => { k with hall := { holder := some (0, 0) } }
       can t (.mlease { blank .f64 with dst := 10 }) = true ∧ (t.core 0).hall.holder = some (0, 0))
    ∧ (let t := arrayed { arrayOp with issued := false }
       ((t.mmaOp 0 4).map (·.issued)) = some false ∧ (t.core 0).hall.holder = some (0, 0) ∧ ((t.core 0).mma.filter (·.issued)).length < 4 ∧ (t.wg 0).saved = false
       ∧ t.live 0 = true ∧ (t.core 0).hall.used + 1 < (t.ccore 0 0x201).toNat % 2 ^ 16)
    ∧ (let t := base.modCore 0 fun k => { k with hall := { holder := some (0, 0), lastUse := 5 }, cycle := 1029 }
       (t.core 0).hall.queue = [] ∧ t.hallWaiters 0 (0, 0) = [] ∧ (t.core 0).hall.lastUse + 1024 ≤ (t.core 0).cycle) := by decide

theorem witness_MatrixOperationsIssueAndRetire_retire :
    (let t := (arrayed { arrayOp with shA := small8.toBits, shB := small8.toBits }).modCore 0 fun k =>
         { k with eops := [{ eop1 (.scales 4) { src := .loc 0, dst := .loc 0, size := 4 } with slot := none, units := [] }] }
     ((t.core 0).eops.find? fun e => decide (e.kind = .scales 4)).map (fun e => (e.units, e.faults)) = some ([], [])
     ∧ (t.wg 0).ue = [] ∧ (t.wg 0).ce = [] ∧ ((t.mmaOp 0 4).map fun o => (o.hist, o.shA, o.shB)) = some ([], small8.toBits, small8.toBits)
     ∧ ((t.mmaOp 0 4).map fun o => (o.issued, t.mmaTurn 0 o)) = some (true, true) ∧ t.hasWg 0 = true ∧ ((t.wg 0).slot 0).elem = 4 ∧ ((t.wg 0).slot 0).skind = 0
     ∧ (t.wg 0).tshape 7 = small8 ∧ (t.wg 0).taint = [] ∧ (t.wg 0).accUndef.contains 2 = false ∧ ((t.core 0).slot 3).live = true ∧ ((t.core 0).slot 3).pend = none) := by decide

theorem witness_MatrixOperationsIssueAndRetire_rollCall :
    (let latch : Latch := { id := 5, wg := 0, members := 3, ins := blank .f128, sop := [], arrived := [(1, 3)], since := 0 }
     let t := (((lab fun x => { x with blocked := some { wait := .rollCall 5, ins := {} } }).modCore 0 fun k =>
          { k with fresh := 4, latches := [{ latch with arrived := [(0, 3)] }], cycle := 0x100000 }).modSlot 0 3 fun _ => { live := true })
     let later := t.modCore 0 fun k => { k with cycle := 0x100001 }
     ((t.core 0).latches.find? fun p => p.id = 5).map (fun l => (l.left, l.limit)) = some (none, none)
     ∧ 0 < (t.ccore 0 0x200).toNat % 2 ^ 32 ∧ 0 + (t.ccore 0 0x200).toNat % 2 ^ 32 < (later.core 0).cycle
     ∧ (0 + (t.ccore 0 0x200).toNat % 2 ^ 32 = (t.core 0).cycle ∧ t.sameCycle (Tick.onCore 0) (.rollCallTimeout 0 5) = none)
     ∧ (t.warp 0 0).trapping = none ∧ t.hasWarp 0 0 = true
     ∧ (t.warp 0 0).tm = false ∧ (t.warp 0 0).ops = [] ∧ ((t.core 0).slot 3).bound = [] ∧ (t.cctx 0 0x100).getLsbD 0 = true) := by decide

/-- What `issue` captures of the scalar operands of an instruction. -/
def sopOf (s : State) (i : Instr) : List W64 := match s.issuing i with | some c => c.ins.sop | none => []

/-- Two warps with INT8 tiles, of which warp 0 names the gang of both. -/
def joint2 : State := ((shaped small8 [4, 4] 0 0 0 0).modWg 0 fun y => { y with warps := y.warps ++ y.warps, slots := [0, 1] }).modWarp 0 0 fun x => { x with gang := 3 }

/-- An `mma` on tiles 7 and 8 and accumulator 2. -/
def mma1 : Fields := { blank .f128 with dst := 10, sa := 7, sb := 8, sc := 2 }

/-- A latch of that gang at which warp 1 has arrived, with the operands of warp 0. -/
def latch2 : Latch := { id := 5, wg := 0, members := 3, ins := mma1, sop := sopOf joint2 (.mma mma1), arrived := [(1, 3)], since := 0 }

theorem witness_MatrixOperationsIssueAndRetire_joint :
    let m : Instr := .mma mma1
    let lat := fun (l : Latch) => joint2.modCore 0 fun k => { k with latches := [l] }
    (wit joint2 m (fun c => !c.re && decide (c.w = 0)) = true ∧ gangOf (joint2.warp 0 0).gang = [0, 1] ∧ (joint2.wg 0).warps.length = 2
      ∧ (joint2.takeSlot 0 0 (some (0, 0, 10))).isSome = true ∧ (joint2.core 0).latches.length = 0
      ∧ mmaSlots ((joint2.wg 0).slot 0) ((joint2.wg 0).slot 0) = true ∧ shapeGood ((joint2.wg 0).tshape 7) = true ∧ small8.width = elemBits 4)
    ∧ (wit (lat latch2) m (fun c => decide (c.ins.sop = latch2.sop)) = true ∧ ((lat latch2).core 0).latches.map (·.id) = [5]
      ∧ ((lat { latch2 with arrived := [] }).core 0).latches.map (·.arrived) = [[]]
      ∧ (joint2.warp 0 0).tm = false ∧ (joint2.warp 0 0).ops.length = 0 ∧ (joint2.cctx 0 0x100).getLsbD 0 = true)
    ∧ (can (joint2.modWarp 0 0 fun x => { x with gang := 2 }) m = true ∧ gangOf 2 = [1] ∧ gangOf 0 = [] ∧ gangOf 1 = [0])
    ∧ (can joint2 (.mma { mma1 with ext := 16, imm := 4096 }) = true ∧ can joint2 (.mma { mma1 with ext := 16, imm := 4095 }) = true) := by decide

theorem witness_MatrixOperationsIssueAndRetire_calls : sameCall latch2.ins mma1 ∧ ¬ sameCall { mma1 with sc := 3 } mma1
    ∧ (List.replicate 8 { latch2 with members := 5 }).length = 8 ∧ (List.replicate 8 { latch2 with members := 5 }).all (fun l => decide (l.members ≠ 3)) = true := by
  unfold sameCall latch2; decide

theorem witness_MatrixOperationsIssueAndRetire_local :
    let lbm : Instr := .mma { mma1 with sub := 1, sd := 4 }
    let s := fun a => shaped small8 [4, 4] 0 0 0 a
    (wit (s 2) lbm (fun c => decide (c.sD.toNat % 4 ≠ 0)) = true ∧ wit (s 65536) lbm (fun c => decide (c.sD.toNat % 4 = 0) && !fits 2 4 4 c.sD.toNat) = true
      ∧ wit (s 65528) lbm (fun c => fits 2 4 4 c.sD.toNat) = true) := by decide

/-- The array's operation at its retirement, with the scales e. -/
def retiring (o : MmaOp) (e : List Cause) : State :=
  (arrayed { o with shA := small8.toBits, shB := small8.toBits }).modCore 0 fun k =>
    { k with eops := [{ eop1 (.scales 4) { src := .loc 0, dst := .loc 0, size := 4 } with slot := none, units := [], faults := e }] }

theorem witness_MatrixOperationsIssueAndRetire_forms :
    let found := fun (o : MmaOp) (e : List Cause) => let t := retiring o e
      decide (((t.core 0).eops.find? fun e => decide (e.kind = .scales 4)).map (·.faults) = some e)
      && decide (((t.mmaOp 0 4).map fun o => (o.issued, t.mmaTurn 0 o, o.hist.length, o.members)) = some (true, true, 0, [(0, 3)])) && ((t.core 0).slot 3).live && ((t.core 0).slot 3).pend.isNone
    let opIns := arrayOp.ins
    (found arrayOp [0x0D, 0x0A] = true ∧ lowest [0x0D, 0x0A] = some 0x0A)
    ∧ (found { arrayOp with ins := { opIns with sub := 1, sd := 4 }, sl := 65528 } [] = true
      ∧ (let t := (retiring { arrayOp with ins := { opIns with sub := 1, sd := 4 }, sl := 65528 } []).modWg 0 fun y => { y with local_ := (List.range 8).map fun i => (65528 + i, 1) }
         (List.range 2).all (fun r => (List.range 4).all fun b => (SMap.find (65528 + r * 4 + b) (t.wg 0).local_).isSome) = true))
    ∧ (found { arrayOp with ins := { opIns with ext := 8 } } [] = true ∧ ((retiring arrayOp []).warp 0 0).tm = false ∧ ((retiring arrayOp []).warp 0 0).ended = false)
    ∧ (found { arrayOp with ins := { opIns with ext := 16, imm := 1 } } [] = true ∧ (retiring arrayOp []).depAddr 0 1 = 4
      ∧ (let t := (retiring { arrayOp with ins := { opIns with ext := 16, imm := 1 } } []).putBytes true 1 4 [7, 0, 0, 0]
         heap t 4 4 = true ∧ reads t 4 4 = true)) := by decide

/-! Witnesses: the stage graph, launches and workgroups. -/

/-- An edge from stage 0 to stage 1 with 4 slots of 16 bytes and 8 keys. -/
def edge1 : Edge :=
  { prod := 0, cons := 1, size := 0, slots := 4, perWg := 2, kind := 0, sparse := false, subst := 0, pmask := 0, ringDie := 0, peer := 0, keys := 8
    window := 100, holdMax := 4, deadline := 50 }
/-- A stage of one warp. -/
def stage1 : Stage :=
  { entry := 0x100, shape := { warps := 1, vregs := 8, localK := 0, tiles := 0, accs := 0, sbars := 0 }, kind := 0, trigger := 0, trigen := false, queue := 0
    closeDec := none, state := 0, stateSz := 0, slots := 0, arg := 0 }
/-- A graph of the two stages, on the near side. -/
def graph1 (e : Edge) (k : Nat) (trigen : Bool) : Graph :=
  { at_ := 0x4000, queue := 0, die := 0, far := false, gid := 5, frame0 := 0, stages := [{ stage1 with kind := k }, { stage1 with kind := k, trigen := trigen }]
    edges := [e], cut := 0, place := 0, since := 0, oldCut := 0, oldPlace := 0, cur := 3 }
/-- The workgroup of `base` runs stage n of the graph in frame 3. -/
def staged (n : Nat) (g : Graph) (f : Warp → Warp) : State :=
  ((lab f).modCtx 0 fun x => { x with graphs := [(2, g)] }).modWg 0 fun y => { y with stage := some n, graph := some 2, frame := 3 }
/-- A record of frame 3 in slot n. -/
def rec3 (n : Nat) (k : W8) : Rec := { slot := n, frame := 3, data := k :: List.replicate 15 0 }

/-- Edge 0 touches the workgroup's stage. -/
def meets (s : State) (out : Bool) : Bool :=
  match (s.wg 0).stage with
  | some k => decide (0 < (s.graphOf 0).edges.length) && decide ((if out then ((s.graphOf 0).edge 0).prod else ((s.graphOf 0).edge 0).cons) = k)
  | none => false

theorem witness_EdgesCarryRecords :
    let full : Edge := { edge1 with ring := [(rec3 0 1, false), (rec3 1 2, false), (rec3 2 3, false)], serial := 3 }
    let g := graph1 full 0 false
    let lanes := fun (m : W32) (k : List W32) => staged 0 g fun x => { x with exec := m, vregs := [(252, k)] }
    let em : Instr := .emit { blank .f128 with sa := 252 }
    let rc : Instr := .recv { blank .f128 with dst := 5, sa := 1 }
    (can (lanes 0 []) em = true ∧ 252 + 4 ≤ 256)
    ∧ (can (lanes 1 []) em = true ∧ meets (staged 1 g fun x => x) true = false ∧ can (staged 1 g fun x => x) em = true)
    ∧ (can ((lanes 1 []).modWg 0 fun y => { y with closed := 1 }) em = true)
    ∧ (meets (lanes 1 [8]) true = true ∧ can (lanes 1 [8]) em = true ∧ (g.kindAt 3 0) = 0)
    ∧ (can (lanes 31 [7, 6, 5, 4, 3]) em = true ∧ (lanesOf 31).length = 5)
    ∧ (can (lanes 1 [7]) em = true ∧ ((lanes 1 [7]).warp 0 0).allPerformed = true ∧ full.ring.length + 1 = full.slots)
    ∧ ((lanes 1 []).ctxs.all (fun q => q.2.streams.all fun p => !p.2.dead) = true ∧ can (lanes 1 []) (.eclose (blank .f128)) = true ∧ can (staged 1 g fun x => x) (.eclose (blank .f128)) = true
      ∧ can ((lanes 1 []).modWg 0 fun y => { y with closed := 1 }) (.eclose (blank .f128)) = true)
    ∧ (let s := staged 1 g fun x => { x with sregs := [(1, 65536 - 40)] }
       can s rc = true ∧ meets s false = true ∧ (s.warp 0 0).allPerformed = true
       ∧ ((full.ring.filter fun p => !p.2 && decide (p.1.frame = 3)).map (·.1)).take 2 = [rec3 0 1, rec3 1 2])
    ∧ can (staged 1 g fun x => { x with sregs := [(1, 65536 - 39)] }) rc = true
    ∧ can (staged 0 g fun x => x) rc = true
    ∧ (can (staged 1 g fun x => x) (.rrel (blank .f128)) = true ∧ can (staged 0 g fun x => x) (.rrel (blank .f128)) = true ∧ full.batches = [])
    ∧ (can pair2 (.endW (blank .f64)) = true ∧ (pair2.wg 0).endedCount + 1 < (pair2.wg 0).warps.length ∧ (pair2.wg 0).barArr = [])
    ∧ (can (staged 0 g fun x => x) (.endW (blank .f64)) = true ∧ ((staged 0 g fun x => x).wg 0).endedCount + 1 = ((staged 0 g fun x => x).wg 0).warps.length) := by decide

/-- R53: an `emit` on a LOCAL edge takes the next slot. -/
theorem test_emit : gives (staged 0 (graph1 { edge1 with serial := 9 } 0 false) fun x => { x with exec := 2, vregs := [(252, [1, 7])] }) (.emit { blank .f128 with sa := 252 })
    (fun t => decide ((((t.graphOf 0).edge 0).ring.map fun p => (p.1.slot, p.1.data.take 1, p.2)) = [(9, [7], false)])) = true := by decide

/-- Edge 0 is PEER to peer 3, or REMOTE in a cut that holds it, with the records r already on their way and c credits; lane 0 holds key 7 in v252. -/
def sending (kind : Nat) (b : W8) (r : List Rec) (c : Nat) (f : Warp → Warp) : State :=
  let x : Edge := { edge1 with kind := kind, peer := 3, send := r, credits := c }
  { ((staged 0 { graph1 x 0 false with cut := kind / 2, oldCut := kind / 2 } fun y => f { y with exec := 1, vregs := [(252, [7])] }).putBytes true 1 0x1000
      (b :: List.replicate 31 0)).putBytes true 1 0x1060 (9 :: List.replicate 31 0) with csr := [(0x500, 0x3000)] }.modCtx 0 fun c => { c with csr := c.csr ++ [(0x113, 0x1000), (0x112, 0x1000)] }

theorem witness_EdgesCarryRecords_far :
    let em : Instr := .emit { blank .f128 with sa := 252 }
    let cl : Instr := .eclose (blank .f128)
    let busy : Warp → Warp := fun x => { x with ops := [{ id := 7, ins := {}, kind := .store, units := [unit4] }] }
    let kind := fun (s : State) => (s.graphOf 0).kindAt (s.wg 0).frame 0
    let dead := fun (s : State) => s.modStream 0 3 fun x => { x with dead := true }
    (kind (sending 0 5 [] 0 busy) = 0 ∧ can (sending 0 5 [] 0 busy) em = true ∧ ((sending 0 5 [] 0 busy).warp 0 0).allPerformed = false ∧ can (sending 0 5 [] 0 busy) cl = true)
    ∧ (kind (sending 1 5 [] 1 id) = 1 ∧ can (sending 1 5 [] 1 id) em = true ∧ can (dead (sending 1 5 [] 1 id)) em = true ∧ ((dead (sending 1 5 [] 1 id)).stream 0 3).dead = true
      ∧ can (dead (sending 1 5 [] 1 id)) cl = true ∧ ((sending 1 5 [] 1 id).stream 0 3).dead = false ∧ ((sending 1 5 [] 0 id).warp 0 0).allPerformed = true
      ∧ can (sending 1 5 [] 0 id) em = true ∧ meets (sending 1 5 [] 0 id) true = true)
    ∧ (let s := sending 1 5 [] 1 id
       heap s ((s.cctx 0 0x112).toNat / 64 % 2 ^ 50 * 64 + 32 * 3) 32 = true ∧ reads s 0x1060 32 = true ∧ (s.stream 0 3).unacked.length = 0
         ∧ s.cores.all (fun p => p.2.buf.isEmpty) = true ∧ s.clusters.all (fun p => p.2.buf.isEmpty) = true ∧ s.dies.all (fun p => p.2.buf.isEmpty && p.2.rt.isEmpty) = true
         ∧ (s.ctx 0).pend.length = 0 ∧ (s.ctx 0).streams.all (fun q => q.2.reqs.isEmpty) = true)
    ∧ ([0, 5].all fun b => let s := sending 2 b [] 0 id
       decide (kind s = 2) && can s em && can s cl && heap s ((s.cctx 0 0x113).toNat / 64 % 2 ^ 50 * 64) 32 && reads s 0x1000 32 && decide (s.homeByte true 0x1000 1 = some b)) = true
    ∧ (can (sending 2 5 (List.replicate 4 (rec3 0 1)) 0 id) em = true ∧ can (sending 2 5 [] 0 busy) em = true
      ∧ (let s := (sending 2 5 [] 0 id).modWarp 0 0 fun y => { y with exec := 31, vregs := [(252, [7, 6, 5, 4, 3])] }
         can s em = true ∧ kind s = 2)) := by decide

theorem witness_EdgesCarryRecords_receive :
    let rc : Instr := .recv { blank .f128 with dst := 5, sa := 1 }
    let trig := (staged 1 (graph1 edge1 0 true) id).modWg 0 fun y => { y with batchRecs := [rec3 0 1] }
    let none_ := staged 1 (graph1 edge1 0 false) id
    let busy := staged 1 (graph1 edge1 0 false) fun x => { x with ops := [{ id := 7, ins := {}, kind := .store, units := [unit4] }] }
    (can trig rc = true ∧ meets trig false = true ∧ ((trig.graphOf 0).stage (trig.wg 0).stageNo).trigen = true ∧ ((trig.graphOf 0).stage (trig.wg 0).stageNo).trigger = 0
      ∧ (trig.wg 0).batchGiven = false ∧ (rec3 0 1).data.length = 16 ∧ [rec3 0 1].length ≤ edge1.perWg)
    ∧ (can (trig.modWg 0 fun y => { y with batchGiven := true }) rc = true)
    ∧ (can none_ rc = true ∧ meets none_ false = true ∧ edge1.closedAt = [] ∧ edge1.ring = [] ∧ ((none_.graphOf 0).stage (none_.wg 0).stageNo).trigen = false)
    ∧ (can busy rc = true ∧ (busy.warp 0 0).allPerformed = false)
    ∧ (let s := staged 1 (graph1 { edge1 with closedAt := [3] } 0 false) id
       can s rc = true ∧ ((s.graphOf 0).edge 0).closedAt.contains 3 = true) := by decide

theorem witness_LaunchesDecrementsAndCuts :
    let l : Fields := { blank .f64 with dst := 5, sa := 1, sb := 2 }
    let g := graph1 edge1 0 false
    let gc : Fields := { blank .f64 with dst := 5, sa := 1, sb := 2, sc := 3 }
    let cut := fun (gr : Graph) (a b c : W64) => staged 0 gr fun x => { x with sregs := [(1, a), (2, b), (3, c)] }
    (can (regs 0 16 0 0) (.launch l) = true ∧ can (regs 32 15 0 0) (.launch l) = true)
    ∧ (let s := (regs 0x1000 15 0 0).putBytes true 1 0x1000 (List.replicate 64 1)
       can s (.launch l) = true ∧ reads s 0x1000 64 = true ∧ heap s 0x1000 64 = true ∧ (s.takeSlot 0 0 (some (0, 0, 5))).isSome = true ∧ (s.core 0).launches.length < 16)
    ∧ can (regs 0 4096 0 0) (.depdec { blank .f64 with sb := 2 }) = true
    ∧ (let s := (regs 0 4095 0 0).putBytes true 1 (4 * 4095) [1, 0, 0, 0]
       can s (.depdec { blank .f64 with sb := 2 }) = true ∧ reads s (s.depAddr 0 4095) 4 = true ∧ heap s (s.depAddr 0 4095) 4 = true ∧ s.live 0 = true)
    ∧ (can (cut g 0 5 0) (.gcut gc) = true ∧ (cut g 0 5 0).graphAt 0 0 = none ∧ (cut g 0 5 0x4000).graphAt 0 0x4000 = some 2
      ∧ ((cut g 0 5 0x4000).takeSlot 0 0 (some (0, 0, 5))).map (·.1) = some 0)
    ∧ (cutOk g.edges 1 2 = true ∧ cutOk g.edges 1 0 = false ∧ laterEq 5 (g.cur + 2) = true ∧ laterEq 4 (g.cur + 2) = false)
    ∧ (let s := cut g 0x200000001 5 0x4000
       can s (.gcut gc) = true ∧ (s.stream 0 (s.otherUnit 0)).dead = false
         ∧ (s.modGraph 0 2 fun x => { x with move := some (x.askMove 0x200000001 5 (some (0, 0))) }).ringsFit = true
         ∧ (s.modGraph 0 2 fun x => { x with edges := [{ edge1 with slots := 2 ^ 24 }], move := some (x.askMove 0x200000001 5 (some (0, 0))) }).ringsFit = false)
    ∧ (can (cut g 0x4000 0 0) (.gstatCut { blank .f64 with dst := 5, sa := 1 }) = true ∧ can (cut g 8 0 0) (.gstatMoving { blank .f64 with dst := 5, sa := 1, sub := 3 }) = true
      ∧ (cut g 8 0 0).graphAt 0 8 = none) := by decide

/-- A queue of 4 records at 0x800, enabled, with WIDX w and RIDX 0; its entry is at 0 and record 0 is b. -/
def queueOf (w : W8) (b : List W8) : State :=
  ((base.putBytes true 1 0 (leBytes 8 0x800 ++ leBytes 4 0x802 ++ [w, 0, 0, 0] ++ List.replicate 16 0)).putBytes true 1 0x800 b).modCtx 0 fun x => { x with csr := x.csr ++ [(0x11B, 0x1000)] }
/-- A record of KIND 0 with one workgroup of one warp of 8 registers; w is its word 0. -/
def record0 (w : Nat) : List W8 :=
  leBytes 4 w ++ leBytes 4 0 ++ leBytes 8 0x100 ++ leBytes 4 1 ++ leBytes 8 (1 + 8 * 64) ++ List.replicate 36 0
/-- The queue entry that the device reads. -/
def entry (s : State) : Option QEntry := match s.qRead 0 0 with | .ok e t => if t = s then some e else none | _ => none

theorem witness_LaunchesAreAdmitted :
    (let s := queueOf 1 (record0 3)
     (entry s).map (fun e => (e.en, e.widx, e.ridx, e.at_ e.ridx)) = some (true, 1, 0, 0x800) ∧ reads s 0x800 64 = true ∧ heap s 0x800 64 = true ∧ heap s 16 4 = true
     ∧ Launch.parse (record0 3) = none ∧ s.live 0 = true ∧ s.cpbOn = false ∧ s.asides 0 0 = [])
    ∧ ((Launch.parse (record0 0)).map (fun r => (r.wait, r.kind, r.shape.startable)) = some (none, 0, true) ∧ ((queueOf 1 (record0 0)).queue 0 0).slots = [])
    ∧ (let s := (queueOf 1 (record0 (64 + 4095 * 256))).putBytes true 1 (0x1000 + 4 * 4095) [1, 0, 0, 0]
       (Launch.parse (record0 (64 + 4095 * 256))).map (·.wait) = some (some 4095) ∧ s.depAddr 0 4095 = 0x1000 + 4 * 4095 ∧ reads s (s.depAddr 0 4095) 4 = true
       ∧ heap s (s.depAddr 0 4095) 4 = true)
    ∧ (let s := (queueOf 3 []).modCore 0 fun k => { k with launches := [{ ctx := 0, q := 0, slot := 1, va := 0x9000, wg := 0, w := 0, token := {} }] }
       reads (s.putBytes true 1 0x9000 (List.replicate 64 1)) 0x9000 64 = true ∧ heap s 0x9000 64 = true ∧ (SMap.find 0 s.ctxs).isSome = true
       ∧ (entry s).map (fun e => (e.en, decide ((e.widx - e.ridx).toNat < 2 ^ e.log2n), e.at_ e.widx)) = some (true, true, 0x800 + 192) ∧ heap s (0x800 + 192) 64 = true ∧ heap s 12 4 = true)
    ∧ (let a : Aside := { ctx := 0, q := 0, index := 0, lrec := ((Launch.parse (record0 (64 + 256))).getD
          { kind := 0, stage := 0, wait := none, doneDec := none, frame := 0, addr := 0, count := 0, shape := stage1.shape, slots := 0, arg := 0 }), bytes := [], slot := none, tested := some 0 }
       let s := ((queueOf 1 []).putBytes true 1 0x1004 [0, 0, 0, 0]).modDie 0 fun d => { d with aside := [a], counter := 2 ^ 20 }
       ((s.die 0).aside[0]?.map fun a => (a.tested, a.lrec.wait)) = some (some 0, some 1) ∧ reads s (s.depAddr 0 1) 4 = true ∧ heap s (s.depAddr 0 1) 4 = true)
    ∧ (let s := staged 0 (graph1 { edge1 with ring := [(rec3 0 1, false)], closedAt := [3] } 0 true) fun x => x
       let g := s.graph 0 2
       heap s (s.qAddr 0 (g.stage 1).queue) 32 = true ∧ s.live 0 = true ∧ (g.stage 1).trigen = true ∧ g.here 3 1 = true ∧ g.move = none ∧ (g.edge 0).closedAt.contains 3 = true
       ∧ (((g.edge 0).ring.filter fun p => !p.2 && decide (p.1.frame = 3)).map (·.1)).length = 1) := by decide

/-- A launch of one workgroup of 8 registers, and a state whose die 0 holds it; the one workgroup that there is runs on core 400. -/
def grid1 : Grid :=
  { id := 3, ctx := 0, q := 0, lrec := { kind := 0, stage := 0, wait := none, doneDec := none, frame := 0, addr := 0x100, count := 1, shape := stage1.shape, slots := 0, arg := 0 } }

def starting (x : Grid) : State := ((base.putBytes true 1 0 (List.replicate 128 0)).modDie 0 fun d => { d with grids := [x] }).modWg 0 fun y => { y with core := 400 }

theorem witness_WorkgroupsStartAndEnd_place : Placed (starting grid1) 0 grid1.lrec.shape 0 0 := by
  have h : ∀ m, inUse (starting grid1) 0 m = 0 := fun _ => rfl
  refine ⟨rfl, ⟨by decide, by decide, by decide, by decide, by decide, by decide, by decide, by decide⟩, fun k' b' _ _ => ?_, fun b' _ => ?_⟩ <;> rw [h]
  · omega
  · rw [h]; omega

/-- A launch that asks for 17 tiles has no place anywhere. -/
theorem witness_WorkgroupsStartAndEnd_noPlace (s : State) : ∀ k b, k / 96 = 0 → ¬ Supplies s k { stage1.shape with tiles := 17 } b :=
  fun _ _ _ h => by have := h.tiles; dsimp only at this; omega

set_option maxRecDepth 8000 in
theorem witness_WorkgroupsStartAndEnd_end :
    let finished := lab fun x => { x with ended := true }
    let gone := fun (b : Bool) (o : List Op) => (lab fun x => { x with ended := true, ops := o }).modWg 0 fun y => { y with ended := true, signed := b }
    let store : Op := { id := 7, ins := {}, kind := .store, units := [unit4] }
    let copying := (gone true []).modCore 0 fun k => { k with eops := [{ id := 9, wg := 0, w := 0, ctx := 0, kind := .store, slot := none, units := [{ src := .va 0, dst := .va 64, size := 4 }] }] }
    ((starting grid1).mayStart grid1 = true ∧ reads (starting grid1) 0 128 = true ∧ heap (starting grid1) 0 128 = true ∧ grid1.tokens = [])
    ∧ (finished.wgOver 0 = true ∧ finished.leftOver 0 = false ∧ (finished.wg 0).signed = false ∧ (finished.ctx 0).graphs.length = 0 ∧ finished.live 0 = true ∧ finished.hasWg 0 = true)
    ∧ ((gone false []).live 0 = true ∧ ((gone false []).wg 0).warps.all (fun w => w.ops.isEmpty) = true ∧ ((gone false [store]).wg 0).warps.all (fun w => w.ops.isEmpty) = false)
    ∧ ((gone true []).leftOver 0 = false ∧ copying.leftOver 0 = true ∧ (copying.wg 0).signed = true ∧ SMap.wf copying.wgs = true) := by decide

/-! Witnesses: graphics. -/

/-- A MESH workgroup of k KiB with counts v and p. -/
def mesh (k v p : Nat) (f : Warp → Warp) : State :=
  (staged 0 (graph1 edge1 2 false) f).modWg 0 fun y => { y with meshV := v, meshP := p, shape := { y.shape with localK := k } }
/-- A PIXEL workgroup whose warp holds part of a primitive. -/
def pix : Pixel :=
  { edge := 0, frame := 3, seq := 5, rate := 0, view := 0x00100010, verts := List.replicate 96 0, org := [(0, 0), (1, 0)], fine := [[(0, 0)], [(1, 0)]], left := 3 }
def pixels (p : Option Pixel) (held : Bool) (prims : List Prim) : State :=
  staged 1 (graph1 { edge1 with prims := prims } 3 false) fun x => { x with pixel := p, held := held, exec := 3, vregs := [(136, [0, 31])] }

theorem witness_MeshInstructionsWriteTheOutputArea :
    let mv : Instr := .meshv { blank .f64 with sa := 132, sb := 136, sub := 7 }
    let mp : Instr := .meshp { blank .f64 with sa := 132, sb := 136 }
    let nv : Instr := .meshnV { blank .f64 with sb := 136 }
    let np : Instr := .meshnP { blank .f64 with sb := 136, sub := 1 }
    let rt : Instr := .rate { blank .f64 with sb := 1 }
    let at_ := fun (a b : W32) => mesh 36 256 1 fun x => { x with exec := 3, vregs := [(132, [0x0000FF00, 0x80020100]), (136, [a, b])], sregs := [(1, 6)] }
    ([mv, mp, nv, np, rt].all (can base) = true ∧ base.stageKind 0 ≠ 2)
    ∧ ([mv, mp, nv, np].all (can (mesh 35 0 0 fun x => x)) = true ∧ (mesh 35 0 0 fun x => x).stageKind 0 = 2)
    ∧ (wit (at_ 0 0) rt (fun c => decide (c.sB = 6)) = true ∧ wit (mesh 36 0 0 fun x => { x with sregs := [(1, 7)] }) rt (fun c => decide (c.sB = 7)) = true)
    ∧ (wit (at_ 257 0) nv (fun c => decide (256 < index c 0)) && wit (at_ 256 0) nv (fun c => decide (index c 0 = 256)) && wit (at_ 257 0) np (fun c => decide (256 < index c 0))
      && wit (at_ 256 0) np (fun c => decide (index c 0 = 256)) && can (mesh 36 0 0 fun x => { x with exec := 0 }) nv && can (mesh 36 0 0 fun x => { x with exec := 0 }) np) = true
    ∧ (wit (at_ 256 0) mv (fun c => decide (256 ≤ index c 0)) && wit (at_ 255 255) mv (fun c => (lanesOf c.act).all fun l => decide (index c l < 256))) = true
    ∧ (wit (at_ 0 0) mp (fun c => (lanesOf c.act).all fun l => decide (index c l < 1 ∧ (lane c.vA l).toNat % 2 ^ 8 < 256)) && wit (at_ 1 0) mp (fun c => decide (1 ≤ index c 0))) = true
    ∧ ((at_ 0 0).warp 0 0).allPerformed = true := by decide

theorem witness_PixelStateAndOrderedSections :
    let ip := fun (n : Nat) => Instr.interp { blank .f64 with dst := 70, sb := 136, sub := BitVec.ofNat 3 n }
    let ob : Instr := .ordb (blank .f64)
    let oe : Instr := .orde (blank .f64)
    let kl : Instr := .kill (blank .f64)
    ([ip 0, ob, oe, kl].all (can base) = true ∧ base.stageKind 0 ≠ 3)
    ∧ (((List.range 6).map ip).all (can (pixels (some pix) false [])) = true ∧ (pixels (some pix) false []).stageKind 0 = 3)
    ∧ can (pixels (some pix) true []) ob = true ∧ can (pixels (some pix) false []) oe = true
    ∧ (let s := pixels (some pix) false [{ frame := 3, seq := 4, tickets := [(9, 9)] }]
       can s ob = true ∧ ∀ q ∈ ((s.graphOf 0).edge 0).prims, ∀ z ∈ pix.leftPixels, z ∉ q.tickets)
    ∧ (let s := pixels (some pix) false [{ frame := 3, seq := 4, tickets := [(1, 0)] }]
       can s ob = true ∧ ∃ q ∈ ((s.graphOf 0).edge 0).prims, q.frame = 3 ∧ q.seq < 5 ∧ ∃ z ∈ pix.leftPixels, z ∈ q.tickets)
    ∧ (can (pixels (some pix) true []) oe = true ∧ (((pixels (some pix) true []).die 0).rt.map (·.age)).Nodup)
    ∧ can (pixels (some pix) false []) kl = true ∧ can (pixels none false []) kl = true := by decide

/-- R337: a lower-ranked primitive holds a ticket of lane 1's pixel, or of no pixel; the warp has an operation unperformed. -/
theorem witness_PixelStateAndOrderedSections_tickets : Blocks pix 3 { frame := 3, seq := 4, tickets := [(1, 0)] } ∧ ¬ Blocks pix 3 { frame := 3, seq := 4, tickets := [(9, 9)] }
    ∧ ¬ Blocks pix 3 { frame := 3, seq := 6, tickets := [(1, 0)] } := by
  refine ⟨⟨.inr ⟨rfl, by decide⟩, 1, by decide, by decide, (1, 0), by decide, by decide⟩, ?_, ?_⟩
  · rintro ⟨-, l, hl, -, z, hz, ht⟩
    have : ∀ l, l < 32 → ∀ z ∈ pix.fine.getD l [], z ≠ (9, 9) := by decide
    exact this l hl z hz (by simpa using ht)
  · rintro ⟨h | h, -⟩ <;> revert h <;> decide

theorem witness_PixelStateAndOrderedSections_orde :
    let s := (pixels (some pix) true []).modWarp 0 0 fun x => { x with ops := [{ id := 7, ins := {}, kind := .store, units := [unit4] }] }
    can s (.orde (blank .f64)) = true ∧ (s.warp 0 0).allPerformed = false ∧ (s.warp 0 0).held = true ∧ s.stageKind 0 = 3 := by decide

/-- The warp with a pool of n records at 0x2000, of which the last is b. -/
def pooled (n : Nat) (b : List W8) (f : Warp → Warp) : State :=
  ((lab f).putBytes true 1 (0x2000 + 32 * (n - 1)) b).modCtx 0 fun x => { x with csr := x.csr ++ [(0x106, 0x2000), (0x107, BitVec.ofNat 64 n)] }
/-- A pool record: BASE, SIZE with KIND, stride, FMT word, residency map. -/
def poolRec (base size kind fmt : Nat) : List W8 :=
  leBytes 8 base ++ leBytes 8 (size + kind * 2 ^ 40) ++ leBytes 4 (1 + 65536) ++ leBytes 4 fmt ++ leBytes 8 0
/-- The record of an instruction is there: its index is the last of n. -/
def found (s : State) (i : Instr) (n : Nat) : Bool :=
  can s i && decide ((s.cctx 0 0x107).toNat = n) && heap s (0x2000 + 32 * (n - 1)) 32 && reads s (0x2000 + 32 * (n - 1)) 32 && (s.warp 0 0).allPerformed

/-- No breakpoint register of core 0 is on. -/
def unwatched (s : State) : Bool := (List.range 8).all fun k => !bit (s.ccore 0 (0x208 + k)).toNat 0
theorem breakpoint_of_unwatched (s : State) (h : unwatched s = true) (t a : Nat) : s.breakpoint 0 t true a = none := by
  simp only [unwatched, List.all_eq_true, Bool.not_eq_true'] at h
  unfold State.breakpoint
  split
  · rfl
  · exact List.find?_eq_none.2 fun k hk => by simp [h k hk]

theorem witness_PoolRecordsAndRenderTargets :
    let w : Instr := .rtwr { blank .f128 with sa := 132, sc := 140, ext := 2 }
    let w1 : Instr := .rtwr { blank .f128 with sc := 140, sub := 1, ext := 2 }
    let r : Instr := .rtrd { blank .f128 with dst := 72, sa := 132, ext := 2 }
    let a : Instr := .saddr { blank .f128 with dst := 10, ext := 2 }
    let one : Warp → Warp := fun x => { x with exec := 1, vregs := [(132, [0x00010001])] }
    let good := poolRec 0x4000 16 3 2
    let p := pooled 3 good one
    (can (pooled 2 good one) a = true ∧ can (pooled 2 good one) w = true ∧ can (pooled 2 good one) r = true ∧ min 65536 (((pooled 2 good one).cctx 0 0x107).toNat % 2 ^ 17) = 2)
    ∧ (found p w 3 = true ∧ found p w1 3 = true ∧ found p r 3 = true ∧ found p a 3 = true
      ∧ (PoolRec.parse good).kind = 3 ∧ (PoolRec.parse good).valid = true ∧ (PoolRec.parse good).width = 2 ∧ (PoolRec.parse good).height = 2 ∧ texelBytes 2 = 4
      ∧ unwatched p = true ∧ heap p (0x4000 + 12) 4 = true ∧ p.stageKind 0 ≠ 3)
    ∧ (found (pooled 3 good fun x => { x with exec := 1, vregs := [(132, [0x00020002])] }) w 3 = true)
    ∧ (found (pooled 3 (poolRec 0x4000 16 1 2) one) w 3 = true ∧ found (pooled 3 (poolRec 0x4000 15 3 2) one) w 3 = true
      ∧ (PoolRec.parse (poolRec 0x4000 16 1 2)).kind = 1 ∧ (PoolRec.parse (poolRec 0x4000 16 1 2)).valid = true ∧ (PoolRec.parse (poolRec 0x4000 15 3 2)).size = 15)
    ∧ (found (pooled 3 (poolRec 0x4000 16 5 2) one) w 3 = true ∧ found (pooled 3 (poolRec 0x4000 16 5 2) one) a 3 = true
      ∧ (PoolRec.parse (poolRec 0x4000 16 5 2)).kind = 5 ∧ (PoolRec.parse (poolRec 0x4000 16 5 2)).valid = false)
    ∧ (performable (queued { id := 7, ins := {}, kind := .rtw } { unit4 with wr := [1, 2, 3, 4] }) = true
      ∧ (let s := (queued { id := 7, ins := { held := [.v 72] }, kind := .rtr, look := some { kind := .rtrd, f := blank .f128, rcd := good } } unit4).putBytes true 1 0x100 [1, 2, 3, 4]
         performable s = true ∧ s.ue = [] ∧ s.ce = [] ∧ (List.range 4).all (fun i => (s.rtByte 0 (0x100 + i) 1).isSome) = true)
      ∧ performable (queued { id := 7, ins := { held := [.v 72] }, kind := .rtr, look := some { kind := .rtrd, f := blank .f128, rcd := good } }
          { unit4 with size := 0, tgt := .loc 0 }) = true) := by decide

/-- A lookup under way for lane 0, whose first two operands hold a and b. -/
def looking (kind : LookKind) (f : Fields) (rcd : List W8) (a : List Lanes) (x : List (Nat × LookLane)) : State :=
  queued { id := 7, ins := { held := [.v 72], vop := a }, kind := .look, look := some { kind := kind, f := f, rcd := rcd, lanes := x } }
    { unit4 with size := 0, va := 0, tgt := .loc 0 }

theorem witness_TexturesAndRaysAnswer :
    let one : Warp → Warp := fun x => { x with exec := 1, vregs := [(132, [0])] }
    let tex := poolRec 0 16 1 2
    let sm : Fields := { blank .f128 with dst := 72, sa := 132, sb := 136, ext := 2, dst2 := 160 }
    let node := poolRec 0x4000 128 2 0
    (found (pooled 3 tex one) (.sample sm) 3 = true ∧ found (pooled 3 tex one) (.sgrad sm) 3 = true ∧ found (pooled 3 tex one) (.gath4 { sm with sub := 3 }) 3 = true
      ∧ found (pooled 3 tex fun x => { x with exec := 0 }) (.sample sm) 3 = true
      ∧ found (pooled 3 tex one) (.resq { sm with sa := 0, sb := 136, sc := 140, dst2 := 0 }) 3 = true
      ∧ (PoolRec.parse tex).base % 65536 = 0 ∧ (PoolRec.parse tex).kind = 1 ∧ (PoolRec.parse tex).rmap = 0)
    ∧ (found (pooled 3 node one) (.raybox { blank .f128 with dst := 70, sa := 132, sb := 136, ext := 2 }) 3 = true
      ∧ found (pooled 3 node one) (.raytri { blank .f128 with dst := 70, sa := 132, sb := 136, ext := 2 }) 3 = true
      ∧ (PoolRec.parse node).kind = 2 ∧ (PoolRec.parse node).size % 64 = 0)
    ∧ (let n := Tex.of 2 (PoolRec.parse tex) 0
       let i : LaneIn := { u := .fin false 0 1 0, v := .fin false 0 1 0, k := 0, lam := .fin false 0 1 0 }
       let s := base.putBytes true 1 0 [1, 2, 3, 4]
       (n.taps false i.u i.v 0).map (n.tapAt i.k 0) = [.texel 0 0 0] ∧ heap s 0 4 = true ∧ reads s 0 4 = true
       ∧ (let e := Tex.of 2 (PoolRec.parse tex) 0x3C
          (e.taps true (.fin true 9 1 0) (.fin true 9 1 0) 0).map (e.tapAt 0 0) = List.replicate 4 .border))
    ∧ (let bs := fun (L : Nat) => match (base.putBytes true 1 0x8010 [0]).mapBytes 0 0 0x8000 { rx := 1, ry := 1, layers := 1, tail := 3 } [(L, 0, 0)] [] with
         | .ok p => p.1
         | .error _ => []
       bs 0 = [0] ∧ bs 1 = [255])
    ∧ can base (.rayxf { blank .f64 with dst := 72, sa := 132, sb := 136 }) = true
    ∧ (can base (.resfence (blank .f64)) = true ∧ (base.warpRelease 0 0 4).lookups 0 = []
      ∧ (let s := pair2.modWarp 0 1 fun _ => (looking .sample sm tex [] [(0, {})]).warp 0 0
         can s (.resfence (blank .f64)) = true ∧ (s.warp 0 0).allPerformed = true ∧ (s.warpRelease 0 0 4).lookups 0 ≠ [])) := by decide

/-- The lookup of lane 0 has a texture, coordinates and a look that meet p. -/
def lookOf (s : State) (p : Tex → LaneIn → Look → Bool) : Bool :=
  match (s.opOf 0 0 7).bind fun o => o.look.map fun l => (l, o.ins) with
  | some (l, ins) =>
    let t := Tex.of l.f.ext.toNat (PoolRec.parse l.rcd) l.f.imm
    performable s && p t (levelIn t s { g := 0, w := 0, f := l.f, ins := ins, re := false } 0) l
  | none => false

theorem witness_TexturesAndRaysAnswer_steps :
    let tex := poolRec 0 65536 1 2
    let big := leBytes 8 0 ++ leBytes 8 (0x20000 + 2 ^ 40) ++ leBytes 4 (0x7F + 0x7F0000) ++ leBytes 4 2
    let map := big ++ leBytes 8 0x20000
    let sm : Fields := { blank .f128 with dst := 72, sa := 132, sb := 136, ext := 2, dst2 := 160, imm := 0x3C }
    let out : List Lanes := [[0xC0000000], [0xC0000000]]
    let at_ : LookLevel := { want := 0, lev := 0, kind := 0, inc := false, region := (0, 0, 0) }
    let up : LookLevel := { at_ with lev := 1, kind := 1, inc := true }
    let s := fun (rcd : List W8) (x : List (Nat × LookLane)) => looking .sample { sm with imm := 0 } rcd [[0x3E800000], [0x3E800000]] x
    let high := fun (x : List (Nat × LookLane)) => (s map x).modCtx 0 fun c => { c with csr := [(0x102, 0x40000), (0x103, 0xFFFFFFFFFF0000)] }
    let va := fun (s : State) (lv : LookLevel) => lookOf s fun t i _ => decide ((Claim.reads t none i lv).length = 1) && (Claim.reads t none i lv).all fun a => heap s a 4
    let gone := fun (s : State) (lv : LookLevel) => lookOf s fun t i _ => decide ((Claim.reads t none i lv).length = 1)
      && (Claim.reads t none i lv).all fun a => match s.heapTarget 0 a 4 .read with | some (.error e) => decide (e = 0x0A) | _ => false
    (performable (looking .sample sm tex out []) = true ∧ performable (looking .resq sm tex out []) = true
      ∧ performable (looking .resq sm tex out [(0, { levels := asWanted [0] })]) = true)
    ∧ (lookOf (s tex [(0, { levels := [at_] })]) (fun _ _ l => decide ((PoolRec.parse l.rcd).rmap = 0)) = true)
    ∧ (va (s map [(0, { levels := [at_] })]) at_ = true ∧ (PoolRec.parse map).rmap = 0x20000)
    ∧ (gone (high [(0, { levels := [at_], tail := 3 })]) at_ = true ∧ lookOf (high []) (fun t i _ => (Claim.reads t none i { at_ with lev := 1 }).all fun a =>
          match (high []).heapTarget 0 a 4 .read with | some (.ok (.dev _ _)) => true | _ => false) = true)
    ∧ (let q := (s tex [(0, { levels := [at_], found := true, got := [none] })]).putBytes true 1 0 (List.replicate 64 1)
       lookOf q (fun t i _ => decide ((unitsAt t none i [at_]).length = 1) && (unitsAt t none i [at_]).all fun a => heap q a 4 && reads q a 4) = true)
    ∧ (gone (high [(0, { levels := [at_], found := true, got := [none] })]) at_ = true)
    ∧ (lookOf (s tex [(0, { levels := [at_], found := true, got := [some [1, 2, 3, 4]] })]) (fun t i _ => decide ((unitsAt t none i [at_]).length = 1)) = true
      ∧ lookOf (s map [(0, { levels := [at_], found := true, got := [some [1, 2, 3, 4]] })]) (fun t i _ => decide ((unitsAt t none i [at_]).length = 1)) = true
      ∧ lookOf (s map [(0, { levels := [up], found := true, got := [some [1, 2, 3, 4]] })]) (fun t i _ => decide ((unitsAt t none i [up]).length = 1)) = true) := by decide

theorem witness_TexturesAndRaysAnswer_feedback :
    let sm : Fields := { blank .f128 with dst := 72, sa := 132, sb := 136, ext := 2, dst2 := 160, imm := 0x3C }
    let mapped := (poolRec 0x10000 16 1 2).take 24 ++ leBytes 8 0x20000
    let out : List Lanes := [[0xC0000000], [0xC0000000]]
    let up : LookLevel := { want := 0, lev := 1, kind := 1, inc := true, region := (0, 0, 0) }
    let up1 : LookLevel := { up with want := 1, lev := 2 }
    let bits := fun (s : State) (lv : LookLevel) => match s.feed 0 (lv.feed 2) with | .bits _ s1 => decide (s1.wgs = s.wgs) | .later _ => false
    (let s := looking .sample sm mapped out [(0, { levels := [up], words := some [1, 2, 3, 4] })]
     performable s = true ∧ bits s up = true)
    ∧ (let s := (looking .sample sm mapped out [(0, { levels := [up, up1], words := some [1, 2, 3, 4] })]).modOp 0 0 7 fun o =>
         { o with look := o.look.map fun l => { l with fed := [((up.feed 2).key, 64)] } }
       performable s = true ∧ (up1.feed 2).key ≠ (up.feed 2).key ∧ bits s up1 = true)
    ∧ (let s := looking .sample sm mapped out [(1, { levels := [up], words := some [1, 2, 3, 4] })]
       let r := s.modOp 0 0 7 fun o => { o with units := o.units ++ o.units }
       (r.opOf 0 0 7).map (fun o => (o.units.map (·.done), o.performed, o.look.map fun l => (l.fed.length, l.lanes.map (·.1)))) = some ([false, false], false, some (0, [1]))) := by decide

theorem witness_TexturesAndRaysAnswer_rays :
    let ray := fun (k : LookKind) (n : W32) (kind : Nat) (x : List (Nat × LookLane)) =>
      (looking k { blank .f128 with dst := 70, sa := 132, sb := 136, ext := 2 } (poolRec 0x4000 128 2 0) [[n]] x).putBytes true 1 0x4040 (List.replicate 56 0 ++ leBytes 4 kind ++ leBytes 4 0)
    let all := [(0, { found := true, got := List.replicate 8 (some (List.replicate 8 0)) })]
    ([LookKind.raybox, .raytri].all fun k => performable (ray k 2 1 []) && performable (ray k 1 1 []) && performable (ray k 1 2 [(0, { found := true, got := List.replicate 8 none })])
        && performable (ray k 1 0 all) && heap (ray k 1 1 []) 0x4040 64 && reads (ray k 1 1 []) 0x4040 64) = true
    ∧ leVal (((List.replicate 7 (List.replicate 8 (0 : W8))).flatten ++ [2, 0, 0, 0, 0, 0, 0, 0]).drop 56 |>.take 4) = 2 := by decide

/-! Witnesses: the scheduler, the module and its host, pre-emption. -/

/-- Two warps on one sub-core, 0 and 4, with f and h applied, and code of `sadd`s; the cycle is n. -/
def two (n : Nat) (f h : Warp → Warp) : State :=
  ((State.reset.place1 (List.replicate 8 (leBytes 8 0x4000000C0B0A0001)).flatten).modWg 0 fun y =>
    { y with warps := y.warps.map f ++ List.replicate 3 { ended := true } ++ y.warps.map h, slots := [0, 1, 2, 3, 4] }).modCore 0 fun k => { k with cycle := n }

theorem witness_SchedulerEvents :
    let run := two 63 (fun x => { x with lastAt := 9 }) (fun x => { x with prio := 3, lastAt := 9 })
    let busy := (two 5 id id).modSub 0 fun x => { x with issued := some 5 }
    let wait := two 64 (fun x => { x with prio := 3 }) (fun x => { x with active := false })
    let late := two 63 (fun x => { x with prio := 3 }) (fun x => { x with active := false })
    let lower := two 64 id (fun x => { x with active := false, prio := 3 })
    let ends := fun (n : Nat) => (two n id id).modSub 0 fun x => { x with xchg := some { out := some (0, 0), inn := some (0, 4), ends := 20 } }
    let poll := fun (n : Nat) (l : List Wait) => two n (fun x => { x with poll := true, waits := l, empty := [.s 9, .s 8] }) id
    let seen := run.examineAll 0
    let many := (two 5 id id).modWg 0 fun y => { y with warps := (y.warps.take 1).flatMap fun x => List.replicate 32 x ++ [{ x with active := false }], slots := List.range 33 }
    let full := (two 64 (fun x => { x with poll := true, waits := [.full (.s 8)], empty := [.s 8] }) fun x => { x with parked := List.replicate 32 (.full (.s 1)), empty := [.s 1] })
    (run.subWarps 0).all (fun p => decide ((run.warp p.1 p.2).blocked = none) && (run.nextWaits p.1 p.2).isEmpty) = true
    ∧ ((List.range 4).all (fun i => decide ((seen.sub i).issued ≠ some (seen.subNow 0))) = true
      ∧ (seen.subWarps 0).all (fun p => (seen.warp p.1 p.2).active && seen.ready p.1 p.2 && !seen.exchanging 0 p) = true
      ∧ seen.subWarps 0 = [(0, 0), (0, 4)] ∧ seen.ranks (0, 0) (0, 4) = true)
    ∧ (((busy.examineAll 0).sub 0).issued = some ((busy.examineAll 0).subNow 0) ∧ (base.examineAll 1).subWarps 1 = [])
    ∧ (8 ≤ many.activeCount 0 ∧ many.bestPending 0 = some (0, 32) ∧ (many.sub 0).xchg = none)
    ∧ ((full.subWarps 0).filter (fun p => (full.warp p.1 p.2).poll) = [(0, 0)] ∧ 32 < full.cloakUsed (full.subOf 0 0) + 1
      ∧ (full.warp 0 0).waits.filter (fun c => !full.waitMet 0 0 c) = [.full (.s 8)])
    ∧ ((wait.sub 0).xchg = none ∧ wait.worstActive 0 = some (0, 0) ∧ wait.bestPending 0 = some (0, 4) ∧ wait.subNow 0 % 64 = 0 ∧ wait.above (0, 4) (0, 0) = true
      ∧ late.worstActive 0 = some (0, 0) ∧ late.bestPending 0 = some (0, 4) ∧ late.subNow 0 % 64 ≠ 0
      ∧ lower.worstActive 0 = some (0, 0) ∧ lower.bestPending 0 = some (0, 4) ∧ lower.above (0, 4) (0, 0) = false)
    ∧ (wait.activeCount 0 < 8)
    ∧ (((ends 20).sub 0).xchg = some { out := some (0, 0), inn := some (0, 4), ends := 20 } ∧ (ends 20).subNow 0 = 20 ∧ (ends 19).subNow 0 = 19
      ∧ (ends 20).hasWarp 0 0 = true ∧ (ends 20).hasWarp 0 4 = true)
    ∧ (((poll 64 [.full (.s 7)]).subWarps 0).filter (fun p => ((poll 64 []).warp p.1 p.2).poll) = [(0, 0)]
      ∧ ((poll 64 [.full (.s 7)]).warp 0 0).waits.filter (fun c => !(poll 64 [.full (.s 7)]).waitMet 0 0 c) = []
      ∧ ((poll 64 [.full (.s 8), .full (.s 7)]).warp 0 0).waits.filter (fun c => !(poll 64 [.full (.s 8), .full (.s 7)]).waitMet 0 0 c) = [.full (.s 8)]
      ∧ (poll 64 [.full (.s 8)]).cloakUsed ((poll 64 [.full (.s 8)]).subOf 0 0) + 1 ≤ 32 ∧ (poll 64 []).subNow 0 % 64 = 0 ∧ (poll 65 []).subNow 0 % 64 ≠ 0)
    ∧ (let s := two 20 (fun x => { x with paused := some 20 }) fun x => { x with paused := some 21 }
       (s.warp 0 0).paused = some 20 ∧ (s.warp 0 4).paused = some 21 ∧ s.now 0 = 20 ∧ s.hasWarp 0 4 = true) := by decide

theorem witness_ModuleContextAndAttestationEvents :
    let dead := base.modCtx 0 fun x => { x with dying := some 0x31 }
    (base.refused = false ∧ SMap.find 4095 base.ctxs = none ∧ SMap.find 16 base.groups = none ∧ SMap.find 0 base.groups = some 16 ∧ (SMap.find 0 base.ctxs).isSome = true)
    ∧ ((SMap.find 0 base.ctxs).map (·.dying) = some none
      ∧ (base.modWg 0 fun y => { y with graced := true }).wgs.any (fun p => decide (p.2.ctx = 0) && p.2.graced) = true)
    ∧ ((SMap.find 0 dead.ctxs).map (fun c => (c.dying, c.dyingWarp)) = some (some 0x31, none) ∧ SMap.wf dead.ctxs = true ∧ dead.inFlight 0 = false ∧ dead.evts.length < 64
      ∧ ({ dead with evts := List.replicate 64 0 } : State).evts.length = 64 ∧ dead.mwin.toNat % 4096 = 0 ∧ ({ dead with mwin := 1 } : State).mwin.toNat % 4096 ≠ 0) := by decide

theorem witness_ModuleContextAndAttestationEvents2 :
    let att := fun (a : Attest) => { base with attest := a }
    ((1 : W64).getLsbD 0 = true ∧ (att {}).attest.busy = false ∧ (att { index := 2 ^ 20 - 1 }).attest.index < 2 ^ 20 ∧ 2 ^ 20 ≤ (att { index := 2 ^ 20 }).attest.index)
    ∧ (let a := (att { busy := true, taken := List.replicate 32 0 }).attest
       a.busy = true ∧ a.nonce.length = 32 ∧ a.taken.length = 32 ∧ a.taken = a.nonce) := by decide

set_option maxRecDepth 8000 in
theorem witness_HostAccessesAnswer :
    let q := queueOf 2 (record0 0)
    let win := { base.putBytes true 1 0x40 [7] with mwin := 0x10000 }
    (q.live 0 = true ∧ q.cpbOn = false ∧ (entry q).map (fun e => (e.en, e.log2n, e.ridx, e.widx)) = some (true, 2, 0, 2)
      ∧ (4 : W32).toNat ≤ 2 ^ 2 ∧ 2 ≤ (2 : W32).toNat ∧ heap q (q.qAddr 0 0 + 12) 4 = true ∧ 2 ^ 2 < (5 : W32).toNat ∧ (1 : W32).toNat < 2
      ∧ (q.queue 0 0).rejects ≠ 0xFFFFFFFF ∧ (q.ctx 0).pend = [])
    ∧ (0 ∈ ({ base with lost := [0] } : State).lost ∧ base.lost = [])
    ∧ (installed 0x40 1 = true ∧ win.mwin.getLsbD 16 = true ∧ win.mwin.toNat % 4096 = 0 ∧ win.live 0 = true ∧ win.refused = false ∧ win.ue = [] ∧ win.ce = []
      ∧ win.homeByte true 0x40 (win.keyOf 0 (win.mwin.toNat / 2 ^ 12 % 16)) = some 7 ∧ base.mwin.getLsbD 16 = false)
    ∧ (base.refused = false ∧ base.evts = [] ∧ ({ base with evts := [5] } : State).evts = [5])
    ∧ (csrOffset 0x1A000000 = some ({ ctx := 0, core := 0, sub := 0, cluster := 0, die := 0 }, 0x100) ∧ (csrFields 0x100).isSome = true
      ∧ (csrFields 0x100).all (fun p => offsetHolds 0x1A000000 p.1 && numberFits p.1 0x100 && decide (p.1 ≠ .warp)) = true
      ∧ (csrOffset 0x1B400000).map (·.2) = some 0x280 ∧ (csrFields 0x280).all (fun p => offsetHolds 0x1B400000 p.1 && numberFits p.1 0x280) = true)
    ∧ base.attest.nonce.length = 32 ∧ base.live 0 = true ∧ base.live 1 = false
    ∧ ({ base with msixPend := 2 ^ 63 } : State).msixPend.getLsbD 63 = true := by decide

theorem witness_HostAccessesAnswer_refused :
    let s := { base with refused := true }
    s.refused = true ∧ s.live 0 = true ∧ (s.attest.nonce.length = 32) ∧ base.refused = false := by decide

/-- The workgroup asked to make way at cycle 0, with its save record at va and f applied. -/
def asked (va : W64) (n : Nat) (f : Wg → Wg) (h : Warp → Warp) : State :=
  (((lab h).modWg 0 fun y => f { y with preempt := some 0, shape := { y.shape with warps := 1, vregs := 4, localK := 0, tiles := 0, accs := 0 } }).modCtx 0 fun x =>
    { x with csr := x.csr ++ [(0x115, va), (0x116, 7)] }).modDie 0 fun d => { d with counter := n, csr := [(0x406, 9)] }
/-- Every piece of the save record meets p. -/
def pieces (s : State) (acc : Acc) (p : Option (Except Cause Target) → Bool) : Bool :=
  (pagePieces ((s.wg 0).shape.saveBytes / 65536 + 2) (s.saveAt 0) (s.wg 0).shape.saveBytes).all fun q => p (s.heapTarget 0 q.1 q.2 acc)

theorem witness_WorkgroupsArePreemptedAndRestored :
    let go := asked 0x2000 9 id fun x => { x with poll := true }
    let rival : State := (asked 0 0 (fun y => { y with preempt := none, basePrio := 0, warps := y.warps.map fun x => { x with prio := 0 } }) id).modCore 0 fun k => { k with ran := [(0, 3)], cycle := 10 }
    let rivals := { rival with wgs := rival.wgs ++ [(1, { rival.wg 0 with ctx := 1, saved := true })] }
    let saved := base.modWg 0 fun y => { y with saved := true, shape := { y.shape with vregs := 8 } }
    let kept := asked 0x2000 0 (fun y => { y with saved := true }) id
    let gone := kept.modCtx 0 fun x => { x with csr := [(0x102, 0x10000), (0x103, 0x1800000000), (0x115, 0x2000)] }
    let load := asked 0 0 id fun x => { x with poll := true, ops := [{ id := 1, ins := {}, kind := .load }] }
    ((rivals.hasWg 0 = true ∧ (rivals.wg 0).preempt = none ∧ (rivals.wg 0).saved = false ∧ (rivals.cctx 0 0x116).toNat % 2 ^ 32 = 7 ∧ SMap.find 0 (rivals.core 0).ran = some 3
        ∧ 3 + 7 ≤ (rivals.core 0).cycle ∧ (rivals.wg 0).ended = false ∧ rivals.rivals 0 0 (rivals.wg 0).eprio = true)
      ∧ ((rivals.modCore 0 fun k => { k with cycle := 9 }).core 0).cycle < 3 + 7 ∧ rival.rivals 0 0 (rival.wg 0).eprio = false ∧ ((rival.modCtx 0 fun x => { x with csr := [(0x116, 0)] }).cctx 0 0x116).toNat % 2 ^ 32 = 0)
    ∧ ((go.wg 0).preempt = some 0 ∧ (go.wg 0).saved = false ∧ (go.wg 0).graced = false ∧ (go.cdie 0 0x406).toNat % 2 ^ 32 = 9 ∧ (go.die 0).counter = 9
      ∧ ((asked 0 8 id id).die 0).counter = 8 ∧ (asked 0 9 (fun y => { y with graced := true }) id).hasWg 0 = true)
    ∧ ((asked 0x2000 0 id id).live 0 = true ∧ (asked 0x2000 0 id id).preemptible 0 = false ∧ ((asked 0x2000 0 id id).wg 0).evicting = false)
    ∧ (go.ue = [] ∧ go.hostFail = [] ∧ go.ctxs.all (fun q => q.2.streams.all fun p => !p.2.dead) = true)
    ∧ (go.preemptible 0 = true ∧ go.quiet 0 = true ∧ pieces go .write (fun r => match r with | some (.ok (.dev _ _)) => true | _ => false) = true
      ∧ pieces ((asked 0x2000 9 id fun x => { x with poll := true }).modCtx 0 fun x => { x with csr := [(0x102, 0x10000), (0x103, 0x1000000000000000), (0x115, 0x2000)] }) .write (fun r => match r with | some (.error _) => true | _ => false) = true)
    ∧ (load.preemptible 0 = true ∧ load.quiet 0 = false)
    ∧ (pieces kept .read (fun r => match r with | some (.ok (.dev _ _)) => true | _ => false) = true
      ∧ pieces gone .read (fun r => match r with | some (.error _) => true | _ => false) = true
      ∧ (gone.live 0 && gone.coreFits 0 (gone.wg 0).shape && (gone.chooseB 0 (gone.wg 0).shape).isSome && gone.latchesFit 0 && kept.latchesFit 0) = true)
    ∧ ((saved.wg 0).saved = true ∧ saved.live 0 = true ∧ saved.coreFits 0 (saved.wg 0).shape = true ∧ (saved.chooseB 0 (saved.wg 0).shape).isSome = true ∧ saved.ue = []) := by decide

/-- A saved workgroup whose warp waits at a latch, or for its operations to be performed. -/
theorem witness_WorkgroupsArePreemptedAndRestored_blocked :
    let kept := fun (c : Wait) => asked 0x2000 0 (fun y => { y with saved := true }) fun x => { x with blocked := some { wait := c, ins := {} } }
    [Wait.latch 3, .acks].all (fun c => ((kept c).warp 0 0).blocked.map (·.wait) == some c && !((kept c).warp 0 0).ended && (kept c).latchesFit 0
      && pieces (kept c) .read (fun r => match r with | some (.ok (.dev _ _)) => true | _ => false)) = true
    ∧ (Wait.latch 3).parks = true ∧ Wait.acks.parks = false := by decide

/-! Witnesses: the causeway, the power control, and the checks of an issue. -/

/-- A graph with edge 0, whose key is b, 0, 0, …, and the other unit in the peer table. -/
def wired (x : Edge) (b : W8) : State :=
  { ((staged 0 (graph1 x 0 false) id).putBytes true 1 0x1000 (b :: List.replicate 31 0)).putBytes true 1 0x3000 (List.replicate 22 0 ++ [1] ++ List.replicate 9 0) with
    csr := [(0x500, 0x3000)] }.modCtx 0 fun c => { c with csr := c.csr ++ [(0x113, 0x1000)] }
/-- The key that the edge uses, read without any effect. -/
def keyed (s : State) : Option (BitVec 256) := match s.edgeKey 0 0 with | .key k t => if t = s then some k else none | _ => none
/-- Edge 0 is there. -/
def edged (s : State) : Bool := s.live 0 && decide (((SMap.find 2 (s.ctx 0).graphs).map fun g => g.edges.length) = some 1)
/-- A RECORDS datagram of frame f with the record k, 0, 0, … -/
def gram (f : W32) (k : W8) (seq : Nat) : Datagram :=
  { Datagram.blank 0 0 with graph := 5, count := 1, frame := f, first := k.setWidth 32, seq := seq, body := k :: List.replicate 15 0, key := 5, nonce := 0x80000005 }
/-- A decoder that has closed frame 2, with SEQ h accepted. -/
def dec2 (h : Option Nat) : Decoder := { c := 2, top := 2, hi := h, seen := 1 }
/-- An edge with that decoder. -/
def far1 (h : Option Nat) : Edge := { edge1 with decoder := some (dec2 h) }
/-- The datagram is the edge's. -/
def taken (x : Edge) (d : Datagram) (y : Decoder) : Bool :=
  let s := wired x 5
  edged s && !s.replaying 0 && decide (x.decoder = some y) && decide (x.older = []) && decide (s.gramGraph 0 d (fun x => x.decoder.isSome) = some 2) && decide (keyed s = some d.key)
    && gramOk x d && !d.rel && decide (d.nonce = edgeNonce (s.graph 0 2) true) && decide (y.base = none) && y.serves d.frame && !(s.graph 0 2).holding x.cons d.frame

theorem witness_LossyCauseway :
    let full := { edge1 with send := List.replicate 90 (rec3 0 1) }
    let next := { edge1 with send := [rec3 0 1, { rec3 0 1 with frame := 4 }], sendAt := 0 }
    let few := { edge1 with send := [rec3 0 1] }
    let at_ := fun (x : Edge) (n : Nat) => (wired x 5).modDie 0 fun d => { d with counter := n }
    let win := { far1 none with keys := 4, decoder := some { dec2 none with since := some 0 } }
    let spilt := { edge1 with decoder := some { dec2 none with spill := [.rcd (rec3 9 1)] } }
    (edged (wired few 5) = true ∧ keyed (wired full 5) = some 5 ∧ (match (wired full 0).edgeKey 0 0 with | .none t => decide (t = wired full 0) | _ => false) = true
      ∧ (wired full 5).recordsFit 0 full ≤ 90 ∧ 1 < (wired full 5).recordsFit 0 full ∧ (next.send.takeWhile fun q => q.frame = 3).length = 1
      ∧ max 1 (((wired few 5).cctx 0 0x10C).toNat / 2 ^ 37 % 2 ^ 16) ≤ ((at_ few 65536).die 0).counter ∧ ((at_ few 0).die 0).counter = 0)
    ∧ (heap (wired full 0) 0x4458 16 = true ∧ statsOf (wired full 0) 0 2 0 = 0x4458 ∧ ((wired few 5).peerAddr ((wired few 5).otherUnit 0)).isSome = true)
    ∧ keyed (wired { edge1 with sendClosed := [3] } 5) = some 5
    ∧ (base.live 1 = false ∧ base.replaying 0 = false ∧ base.gramGraph 0 (gram 3 1 0) (fun x => x.decoder.isSome) = none)
    ∧ (taken (far1 none) (gram 3 1 7) (dec2 none) = true
      ∧ gramOk (far1 none) { gram 3 1 7 with count := 0 } = false ∧ (gram 3 1 7).nonce ≠ 0 ∧ (gram 3 1 7).key ≠ 6)
    ∧ (taken (far1 none) (gram 2 1 7) (dec2 none) = true ∧ later 2 (dec2 none).c = false)
    ∧ (taken (far1 (some 7)) (gram 3 1 7) (dec2 (some 7)) = true ∧ later 3 (dec2 none).c = true
      ∧ taken (far1 (some 7)) (gram 3 1 6) (dec2 (some 7)) = true ∧ (dec2 none).seen.getLsbD (7 - 6 - 1) = true
      ∧ taken (far1 (some 71)) (gram 3 1 7) (dec2 (some 71)) = true ∧ 64 ≤ 71 - 7)
    ∧ ((wired (far1 none) 5).cpbOn = false ∧ (3 : W32) = (dec2 none).c + 1 ∧ taken (far1 (some 6)) (gram 3 7 7) (dec2 (some 6)) = true)
    ∧ (let y := { dec2 none with cache := [(1, [(3, [])])] }
       taken { edge1 with decoder := some y } (gram 3 1 7) y = true ∧ SMap.get 1 [] y.cache = [(3, [])] ∧ laterEq 3 3 = true)
    ∧ taken { far1 none with sparse := true } { Datagram.blank 0 1 with graph := 5, frame := 3, seq := 9, key := 5, nonce := 0x80000005 } (dec2 none) = true
    ∧ (((at_ win 100).die 0).counter = 0 + win.window.toNat ∧ ((at_ win 99).die 0).counter < 0 + win.window.toNat ∧ edged (wired win 5) = true
      ∧ ((wired win 5).graph 0 2).stages.all (fun g => !g.trigen) = true
      ∧ ((List.range win.keys).filterMap fun k => standIn win { dec2 none with since := some 0 } 3 k).length ≤ win.slots)
    ∧ (spilt.ring.length < spilt.slots ∧ edged (wired spilt 5) = true ∧ ({ spilt with ring := List.replicate 4 (rec3 0 1, false) } : Edge).slots ≤ 4
      ∧ (dec2 none).closing = none ∧ (dec2 none).work = [] ∧ (dec2 none).noted = [])
    ∧ (gramFits (gram 3 1 7) = true ∧ ({ gram 3 1 7 with rel := true } : Datagram).rel = true) := by decide

/-- The stream of context 0 to peer 3, as f leaves it, with a key of 9, 0, 0, … and the peer in use at 0x3000; the other unit is peer o, and the heap
window has two pages at physical address off. Every die's counter is 1,000. -/
def streaming (o off : Nat) (f : Stream → Stream) (g : Graph) : State :=
  { (({ (base.putBytes true 1 (off + 0x1060) (9 :: List.replicate 31 0)).putBytes true 1 0x3060 (List.replicate 22 0 ++ [1] ++ List.replicate 9 0) with csr := [(0x500, 0x3000)] }).modCtx 0 fun c =>
    { c with csr := [(0x102, 0x20000), (0x103, BitVec.ofNat 64 off), (0x10C, BitVec.ofNat 64 (o * 65536)), (0x10D, 100), (0x10E, 300), (0x10F, 3), (0x112, 0x1000)], graphs := [(2, g)] }).modStream 0 3 f with
    dies := [(0, { counter := 1000 }), (1, { counter := 1000 }), (2, { counter := 1000 }), (3, { counter := 1000 })] }
theorem streaming_now (o off : Nat) (f : Stream → Stream) (g : Graph) : (streaming o off f g).relNow 0 3 = 1000 := by
  have h : ∀ k, k < 4 → ((streaming o off f g).die k).counter = 1000 := by
    intro k hk
    match k, hk with
    | 0, _ | 1, _ | 2, _ | 3, _ => rfl
  exact h _ (Config.streamPort 0 3).isLt
/-- R179's key and peer, read. -/
def peerKeyed (s : State) (off : Nat) : Bool :=
  decide (s.ue = []) && decide (s.ce = []) && (s.peerAddr 3).isSome
    && (match s.heapTarget 0 ((s.cctx 0 0x112).toNat / 64 % 2 ^ 50 * 64 + 32 * 3) 32 .read with | some (.ok t) => decide (t = .dev (off + 0x1060) 1) | _ => false)
    && (List.range 32).all fun i => decide (s.homeByte true (off + 0x1060 + i) 1 = some (if i = 0 then 9 else 0))
/-- A sound reliable datagram from peer 3 to a state. -/
def relGram (s : State) (type seq : Nat) : Datagram := { Datagram.blank 0 type with frm := 3, rel := true, seq := seq, key := 9, nonce := s.relNonceOf 3 false (Datagram.blank 0 type) }
/-- The datagram is sound, but for its nonce, of which `witness_nonce` speaks. -/
def sounds (s : State) (d : Datagram) : Bool :=
  s.live 0 && !s.replaying 0 && peerKeyed s 0 && decide (d.ctx = 0 ∧ d.frm = 3 ∧ d.key = 9) && relOk d && s.relEdgeOk 0 d && !(s.stream 0 3).dead

theorem witness_nonce (s : State) (type seq : Nat) : (relGram s type seq).nonce = s.relNonceOf 3 false (relGram s type seq) := rfl

/-- The device may write n bytes at an address whose page lies at physical address off. -/
def heapAt (s : State) (off va n : Nat) : Bool :=
  match s.heapTarget 0 va n .write with | some (.ok t) => decide (t = .dev (off + va) 1) | _ => false
/-- Edge 0's graph, in a cut move that takes stage 0 away or here. -/
def moved (x : StageMove) (state : W64) (d : Nat) : Graph :=
  let g := graph1 { edge1 with deadline := d } 0 false
  { g with move := some { frame := 3, cut := 0, place := 1, accepted := true, stages := [x] }, frames := [{ stage := 0, frame := 2, done := true }]
           stages := g.stages.map fun y => { y with state := state, stateSz := 16 } }

set_option maxRecDepth 8000 in
theorem witness_ReliableCauseway :
    let g := graph1 edge1 0 false
    let st := streaming 4 0
    let a := st (fun x => { x with unacked := [(4, relGram base 7 4, true), (5, relGram base 7 5, true)], tried := 6 }) g
    let e := st (fun x => { x with expect := 5, since := 6, ackDue := some 1001 }) g
    let due := st (fun x => { x with expect := 5, ackDue := some 1000 }) g
    let t := fun (n : Nat) => st (fun x => { x with unacked := [(4, relGram base 7 4, true)], timer := some 1000, rto := 100, expiries := n }) g
    let q := st (fun x => { x with nacked := [5], lastRx := 100 }) g
    (base.live 1 = false ∧ peerKeyed (st id g) 0 = true ∧ (Datagram.blank 0 3).rel = false ∧ relOk (relGram (st id g) 9 0) = false)
    ∧ ((a.stream 0 3).unacked.all (fun u => decide (u.1 < (a.stream 0 3).tried)) = true ∧ (due.ctx 0).pend = [])
    ∧ (sounds a (relGram a 3 4) = true ∧ a.otherUnit 0 = 4 ∧ (a.stream 0 3).unacked.all (fun u => u.2.2) = true)
    ∧ (sounds a (relGram a 4 5) = true ∧ ((a.stream 0 3).unacked.find? fun q => decide (q.1 = 5)).isSome = true)
    ∧ (sounds (st id g) (relGram (st id g) 7 256) = true ∧ sounds e (relGram e 7 4) = true ∧ sounds e (relGram e 7 6) = true ∧ (e.stream 0 3).store = []
      ∧ (e.stream 0 3).nacked = [] ∧ (e.stream 0 3).since < 7 ∧ (e.stream 0 3).expect = 5)
    ∧ (e.live 0 = true ∧ (e.stream 0 3).dead = false ∧ (e.stream 0 3).ackDue = some 1001 ∧ (due.stream 0 3).ackDue = some 1000 ∧ 1 ≤ (due.stream 0 3).expect
      ∧ peerKeyed due 0 = true ∧ due.hasCtx 0 = true ∧ (due.stream 0 3).dead = false)
    ∧ (((t 0).stream 0 3).timer = some 1000 ∧ ((t 0).die 0).counter = 1000 ∧ max 1 (((t 0).cctx 0 0x10F).toNat % 256) = 3 ∧ ((t 1).stream 0 3).expiries + 1 < 3
      ∧ 3 ≤ ((t 2).stream 0 3).expiries + 1 ∧ ((t 2).stream 0 3).reqs = [] ∧ (t 2).live 0 = true)
    ∧ ((q.stream 0 3).nacked ≠ [] ∧ (q.stream 0 3).lastRx + 3 * max (max 1 ((q.cctx 0 0x10D).toNat % 2 ^ 32)) ((q.cctx 0 0x10E).toNat % 2 ^ 32) = (q.die 0).counter
      ∧ (q.stream 0 3).reqs = []) := by decide

set_option maxRecDepth 8000 in
theorem witness_ReliableCauseway_moves :
    let away := fun (off : Nat) (v : W64) => streaming 3 off id (moved { stage := 0, toHere := false } v 50)
    let here := fun (n : Nat) => streaming 3 0 id (moved { stage := 0, toHere := true, since := some n } 0 50)
    ((away 0 0).snapshotDue 0 2 0 = true ∧ base.snapshotDue 0 2 0 = false ∧ edged (away 0 0) = true ∧ ((away 0 0).graph 0 2).move.isSome = true
      ∧ (((away 0 0).graph 0 2).frameOf 0 2).ran = [] ∧ (away 0 0).otherUnit 0 = 3 ∧ ((away 0 0).stream 0 3).unacked = [] ∧ ((away 0 0).stream 0 3).tried ≤ ((away 0 0).stream 0 3).next ∧ peerKeyed (away 0 0) 0 = true ∧ (((away 0 0).graph 0 2).stage 0).state = 0)
    ∧ (let s := away 0x17FFFF0000 0x10000
       s.snapshotDue 0 2 0 = true ∧ peerKeyed s 0x17FFFF0000 = true ∧ ((s.graph 0 2).stage 0).state = 0x10000 ∧ ((s.graph 0 2).stage 0).stateSz = 16
         ∧ heapAt s 0x17FFFF0000 (statusOf s 0 2 0) 4 = true
         ∧ (match s.heapTarget 0 0x10000 16 .read with | some (.error _) => true | _ => false) = true)
    ∧ (let w := streaming 3 0 id (moved { stage := 0, toHere := true, since := some 950, last := some 0 } 0 50)
       ((w.graph 0 2).moving 0).bind (·.whole) = some [] ∧ (((here 950).graph 0 2).moving 0).map (·.whole) = some none
       ∧ heapAt (here 950) 0 (statusOf (here 950) 0 2 0) 4 = true ∧ (here 949).agenda = [] ∧ 949 + 50 < ((here 949).die 0).counter
       ∧ 950 + 50 = ((here 950).die 0).counter ∧ ([{ ev := .exchangePeriodic 0 }] : List Tick).takeWhile (fun k => !Tick.onDie 0 k) ≠ []
       ∧ isTimeout (.exchangePeriodic 0) = false ∧ isTimeout (.sbarTimeout 0 0) = true)
    ∧ (((here 950).graph 0 2).moving 0 = some { stage := 0, toHere := true, since := some 950 } ∧ ((here 950).graph 0 2).deadline 0 = (50, 0)
      ∧ ((here 951).die 0).counter < 951 + 50 ∧ 950 + 50 ≤ ((here 950).die 0).counter ∧ (here 951).streamDead 0 3 = false ∧ base.streamDead 0 3 = false
      ∧ edged (here 950) = true ∧ ((here 950).graph 0 2).edges.all (fun e => e.held.isEmpty) = true) := by decide

/-- Cluster 0 is k, context 0 asks for level n, and the module permits 15 and the boost point. -/
def powered (k : Cluster) (n : W64) : State :=
  ({ base with csr := [(0x600, 0x1F), (0x605, 95)], clusters := [(0, { k with csr := [(0x603, 800), (0x604, 40)] })] }).modCtx 0 fun c => { c with csr := c.csr ++ [(0x118, n)] }
/-- A measurement with temperature t. -/
def heat (t : Nat) : Measure := { watts := 3799, tj := [(0, t)], power := [(0, 1001)] }
/-- A frame table at 0x8000 whose entry n is e, with the leaf l at 0x9000, and the frames r ready. -/
def swept (n e l : Nat) (r : List Nat) : State :=
  ((base.putBytes true 1 (0x8000 + 16 * n) (leBytes 8 e ++ List.replicate 8 0)).putBytes true 1 0x9000 (leBytes 8 l)).modDie 0 fun d =>
    { d with csr := [(0x402, 0x8000), (0x403, 0x40802), (0x404, BitVec.ofNat 64 n)], ready := r }

theorem witness_PowerAndSweep :
    let k : Cluster := { level := 15, mv := 925 }
    ((powered k 15).cluster 0 = { k with csr := [(0x603, 800), (0x604, 40)] } ∧ k.ramp = none ∧ k.level ≤ 16
      ∧ ((powered k 15).cmod 0x605).toNat % 256 = 95 ∧ ((powered k 15).ccluster 0 0x603).toNat % 4096 = 800 ∧ ((powered k 15).cmod 0x600).toNat % 16 = 15
      ∧ ((powered k 15).cmod 0x600).getLsbD 4 = true ∧ (heat 94).watts < 3800 ∧ volts 15 = 925)
    ∧ ((95 ≤ 95 ∧ 94 < 95) ∧ (800 < 801 ∧ 7 * 800 < 8 * 701 ∧ 8 * 700 ≤ 7 * 800))
    ∧ ((powered { k with ramp := some 935 } 3).cluster 0).ramp = some 935 ∧ 935 - k.mv ≤ 10 ∧ 10 < 936 - k.mv
    ∧ (((swept 0 0 0 [7, 8]).die 0).ready.length = 2 ∧ ((swept 0 0 0 [7]).cdie 0 0x403).toNat.testBit 18 = true ∧ ((swept 0 0 0 [7]).cdie 0 0x403).toNat % 512 = 2
      ∧ ((swept 0 0 0 [7]).die 0).ready.length < 2 ∧ (((swept 0 0 0 (List.range 4)).cdie 0 0x403).toNat / 512) % 512 = 4 ∧ (base.cdie 0 0x403).toNat.testBit 18 = false)
    ∧ (let at_ := fun (s : State) => ((s.cdie 0 0x402).toNat / 16 % 2 ^ 52 * 16 + 16 * ((s.cdie 0 0x404).toNat % 2 ^ 21), (s.cdie 0 0x404).toNat % 2 ^ 21)
       [swept 0 0 0 [], swept 1572863 0x9003 0 [], swept 3 0x9005 0 []].all (fun s => decide (s.entryAt false (at_ s).1 % 8 ≠ 1)) = true
       ∧ [swept 0 0x9001 0x10 [], swept 3 0x9001 0x32011 [], swept 3 0x9001 0x40011 []].all (fun s =>
           let l := s.entryAt false (s.entryAt false (at_ s).1 / 8 % 2 ^ 53 * 8)
           decide (s.entryAt false (at_ s).1 % 8 = 1) && (!l.testBit 0 || decide (2 ≤ l / 2 ^ 12 % 8) || decide (l / 2 ^ 16 % 2 ^ 40 ≠ (at_ s).2))) = true
       ∧ [swept 1572863 0x9001 0x17FFFF0011 [], swept 3 0x9001 0x30001 [3], swept 3 0x9001 0x30001 []].all (fun s =>
           let l := s.entryAt false (s.entryAt false (at_ s).1 / 8 % 2 ^ 53 * 8)
           l.testBit 0 && decide (l / 2 ^ 12 % 8 < 2) && decide (l / 2 ^ 16 % 2 ^ 40 = (at_ s).2)) = true) := by decide

/-- Context 0 asks for level 15 on cluster 0; none does on cluster 31. -/
theorem witness_PowerAndSweep_requests : Requests (powered {} 15) 0 15 ∧ Requests (powered {} 15) 31 0 := by
  unfold Requests; decide

/-- Context 0 holds cluster 0 and drew 1,001 mW under a cap of 1 W; without a cap it is not exceeded. -/
theorem witness_PowerAndSweep_cap : OverCap ((powered {} 15).modCtx 0 fun c => { c with csr := c.csr ++ [(0x119, 1)] }) (heat 94) 0 ∧ ¬ OverCap (powered {} 15) (heat 94) 0 := by
  refine ⟨⟨0, by decide⟩, ?_⟩
  rintro ⟨t, ht, h, -⟩
  have : t = 0 := by
    have h1 : (((powered {} 15).ctxs.map (·.1)).contains t) = true := by
      unfold tops at ht; simp only [Bool.and_eq_true] at ht; exact ht.1.1
    exact List.mem_singleton.1 (List.contains_iff_mem.1 h1)
  subst this
  exact h (by decide)

/-- The thermal and current throttles of the cluster before and after they lift. -/
theorem witness_PowerAndSweep_lift :
    let k : Cluster := { level := 13, mv := 875, therm := some 13, ilim := some 13 }
    k.therm = some 13 ∧ (95 < 91 + 5 ∧ 91 < 95) ∧ 90 + 5 ≤ 95 ∧ ¬ (15 ≤ 13 + 1) ∧ k.ramp = none := by decide

theorem witness_IssueChecksAndWaits :
    let i := Instr.sadd { blank .f64 with dst := 7, sa := 1, sb := 2, ty := .i32 }
    let v := fun (ty : Ty) => Instr.vadd { blank .f64 with dst := 254, sa := 253, sb := 0, ty := ty }
    let at_ := fun (l : List Reg) => lab fun x => { x with empty := l }
    let reads := fun (s : State) (i : Instr) => match row i, fields i with | some r, some f => (readsOf i r f (s.context 0 0 r f).re).map (·.1) | _, _ => []
    let checks := fun (n : Nat) (i : Instr) => match row i, fields i with
      | some r, some f => ((formCause r f).isSome, r.oddPair f, r.outside { (base.wg 0).shape with vregs := n } f) | _, _ => (true, true, true)
    let busy := lab fun x => { x with ops := [{ id := 7, ins := { group := [.s 7] }, kind := .load }] }
    let many := lab fun x => { x with ops := List.replicate 16 { id := 7, ins := {}, kind := .load } }
    let held := lab fun x => { x with empty := [.s 2], replay := [{ held := [.s 2] }], ih := true, tm := true }
    (16 ≤ (many.warp 0 0).ops.length ∧ many.hasWarp 0 0 = true ∧ (busy.warp 0 0).ops.length < 16 ∧ (busy.warp 0 0).ops.any (fun o => o.ins.group.contains (.s 7)) = true
      ∧ (held.warp 0 0).isEmpty (.s 2) = true ∧ (held.warp 0 0).replayHeld (.s 2) = true ∧ ((at_ [.s 2]).warp 0 0).replayHeld (.s 2) = false
      ∧ (match row (.sadd { blank .f64 with dst := 7, sa := 1, sb := 2, ty := .i32, feb := 7 }) with
        | some r => (readsOf i r { blank .f64 with dst := 7, sa := 1, sb := 2, ty := .i32, feb := 7 } false).any (·.2)
        | none => false) = true)
    ∧ (base.cur = some (0, 0) ∧ (checks 256 (.sadd { blank .f64 with dst := 7, sa := 1, sb := 2, ty := .f32 })).1 = true)
    ∧ checks 256 (v .i64) = (false, true, false) ∧ checks 248 (v .i32) = (false, false, true) ∧ checks 249 (v .i32) = (false, false, false)
    ∧ (checks 256 i = (false, false, false) ∧ reads base i = [.s 1, .s 2] ∧ (at_ [.s 2]).hasWarp 0 0 = true ∧ (at_ [.s 2]).cloakUsed ((at_ [.s 2]).subOf 0 0) + 1 ≤ 32
      ∧ ((at_ [.s 7]).warp 0 0).isEmpty (.s 7) = true) := by decide


/-! Executable images (R224 to R232), written out from their tables. -/

/-- A header for n sections whose table follows it, without a default kernel. -/
def imageHead (n : Nat) : List W8 :=
  [0x47, 0x56, 0x49, 0x31, 1, 0, 1, 0] ++ leBytes 4 n ++ leBytes 4 0 ++ leBytes 8 64 ++ leBytes 4 0xFFFFFFFF ++ List.replicate 36 0
/-- A section table entry. -/
def imageSect (kind align off size mem : Nat) : List W8 := leBytes 8 (kind + 256 * align) ++ leBytes 8 off ++ leBytes 8 size ++ leBytes 8 mem
/-- CODE of one `sadd`, zero-filled to 32 bytes. -/
def codeImage (align : Nat) : List W8 := imageHead 1 ++ imageSect 1 align 96 8 32 ++ leBytes 8 0x4000000C0B0A0001
/-- DATA of 8 bytes and a pool record whose BASE is relocated to byte 3 of DATA. -/
def poolImage : List W8 :=
  imageHead 3 ++ imageSect 2 4 160 8 8 ++ imageSect 3 5 168 32 32 ++ imageSect 7 0 200 24 24
    ++ leBytes 8 0x1122334455667788 ++ List.replicate 32 0 ++ (leBytes 8 (1 + 65536 * 0) ++ leBytes 8 0 ++ leBytes 8 3)

set_option maxRecDepth 4000 in
theorem test_codeImageLoads : loadImage (codeImage 5) [0x1000] 0 0 [] = some [(1, 0x1000, leBytes 8 0x4000000C0B0A0001 ++ List.replicate 24 0)]
    ∧ loadImage (codeImage 4) [0x1000] 0 0 [] = none ∧ loadImage (codeImage 5) [0x1010] 0 0 [] = none := by decide

set_option maxRecDepth 4000 in
theorem test_poolImageIsRelocated : (loadImage poolImage [0x20000, 0x1000, 0] 0x10000 0x30000 []).map (fun x => x.map fun p => (p.1, p.2.1)) = some [(2, 0x20000), (3, 0x1000)]
    ∧ (loadImage poolImage [0x20000, 0x1000, 0] 0x10000 0x30000 []).map (fun x => x.map fun p => leVal (p.2.2.take 8)) = some [0x1122334455667788, 0x20003]
    ∧ loadImage poolImage [0x30000, 0x1000, 0] 0x10000 0x30000 [] = none := by decide

/-- CODE of one `sadd` and SYMBOLS of one kernel, the default one, with these bytes as its string area. -/
def symbolImage (str : List W8) : List W8 :=
  [0x47, 0x56, 0x49, 0x31, 1, 0, 1, 0] ++ leBytes 4 2 ++ leBytes 4 0 ++ leBytes 8 64 ++ leBytes 4 0 ++ List.replicate 36 0
    ++ imageSect 1 5 128 8 32 ++ imageSect 6 0 136 (48 + str.length) (48 + str.length) ++ leBytes 8 0x4000000C0B0A0001
    ++ leBytes 4 1 ++ leBytes 4 0 ++ leBytes 8 48
    ++ leBytes 4 0 ++ [1, 0, 0, 0] ++ leBytes 8 0 ++ leBytes 8 8 ++ leBytes 8 0 ++ str

set_option maxRecDepth 4000 in
/-- R230: a kernel named é is accepted; a name that no NUL ends, or that is not UTF-8, is not. -/
theorem test_symbolNames : (symbols (symbolImage [0xC3, 0xA9, 0])).map (·.name) = [some [0xC3, 0xA9]] ∧ imageOk (symbolImage [0xC3, 0xA9, 0]) = true
    ∧ imageOk (symbolImage [0x6B]) = false ∧ imageOk (symbolImage [0xC3, 0x28, 0]) = false := by decide

/-! Destinations that replay entries hold (R185, R186; 17_trap_notes.md, "The handler reads v8"). -/

/-- A handler whose replay entry 0 holds s5 and v8 empty; s1 is 7. -/
def holding : State := lab fun x =>
  { x with sregs := [(1, 7)], tm := true, ih := true, replay := [{ held := [.s 5, .v 8] }], empty := [.s 5, .v 8] }

theorem test_trappingLoadHoldsItsDestination :
    gives (lab fun x => { x with sregs := [(1, 0x10000000000)] }) (.ld { blank .f64 with dst := 8, sa := 1, ty := .b32 })
      (fun t => (t.warp 0 0).isEmpty (.v 8) && decide ((t.warp 0 0).replay.map (·.held) = [[.v 8]]) && (t.warp 0 0).tm) = true := by decide

theorem test_handlerWriteFills : gives holding (.smov { blank .f64 with dst := 5, sa := 1 })
    (fun t => !(t.warp 0 0).isEmpty (.s 5) && !(t.warp 0 0).replayHeld (.s 5) && (t.warp 0 0).isEmpty (.v 8)
      && decide ((t.warp 0 0).getS 5 = 7)) = true := by decide

theorem test_handlerReadDies : gives holding (.smov { blank .f64 with dst := 6, sa := 5 })
    (fun t => decide ((t.ctx 0).dying = some 0x1A) && decide ((t.ctx 0).inner = 0x08)) = true := by decide

theorem witness_ReplayQueueInstructions_held :
    (holding.warp 0 0).replayHeld (.s 5) = true ∧ (Instr.smov { blank .f64 with dst := 5, sa := 1 }).formCause = none
    ∧ febTrap (holding.warp 0 0) [(.s 1, false)] = false ∧ holding.hasWarp 0 0 = true ∧ (holding.warp 0 0).ops.length < 16
    ∧ (∃ r f, row (.smov { blank .f64 with dst := 5, sa := 1 }) = some r ∧ fields (.smov { blank .f64 with dst := 5, sa := 1 }) = some f ∧ r.oddPair f = false
        ∧ r.outside (holding.wg 0).shape f = false ∧ operandWaits (holding.warp 0 0) none (r.heads f) [(.s 1, false)] [.s 5] = [])
    ∧ (let h : Instr := .htest { blank .f64 with dst := 5, sa := 5 }
       h.formCause = none ∧ (holding.warp 0 0).replayHeld (.s 5) = true ∧ (holding.warp 0 0).isEmpty (.s 5) = true ∧ (holding.warp 0 0).reissue = []
         ∧ (holding.warp 0 0).ops = [] ∧ holding.cur = some (0, 0)) := ⟨by decide, by decide, by decide, by decide, by decide, ⟨_, _, rfl, rfl, by decide, by decide, by decide⟩, by decide⟩

end Sys2Proof.Tests
end

section
/-! The module as a whole: what reset leaves (R5), the canonical form of the memories at reset and with a program placed, and the
module's reset, contexts and attestation as events (R169, R170, R193, R199, R359 to R361). -/

namespace Sys2Proof.Machine

/-! CSRs at reset: every unit reads the reset value of R265 and R354. -/

theorem ccore_reset (c n : Nat) : State.reset.ccore c n = csrReset n := rfl
theorem csub_reset (j n : Nat) : State.reset.csub j n = csrReset n := rfl
theorem cdie_reset (d n : Nat) : State.reset.cdie d n = csrReset n := rfl
theorem cmod_reset (n : Nat) : State.reset.cmod n = csrReset n := rfl

/-- `clk_stat` alone does not come from the table of reset values (R354). -/
theorem ccluster_reset (k : Nat) {n : Nat} (h : n ≠ 0x601) : State.reset.ccluster k n = csrReset n := by
  unfold State.ccluster
  split
  · exact absurd rfl h
  · rfl
  · rfl

theorem ccluster_reset_clk_stat (k : Nat) : State.reset.ccluster k 0x601 = 0 := rfl

/-- No byte of device or host memory is determined at reset (log 4). -/
theorem homeByte_reset (dev : Bool) (a key : Nat) : State.reset.homeByte dev a key = none := by
  cases dev <;> rfl

theorem buf_reset (b : BufId) : State.reset.buf b = [] := by
  cases b <;> rfl

/-! Canonical memories. -/

theorem memoriesWf_reset : State.reset.memoriesWf := ⟨rfl, rfl, rfl, fun _ hp => absurd hp List.not_mem_nil⟩

/-- A workgroup that is put among canonical ones with canonical storage of its own. -/
theorem memoriesWf_putWg {s : State} (g : Nat) (x : Wg) (hx : x.memWf) (h : s.memoriesWf) :
    ({ s with wgs := SMap.put g x s.wgs } : State).memoriesWf := by
  obtain ⟨hv, hk, hy, hg⟩ := h
  refine ⟨hv, hk, hy, fun p hp => ?_⟩
  rcases SMap_mem_put hp with rfl | hp
  · exact hx
  · exact hg p hp

/-- A placed workgroup has written none of its storage. -/
theorem memWf_placedWg (code : Memory) (keys : SMap Nat) (n : Nat) : ({ placedWg code keys with codeAt := n } : Wg).memWf :=
  ⟨rfl, rfl, rfl, rfl, rfl⟩

theorem memoriesWf_place1 {s : State} (bs : List W8) (h : s.memoriesWf) : (s.place1 bs).memoriesWf :=
  memoriesWf_of_same (memoriesWf_putWg 0 _ (memWf_placedWg _ _ _) (memoriesWf_putBytes true 1 bs 0 h)) rfl rfl rfl rfl

/-! Removal of a key from a map. -/

/-- A rising map whose first key lies above k does not hold k. -/
theorem SMap_find_none_of_head_lt {α : Type} {k : Nat} {m : SMap α} (hw : SMap.wf m = true) (h : ∀ p ∈ m.head?, k < p.1) :
    SMap.find k m = none := by
  induction m with
  | nil => rfl
  | cons p m ih =>
    obtain ⟨k', v'⟩ := p
    have hk : k < k' := h (k', v') rfl
    obtain ⟨hwm, hm⟩ := SMap_wf_cons.1 hw
    rw [SMap.find, if_neg (Nat.ne_of_gt hk)]
    exact ih hwm fun p hp => Nat.lt_trans hk (hm p hp)

theorem SMap_find_del_same {α : Type} (k : Nat) {m : SMap α} (hw : SMap.wf m = true) : SMap.find k (SMap.del k m) = none := by
  induction m with
  | nil => rfl
  | cons p m ih =>
    obtain ⟨k', v'⟩ := p
    obtain ⟨hwm, hm⟩ := SMap_wf_cons.1 hw
    by_cases hk : k' = k
    · subst hk
      rw [SMap.del, if_pos rfl]
      exact SMap_find_none_of_head_lt hwm hm
    · rw [SMap.del, if_neg hk, SMap.find, if_neg hk]
      exact ih hwm

theorem SMap_find_del_other {α : Type} {k j : Nat} (m : SMap α) (h : j ≠ k) : SMap.find j (SMap.del k m) = SMap.find j m := by
  induction m with
  | nil => rfl
  | cons p m ih =>
    obtain ⟨k', v'⟩ := p
    by_cases hk : k' = k
    · rw [SMap.del, if_pos hk, SMap.find, if_neg (fun hj => h (hj.symm.trans hk))]
    · rw [SMap.del, if_neg hk, SMap.find, SMap.find, ih]

/-! Keys (R169, R170): identities are given out by a counter that only rises. -/

/-- The identities that a context is created with. -/
def newKeys (n : Nat) : List Nat := (List.range 15).map (· + n)

theorem newKeys_nodup (n : Nat) : (newKeys n).Nodup :=
  List.Pairwise.map _ (fun _ _ hne h => hne (Nat.add_right_cancel h)) List.nodup_range

theorem mem_newKeys {n k : Nat} : k ∈ newKeys n ↔ n ≤ k ∧ k < n + 15 := by
  simp only [newKeys, List.mem_map, List.mem_range]
  constructor
  · rintro ⟨i, hi, rfl⟩
    omega
  · rintro ⟨hn, hk⟩
    exact ⟨k - n, by omega, by omega⟩

/-- A group that has a key keeps it; any other takes the next identity. -/
theorem groupKey_spec (s : State) (g : Nat) :
    SMap.find g (s.groupKey g).2.groups = some (s.groupKey g).1 ∧ (∀ k, SMap.find g s.groups = some k → (s.groupKey g).1 = k)
      ∧ s.nextKey ≤ (s.groupKey g).2.nextKey ∧ { (s.groupKey g).2 with groups := s.groups, nextKey := s.nextKey } = s := by
  unfold State.groupKey
  cases h : SMap.find g s.groups with
  | some k => exact ⟨h, fun _ hk => Option.some.inj hk, Nat.le_refl _, rfl⟩
  | none => exact ⟨SMap_find_put_same _ _ _, fun _ hk => absurd hk (by simp), Nat.le_succ _, rfl⟩

/-- R169: what the creation of a context whose tag is free leaves. -/
theorem exec_contextCreate_free {s : State} {tag : Nat} (group : Nat) (hr : s.refused = false) (ht : tag < 4096) (hn : SMap.find tag s.ctxs = none) :
    exec (.contextCreate tag group) s = .next { (s.groupKey group).2 with
      ctxs := SMap.put tag { tag := tag, group := group, keys := newKeys (s.groupKey group).2.nextKey } (s.groupKey group).2.ctxs
      nextKey := (s.groupKey group).2.nextKey + 15, fatal := SMap.del tag (s.groupKey group).2.fatal } := by
  show execContextCreate tag group s = _
  unfold execContextCreate
  rw [if_neg (by simp [hr, hn, ht])]
  rfl

theorem exec_contextCreate_barred {s : State} {tag : Nat} (group : Nat)
    (h : s.refused = true ∨ 4096 ≤ tag ∨ (SMap.find tag s.ctxs).isSome = true) : exec (.contextCreate tag group) s = .next s :=
  if_pos h

/-- A context is live while it is not being removed. -/
theorem live_of_find {s : State} {t : Nat} {c : Context} (h : SMap.find t s.ctxs = some c) : s.live t = c.dying.isNone := by
  unfold State.live
  rw [h]

/-- R194, R199: a removal that the host may ask for marks the context. -/
theorem exec_hostRemoveContext {s : State} {u : Nat} {grace : Bool} (h : grace = true → ∃ p ∈ s.wgs, p.2.ctx = u ∧ p.2.graced = true) :
    exec (.hostRemoveContext u grace) s = .next (s.kill u (if grace then 0x30 else 0x31) 0 none 0) := by
  show execHostRemoveContext u grace s = _
  unfold execHostRemoveContext
  rw [if_neg]
  rintro ⟨hg, hn⟩
  obtain ⟨p, hp, hu, hgr⟩ := h hg
  have : (s.wgs.any fun p => decide (p.2.ctx = u) && p.2.graced) = true := List.any_eq_true.2 ⟨p, hp, by simp [hu, hgr]⟩
  simp [this] at hn

/-! The hall pass: every operation on it changes cores alone. -/

/-- State t is state s but for its cores. -/
def OnlyCores (s t : State) : Prop := ∃ k, t = { s with cores := k }

theorem OnlyCores.refl (s : State) : OnlyCores s s := ⟨_, rfl⟩

theorem OnlyCores.trans {s t u : State} (h : OnlyCores s t) (h' : OnlyCores t u) : OnlyCores s u := by
  obtain ⟨k, rfl⟩ := h
  obtain ⟨k', rfl⟩ := h'
  exact ⟨k', rfl⟩

theorem onlyCores_modCore (s : State) (c : Nat) (f : Core → Core) : OnlyCores s (s.modCore c f) := ⟨_, rfl⟩

theorem onlyCores_foldl {α : Type} {f : State → α → State} (hf : ∀ s a, OnlyCores s (f s a)) (l : List α) (s : State) : OnlyCores s (l.foldl f s) := by
  induction l generalizing s with
  | nil => exact .refl s
  | cons a l ih => exact (hf s a).trans (ih _)

theorem onlyCores_pendSlot (s : State) (c n : Nat) (fault : Bool) (code : Cause) (data : BitVec 40) :
    OnlyCores s (s.pendSlot c n fault code data) := ⟨_, rfl⟩

theorem onlyCores_grantLeases (s : State) (c : Nat) (q : Nat × Nat) : OnlyCores s (s.grantLeases c q) := by
  unfold State.grantLeases
  exact (onlyCores_modCore s c _).trans
    (onlyCores_foldl (f := fun s (h : Nat × HWaitFor) => s.pendSlot c h.1 false 0x00 0) (fun s _ => onlyCores_pendSlot s c _ _ _ _) _ _)

theorem onlyCores_hallGrant (s : State) (c : Nat) : OnlyCores s (s.hallGrant c) := by
  unfold State.hallGrant
  simp only
  split
  · exact ((onlyCores_modCore s c _).trans (onlyCores_modCore _ c _)).trans (onlyCores_grantLeases _ _ _)
  · exact .refl s

theorem onlyCores_hallAsk (s : State) (c : Nat) (q : Nat × Nat) : OnlyCores s (s.hallAsk c q) := by
  unfold State.hallAsk
  simp only
  split
  · exact .refl s
  · exact (onlyCores_modCore s c _).trans (onlyCores_hallGrant _ _)

theorem onlyCores_hallFree (s : State) (c : Nat) : OnlyCores s (s.hallFree c) := by
  unfold State.hallFree
  split
  · exact .refl s
  · refine OnlyCores.trans ?_ (onlyCores_hallGrant _ _)
    split
    · exact onlyCores_modCore s c _
    · exact (onlyCores_modCore s c _).trans (onlyCores_hallAsk _ _ _)

theorem onlyCores_freeHalls (s : State) (t : Nat) : OnlyCores s (s.freeHalls t) :=
  onlyCores_foldl (f := fun s (p : Nat × Core) => s.hallFree p.1) (fun s p => onlyCores_hallFree s p.1) _ s

/-! Removal (R199). -/

/-- Dropping an owner group changes the group keys alone (R169). -/
theorem dropGroup_eq (s : State) (g : Nat) : ∃ k, s.dropGroup g = { s with groups := k } := by
  unfold State.dropGroup
  split
  · exact ⟨_, rfl⟩
  · exact ⟨_, rfl⟩

/-- A removal takes the context and its workgroups, disables `mwin` where it names the context (R172), takes the context's part of
cores, sub-cores, dies, group keys, lost writes and the log of V, and changes nothing else. -/
theorem removeCtx_spec (s : State) (t : Nat) :
    let r := s.removeCtx t
    r.ctxs = SMap.del t s.ctxs ∧ r.wgs = s.wgs.filter (fun p => decide (p.2.ctx ≠ t))
      ∧ r.mwin = (if s.mwin.toNat % 4096 = t then s.mwin &&& 0xFFFEFFFF else s.mwin)
      ∧ { r with ctxs := s.ctxs, wgs := s.wgs, mwin := s.mwin, cores := s.cores, subs := s.subs, dies := s.dies, groups := s.groups
                 lost := s.lost, vlog := s.vlog } = s := by
  have hb : bits s.mwin.toNat 11 0 = s.mwin.toNat % 4096 := by simp [bits]
  have hhalls : ∀ x : State, ∃ k, x.freeHalls t = { x with cores := k } := fun x => onlyCores_freeHalls x t
  obtain ⟨cores, hcores⟩ := Classical.axiomOfChoice hhalls
  obtain ⟨groups, hgroups⟩ := Classical.axiomOfChoice fun x => Classical.axiomOfChoice (dropGroup_eq x)
  unfold State.removeCtx
  simp only [hb, hgroups, hcores]
  split
  · exact ⟨rfl, rfl, rfl, rfl⟩
  · exact ⟨rfl, rfl, rfl, rfl⟩

/-- The mask that a removal applies to `mwin` clears its enable bit (R172). -/
theorem mwin_disabled_bit (v : W64) : (v &&& 0xFFFEFFFF).getLsbD 16 = false := by
  rw [BitVec.getLsbD_and]
  exact Bool.and_false _

/-! Host events (R174). -/

/-- A message changes what the host is sent and what is kept back, and nothing else. -/
theorem msix_eq (s : State) (v : Nat) : ∃ pend sent, s.msix v = { s with msixPend := pend, msixSent := sent } := by
  unfold State.msix
  split
  · exact ⟨_, _, rfl⟩
  · exact ⟨_, _, rfl⟩

/-- A posted event changes the host's events and messages, and nothing else. -/
theorem postEvent_rest (s : State) (t kind : Nat) :
    { s.postEvent t kind with evts := s.evts, evtOvf := s.evtOvf, msixPend := s.msixPend, msixSent := s.msixSent } = s := by
  rw [postEvent_spec]
  split
  · rfl
  · split
    · obtain ⟨pend, sent, h⟩ := msix_eq { s with evts := [BitVec.ofNat 64 (t + kind * 4096)] } 0
      rw [h]
    · rfl

theorem postEvent_posts (s : State) (t kind : Nat) : Claim.Posts s (s.postEvent t kind) t kind := by
  rw [postEvent_spec]
  unfold Claim.Posts
  split
  · exact ⟨rfl, fun h => if_neg h⟩
  · split
    · rename_i he
      obtain ⟨pend, sent, hm⟩ := msix_eq { s with evts := [BitVec.ofNat 64 (t + kind * 4096)] } 0
      rw [hm, he]
      exact ⟨rfl, rfl⟩
    · exact ⟨rfl, rfl⟩

/-- Whether an event is posted shows in the host's events alone. -/
theorem posts_of_same {s t t' : State} {ctx kind : Nat} (h : Claim.Posts s t ctx kind) (he : t'.evts = t.evts) (ho : t'.evtOvf = t.evtOvf) :
    Claim.Posts s t' ctx kind := by
  unfold Claim.Posts at *
  rw [he, ho]
  exact h

/-- R193, R199: the removal of a dying context with nothing in flight. -/
theorem exec_contextRemoval_dying {s : State} {u : Nat} {x : Context} {code : Cause} (h : SMap.find u s.ctxs = some x) (hd : x.dying = some code)
    (hf : s.inFlight u = false) :
    exec (.contextRemoval u) s = .next (({ s with fatal := SMap.put u (s.fatalOf x) s.fatal }.postEvent u 1).removeCtx u) := by
  show execContextRemoval u s = _
  unfold execContextRemoval
  rw [h]
  simp [hd, hf]

/-- What the removal of a context with fatal record f leaves. -/
theorem removal_spec (s : State) (u : Nat) (f : Fatal) :
    let t := ({ s with fatal := SMap.put u f s.fatal }.postEvent u 1).removeCtx u
    t.ctxs = SMap.del u s.ctxs ∧ t.wgs = s.wgs.filter (fun p => decide (p.2.ctx ≠ u))
      ∧ t.mwin = (if s.mwin.toNat % 4096 = u then s.mwin &&& 0xFFFEFFFF else s.mwin) ∧ t.fatal = SMap.put u f s.fatal
      ∧ Claim.Posts s t u 1 ∧ t.vmem = s.vmem ∧ t.ymem = s.ymem := by
  intro t
  let s1 : State := { s with fatal := SMap.put u f s.fatal }
  have hpost := postEvent_rest s1 u 1
  obtain ⟨hctxs, hwgs, hmwin, hrest⟩ := removeCtx_spec (s1.postEvent u 1) u
  rw [(congrArg State.ctxs hpost :)] at hctxs
  rw [(congrArg State.wgs hpost :)] at hwgs
  rw [(congrArg State.mwin hpost :)] at hmwin
  exact ⟨hctxs, hwgs, hmwin, (congrArg State.fatal hrest :).trans (congrArg State.fatal hpost :),
    posts_of_same (postEvent_posts s1 u 1) (congrArg State.evts hrest :) (congrArg State.evtOvf hrest :),
    (congrArg State.vmem hrest :).trans (congrArg State.vmem hpost :), (congrArg State.ymem hrest :).trans (congrArg State.ymem hpost :)⟩

/-! Attestation (R360, R361). -/

theorem exec_attestGo_starts {s : State} {v : W64} (hv : v.getLsbD 0 = true) (hr : s.refused = false) (hb : s.attest.busy = false)
    (hi : s.attest.index < 2 ^ 20) :
    exec (.attestGo v) s = .next { s with attest := { s.attest with busy := true, taken := s.attest.nonce } } := by
  show execAttestGo v s = _
  unfold execAttestGo
  rw [if_neg]
  rintro (h | h | h | h)
  · simp [hr] at h
  · rw [hv] at h
    exact absurd h (by decide)
  · simp [hb] at h
  · omega

theorem exec_attestGo_barred {s : State} {v : W64} (h : v.getLsbD 0 = false ∨ s.attest.busy = true ∨ 2 ^ 20 ≤ s.attest.index) :
    exec (.attestGo v) s = .next s := by
  show execAttestGo v s = _
  unfold execAttestGo
  rw [if_pos]
  rcases h with h | h | h
  · exact .inr (.inl (by rw [h]; rfl))
  · exact .inr (.inr (.inl h))
  · exact .inr (.inr (.inr h))

theorem exec_attestReportDone_idle {s : State} (h : s.attest.busy = false) : exec .attestReportDone s = .next s :=
  if_pos (by simp [h])

theorem exec_attestReportDone_busy {s : State} (h : s.attest.busy = true) :
    exec .attestReportDone s = .next { s with
      free := s.free + 1, attest := { s.attest with busy := false, report := s.report, index := s.attest.index + 1 } } :=
  if_neg (by simp [h])

/-- The low bytes of a number, one by one and at once. -/
theorem leList_eq_lowBytes (n x : Nat) : leList n x = Claim.lowBytes n x := by
  induction n generalizing x with
  | zero => rfl
  | succ n ih =>
    simp only [leList, ih, Claim.lowBytes, List.range_succ_eq_map, List.map_cons, List.map_map, Nat.pow_zero, Nat.div_one]
    congr 1
    refine List.map_congr_left fun i _ => ?_
    simp [Nat.pow_succ', Nat.div_div_eq_div_mul]

@[simp] theorem length_leList (n x : Nat) : (leList n x).length = n := by
  simp [leList_eq_lowBytes, Claim.lowBytes]

/-- The nonce that a report carries: the one in place, or the one at its start (log 69). -/
def State.reportNonce (s : State) : List W8 := if Config.freeBit s.free then s.attest.nonce else s.attest.taken

theorem length_reportNonce {s : State} (hn : s.attest.nonce.length = 32) (ht : s.attest.taken.length = 32) : s.reportNonce.length = 32 := by
  unfold State.reportNonce
  split
  · exact hn
  · exact ht

theorem reportNonce_of_unchanged {s : State} (h : s.attest.taken = s.attest.nonce) : s.reportNonce = s.attest.nonce := by
  unfold State.reportNonce
  rw [h, ite_self]

/-- A part of a list that stands behind others. -/
theorem take_drop_append {α : Type} {a b c : List α} {m n : Nat} (ha : a.length = m) (hb : b.length = n) :
    ((a ++ (b ++ c)).drop m).take n = b := by
  rw [List.drop_left' ha, List.take_left' hb]

/-- The layout of a report (R361): its parts follow one another. -/
theorem report_eq (s : State) :
    s.report = (List.range 8).map Config.reportVersion ++ leList 8 s.fwVersion ++ (List.range 32).map (Config.measurement s.fwImage)
      ++ s.reportNonce ++ leList 4 s.attest.index ++ leList 4 (2 ^ 20 - (s.attest.index + 1)) ++ (List.range 2820).map (Config.freeReport s.free) := rfl

theorem length_report {s : State} (h : s.reportNonce.length = 32) : s.report.length = 2908 := by
  simp [report_eq, h]

theorem report_measurement (s : State) : (s.report.drop 16).take 32 = (List.range 32).map (Config.measurement s.fwImage) := by
  simp only [report_eq, List.append_assoc]
  rw [← List.append_assoc]
  exact take_drop_append (by simp) (by simp)

theorem report_nonce {s : State} (h : s.reportNonce.length = 32) : (s.report.drop 48).take 32 = s.reportNonce := by
  rw [report_eq, List.append_assoc, List.append_assoc, List.append_assoc]
  exact take_drop_append (by simp) h

theorem report_index {s : State} (h : s.reportNonce.length = 32) : (s.report.drop 80).take 4 = leList 4 s.attest.index := by
  rw [report_eq, List.append_assoc, List.append_assoc]
  exact take_drop_append (by simp [h]) (by simp)

theorem report_left {s : State} (h : s.reportNonce.length = 32) : (s.report.drop 84).take 4 = leList 4 (2 ^ 20 - (s.attest.index + 1)) := by
  rw [report_eq, List.append_assoc]
  exact take_drop_append (by simp [h]) (by simp)

end Sys2Proof.Machine

namespace Sys2Proof.Proofs

open Sys2Proof.Machine Sys2Proof.Claim

/-- Settles O5: the state at reset holds no unit's entry, so every counter and CSR reads its reset value. -/
theorem resetLeavesTheStatedValues : Obligations.ResetLeavesTheStatedValues := by
  unfold Obligations.ResetLeavesTheStatedValues
  intro r
  refine ⟨fun _ => rfl, fun _ => rfl, fun c => ?core, fun j => csub_reset j _, fun k => ?cluster, fun d => ?die, cmod_reset _, cmod_reset _,
    cmod_reset _, cmod_reset _, cmod_reset _, rfl, rfl, rfl, rfl, rfl, buf_reset, homeByte_reset⟩
  case core =>
    simp only [r, ccore_reset]
    decide
  case cluster =>
    simp (disch := decide) only [r, ccluster_reset_clk_stat, ccluster_reset]
    decide
  case die =>
    simp only [r, cdie_reset]
    decide

/-- Settles O7: the memories are empty at reset, and placing a program writes bytes of V and one workgroup with empty storage. -/
theorem resetMemoriesAreCanonical : Obligations.ResetMemoriesAreCanonical :=
  ⟨memoriesWf_reset, fun _ _ _ h => memoriesWf_place1 _ h⟩

/-- Settles O54, event by event: reset builds a new module, creation draws identities from the rising counter, a removal's frame is
`removeCtx_spec`, and a report is read by its layout. -/
theorem moduleContextAndAttestationEvents : Obligations.ModuleContextAndAttestationEvents := by
  unfold Obligations.ModuleContextAndAttestationEvents
  refine ⟨fun s fw => ?reset, fun s tag group hr ht hn => ?create, fun s tag group h => exec_contextCreate_barred group h,
    fun s u x grace hx hd hg => ?remove, fun s u x code hx hd hw hf => ?removal, fun s v => ?attest, fun s v => ⟨_, rfl, rfl⟩⟩
  case reset =>
    refine ⟨_, rfl, ?_⟩
    and_intros <;> rfl
  case create =>
    obtain ⟨hk, hkept, hle, hrest⟩ := groupKey_spec s group
    have hctxs : (s.groupKey group).2.ctxs = s.ctxs := (congrArg State.ctxs hrest :)
    have hfatal : (s.groupKey group).2.fatal = s.fatal := (congrArg State.fatal hrest :)
    refine ⟨_, _, exec_contextCreate_free group hr ht hn, SMap_find_put_same _ _ _, rfl, rfl, rfl, rfl, rfl, rfl, rfl, rfl, rfl,
      newKeys_nodup _, fun k hk => ?_, by simp [hk], fun k hg => by rw [← hkept k hg]; exact hk, fun v hv => ?_, fun hwf => ?_,
      (congrArg State.vmem hrest :), (congrArg State.wgs hrest :)⟩
    · obtain ⟨hlo, hhi⟩ := mem_newKeys.1 hk
      exact ⟨Nat.le_trans hle hlo, hhi⟩
    · simp only [hctxs]
      exact SMap_find_put_other _ _ hv
    · simp only [hfatal]
      exact SMap_find_del_same tag hwf
  case remove =>
    obtain ⟨hc, -, hrest⟩ := kill_spec s u (if grace then 0x30 else 0x31) 0 none 0 x hx
    simp only [hd, Option.isSome_none, Bool.false_eq_true, if_false] at hc
    exact ⟨_, _, exec_hostRemoveContext hg, hc, rfl, live_of_find hc, rfl, (congrArg State.wgs hrest :), (congrArg State.vmem hrest :)⟩
  case removal =>
    obtain ⟨hctxs, hwgs, hmwin, hfatal, hpost, hv, hy⟩ := removal_spec s u (s.fatalOf x)
    refine ⟨_, s.fatalOf x, exec_contextRemoval_dying hx hd hf, ?_, fun v hne => ?_, ?_, by simp [State.fatalOf, hd], rfl,
      fun hn => by simp [State.fatalOf, hn], fun p => ?_, hpost, hv, hy, fun hm => ?_, fun hm => ?_⟩
    · rw [hctxs]
      exact SMap_find_del_same u hw
    · rw [hctxs]
      exact SMap_find_del_other _ hne
    · rw [hfatal]
      exact SMap_find_put_same _ _ _
    · rw [hwgs]
      simp
    · rw [hmwin, if_pos hm]
      exact mwin_disabled_bit _
    · rw [hmwin, if_neg hm]
  case attest =>
    refine ⟨fun hv hr hb hi => ⟨_, exec_attestGo_starts hv hr hb hi, rfl⟩, exec_attestGo_barred, exec_attestReportDone_idle,
      fun hb hn ht => ?_⟩
    have h := length_reportNonce hn ht
    refine ⟨_, exec_attestReportDone_busy hb, rfl, rfl, length_report h, fun hs => ?_, report_measurement s, ?_, ?_, rfl, rfl⟩
    · exact (report_nonce h).trans (reportNonce_of_unchanged hs)
    · exact (report_index h).trans (leList_eq_lowBytes _ _)
    · exact (report_left h).trans (leList_eq_lowBytes _ _)

end Sys2Proof.Proofs
end
